-- ==== Sys2Proof/Word.lean ====
section
/-! DEFINITION. The word types of the device and the field extraction of R7: bytes, 32-bit registers,
bit ranges written [msb:lsb] inclusive, bit 0 the least significant. -/

namespace Sys2Proof

/-- One byte of a memory, little-endian units of every space (R7). -/
abbrev Byte := BitVec 8

/-- A register of the register space: 32 bits (R424). -/
abbrev Word := BitVec 32

/-- Bits [hi:lo] of a number (R7). -/
def bits (w hi lo : Nat) : Nat := w / 2 ^ lo % 2 ^ (hi + 1 - lo)

/-- Bit i of a number. -/
def bit (w i : Nat) : Bool := w / 2 ^ i % 2 == 1

/-- A Bool as 0 or 1. -/
def b2n (b : Bool) : Nat := if b then 1 else 0

/-- Division rounding up. -/
def cdiv (a b : Nat) : Nat := (a + b - 1) / b

/-- x rounded up to a multiple of b. -/
def alignUp (x b : Nat) : Nat := cdiv x b * b

end Sys2Proof
end

