-- ==== Sys2Proof/Syntax.lean ====
section
/-! DEFINITION. The commands the block takes: one constructor of Instr for each row of
spec/opcode_table.json. The table gives its rows no operand bits, so the operands here are the ones
the governing rule names: which core, die, link, port, page; what the outside world supplies
(a written value, a received flit, a measured quantity); which physical error an attempt meets. -/

namespace Sys2Proof

/-- A core of the device: compute die (R13) and core on it (R15). -/
structure CoreIx where
  die : Fin 16
  core : Fin 64
  deriving DecidableEq, Repr

/-- The arithmetic unit a residue check watches (R383). Engines are physical, 32 and 33 being the spares. -/
inductive ResUnit where
  | engine (phys : Fin 34)
  | companion
  | vector
  deriving DecidableEq, Repr

/-- A word of the SRAM of R386 outside tile memory: of a buffer or accumulator slot, of the core's SFU user slots or coma tables
at a byte offset in them (those of plan slot 0 first, R130, R167), of a KVT entry, of a plan slot's semaphore. -/
inductive TableWord where
  | buffer
  | sfu (a : Nat)
  | coma (a : Nat)
  | kvt (i : Nat)
  | sem (slot i : Nat)
  deriving DecidableEq, Repr

/-- The physical error an attempt of a command meets: none, a residue mismatch (R384), a corrected
memory error on read (R386), an uncorrectable one at a tile-memory or HBM byte address of the die
(R388; for tile memory the address counts from core 0 of the die, 16 MiB a core), or one in another SRAM of R386, whose word
the attempt uses or not. -/
inductive Upset where
  | clean
  | residue (u : ResUnit)
  | corrected (hbm : Bool)
  | uncorrected (hbm : Bool) (addr : Nat)
  | table (used : Bool) (w : TableWord)
  deriving DecidableEq, Repr

/-- What a scrubber finds in the unit it checks (R387, R388). -/
inductive ScrubFind where
  | good
  | corrected
  | uncorrected (addr : Nat)
  deriving DecidableEq, Repr

/-- What gives a reference edge (R343, R351, R352): the 1PPS input, with whether the edge came less than 100 ns out of its place, or a
foreign master's time. -/
inductive RefSource where
  | pps (regular : Bool)
  | master
  deriving DecidableEq, Repr

/-- How the 1PPS input was lost (R349, R352): the edge came in the late window; the 10 MHz input is still present. -/
structure RefLost where
  late : Bool
  ref10 : Bool
  deriving DecidableEq, Repr

/-- A read of registers (R421, R424): the address of its first byte, how many bytes. -/
structure ReadPlace where
  addr : Nat
  len : Nat
  deriving DecidableEq, Repr

/-- A submission-queue entry (R295) as the QP reads it from the ring in host memory. -/
structure QEntry where
  op : Nat
  slot : Nat
  flags : Nat
  count : Nat
  tag : Nat
  arg0 : Nat
  arg1 : Nat
  deriving DecidableEq, Repr

/-- The pages of the register space (R435); d, c, s, p, t, n are die, core, stack, port, TCU and host. -/
inductive Page where
  | dieG | pwrG | timeG | part | vcG | netG | secG | fwuG | tlmG
  | hq0 (n : Nat) | hq1 (n : Nat) | tlmH (n : Nat) | fwuH (n : Nat)
  | dieD (d : Nat) | pwrD (d : Nat) | hbmc (d s : Nat) | jlink (d p : Nat) | coreDie (d : Nat)
  | core (d c : Nat) | tcu (d t : Nat) | kvt (d : Nat) | ast (d : Nat) | pxe (d : Nat) | sem (d : Nat)
  | vcD (d : Nat) | tlmD (d : Nat) | secD (d : Nat)
  deriving DecidableEq, Repr

/-- A 32-bit register: a page and the byte offset in it (R420, R424). -/
structure Reg where
  page : Page
  off : Nat
  deriving DecidableEq, Repr

/-- Who makes a register access (R421, R422): a host port or the management path through the MP. -/
inductive Requester where
  | host (n : Fin 4)
  | mp
  deriving DecidableEq, Repr

/-- Who issued a host-tier read (R225): a core's command, or the i-th running tide entry of a partition. -/
inductive HostReader where
  | core (k : CoreIx)
  | tide (n : Fin 4) (i : Nat)
  deriving DecidableEq, Repr

/-- How a host-tier read fails (R225): poisoned or failed completion, or the completion timeout, the
Bool saying whether the completion arrived inside the window of R348. -/
inductive HostFail where
  | badCompletion
  | timedOut (late : Bool)
  deriving DecidableEq, Repr

/-- A telemetry path (R394). -/
inductive TlmPath where
  | die (d : Fin 16)
  | aggr (south : Bool)
  | host (n : Fin 4)
  | bmc
  deriving DecidableEq, Repr

/-- What the light-load pattern, HBM training or self-test found on one die (R437, R440): the failing
causes as the bits of DIE_ST_FAIL (R452). -/
structure DieFail where
  die : Fin 16
  cause : Nat
  deriving DecidableEq, Repr

/-- What the self-test found in one core (R440): physical engines that failed, and whether the VE, SFU
or companion path failed. -/
structure CoreFail where
  core : CoreIx
  engines : List (Fin 34)
  ve : Bool
  sfu : Bool
  companion : Bool
  deriving DecidableEq, Repr

/-- The outcome of training one link direction (R264): lanes with a high error rate, CRC errors in the
2 × 10^11 bits, and the worst-lane margin in mUI. -/
structure TrainResult where
  die : Fin 16
  port : Fin 4
  badLanes : List Nat
  crcErrors : Nat
  margin : Nat
  deriving DecidableEq, Repr

/-- The data set of a received Announce (R351, IEEE 1588-2019): sender is the clockIdentity of the port that sent it, identity the
grandmasterIdentity. -/
structure Announce where
  domain : Nat
  sender : Nat
  identity : Nat
  priority1 : Nat
  clockClass : Nat
  accuracy : Nat
  variance : Nat
  priority2 : Nat
  steps : Nat
  timeSource : Nat
  deriving DecidableEq, Repr

/-- A picture of a bitstream (R359, R362, R363): its format, profile (general_profile_idc or seq_profile), level in tenths, bit
depth, whether it is monochrome, cropped size, the bytes it takes, whether decoding can start at it (an IRAP picture, a key frame
with its sequence header), AV1's film-grain parameters, and its samples at the bit depth: luma, then Cb and Cr in turn. -/
structure DecPicture where
  av1 : Bool
  profile : Nat
  level : Nat
  depth : Nat
  mono : Bool
  w : Nat
  h : Nat
  used : Nat
  random : Bool
  film : Option (List Nat)
  code : List Nat
  deriving DecidableEq, Repr

/-- What the codec core finds next in a bitstream (R363, R389): a picture, a syntax or reference error, or a poisoned read. -/
inductive DecOutcome where
  | picture (p : DecPicture)
  | error (used : Nat)
  | poisoned (used : Nat)
  deriving DecidableEq, Repr

/-- A received Ethernet frame, as far as R372 and R373 tell frames apart: an ARP request with its target and sender, an IGMP query
of version 2 or 3, an ICMP echo request, a PTP message that is an event message or a general one, an IPv4 packet to a group, a Pause frame, any other. -/
inductive NetFrame where
  | arp (target sender mac : Nat)
  | igmpQuery (v3 : Bool)
  | icmpEcho (src dst : Nat) (payload : List Byte)
  | ptpMessage (event : Bool)
  | pause
  | group (ip udp src : Nat)
  | other
  deriving DecidableEq, Repr

/-- What a die did while it used a part of a millisecond's energy (R334): a step of a plan slot, the save of an outgoing slot, the
restore of an incoming one, anything else. -/
inductive DieWork where
  | step (slot : Fin 8)
  | save (slot : Fin 8)
  | restore (slot : Fin 8)
  | other
  deriving DecidableEq, Repr

/-- A JTAG instruction (R409); memory is a debug access to a 2 MiB page of a die's HBM (R407). -/
inductive JtagOp where
  | idcode
  | bypass
  | memory (write : Bool) (die : Fin 16) (page : Nat)
  | other (ir : Nat)
  deriving DecidableEq, Repr

/-- What a management message's address names (R446): a register, or in a diagnostic read or write a 2 MiB page of a die's HBM
(R407, R422). -/
inductive MgmtPlace where
  | reg (addr : Nat)
  | memory (die : Fin 16) (page : Nat)
  deriving DecidableEq, Repr

/-- A firmware image type (R400). -/
inductive Image where
  | mp | tp | stp | qp | dc
  deriving DecidableEq, Repr

/-- What an image reports in an activation (R413, R414): it confirms its health, or fails while it confirms. -/
structure HealthReport where
  image : Image
  healthy : Bool
  deriving DecidableEq, Repr

/-- A processor that runs a firmware image (R412). -/
inductive Proc where
  | dc (d : Fin 16)
  | qp (n : Fin 4)
  | stp
  | tp
  | mp
  deriving DecidableEq, Repr

/-- The commands. -/
inductive Instr where
  | nop (k : CoreIx) (u : Upset)
  | layerMarker (k : CoreIx) (u : Upset)
  | ctrFetch (k : CoreIx) (u : Upset)
  | stepEnd (k : CoreIx) (u : Upset)
  | mm (k : CoreIx) (u : Upset)
  | veEw (k : CoreIx) (u : Upset)
  | veRed (k : CoreIx) (u : Upset)
  | veNorm (k : CoreIx) (u : Upset)
  | veSoftmax (k : CoreIx) (u : Upset)
  | veCombine (k : CoreIx) (u : Upset)
  | veQuant (k : CoreIx) (u : Upset)
  | veQuantEf (k : CoreIx) (u : Upset)
  | veDwconv (k : CoreIx) (u : Upset)
  | veSfu (k : CoreIx) (u : Upset)
  | veSfuLoad (k : CoreIx) (u : Upset)
  | attPart (k : CoreIx) (u : Upset)
  | attPin (k : CoreIx) (u : Upset)
  | kvWrite (k : CoreIx) (u : Upset)
  | kvCopy (k : CoreIx) (u : Upset)
  | conv (k : CoreIx) (u : Upset)
  | pxeIn (k : CoreIx) (u : Upset)
  | pxeOut (k : CoreIx) (u : Upset)
  | comaLoad (k : CoreIx) (u : Upset)
  | bwMm (k : CoreIx) (u : Upset)
  | bwAdapt (k : CoreIx) (u : Upset)
  | bwAtt (k : CoreIx) (u : Upset)
  | bwNorm (k : CoreIx) (u : Upset)
  | bwSoftmax (k : CoreIx) (u : Upset)
  | astPush (k : CoreIx) (u : Upset)
  | astPop (k : CoreIx) (u : Upset)
  | update (k : CoreIx) (u : Upset)
  | seCopy (k : CoreIx) (u : Upset)
  | sePut (k : CoreIx) (u : Upset)
  | tcuTblLoad (k : CoreIx) (u : Upset)
  | tcuPack (k : CoreIx) (u : Upset)
  | tcuUnpack (k : CoreIx) (u : Upset)
  | clRs (k : CoreIx) (u : Upset)
  | clAg (k : CoreIx) (u : Upset)
  | mmRs (k : CoreIx) (u : Upset)
  | agMm (k : CoreIx) (u : Upset)
  | semAcquire (k : CoreIx) (u : Upset)
  | semTimeout (k : CoreIx) (late : Bool)
  | commit (k : CoreIx)
  | kvSpillSwitch (d : Fin 16) (i : Fin 32768)
  | kvDemandFetchDone (d : Fin 16) (i : Fin 32768)
  | astDemandTransferDone (k : CoreIx) (u : Upset)
  | tideComplete (n : Fin 4) (i : Nat)
  | peerSemRelease (d : Fin 16)
  | hostTierTimeout (r : HostReader) (f : HostFail)
  | rampWindow (d : Fin 16) (frac : Fin 17) (held throttled : Nat)
  | linkFlitRx (d : Fin 16) (p : Fin 4) (err : Option (Nat × Byte))
  | marginProbe (d : Fin 16) (p : Fin 4) (margin : Nat)
  | collPrepare (d : Fin 16) (id : Nat)
  | collDoneToken (d : Fin 16) (id : Nat) (sender : Fin 16)
  | collNogo (d : Fin 16) (id : Nat)
  | collFaultToken (d : Fin 16) (id : Nat) (sender : Fin 16)
  | collTimeout (d : Fin 16) (id : Nat) (late : Bool)
  | linkTraining (rs : List TrainResult)
  | sqDoorbell (n : Fin 4) (q : Fin 8) (tail : Nat) (entries : List QEntry)
  | runStep (n : Fin 4) (q : Fin 8)
  | loadPlan (n : Fin 4) (q : Fin 8)
  | unloadPlan (n : Fin 4) (q : Fin 8)
  | setRecipe (n : Fin 4) (q : Fin 8)
  | fence (n : Fin 4) (q : Fin 8)
  | hqCqHead (n : Fin 4) (head : Nat)
  | stepBoundary (n : Fin 4)
  | yieldSuspended (n : Fin 4)
  | eclipseDrainEnd (n : Fin 4)
  | eclipseSaveDone (n : Fin 4)
  | eclipseRestoreDone (n : Fin 4)
  | resumeSuspended (n : Fin 4)
  | stepWatchdog (n : Fin 4) (late : Bool)
  | partCreate (n : Fin 4) (rows : Nat)
  | partRelease (n : Fin 4)
  | functionLevelReset (n : Fin 4)
  | hotReset (n : Fin 4)
  | hostLinkDown (n : Fin 4)
  | d3hotEntry (n : Fin 4)
  | partClearDone (n : Fin 4)
  | bar2Read (n : Fin 4) (addr len : Nat)
  | bar2Write (n : Fin 4) (addr : Nat) (data : List Byte)
  | parbCycle (fracs temps : List Nat)
  | bucketSample (milliwatts : Nat)
  | inputSample (millivolts current : Nat)
  | pwrOvervolt
  | mainInputRestored
  | rowPhaseFail (r : Fin 4)
  | auxInputChange (aux main : Bool)
  | calUpdate (meanInput modelled : Nat)
  | energyUpdate (inputMicrojoule : Nat) (dieMicrojoule : List (List (DieWork × Nat)))
  | pwrOvertemp (d : Fin 16)
  | pwrDiePt (n : Fin 4) (d : Fin 16) (point : Fin 8)
  | clockHandover (d : Fin 16)
  | vfChangeDone (d : Fin 16)
  | droopDetect (d : Fin 16)
  | droopRecover (d : Fin 16) (overOneMicrosecond : Bool)
  | issueCutEnd (d : Fin 16)
  | moonEnter (d : Fin 16)
  | pwrMoonWake (d : Fin 16)
  | moonExitDone (n : Fin 4)
  | refEdge (src : RefSource) (phase : Int) (ref10 : Bool)
  | refLoss (l : RefLost)
  | holdoverExpiry
  | devtimeReload (copy : Fin 17)
  | todArm
  | todApply
  | ppsOut
  | framePulse
  | pulseEnd (frame : Bool)
  | ptpAnnounceRx (p : Fin 2) (a : Announce)
  | announceTimeout (p : Fin 2) (late : Bool)
  | delayReqRx (p : Fin 2) (unicast : Bool) (seq : Nat)
  | syncTx (p : Fin 2)
  | announceTx (p : Fin 2)
  | metadataTlvTx (p : Fin 2)
  | tpHandover (done : Bool)
  | vcDecAttach (d : Fin 16)
  | vcDecDetach (d : Fin 16)
  | vcEncAttach (d : Fin 16)
  | vcEncDetach (d : Fin 16)
  | decodePicture (d : Fin 16) (o : DecOutcome)
  | encodePicture (d : Fin 16) (latencyNs : Nat)
  | st2110Picture (d : Fin 16)
  | rtcpSenderReport (d : Fin 16)
  | mcastListenEnd (d : Fin 16) (pathB : Bool)
  | netFrameRx (p : Fin 2) (f : NetFrame) (buffersFull : Bool)
  | netLinkChange (p : Fin 2) (up : Bool)
  | scrubSram (k : CoreIx) (pass : Bool) (f : ScrubFind)
  | scrubHbm (d : Fin 16) (pass : Bool) (f : ScrubFind)
  | tlmBurstEnd (p : TlmPath)
  | tlmAlarmRelease (p : TlmPath)
  | tlmTimeMark (p : TlmPath)
  | getVersion (n : Fin 4)
  | getCapabilities (n : Fin 4)
  | negotiateAlgorithms (n : Fin 4)
  | getDigests (n : Fin 4)
  | getCertificate (n : Fin 4) (slot : Nat)
  | challenge (n : Fin 4) (slot : Nat)
  | getMeasurements (n : Fin 4) (index : Nat)
  | spdmUnsupported (n : Fin 4) (code : Nat)
  | debugUnlock
  | debugLock
  | dbgNonceRead
  | jtagInstruction (op : JtagOp)
  | protApply (n : Fin 4) (d : Fin 16)
  | protApplyDone (d : Fin 16)
  | fwuOpen (n : Fin 4)
  | fwuEraseDone
  | fwuWrite (n : Fin 4) (data : Option (List Byte))
  | fwuBlockDone
  | fwuVerify (n : Fin 4)
  | fwuActivate (n : Fin 4)
  | fwuAbort (n : Fin 4)
  | imageHandover (p : Proc)
  | healthConfirm (i : HealthReport)
  | healthTimeout
  | faultClr (r : Requester) (pg : Page)
  | irqEn (r : Requester) (pg : Page) (v : Nat)
  | irqSet (r : Requester) (pg : Page) (v : Nat)
  | coreLflagClr (r : Requester) (d : Fin 16) (v : Nat)
  | astResetSp (n : Fin 4) (d : Fin 16)
  | tlmEnable (n : Fin 4) (on : Bool)
  | loReadLatch (r : Requester) (p : ReadPlace)
  | registerWrite (r : Requester) (addr v : Nat) (be : Fin 16)
  | mgmtRegRead (p : MgmtPlace)
  | mgmtRegWrite (p : MgmtPlace) (v : Nat)
  | mgmtReset
  | resetN
  | mpLockstep
  | rowBringup (r : Fin 4) (fails : List DieFail) (cores : List CoreFail)
  | coolantSample (inlet outlet flow : Nat) (lowFlow2s : Bool) (absent1s : Nat)
  | auxPowerUp (aux main : Bool)
  | spBoot
  | mpTpStart
  | rowPowerUp (r : Fin 4) (fails : List DieFail)
  | hbmTraining (fails : List DieFail)
  | selfTest (fails : List DieFail) (cores : List CoreFail)
  | hostPortStart
  | ovenReady
  | irqMessageGapEnd (n : Fin 4)
  | planSwitchRestoreDone (n : Fin 4)
  deriving DecidableEq, Repr

end Sys2Proof
end

