-- ==== Sys2Proof/Decode.lean ====
section
/-! DEFINITION. Decoding of command words. spec/opcode_table.json gives no row any bits: its commands are
not words of an instruction stream, so no word spells one. -/

namespace Sys2Proof

/-- The command a table word spells: none, as the table gives its rows no bits. -/
def decodeTableWord (_nbits _w : Nat) : Option Instr := none

end Sys2Proof
end

