-- ==== Sys2Proof/Config.lean ====
section
/-! DEFINITION. What the part or its surroundings fix and the spec leaves open: free values. Every
constant here is opaque, so no proof can learn a value; each is named in the assumption log. -/

namespace Sys2Proof.Config

/-- Bytes of an unpredictable result (R2, R3): the draw number and the place in it. -/
opaque freeByte : Nat → Nat → Byte
/-- Any other value the spec does not state: the draw number. -/
opaque freeNat : Nat → Nat
/-- Host memory as the host left it, by port × 2^64 + bus address. -/
opaque hostByte : Nat → Byte
/-- Flash contents where nothing has been programmed, by the number of erases of the slot and slot × 64 MiB + offset: what
the slot held at first power-up, or what erased flash reads as, which R410 does not say. -/
opaque flashByte : Nat → Nat → Byte
/-- The confirmation records the two flash slots carry at first power-up (R401, R413). -/
opaque bootRecord : Bool → Option Nat
/-- IEEE 754 leaves open whether tininess is detected before rounding (R114). -/
opaque tinyBefore : Bool
/-- The binary32 code of rsqrt(−0), which R128 does not state. -/
opaque rsqrtNegZero : Nat
/-- FAULT_INFO1 of a PXE_IN tap outside its ring slots, which R170 counts from a descriptor PXE_IN has none of. -/
opaque pxeTapUnit : Int → Int → Int → Nat
/-- The T2 threshold of an AST_POP that reblocks to T2: its engine bits carry none (R203, R122). -/
opaque popThreshold : Nat
/-- Whether a table load that runs past id 255 goes on at id 0 or drops those tables (R244 does not say). -/
opaque tableWraps : Bool
/-- Fused voltage in mV of a die's V/f point (R330, R340). -/
opaque vfMillivolt : Nat → Nat → Nat
/-- Fused MAC address of an Ethernet port (R382). -/
opaque mac : Nat → Nat
/-- Fused serial number (R451). -/
opaque serial : Nat
/-- Fuses blown when the part was made (R413, R416). -/
opaque fuseCount : Nat
/-- The first three fixed taps of each phase of the E1 scaler, by phase and place (R366): 16-bit signed numbers. -/
opaque e1Tap : Nat → Nat → Int
/-- Model terms of the arbiter in mW (R325): static power of a die at a point and temperature, power of
one owned link and HBM slot position, full-issue power of a die at a point, the I/O dies' power. -/
opaque staticPower : Nat → Nat → Nat → Nat
opaque linkSlotPower : Nat
opaque hbmSlotPower : Nat
opaque fullIssuePower : Nat → Nat → Nat
opaque iodPower : Nat
/-- What an encoder codes a picture from (R361, R364 to R366): its number in the stream, a draw that stands for the pictures
before it, format, size, kind (0 I, 1 P, 2 B), level in the hierarchy of B pictures, the quantiser of each 64 × 64 unit, the unit counts of its slices or tile rows
and the columns of its tile grid, the rate in bits a second (0 for CQP, else the 1 s decoder buffer holds as many bits), and
the samples of its planes. -/
structure EncJob where
  die : Nat
  number : Nat
  draw : Nat
  av1 : Bool
  w : Nat
  h : Nat
  kind : Nat
  level : Nat
  quant : List Int
  parts : List Nat
  columns : Nat
  bitRate : Nat
  samples : List Nat
  deriving DecidableEq, Repr

/-- The NAL units or OBUs of a coded picture, and of the parameter sets before an I picture (R364, R374): the coding formats
leave an encoder free in how it codes. -/
opaque codedPicture : EncJob → List (List Byte)
opaque paramSets : EncJob → List (List Byte)
/-- Samples with the film grain of AV1's parameters added (R359), whose arithmetic is that format's: parameters, the samples, a
place in them. -/
opaque grainAt : List Nat → List Nat → Nat → Nat
/-- The picture rate of a die's bitstream as numerator and denominator, and whether tiles, slices or wavefront rows divide its
picture of a number (R360, R361): the bitstream says so. -/
opaque streamRate : Nat → Nat × Nat
opaque streamDivided : Nat → Nat → Bool
/-- The packets' payloads that the general packing mode of SMPTE ST 2110-20 makes of a frame (R376): YUV420 or not, width, height,
the frame's bytes. -/
opaque pack2110 : Bool → Nat → Nat → List Byte → List (List Byte)
/-- Bytes of a NAL unit that one fragmentation unit carries (R374 bounds them only). -/
opaque fuBytes : Nat
/-- The wall-clock field of an RTCP sender report (R374): die, DEVTIME. -/
opaque ntpTime : Nat → Nat → Nat
/-- SHA-384 of a byte string (R400, R403), as a 384-bit number. -/
opaque sha384 : List Byte → Nat
/-- Whether an ECDSA P-384 signature over a digest verifies against Holdal's key (R400, R409). -/
opaque sigOk : Nat → Nat → Bool
/-- The device identity key's signature over a digest; a draw of the hardware random source (R404, R405, R409). -/
opaque sign : Nat → Nat → Nat
/-- The certificate chain of slot 0 (R404). -/
opaque certChain : List Byte
/-- SHA-384 of a measurement's values in the SP's own layout, which R403 does not give (indices 8 and 10): index, values. -/
opaque measure : Nat → List Nat → Nat
/-- The measurement of the SP ROM version and fuse configuration (R403 index 1). -/
opaque romMeasurement : Nat
/-- The bytes of SPDM answers whose layout is the SPDM specification's (R404): port, request code, draw. -/
opaque spdmBody : Nat → Nat → Nat → List Nat
/-- The JTAG identification code (R409). -/
opaque idcode : Nat
/-- PTP clockIdentity and the variance this clock announces (R350). -/
opaque clockIdentity : Nat
opaque clockVariance : Nat
/-- The frequency correction the servo computes from the present one, in 2^-32 ns a TCLK cycle, and a phase error in ns (R343). -/
opaque servoGain : Int → Int → Int

/-- The variant a die takes after its layer's recipe entry was written during the step (R98): the model's draw count, the entry. -/
opaque looseVariant : Nat → Nat → Nat

/-- How the 16-bit data field of a telemetry event holds a step of DEVTIME in ns (R343, R393). -/
opaque stepField : Int → Nat

end Sys2Proof.Config
end

