-- ==== Sys2Proof/Machine/State.lean ====
section
/-! DEFINITION. The state of the Merdixis F2 as plain data: the register file, the memories, the per-die
units, the cores, the queues of the four hosts, the power, time, media, telemetry and security state,
and the queue of waiting commands. Sparse state is kept as lists of key and value; a key that is not
listed has its reset value. -/

namespace Sys2Proof.Machine
open Sys2Proof

/-- Why a command stops the model. -/
inductive Fault where
  /-- Raised by inputSample above the absolute maximum of R321 (60 V): "damage may occur" and the spec
  gives the device no behaviour there. Safe: nothing is claimed of a damaged module. -/
  | aboveAbsoluteMaximum (millivolts : Nat)
  deriving DecidableEq, Repr

/-- Why a command has no meaning in the model. -/
inductive Refusal where
  /-- Raised only by an arm of exec whose command has no meaning yet. Safe: nothing can be proved of it. -/
  | notModelled (mnemonic : String)
  deriving DecidableEq, Repr

/-- The stores a command's outputs go to: tile memory, HBM, host memory, and the per-plan copies of the
SFU user slots (R130), the coma tables (R167) and the TCU code tables (R244). -/
inductive Space where
  | tm | hbm | host | sfu | coma | tcu | flash
  deriving DecidableEq, Repr

/-- A byte string to be written at commit. -/
structure Wr where
  space : Space
  addr : Nat
  data : List Byte
  deriving DecidableEq, Repr

/-- A byte range of a store. -/
structure Span where
  space : Space
  base : Nat
  len : Nat
  deriving DecidableEq, Repr

/-- The memories, each a canonical list of cells: addresses strictly rising, no cell holding the byte an
unlisted address reads as (R290: rows start cleared to zero). Tile memory of core c of die d starts at
(64 d + c) × 16 MiB; HBM of die d at d × 128 GiB; host memory of port n at n × 2^64. -/
structure Mems where
  tm : List Host.Cell := []
  hbm : List Host.Cell := []
  host : List Host.Cell := []
  sfu : List Host.Cell := []
  coma : List Host.Cell := []
  tcu : List Host.Cell := []
  flash : List Host.Cell := []
  /-- poisoned 64-bit words of tile memory, by address div 8 (R388) -/
  tmPoison : List Nat := []
  /-- poisoned 64-byte sectors of HBM, by address div 64 (R388) -/
  hbmPoison : List Nat := []
  /-- poisoned 64-bit words of the SFU user slots and of the coma tables, by address div 8 (R388) -/
  sfuPoison : List Nat := []
  comaPoison : List Nat := []
  /-- how often each flash slot has been erased (R410) -/
  erasedA : Nat := 0
  erasedB : Nat := 0
  deriving DecidableEq, Repr

/-- The running contents of a flag record (R95), before it is packed at commit. -/
structure Flags where
  sat : Nat := 0
  ovf : Nat := 0
  under : Nat := 0
  written : Nat := 0
  nan : Bool := false
  timeout : Bool := false
  late : Bool := false
  tideMiss : Bool := false
  overrun : Bool := false
  underrun : Bool := false
  crc : Bool := false
  deriving DecidableEq, Repr

/-- The IEEE exceptions of R114. -/
structure XFlags where
  invalid : Bool := false
  divZero : Bool := false
  overflow : Bool := false
  underflow : Bool := false
  inexact : Bool := false
  deriving DecidableEq, Repr

/-- The command record of R34. Descriptors are the raw 64-bit words D0 to D5; eng is the 64-bit word of
bytes 4 to 11, whose bits [63:42] are engine-specific. -/
structure Cmd where
  opcode : Nat
  fmtA : Nat
  fmtB : Nat
  fmtOut : Nat
  cls : Nat
  nk : Bool
  f32Conv : Bool
  acq : Bool
  tailCount : Nat
  eng : Nat
  outMask : Nat
  tailIndex : Nat
  d0 : Nat
  d1 : Nat
  d2 : Nat
  d3 : Nat
  d4 : Nat
  d5 : Nat
  deriving DecidableEq, Repr

/-- A step command's part of a collective (R266 to R279): the fields of its record it still needs, what
it has received, and whether the step has committed for it. -/
structure CollFlight where
  id : Nat
  step : Nat
  p : Nat
  axisY : Bool
  minus : Bool
  size : Nat
  tag : Nat
  wd : Nat
  cores : Nat
  xfer : Nat
  sendsTo : Option Nat
  hearsFrom : Option Nat
  received : Nat
  unsent : Nat
  decided : Bool
  deriving DecidableEq, Repr

/-- Additions to a TCU's counters (R252): raw and stored bytes, blocks written raw, blocks written raw by
protection, overruns, underruns, CRC mismatches. -/
structure TcuCnt where
  raw : Nat := 0
  stored : Nat := 0
  blkRaw : Nat := 0
  protRaw : Nat := 0
  overs : Nat := 0
  under : Nat := 0
  crc : Nat := 0
  deriving DecidableEq, Repr

/-- One attempt of a command between its issue and its commit. Outputs wait in writes and reach memory
at commit (R41); outs and ins are the regions of R44. -/
structure Flight where
  cmd : Cmd
  acquired : Option (Nat × Nat) := none
  flags : Flags := {}
  xflags : XFlags := {}
  writes : List Wr := []
  outs : List Span := []
  ins : List Span := []
  pins : List Nat := []
  missing : List Nat := []
  cycles : Nat := 0
  worked : Bool := false
  /-- an unpredictable case of R44 or of the out_mask rules holds of this attempt -/
  taint : Bool := false
  /-- output ranges whose contents are unpredictable after the commit, whatever the rest of the output holds -/
  loose : List Span := []
  /-- list entries the core's next commit slots are still to pin (R152) -/
  toPin : List Nat := []
  /-- the model's own: when its transfers take their turn among those of their identifiers, and the identifiers of those
  that have started and wait for their slots (R55, R56) -/
  order : Nat := 0
  moving : List Nat := []
  /-- the physical error the attempt's work will meet, when it has stalled before it -/
  upset : Upset := .clean
  coll : Option CollFlight := none
  /-- flits of an SE_PUT not yet acknowledged by the peer (R228) -/
  unacked : Nat := 0
  /-- places that already have, or are getting, what the attempt writes: a put's destination, bytes gone to the host tier (R227) -/
  sent : List Span := []
  /-- free KVT entries whose page it writes (R158); the data of a page it pins was unpredictable to it (R157) -/
  wild : List Nat := []
  doubt : Bool := false
  /-- code tables loaded on its die since its issue (R245) -/
  tblLoads : List Nat := []
  /-- the AST_SP a push or pop commits, raw and stored lengths pushed (R201, R204), and the marks that rise
  or fall as a push writes: AST_RES_MARK, AST_SPILL_MARK (R205) -/
  astSp : Option Nat := none
  astMarks : Option (Nat × Nat) := none
  astRaw : Nat := 0
  astStored : Nat := 0
  /-- what the attempt adds to the counters of TCU0 and TCU1 (R252) -/
  tcu0 : TcuCnt := {}
  tcu1 : TcuCnt := {}
  /-- table slots a load makes valid: slot number and its mono or type byte (R130, R167, R244) -/
  loads : Option (Nat × Nat) := none
  /-- pixels converted and codes clamped (R183) -/
  pixels : Nat := 0
  clamped : Nat := 0
  deriving DecidableEq, Repr

/-- Where a core stands with the command at its boundary. -/
inductive Phase where
  /-- at a boundary, about to issue (R41) -/
  | ready
  /-- issued, waiting in its acquire (R50) -/
  | waitAcq
  /-- issued, waiting for pages or the stack (R153, R205) -/
  | stalled
  /-- engine work done, waiting for its commit slot (R47), its acknowledgements or its step decision -/
  | worked
  /-- STEP_END has committed -/
  | ended
  deriving DecidableEq, Repr

/-- One core's sequencer (R34, R456, R457). -/
structure CoreSt where
  phase : Phase := .ready
  /-- base index of the command at the boundary or issued, and of the command last issued (R107) -/
  idx : Nat := 0
  issued : Nat := 0
  /-- how often the core has issued the marker of each layer in this step (R456) -/
  marks : List (Nat × Nat) := []
  /-- spliced segment: image offset of its record, place in it counted from 1, how many of its commands are left -/
  segOff : Nat := 0
  segPos : Nat := 0
  segLeft : Nat := 0
  flight : Option Flight := none
  /-- pins a killed attempt passes to its rerun, which then does not pin again (R152) -/
  carried : List Nat := []
  /-- the command at the boundary has been killed and is to rerun -/
  rerun : Bool := false
  /-- output regions of the killed attempt, unpredictable until the rerun commits (R45) -/
  stale : List Span := []
  /-- acquired semaphores that no release has returned since, with the counts (R52) -/
  held : List (Nat × Nat) := []
  /-- residue kills of the command at the boundary in this step (R385) -/
  resKills : Nat := 0
  /-- prologue cap, period and the window count since it started (R102); base index it acted at -/
  cap : Option (Nat × Nat × Nat) := none
  deriving DecidableEq, Repr

/-- A KVT entry (R148). -/
structure KvtEnt where
  state : Nat := 0
  tier : Nat := 0
  refcnt : Nat := 0
  pins : Nat := 0
  addr : Nat := 0
  epoch : Nat := 0
  frame : Nat := 0
  /-- the model's own marks: the page was pinned during the spill copy in progress (R154); plan slot and core of the
  KV_COPY whose destination it is (R157, R160); the plan slots whose commands have named it (R158) -/
  pinnedInSpill : Bool := false
  copier : Option (Nat × Nat) := none
  users : List Nat := []
  /-- the model's own: the page was written while the entry was free, so that its next holder's page is unpredictable (R158) -/
  wild : Bool := false
  deriving DecidableEq, Repr

/-- One plan's set of AST_* registers on a die (R200, R206, R212). -/
structure AstSet where
  core : Nat := 0
  base : Nat := 0
  hbmSize : Nat := 0
  limit : Nat := 0
  hostBase : Nat := 0
  sp : Nat := 0
  spill : Nat := 0
  res : Nat := 0
  peak : Nat := 0
  miss : Nat := 0
  raw : Nat := 0
  stored : Nat := 0
  deriving DecidableEq, Repr

/-- A tide entry (R229). -/
structure TideEnt where
  kind : Nat
  die : Nat
  core : Nat
  semEn : Bool
  cmd : Nat
  xfer : Nat
  sem : Nat
  arg : Nat
  src : Nat
  dst : Nat
  deriving DecidableEq, Repr

/-- A fired entry that has not completed (R230): the plan slot it serves; part is 0 for the base schedule, else 1 + the
offset of the variant's part; index is its place in that part; order as in Flight; hazard: a command has met what it moves (R232). -/
structure TideRun where
  slot : Nat
  part : Nat
  index : Nat
  ent : TideEnt
  order : Nat := 0
  hazard : Bool := false
  deriving DecidableEq, Repr

/-- An accepted RUN_STEP (R295). -/
structure Job where
  queue : Nat
  entry : Nat
  cls : Nat
  slot : Nat
  left : Nat
  notify : Bool
  tag : Nat
  deriving DecidableEq, Repr

/-- A LOAD_PLAN accepted and waiting for a point where no plan runs (R295). -/
structure LoadReq where
  queue : Nat
  entry : Nat
  slot : Nat
  offset : Nat
  len : Nat
  notify : Bool
  tag : Nat
  deriving DecidableEq, Repr

/-- A SET_RECIPE waiting for its plan's next step boundary (R295, R98). -/
structure RecipeReq where
  queue : Nat
  entry : Nat
  slot : Nat
  layer : Nat
  variant : Nat
  notify : Bool
  tag : Nat
  deriving DecidableEq, Repr

/-- A suspended step: its job, the cores' positions, the tide entries fired, the slot tables taken over (R299, R301,
R308, R456). -/
structure Susp where
  job : Job
  cores : List ((Nat × Nat) × CoreSt)
  fired : List (Nat × Nat)
  running : List TideRun
  tabs : List ((Nat × Nat) × Nat)
  deriving DecidableEq, Repr

/-- A plan slot (R234): whether it holds a plan, the BAR2 offset and length of its image. -/
structure PlanSlot where
  loaded : Bool := false
  offset : Nat := 0
  len : Nat := 0
  susp : Option Susp := none
  /-- boundaries at which the cores stood when their end-of-step live set went to the save area (R235) -/
  saved : Option (List ((Nat × Nat) × Nat)) := none
  /-- a recipe entry of a layer of the step in progress was written: its outputs are unpredictable, and so is the variant of the
  entries at these image offsets (R98) -/
  loose : Bool := false
  looseEnts : List Nat := []
  deriving DecidableEq, Repr

/-- A submission queue (R293, R294). entries are those submitted and not yet processed, oldest first. -/
structure Queue where
  en : Bool := false
  cls : Nat := 0
  slot : Nat := 0
  sizeM1 : Nat := 0
  base : Nat := 0
  head : Nat := 0
  tail : Nat := 0
  entries : List QEntry := []
  /-- entries accepted and not yet completed, by entry index; fences by entry index, notify, tag and the entries
  they still wait for -/
  outstanding : List Nat := []
  fences : List (Nat × Bool × Nat × List Nat) := []
  /-- its configuration was written while it was enabled: the entries read are unpredictable (R318) -/
  loose : Bool := false
  deriving DecidableEq, Repr

/-- What a partition's dies are doing (R299, R303, R304). -/
inductive Mode where
  | idle
  | running
  | yielding
  | draining
  | saving
  | restoring
  | switching
  deriving DecidableEq, Repr

/-- A completion record waiting for room in the ring (R297). -/
structure CqRec where
  status : Nat
  queue : Nat
  late : Bool
  kind : Nat
  word : Nat
  tagOrTime : Nat
  vector : Option Nat
  deriving DecidableEq, Repr

/-- A BAR2 request (R285): read length, or the bytes of a write. -/
inductive BarReq where
  | read (addr len : Nat)
  | write (addr : Nat) (data : List Byte)
  deriving DecidableEq, Repr

/-- Host port n, its queue processor and partition Pn. -/
structure Port where
  up : Bool := false
  /-- Pn exists, and its row set (R29) -/
  valid : Bool := false
  rows : Nat := 0
  /-- the model's own: the partition's number among all that were created, 0 for none -/
  number : Nat := 0
  clearing : Nat := 0
  slots : List (Nat × PlanSlot) := []
  queues : List (Nat × Queue) := []
  jobs : List Job := []
  loads : List LoadReq := []
  recipes : List RecipeReq := []
  mode : Mode := .idle
  run : Option Job := none
  /-- the step being brought in is a suspended one (R299) -/
  resuming : Bool := false
  /-- the plan slot that runs or last ran, its class (R316, R235) -/
  lastSlot : Nat := 0
  lastCls : Nat := 0
  ranOnce : Bool := false
  fired : List (Nat × Nat) := []
  tides : List TideRun := []
  /-- the queue of each class that a step was last taken from (R299) -/
  lastQueue : List (Nat × Nat) := []
  /-- elapsed ns of a class-0 doorbell whose start latency is being measured (R304) -/
  dbTime : Option Nat := none
  /-- the same once the step has started, until every core has issued its first command (R304) -/
  firstDue : Option Nat := none
  cqWait : List CqRec := []
  phase : Bool := false
  windows : List (Nat × Nat × Nat) := []
  saves : List (Nat × Nat × Nat) := []
  /-- an MSI-X vector 63 message was sent less than 1 µs ago, and edges wait for the gap's end (R434) -/
  irqGap : Bool := false
  irqHeld : Bool := false
  spdm : Nat := 0
  /-- the function is in D3hot; lanes and rate the link trained to, the rate by its place in R283's row, 64 GT/s being 0 -/
  d3hot : Bool := false
  lanes : Nat := 16
  rate : Nat := 0
  /-- the partition's dies are leaving their moon states (R337); BAR2 requests held until they have -/
  waking : Bool := false
  bar : List BarReq := []
  /-- a host-tier window was changed while a plan ran or was suspended: host-tier data are unpredictable (R292) -/
  hostLoose : Bool := false
  /-- words of the inline entries written since HQ_HEAD_0 last passed them, by page offset (R317) -/
  inl : List Nat := []
  /-- HQ_CQ_BASE was written while a queue was enabled: the records written are unpredictable (R318) -/
  cqLoose : Bool := false
  /-- an idle-timer cheap point the QP chose (R303) -/
  yieldPoint : Option Nat := none
  deriving DecidableEq, Repr

/-- The host reaches the function's registers: its link is up, and it is not in D3hot (R283). -/
def Port.reached (p : Port) : Bool := p.up && !p.d3hot

/-- A Jalsil flit in flight (R256) and, outside its header, what the slot tables fix: the die it goes to
and, at its last hop, the space and address it is written to, and the core that sent it. -/
structure Flit where
  vc : Nat
  xfer : Nat
  seq : Nat
  tag : Nat
  offset : Nat
  payload : List Byte
  dest : Nat
  space : Space
  addr : Nat
  sender : Nat × Nat
  ack : Option Nat := none
  nak : Bool := false
  /-- the model's own: the link directions it has crossed, each of which holds a credit for it (R263) -/
  path : List (Nat × Nat) := []
  deriving DecidableEq, Repr

/-- One sending direction of a Jalsil port: flits sent and not yet received, in order, next sequence number, the
sequence number last nak'd and how often in a row; while that is not 0 the receiver discards what comes before the
replay (R257, R258). -/
structure Link where
  queue : List Flit := []
  /-- at the receiving end: flits that came in intact and wait in their channel's queue until the die takes them (R263) -/
  held : List Flit := []
  /-- flits that wait for a credit of their VC (R263) -/
  wait : List Flit := []
  seq : Nat := 0
  nakSeq : Nat := 0
  naks : Nat := 0
  /-- the last non-idle flits sent, at most 1,024, oldest first (R257) -/
  kept : List Flit := []
  /-- at the receiving end: the last sequence number taken intact (R256) -/
  last : Option Nat := none
  /-- flits whose payload is written and whose credit is on its way back (R263) -/
  owed : List Flit := []
  deriving DecidableEq, Repr

/-- A member die's side of a collective step (R275 to R277): the DEVTIME of its prepare, the DONE tokens it
holds, and the tokens on their way to it: DONE with its time, NOGO by its sender, FAULT with the cores it ends. Senders are
absolute dies. -/
structure Coll where
  prepared : Option Nat := none
  done : List (Nat × Nat) := []
  due : List (Nat × Nat) := []
  nogoDue : List Nat := []
  faultDue : List (Nat × List Nat) := []
  deriving DecidableEq, Repr

/-- Per-die limiter, power and clock state that no register shows whole (R101, R324, R331, R332). -/
structure DiePw where
  frac : Nat := 0
  pendingGrant : Option Nat := none
  /-- requested point waiting for a change in progress to end -/
  nextPoint : Option Nat := none
  target : Nat := 7
  changing : Bool := false
  handed : Bool := false
  droop : Bool := false
  cut : Bool := false
  /-- the droop cut began or ended in this 250 ns window (R103) -/
  cutTurned : Bool := false
  /-- PWR_NEW_BASE was written at a forbidden time: what New saves and restores is unpredictable (R341) -/
  newLoose : Bool := false
  deriving DecidableEq, Repr

/-- The servo states of R343. -/
inductive Servo where
  | freerun | locking | locked | holdover | holdoverExp
  deriving DecidableEq, Repr

/-- A foreign master record of a PTP port (R351). -/
structure Foreign where
  port : Nat
  ann : Announce
  count : Nat
  deriving DecidableEq, Repr

/-- The timebase and the PTP clock (R343 to R356). now is DEVTIME in units of 2^-32 ns; elapsed counts
the same increments without the steps (R346). -/
structure TimeSt where
  started : Bool := false
  now : Nat := 0
  elapsed : Nat := 0
  corr : Int := 0
  servo : Servo := .freerun
  before : Servo := .freerun
  edges : Nat := 0
  lossAt : Nat := 0
  armed : Option Nat := none
  copies : List (Nat × Nat) := []
  ppsHigh : Bool := false
  fpHigh : Bool := false
  lastPps : Nat := 0
  lastFp : Nat := 0
  foreign : List Foreign := []
  told : List (Nat × Nat) := []
  /-- PTP port states: 0 MASTER, 1 SLAVE, 2 PASSIVE -/
  ptp : List (Nat × Nat) := []
  dreqUsed : List (Nat × Nat) := []
  held : List (Nat × Announce) := []
  stepsRemoved : Nat := 0
  /-- TIME_UTC and TIME_FP_CFG as they took effect at the last whole second (R358) -/
  utc : Nat := 37
  fp : Nat := 0x0A01
  /-- a configuration write at a forbidden time: PTP message fields are unpredictable until the next whole second (R358) -/
  loose : Bool := false
  deriving DecidableEq, Repr

/-- Ring slots of a die's frame rings (R179): who holds each, and where the streams stand. -/
inductive SlotSt where
  | free | withPxe | withEncoder
  deriving DecidableEq, Repr

/-- An output slot handed to the encoder (R364, R365, R371): slot, DEVTIME of the handover, whether a live stream's cores were
still at the picture before it, and the quality map read at the handover: where it lies, its bytes, whether a later
command has written it. -/
structure OutPic where
  slot : Nat
  at' : Nat
  waited : Bool := false
  mapAt : Nat := 0
  map : List Byte := []
  mapLoose : Bool := false
  /-- its place among the stream's pictures, in display order (R364) -/
  number : Nat := 0
  deriving DecidableEq, Repr

/-- The codec side of one die (R362 to R378). -/
structure Codec where
  inSlots : List (Nat × SlotSt) := []
  outSlots : List (Nat × SlotSt) := []
  decNext : Nat := 0
  /-- output slots handed over, oldest first -/
  encQueue : List OutPic := []
  /-- codec cores that code a picture of a stream that is not live (R368) -/
  decCores : List Nat := []
  encCores : List Nat := []
  /-- the decoder looks for an IRAP picture or key frame (R362, R363); bytes ahead of it that were overwritten before it
  read them (R362) -/
  decWait : Bool := false
  decTaint : Nat := 0
  /-- codec cores reserved for the die's live encode stream -/
  reserved : List Nat := []
  /-- the encode stream's pictures coded or sent so far, and those handed over (R364) -/
  pics : Nat := 0
  handed : Nat := 0
  /-- RTP packets and payload octets of the stream so far (R374) -/
  sent : Nat := 0
  octets : Nat := 0
  /-- per path (0 A, 1 B): 0 off, 1 listening, 2 may transmit, 3 held; foreign source seen in this listen -/
  paths : List (Nat × Nat × Bool) := []
  /-- the decode or encode registers were written while the stream ran: its pictures and packets are unpredictable (R380) -/
  decLoose : Bool := false
  encLoose : Bool := false
  deriving DecidableEq, Repr

/-- A key of a telemetry burst (R396): source, code and severity, the model's own stamp of its records (0 where they differ),
records kept verbatim so far, the latest held, and how many are counted. -/
structure BurstKey where
  source : Nat
  code : Nat
  sev : Nat
  stamp : Nat
  sent : Nat
  held : List Nat
  counted : Nat
  deriving DecidableEq, Repr

/-- One telemetry path (R394 to R396). Records are 64-bit numbers (R392); above them stands the model's own stamp, the number of
the partition they are of, 0 for none. -/
structure Path where
  general : List Nat := []
  alarm : List Nat := []
  waiting : List Nat := []
  burst : Bool := false
  keys : List BurstKey := []
  /-- wraps of DEVTIME ns [31:0] up to the last TIME_MARK (R393) -/
  marked : Nat := 0
  /-- the ring's place was written while it was enabled: its records are unpredictable (R398) -/
  loose : Bool := false
  deriving DecidableEq, Repr

/-- The input, budget and calibration state of the power arbiter (R323 to R328). -/
structure PowerSt where
  belowOnce : Bool := false
  brownout : Bool := false
  /-- the last 10 samples of the input power in mW, the energy bucket in units of 10 nJ (R326) -/
  samples : List Nat := []
  bucket : Nat := 1000000000
  /-- at the last sample the bucket was empty or the mean above the peak; a cycle has run at the floors since the cut began (R326) -/
  over' : Bool := false
  cutRan : Bool := false
  cycle : Nat := 0
  /-- updates of k in a row below 0.5 % (R328) -/
  steady : Nat := 0
  calRunning : Bool := false
  /-- carries below a millijoule, in units of 2^-14 µJ: per counter, and what is left of the I/O energy (R334) -/
  carry : List (Nat × Nat) := []
  ioCarry : Int := 0
  /-- dies at 100 °C or more in the last cycle, conditions of R449 in the last sample: what holds THERM_ALERT_N low (R445) -/
  hot : List Nat := []
  cool : Nat := 0
  deriving DecidableEq, Repr

/-- A firmware slot of the flash (R400, R413): its confirmation record's sequence number, whether it has been marked
invalid, whether it was erased and not every block of its bundle has been written since. -/
structure FwSlot where
  confirmed : Option Nat := none
  invalid : Bool := false
  holes : Bool := false
  deriving DecidableEq, Repr

/-- An update session (R410): owner, bundle length, blocks written, the block being programmed, whether the slot is being
erased, whether the bundle is verified. -/
structure Session where
  owner : Nat
  total : Nat
  erasing : Bool := true
  programming : Option Nat := none
  blocks : List Nat := []
  verified : Bool := false
  deriving DecidableEq, Repr

/-- Security and firmware update (R400 to R418). -/
structure SecSt where
  /-- blown fuses (R413) -/
  blown : Nat := 0
  slotA : FwSlot := {}
  slotB : FwSlot := {}
  unlocked : Bool := false
  /-- the nonce the management path read last (R409) -/
  nonce : Option Nat := none
  /-- the loss of auxiliary power cut an activation off, told at the next power-up (R414, R443) -/
  cutOff : Bool := false
  /-- dies whose partition key is present (R405), ranges in force and being applied (R408) -/
  keys : List Nat := []
  /-- the 512-bit key the SP drew for each granted die (R405) -/
  xts : List (Nat × Nat) := []
  inForce : List (Nat × List (Nat × Nat)) := []
  applying : List (Nat × List (Nat × Nat)) := []
  session : Option Session := none
  /-- activation (R412): its start in elapsed time, processors still to hand over, handed over, images confirmed -/
  activating : Option Nat := none
  todo : List Proc := []
  handed : List Proc := []
  okImages : List Image := []
  deriving DecidableEq, Repr

/-- Start-up (R436 to R443): the row step 4 has come to, and the PWRGD pin. DIE_BOOT_STAT holds the rest. -/
structure BootSt where
  row : Nat := 0
  pwrgd : Bool := false
  deriving DecidableEq, Repr

/-- What the port and stream settings put on a packet (R374, R382): the VLAN word (bit 16 tags the frame), source and
destination address, destination UDP port, DSCP, RTP payload type. -/
structure NetHead where
  vlan : Nat
  src : Nat
  dst : Nat
  udp : Nat
  dscp : Nat
  pt : Nat
  deriving DecidableEq, Repr

/-- What leaves the device: messages, packets, pulses, answers. Newest first in Dev.out. -/
inductive Out where
  | msix (n vec : Nat)
  | tlp (n : Nat) (data : List Byte) (poisoned : Bool)
  | unsupportedRequest (n : Nat)
  | mgmt (cmd status addr data : Nat)
  | regValue (v : Nat)
  | bmc (recs : List Nat)
  | mpIrq (pg : Page)
  | sideband (p : TlmPath)
  | ptp (port kind vlan src dscp : Nat) (body : List Nat)
  | pin (name : String) (high : Bool)
  | rtp (die path : Nat) (head : NetHead) (ssrc seq ts : Nat) (marker : Bool) (payload : List Byte)
  | rtcp (die path : Nat) (head : NetHead) (ssrc ntp ts pkts octets : Nat)
  | st2110 (die path : Nat) (head : NetHead) (ssrc seq ts : Nat) (marker : Bool) (payload : List Byte)
  | igmp (port vlan src group : Nat)
  | netReply (port vlan ip mac : Nat) (f : NetFrame)
  | spdm (n code : Nat) (body : List Nat)
  | jtag (bits : Nat)
  deriving DecidableEq, Repr

/-- The device: everything but the queue of waiting commands. -/
structure Dev where
  /-- the register file: values of registers that are their own storage; the reset value where unlisted -/
  regs : List (Reg × Word) := []
  /-- HI latches per requester and page (R425): 0 to 3 the host ports, 4 the MP -/
  latches : List ((Page × Nat) × Word) := []
  mem : Mems := {}
  /-- semaphores, sat bits, work counters, limits, commit slot bytes: by die, plan slot, index (R49, R50, R47) -/
  sem : List ((Nat × Nat × Nat) × Nat) := []
  semSat : List (Nat × Nat × Nat) := []
  ctr : List ((Nat × Nat × Nat) × Nat) := []
  lim : List ((Nat × Nat × Nat) × Nat) := []
  slotTab : List ((Nat × Nat × Nat) × Nat) := []
  /-- layer flag tables: die and layer (R96) -/
  lflag : List ((Nat × Nat) × Nat) := []
  kvt : List ((Nat × Nat) × KvtEnt) := []
  /-- poisoned KVT entries by die and entry, poisoned semaphores by die, plan slot and semaphore (R388) -/
  kvtPoison : List (Nat × Nat) := []
  semPoison : List (Nat × Nat × Nat) := []
  /-- frames taken from each die's pool (R150), entries being demand-fetched (R153), dies whose controller
  is spilling up to its high-water mark (R154) -/
  taken : List (Nat × Nat) := []
  fetching : List (Nat × Nat) := []
  spillRun : List Nat := []
  ast : List ((Nat × Nat) × AstSet) := []
  sfuValid : List (Nat × Nat × Nat × Nat) := []
  comaValid : List (Nat × Nat × Nat) := []
  tblValid : List (Nat × Nat) := []
  /-- the model's own: plan slots whose commands load or name a code table, by die and id (R245) -/
  tblUsers : List ((Nat × Nat) × List Nat) := []
  /-- TCUs, by die and number, whose TCU_TBL_SEL was written while the page was busy (R253) -/
  tblLoose : List (Nat × Nat) := []
  cores : List ((Nat × Nat) × CoreSt) := []
  /-- elapsed time of each physical unit's last residue mismatch, by die, core, unit (R384) -/
  mismatch : List ((Nat × Nat × ResUnit) × Nat) := []
  /-- fenced engines by die, core, physical engine (R384) -/
  fenced : List (Nat × Nat × Nat) := []
  /-- slot tables taken over by a layer's variant (R456): by die and kind (0 on-die network, 1 links, 2 HBM
  channels), the variant's segment record -/
  tabs : List ((Nat × Nat) × Nat) := []
  /-- peer semaphore releases on their way (R228): sending die, die, plan slot, semaphore -/
  peerRel : List (Nat × Nat × Nat × Nat) := []
  /-- outputs of matrix commands in whose sum the low-rank correction, and the outliers, are already counted (R89) -/
  corrected : List (Span × Bool × Bool) := []
  /-- transfers started so far (R56) -/
  order : Nat := 0
  /-- the row last opened in each bank of the HBM channels (R218): die × 2048 + channel × 32 + bank -/
  openRows : List (Nat × Nat) := []
  /-- the stream whose turn for codec cores comes next (R368): 2 × die, and 1 more for its encoder -/
  codecTurn : Nat := 0
  dpw : List (Nat × DiePw) := []
  links : List ((Nat × Nat) × Link) := []
  colls : List ((Nat × Nat) × Coll) := []
  ports : List (Nat × Port) := []
  pw : PowerSt := {}
  time : TimeSt := {}
  codec : List (Nat × Codec) := []
  tlm : List (TlmPath × Path) := []
  sec : SecSt := {}
  boot : BootSt := {}
  out : List Out := []
  /-- the model's own: partitions created so far -/
  created : Nat := 0
  /-- the model's own: how many free values have been drawn -/
  fresh : Nat := 0
  deriving DecidableEq, Repr

/-- The machine: the commands that wait, first in first out, and the device. -/
structure State where
  pending : List Instr := []
  dev : Dev := {}
  deriving DecidableEq, Repr

/-- Right after reset: nothing has started, every register at the reset value of its page's table, no partition, memory
with nothing listed, no command waiting; the fuses and the confirmation records of the flash are as the part carries
them. -/
def State.reset : State where
  dev := { sec := { blown := Config.fuseCount % 129, slotA := { confirmed := Config.bootRecord false },
                    slotB := { confirmed := Config.bootRecord true } } }

end Sys2Proof.Machine
end

