-- ==== Sys2Proof/Machine/Numbers.lean ====
section
/-! DEFINITION. The number formats of R60 to R68, exact values, rounding, the IEEE operations of R113 and
R114, conversion under R69 to R71, the block register and the accumulator of R74 to R80. -/

namespace Sys2Proof.Machine
open Sys2Proof

/-- An exact value: (−1)^neg × m × 2^e, an infinity, or a NaN with its sign. m = 0 is a signed zero. -/
inductive Val where
  | num (neg : Bool) (m : Nat) (e : Int)
  | inf (neg : Bool)
  | nan (neg : Bool)
  deriving DecidableEq, Repr

/-- Parameters of an encoding (R62, R65): exponent and fraction widths, bias, magnitude code of the
largest finite value, whether the next code is infinity, and the canonical NaN of R70. -/
structure Enc where
  exp : Nat
  man : Nat
  bias : Nat
  maxCode : Nat
  hasInf : Bool
  nanCode : Option Nat
  deriving DecidableEq, Repr

/-- The encoding a format code names (R60, R62, R65). F19 is taken without the 13 low container bits
(R63); T2 reads as E2M1 after expansion (R67). -/
def encOf (f : Nat) : Enc :=
  match f with
  | 0 => ⟨8, 23, 127, 0x7F7FFFFF, true, some 0x7FC00000⟩
  | 1 => ⟨5, 10, 15, 0x7BFF, true, some 0x7E00⟩
  | 2 => ⟨8, 7, 127, 0x7F7F, true, some 0x7FC0⟩
  | 3 => ⟨8, 10, 127, 0x3FBFF, true, some 0x3FE00⟩
  | 4 => ⟨4, 3, 7, 0x7E, false, some 0x7F⟩
  | 5 => ⟨5, 2, 15, 0x7B, true, some 0x7E⟩
  | 6 => ⟨3, 2, 3, 0x1F, false, none⟩
  | 7 => ⟨2, 3, 1, 0x1F, false, none⟩
  | _ => ⟨2, 1, 1, 0x7, false, none⟩

/-- The encodings of binary32 and F19, which fixed procedures use. -/
def e32 : Enc := encOf 0
def e19 : Enc := encOf 3

/-- A long format (R62). -/
def isLong (f : Nat) : Bool := decide (f < 4)

/-- An MX format or T2. -/
def isShort (f : Nat) : Bool := decide (4 ≤ f) && decide (f ≤ 9)

/-- Bits of one stored element (R60). -/
def fmtBits (f : Nat) : Nat :=
  match f with
  | 0 => 32 | 1 => 16 | 2 => 16 | 3 => 32 | 4 => 8 | 5 => 8 | 6 => 6 | 7 => 6 | 8 => 4 | _ => 2

/-- Bytes of one stored block of 32 elements (R68). -/
def blockBytes (f : Nat) : Nat := 4 * fmtBits f

/-- The emax of a block format (R71); 0 for T2 (R122). -/
def emaxOf (f : Nat) : Int :=
  match f with
  | 4 => 8 | 5 => 15 | 6 => 4 | 7 => 2 | 8 => 2 | _ => 0

/-- Number of bits of a magnitude. -/
def bitLen (n : Nat) : Nat := if n = 0 then 0 else Nat.log2 n + 1

/-- Weight exponent of the leading one of m × 2^e. -/
def msbExp (m : Nat) (e : Int) : Int := e + (bitLen m : Int) - 1

/-- m × 2^e as a multiple of 2^q, when q ≤ e exactly, else with the lower bits dropped. -/
def scaleTo (m : Nat) (e q : Int) : Nat :=
  if q ≤ e then m * 2 ^ (e - q).toNat else m / 2 ^ (q - e).toNat

/-- The exact value of a code (R62, R65). -/
def decodeVal (c : Enc) (code : Nat) : Val :=
  let w := c.exp + c.man
  let neg := bit code w
  let mag := code % 2 ^ w
  if mag ≤ c.maxCode then
    let ef := mag / 2 ^ c.man
    let f := mag % 2 ^ c.man
    if ef = 0 then .num neg f (1 - (c.bias : Int) - c.man)
    else .num neg (f + 2 ^ c.man) ((ef : Int) - c.bias - c.man)
  else if c.hasInf && mag == c.maxCode + 1 then .inf neg
  else .nan neg

/-- A signed code from a sign and a magnitude code. -/
def signed (c : Enc) (neg : Bool) (mag : Nat) : Nat := mag + b2n neg * 2 ^ (c.exp + c.man)

/-- The infinity code of an encoding that has one. -/
def infCode (c : Enc) (neg : Bool) : Nat := signed c neg (c.maxCode + 1)

/-- The canonical NaN with a sign (R70); formats without NaN never use it. -/
def nanOf (c : Enc) (neg : Bool) : Nat := signed c neg (c.nanCode.getD 0)

/-- Whether a discarded part rounds the magnitude up. rm: 0 ties to even, 1 ties away, 2 toward zero,
3 toward +∞, 4 toward −∞ (R112). odd: the kept part is odd; rem and half: discarded part, half a unit. -/
def roundsUp (rm : Nat) (neg odd : Bool) (rem half : Nat) : Bool :=
  match rm with
  | 0 => decide (half < rem) || (rem == half && odd)
  | 1 => decide (half ≤ rem)
  | 2 => false
  | 3 => !neg && rem != 0
  | _ => neg && rem != 0

/-- m × 2^e rounded to a multiple of 2^q: the multiple, and whether bits were lost. -/
def roundAt (rm : Nat) (neg : Bool) (m : Nat) (e q : Int) : Nat × Bool :=
  if q ≤ e then (m * 2 ^ (e - q).toNat, false)
  else
    let d := (q - e).toNat
    let k := m / 2 ^ d
    let rem := m % 2 ^ d
    (if roundsUp rm neg (k % 2 == 1) rem (2 ^ (d - 1)) then k + 1 else k, rem != 0)

/-- The weight of the last place of m × 2^e in an encoding, subnormals included. -/
def lastPlace (c : Enc) (m : Nat) (e : Int) : Int :=
  max (msbExp m e - c.man) (1 - (c.bias : Int) - c.man)

/-- The magnitude code nearest m × 2^e under rm, as if the encoding had no largest value, and whether it
is inexact. A code above maxCode is an overflow. -/
def roundMag (c : Enc) (rm : Nat) (neg : Bool) (m : Nat) (e : Int) : Nat × Bool :=
  if m = 0 then (0, false)
  else
    let q := lastPlace c m e
    let r := roundAt rm neg m e q
    (r.1 + (q - (1 - (c.bias : Int) - c.man)).toNat * 2 ^ c.man, r.2)

/-- What an arithmetic step can raise beside its value: flag-record counts and IEEE exceptions. -/
structure Ev where
  fl : Flags := {}
  xf : XFlags := {}
  deriving DecidableEq, Repr

/-- A computation that collects flags. -/
abbrev Num := StateM Ev

def noteNan : Num Unit := modify (fun v => { v with fl := { v.fl with nan := true } })
def noteSat : Num Unit := modify (fun v => { v with fl := { v.fl with sat := v.fl.sat + 1 } })
def noteUnder : Num Unit := modify (fun v => { v with fl := { v.fl with under := v.fl.under + 1 } })
def noteWritten (n : Nat) : Num Unit :=
  modify (fun v => { v with fl := { v.fl with written := v.fl.written + n } })
def noteOvf (n : Nat) : Num Unit := modify (fun v => { v with fl := { v.fl with ovf := v.fl.ovf + n } })
def noteInvalid : Num Unit := modify (fun v => { v with xf := { v.xf with invalid := true } })
def noteDivZero : Num Unit := modify (fun v => { v with xf := { v.xf with divZero := true } })
def noteOverflow : Num Unit := modify (fun v => { v with xf := { v.xf with overflow := true, inexact := true } })
def noteUnderflow : Num Unit := modify (fun v => { v with xf := { v.xf with underflow := true, inexact := true } })
def noteInexact : Num Unit := modify (fun v => { v with xf := { v.xf with inexact := true } })

/-- The NaN an operation generates from operands that are not NaN: positive, NAN_SEEN, invalid (R70, R114). -/
def invalidNan : Num Val := do
  noteNan
  noteInvalid
  return .nan false

/-- The NaN result that takes the sign of a NaN operand (R70); a NaN source sets NAN_SEEN. -/
def passNan (neg : Bool) : Num Val := do
  noteNan
  return .nan neg

/-- Whether a nonzero exact value is tiny for an encoding (IEEE 754: before or after rounding, which the
standard leaves to the implementation: Config.tinyBefore). -/
def isTiny (c : Enc) (rm : Nat) (neg : Bool) (m : Nat) (e : Int) : Bool :=
  let least : Int := 1 - (c.bias : Int)
  let before := decide (msbExp m e < least)
  let q := msbExp m e - c.man
  let r := roundAt rm neg m e q
  let after := decide (msbExp r.1 q < least)
  if Config.tinyBefore then before else after

/-- IEEE rounding of an exact value to an encoding under rm (R113), with the exceptions of R114. -/
def ieeeCode (c : Enc) (rm : Nat) (v : Val) : Num Nat := do
  match v with
  | .nan neg => return nanOf c neg
  | .inf neg => return infCode c neg
  | .num neg m e =>
    let r := roundMag c rm neg m e
    if c.maxCode < r.1 then
      noteOverflow
      let toMax := rm == 2 || (rm == 3 && neg) || (rm == 4 && !neg)
      return if toMax then signed c neg c.maxCode else infCode c neg
    else
      if m ≠ 0 && r.2 then
        noteInexact
        if isTiny c rm neg m e then noteUnderflow
      return signed c neg r.1

/-- IEEE rounding, read back as a value. -/
def ieee (c : Enc) (rm : Nat) (v : Val) : Num Val := do
  let k ← ieeeCode c rm v
  return decodeVal c k

/-- An exact signed integer × 2^e as a value; a zero takes the sign given. -/
def ofInt (s : Int) (e : Int) (zeroNeg : Bool) : Val :=
  if s = 0 then .num zeroNeg 0 0 else .num (decide (s < 0)) s.natAbs e

/-- A signed magnitude as an integer multiple of 2^q, for q ≤ e. -/
def toUnits (neg : Bool) (m : Nat) (e q : Int) : Int :=
  let k : Int := (scaleTo m e q : Nat)
  if neg then -k else k

/-- The exact sum of two finite values. The sign of a zero sum follows IEEE 754 under rm. -/
def exactAdd (rm : Nat) (n1 : Bool) (m1 : Nat) (e1 : Int) (n2 : Bool) (m2 : Nat) (e2 : Int) : Val :=
  if m1 = 0 ∧ m2 = 0 then .num (if n1 = n2 then n1 else rm == 4) 0 0
  else if m1 = 0 then .num n2 m2 e2
  else if m2 = 0 then .num n1 m1 e1
  else
    let q := min e1 e2
    ofInt (toUnits n1 m1 e1 q + toUnits n2 m2 e2 q) q (rm == 4)

/-- The sum before rounding. -/
def addVal (rm : Nat) (a b : Val) : Num Val :=
  match a, b with
  | .nan s, _ => passNan s
  | _, .nan s => passNan s
  | .inf s, .inf t => if s = t then pure (.inf s) else invalidNan
  | .inf s, _ => pure (.inf s)
  | _, .inf t => pure (.inf t)
  | .num n1 m1 e1, .num n2 m2 e2 => pure (exactAdd rm n1 m1 e1 n2 m2 e2)

/-- A value with its sign turned over. A NaN keeps its sign (R70: the sign of the operand). -/
def negVal : Val → Val
  | .num n m e => .num (!n) m e
  | .inf n => .inf (!n)
  | .nan n => .nan n

/-- The product before rounding. -/
def mulVal (a b : Val) : Num Val :=
  match a, b with
  | .nan s, _ => passNan s
  | _, .nan s => passNan s
  | .inf s, .inf t => pure (.inf (s != t))
  | .inf s, .num t m _ => if m = 0 then invalidNan else pure (.inf (s != t))
  | .num s m _, .inf t => if m = 0 then invalidNan else pure (.inf (s != t))
  | .num n1 m1 e1, .num n2 m2 e2 => pure (.num (n1 != n2) (m1 * m2) (e1 + e2))

/-- a·b + c before rounding: the product is exact. The NaN sign is that of the first NaN of a, b, c. -/
def fmaVal (rm : Nat) (a b c : Val) : Num Val :=
  match a, b, c with
  | .nan s, _, _ => passNan s
  | _, .nan s, _ => passNan s
  | _, _, .nan s => do
    let _ ← mulVal a b
    passNan s
  | _, _, _ => do
    let p ← mulVal a b
    match p with
    | .nan s => return .nan s
    | q => addVal rm q c

/-- The quotient before rounding, with at least 64 quotient bits and a last bit that says whether a
remainder is left. -/
def divVal (a b : Val) : Num Val :=
  match a, b with
  | .nan s, _ => passNan s
  | _, .nan s => passNan s
  | .inf _, .inf _ => invalidNan
  | .inf s, .num t _ _ => pure (.inf (s != t))
  | .num s _ _, .inf t => pure (.num (s != t) 0 0)
  | .num n1 m1 e1, .num n2 m2 e2 =>
    if m2 = 0 then
      if m1 = 0 then invalidNan
      else do
        noteDivZero
        return .inf (n1 != n2)
    else
      let sh := 64 + bitLen m2
      let q := m1 * 2 ^ sh / m2
      let r := m1 * 2 ^ sh % m2
      pure (.num (n1 != n2) (2 * q + (if r = 0 then 0 else 1)) (e1 - e2 - sh - 1))

/-- Integer square root, bit by bit from bit i downward: the largest r with r² ≤ n, starting from acc. -/
def isqrt (n : Nat) : Nat → Nat → Nat
  | 0, acc => if (acc + 1) * (acc + 1) ≤ n then acc + 1 else acc
  | i + 1, acc =>
    let t := acc + 2 ^ (i + 1)
    isqrt n i (if t * t ≤ n then t else acc)

/-- The square root before rounding, with a last bit that says whether a remainder is left. -/
def sqrtVal (a : Val) : Num Val :=
  match a with
  | .nan s => passNan s
  | .inf s => if s then invalidNan else pure (.inf false)
  | .num n m e =>
    if m = 0 then pure (.num n 0 0)
    else if n then invalidNan
    else
      let odd := e % 2 != 0
      let m' := m * 2 ^ (if odd then 101 else 100)
      let e' := if odd then e - 101 else e - 100
      let r := isqrt m' 80 0
      pure (.num false (2 * r + (if r * r = m' then 0 else 1)) (e' / 2 - 1))

/-- Order of two values that are not NaN, −0 below +0 (R115). -/
def ltVal (a b : Val) : Bool :=
  match a, b with
  | .inf s, .inf t => s && !t
  | .inf s, _ => s
  | _, .inf t => !t
  | .num n1 m1 e1, .num n2 m2 e2 =>
    let q := min e1 e2
    let x := toUnits n1 m1 e1 q
    let y := toUnits n2 m2 e2 q
    decide (x < y) || (decide (x = y) && n1 && !n2)
  | _, _ => false

/-- Minimum and maximum; a NaN operand gives a NaN (R70). -/
def minVal (a b : Val) : Num Val :=
  match a, b with
  | .nan s, _ => passNan s
  | _, .nan s => passNan s
  | x, y => pure (if ltVal y x then y else x)

def maxVal (a b : Val) : Num Val :=
  match a, b with
  | .nan s, _ => passNan s
  | _, .nan s => passNan s
  | x, y => pure (if ltVal x y then y else x)

/-- Zeros of the two signs, one, and integers. -/
def zeroV : Val := .num false 0 0
def oneV : Val := .num false 1 0
def natV (n : Nat) : Val := .num false n 0

def Val.isZero : Val → Bool
  | .num _ m _ => m == 0
  | _ => false

def Val.isNan : Val → Bool
  | .nan _ => true
  | _ => false

def Val.isInf : Val → Bool
  | .inf _ => true
  | _ => false

def Val.neg : Val → Bool
  | .num n _ _ => n
  | .inf n => n
  | .nan n => n

/-- The binary32 operations of the fixed procedures: one correctly rounded step each, ties to even (R113). -/
def add32 (a b : Val) : Num Val := addVal 0 a b >>= ieee e32 0
def sub32 (a b : Val) : Num Val :=
  match a, b with
  | .nan s, _ => passNan s
  | _, .nan s => passNan s
  | x, y => add32 x (negVal y)
def mul32 (a b : Val) : Num Val := mulVal a b >>= ieee e32 0
def fma32 (a b c : Val) : Num Val := fmaVal 0 a b c >>= ieee e32 0
def div32 (a b : Val) : Num Val := divVal a b >>= ieee e32 0
def sqrt32 (a : Val) : Num Val := sqrtVal a >>= ieee e32 0

/-- A value of a binary32 code. -/
def v32 (code : Nat) : Val := decodeVal e32 code

/-- Conversion to an encoding under R69 and R70, ties to even: overflow by sat_off, the counts of SAT_COUNT
and of underflow events, NAN_SEEN for a NaN source. A NaN in a format without NaN is its block's matter (R70).
DEDUCED: a rounding, an overflow and an underflow are IEEE exceptions here too, which R114 has each VE command collect. -/
def convertCode (c : Enc) (satOff : Bool) (v : Val) : Num Nat := do
  match v with
  | .nan neg =>
    noteNan
    return nanOf c neg
  | .inf neg =>
    if satOff && c.hasInf then return infCode c neg
    noteSat
    if satOff && c.nanCode.isSome then return nanOf c neg
    return signed c neg c.maxCode
  | .num neg m e =>
    let r := roundMag c 0 neg m e
    if c.maxCode < r.1 then
      noteSat
      noteOverflow
      if satOff && c.hasInf then return infCode c neg
      if satOff && c.nanCode.isSome then return nanOf c neg
      return signed c neg c.maxCode
    else
      if m ≠ 0 && r.1 == 0 then noteUnder
      if m ≠ 0 && r.2 then
        noteInexact
        if isTiny c 0 neg m e then noteUnderflow
      return signed c neg r.1

/-- Stored bytes of a long-format code: F19 sits above 13 zero bits (R63). -/
def longBytes (f code : Nat) : List Byte :=
  match f with
  | 0 => [BitVec.ofNat 8 code, BitVec.ofNat 8 (code / 256), BitVec.ofNat 8 (code / 65536), BitVec.ofNat 8 (code / 16777216)]
  | 3 => [0, BitVec.ofNat 8 (code * 32), BitVec.ofNat 8 (code / 8), BitVec.ofNat 8 (code / 2048)]
  | _ => [BitVec.ofNat 8 code, BitVec.ofNat 8 (code / 256)]

/-- The value of a stored long-format element (R62, R63). -/
def longVal (f raw : Nat) : Val :=
  if f = 3 then decodeVal e19 (raw / 8192) else decodeVal (encOf f) raw

/-- Whether a stored long-format element is a signaling NaN: the top fraction bit of a NaN is 0 (IEEE 754-2019 6.2.1). -/
def signaling (f raw : Nat) : Bool :=
  let c := encOf f
  let k := if f = 3 then raw / 8192 else raw
  decide (c.maxCode + 1 < k % 2 ^ (c.exp + c.man)) && !bit k (c.man - 1)

/-- A stored operand that is a signaling NaN raises invalid (R113, R114). -/
def noteSignal (f raw : Nat) : Num Unit := if signaling f raw then noteInvalid else pure ()

/-- A matrix-engine operand: converted to F19 under R63 and R64. -/
def toF19 (f : Nat) (rne : Bool) (raw : Nat) : Val :=
  match f with
  | 0 =>
    match decodeVal e32 raw with
    | .nan s => .nan s
    | .inf s => .inf s
    | .num s m e =>
      let r := roundMag e19 (if rne then 0 else 2) s m e
      decodeVal e19 (signed e19 s r.1)
  | _ => longVal f raw

/-- floor(log2 |v|) of a finite nonzero value. -/
def floorLog2 : Val → Int
  | .num _ m e => msbExp m e
  | _ => 127

/-- A value divided by 2^s. -/
def scaleDown (v : Val) (s : Int) : Val :=
  match v with
  | .num n m e => .num n m (e - s)
  | w => w

/-- The larger magnitude of two values; NaNs are left out, an infinity counts as the largest finite binary32
value unless infinities are kept (R71, R122). -/
def amaxStep (infKeep : Bool) (a v : Val) : Val :=
  let mag := match v with
    | .num _ m e => Val.num false m e
    | .inf _ => if infKeep then zeroV else v32 0x7F7FFFFF
    | .nan _ => zeroV
  if ltVal a mag then mag else a

/-- The scale byte of a block (R71): floor(log2 amax) − emax clamped to −127 … 127, biased by 127. DESIGN CHOICE: where amax is 0
though an element is not (zeros beside NaNs, or beside infinities that are kept), R71 states no scale; 0x7F is taken, and the
zeros keep their signs (log 98). -/
def blockScale (f : Nat) (infKeep : Bool) (vs : List Val) : Nat :=
  let amax := vs.foldl (amaxStep infKeep) zeroV
  if amax.isZero then 0x7F
  else (max (-127) (min 127 (floorLog2 amax - emaxOf f)) + 127).toNat

/-- One T2 code (R122): +1, −1 or 0 by the threshold in 1/256 of the scale; a nonzero source written as 0 is
an underflow event. -/
def t2Code (thr : Nat) (q : Val) : Num Nat :=
  match q with
  | .num neg m e =>
    if m = 0 then pure 0
    else if !(ltVal (.num false m e) (.num false thr (-8))) then pure (if neg then 3 else 1)
    else do
      noteUnder
      return 0
  | .inf neg => pure (if neg then 3 else 1)
  | .nan _ => pure 0

/-- A block of 32 values quantised (R71, R122): scale byte and 32 element codes. keep = inf_keep. -/
def quantBlock (f : Nat) (satOff keep : Bool) (thr : Nat) (vs : List Val) : Num (Nat × List Nat) := do
  let noNan := (encOf f).nanCode.isNone
  let anyNan := vs.any Val.isNan
  let anyInf := vs.any Val.isInf
  if anyNan then noteNan
  if noNan && (anyNan || (keep && anyInf)) then
    if keep || f != 9 then
      let _ ← vs.mapM (fun v => if v.isInf then noteSat else pure ())
    return (0xFF, vs.map (fun _ => 0))
  else
    let x := blockScale f keep vs
    let zero := x == 0x7F && vs.all Val.isZero
    let s : Int := (x : Int) - 127
    let cs ← vs.mapM (fun v =>
      if zero then pure 0
      else if f = 9 then t2Code thr (scaleDown (if v.isInf then (if v.neg then v32 0xFF7FFFFF else v32 0x7F7FFFFF) else v) s)
      else match v with
        | .inf neg =>
          if keep then
            if (encOf f).hasInf then pure (infCode (encOf f) neg)
            else do
              noteSat
              return nanOf (encOf f) neg
          else convertCode (encOf f) satOff v
        | w => convertCode (encOf f) satOff (scaleDown w s))
    return (x, cs)

/-- The exact value of an element code of a block format, its scale left out (R65, R67). -/
def elemVal (f code : Nat) : Val :=
  if f = 9 then (match code with | 1 => .num false 1 0 | 3 => .num true 1 0 | _ => zeroV)
  else decodeVal (encOf f) code

/-- The value of an element under its scale byte; 0xFF makes it NaN (R66). -/
def elemScaled (f x code : Nat) : Val :=
  if x = 0xFF then .nan false
  else match elemVal f code with
    | .num n m e => .num n m (e + ((x : Int) - 127))
    | w => w

/-- Element codes of a block packed under R68, as bytes. -/
def packCodes (f : Nat) (cs : List Nat) : List Byte :=
  let w := fmtBits f
  let n := cs.foldr (fun c acc => c % 2 ^ w + acc * 2 ^ w) 0
  (List.range (blockBytes f)).map (fun i => BitVec.ofNat 8 (n / 256 ^ i))

/-- Element i of a stored block, read as a little-endian number (R68: every packing is the plain
little-endian string of its elements). -/
def codeAt (f blk i : Nat) : Nat := blk / 2 ^ (fmtBits f * i) % 2 ^ fmtBits f

/-- K per CCLK cycle of a pair under R72; 0 marks an illegal pair. -/
def kPerCycle (fa fb : Nat) : Nat :=
  if isLong fa && isLong fb then 4
  else if isLong fa || isLong fb then 0
  else if fa = 9 then 0
  else if fa = 5 && fb = 5 then 0
  else if fa = 8 && (fb == 8 || fb == 9) then 32
  else 16

/-- The units of 2^−25 of a product of two finite element values (R74). -/
def prodUnits (a b : Val) : Int :=
  match a, b with
  | .num n1 m1 e1, .num n2 m2 e2 => toUnits (n1 != n2) (m1 * m2) (e1 + e2) (-25)
  | _, _ => 0

/-- The block register and its state (R74, R75): the sum in units of 2^−25 and the special state. -/
inductive BlockSt where
  | fin (s : Int)
  | inf (neg : Bool)
  | nan
  deriving DecidableEq, Repr

/-- One product entering the block register. -/
def blockAdd (st : BlockSt) (a b : Val) : BlockSt :=
  match st, a, b with
  | .nan, _, _ => .nan
  | _, .nan _, _ => .nan
  | _, _, .nan _ => .nan
  | st, .num n1 m1 e1, .num n2 m2 e2 =>
    match st with
    | .fin s => .fin (s + prodUnits (.num n1 m1 e1) (.num n2 m2 e2))
    | w => w
  | st, x, y =>
    if x.isZero || y.isZero then .nan
    else
      let neg := x.neg != y.neg
      match st with
      | .fin _ => .inf neg
      | .inf t => if t = neg then .inf t else .nan
      | .nan => .nan

/-- The block value V (R76) handed to the accumulator. -/
def blockValue (st : BlockSt) (xa xb : Nat) : Num Val := do
  if xa = 0xFF ∨ xb = 0xFF then passNan false
  else match st with
    | .nan => passNan false
    | .inf neg => return .inf neg
    | .fin s => return ofInt s (-25 + ((xa : Int) - 127) + ((xb : Int) - 127)) false

/-- The leading 27 bits of a magnitude (R79). -/
def trunc27 (neg : Bool) (m : Nat) (e : Int) : Val :=
  let d := bitLen m - 27
  .num neg (m / 2 ^ d) (e + d)

/-- Adding a value to an accumulator (R79). -/
def accAdd (acc x : Val) : Num Val :=
  match acc, x with
  | .nan _, _ => pure (.nan false)
  | _, .nan _ => passNan false
  | .inf s, .inf t => if s = t then pure (.inf s) else passNan false
  | .inf s, _ => pure (.inf s)
  | _, .inf t => pure (.inf t)
  | .num n1 m1 e1, .num n2 m2 e2 =>
    if m2 = 0 then pure (.num n1 m1 e1)
    else if m1 = 0 then pure (trunc27 n2 m2 e2)
    else
      let lo := max (msbExp m1 e1) (msbExp m2 e2) - 26
      let s := toUnits n1 (scaleTo m1 e1 lo) lo lo + toUnits n2 (scaleTo m2 e2 lo) lo lo
      pure (if s = 0 then zeroV else trunc27 (decide (s < 0)) s.natAbs lo)

/-- An exact product of two F19 values for the accumulator (R77). -/
def accProd (a b : Val) : Num Val := do
  match ← mulVal a b with
  | .nan _ => passNan false
  | v => return v

/-- Output rounding of an accumulator or of any value to a long format (R80): the stored bytes. -/
def outBytes (f : Nat) (satOff : Bool) (v : Val) : Num (List Byte) := do
  noteWritten 1
  let w := match v with
    | .num _ 0 _ => zeroV
    | u => u
  let c ← convertCode (encOf f) satOff w
  return longBytes f c

end Sys2Proof.Machine
end

