-- ==== Sys2Proof/Machine/Store.lean ====
section
/-! DEFINITION. Sparse maps and the memories: reading and writing bytes with the canonical form kept,
poison marks (R388), and the free bytes of an unpredictable region (R2). -/

namespace Sys2Proof.Machine
open Sys2Proof

/-- The value a sparse map holds at a key; d where the key is not listed. -/
def look {κ α : Type} [DecidableEq κ] (d : α) (m : List (κ × α)) (k : κ) : α :=
  match m with
  | [] => d
  | (j, v) :: t => if j = k then v else look d t k

/-- A sparse map with one key set. -/
def put {κ α : Type} [DecidableEq κ] (m : List (κ × α)) (k : κ) (v : α) : List (κ × α) :=
  match m with
  | [] => [(k, v)]
  | (j, w) :: t => if j = k then (k, v) :: t else (j, w) :: put t k v

/-- A list with one member more. -/
def insertNew {α : Type} [DecidableEq α] (a : α) (l : List α) : List α := if a ∈ l then l else a :: l

/-- A sparse map without the keys p picks: they read as the default again. -/
def without {κ α : Type} (p : κ → Bool) (m : List (κ × α)) : List (κ × α) :=
  m.filter (fun e => !p e.1)

/-- The listed cell at an address. -/
def cellAt (m : List Host.Cell) (a : Nat) : Option Byte :=
  match m with
  | [] => none
  | (j, b) :: t => if j = a then some b else cellAt t a

/-- Insert or replace a cell, keeping addresses rising. -/
def setCell (m : List Host.Cell) (a : Nat) (b : Byte) : List Host.Cell :=
  match m with
  | [] => [(a, b)]
  | (j, c) :: t => if a < j then (a, b) :: (j, c) :: t
      else if a = j then (a, b) :: t else (j, c) :: setCell t a b

/-- Reading a byte of a device memory: an unlisted byte is 0, as clearing left it (R290). -/
def getByte (m : List Host.Cell) (a : Nat) : Byte := (cellAt m a).getD 0

/-- Writing a byte of a device memory in canonical form: a zero byte is unlisted. -/
def setByte (m : List Host.Cell) (a : Nat) (b : Byte) : List Host.Cell :=
  if b = 0 then m.filter (fun c => c.1 ≠ a) else setCell m a b

/-- Addresses strictly rising. -/
def rising : List Host.Cell → Bool
  | [] => true
  | [_] => true
  | (a, _) :: (b, c) :: t => decide (a < b) && rising ((b, c) :: t)

/-- The canonical form of a device memory: rising, and no cell equal to what an unlisted byte reads as. -/
def canonical (m : List Host.Cell) : Bool := rising m && m.all (fun c => c.2 ≠ 0)

/-- The canonical form of all memories. Host memory and flash list what was written to them, in rising order. -/
def Mems.wf (m : Mems) : Bool :=
  canonical m.tm && canonical m.hbm && canonical m.sfu && canonical m.coma && canonical m.tcu &&
    rising m.host && rising m.flash

/-- Flash slot A is the first 64 MiB, slot B the next (R400); erases of the slot that holds an address. -/
def flashEra (m : Mems) (a : Nat) : Nat := if a < 0x400_0000 then m.erasedA else m.erasedB

/-- One byte of a space. -/
def Mems.byte (m : Mems) (sp : Space) (a : Nat) : Byte :=
  match sp with
  | .tm => getByte m.tm a
  | .hbm => getByte m.hbm a
  | .host => (cellAt m.host a).getD (Config.hostByte a)
  | .sfu => getByte m.sfu a
  | .coma => getByte m.coma a
  | .tcu => getByte m.tcu a
  | .flash => (cellAt m.flash a).getD (Config.flashByte (flashEra m a) a)

/-- One byte of a space written. -/
def Mems.setByteAt (m : Mems) (sp : Space) (a : Nat) (b : Byte) : Mems :=
  match sp with
  | .tm => { m with tm := setByte m.tm a b }
  | .hbm => { m with hbm := setByte m.hbm a b }
  | .host => { m with host := setCell m.host a b }
  | .sfu => { m with sfu := setByte m.sfu a b }
  | .coma => { m with coma := setByte m.coma a b }
  | .tcu => { m with tcu := setByte m.tcu a b }
  | .flash => { m with flash := setCell m.flash a b }

/-- A byte string written upward from an address, without regard to poison. -/
def Mems.put (m : Mems) (sp : Space) (a : Nat) : List Byte → Mems
  | [] => m
  | b :: t => (m.setByteAt sp a b).put sp (a + 1) t

/-- The poison of every whole word or sector inside a written range is cleared (R388). -/
def Mems.unpoison (m : Mems) (sp : Space) (a n : Nat) : Mems :=
  let fresh := fun (size w : Nat) => !(decide (a ≤ w * size) && decide (w * size + size ≤ a + n))
  match sp with
  | .tm => { m with tmPoison := m.tmPoison.filter (fresh 8) }
  | .hbm => { m with hbmPoison := m.hbmPoison.filter (fresh 64) }
  | .sfu => { m with sfuPoison := m.sfuPoison.filter (fresh 8) }
  | .coma => { m with comaPoison := m.comaPoison.filter (fresh 8) }
  | _ => m

/-- Whether every byte of unit w of a size lies in one of the ranges of a space. -/
def unitCovered (ss : List Span) (sp : Space) (size w : Nat) : Bool :=
  (List.range size).all (fun i => ss.any (fun s => decide (s.space = sp) && decide (s.base ≤ w * size + i) && decide (w * size + i < s.base + s.len)))

/-- The poison of every word or sector that ranges written together cover whole is cleared (R388). -/
def Mems.clearPoison (m : Mems) (ss : List Span) : Mems :=
  { m with tmPoison := m.tmPoison.filter (fun w => !unitCovered ss .tm 8 w)
           hbmPoison := m.hbmPoison.filter (fun w => !unitCovered ss .hbm 64 w)
           sfuPoison := m.sfuPoison.filter (fun w => !unitCovered ss .sfu 8 w)
           comaPoison := m.comaPoison.filter (fun w => !unitCovered ss .coma 8 w) }

/-- A byte string written to a space. -/
def Mems.write (m : Mems) (sp : Space) (a : Nat) (bs : List Byte) : Mems :=
  (m.put sp a bs).unpoison sp a bs.length

/-- n bytes of a space. -/
def Mems.bytes (m : Mems) (sp : Space) (a n : Nat) : List Byte :=
  (List.range n).map (fun i => m.byte sp (a + i))

/-- A little-endian number of n bytes (R7). -/
def Mems.num (m : Mems) (sp : Space) (a : Nat) : Nat → Nat
  | 0 => 0
  | n + 1 => (m.byte sp a).toNat + 256 * m.num sp (a + 1) n

/-- A number as n little-endian bytes. -/
def leBytes : Nat → Nat → List Byte
  | 0, _ => []
  | n + 1, v => BitVec.ofNat 8 v :: leBytes n (v / 256)

/-- Little-endian bytes as a number. -/
def ofLe : List Byte → Nat
  | [] => 0
  | b :: t => b.toNat + 256 * ofLe t

/-- Whether a range of a space holds poisoned data (R388). -/
def Mems.poisoned (m : Mems) (sp : Space) (a n : Nat) : Bool :=
  let met := fun (size w : Nat) => decide (w * size < a + n) && decide (a < w * size + size)
  match sp with
  | .tm => m.tmPoison.any (met 8)
  | .hbm => m.hbmPoison.any (met 64)
  | .sfu => m.sfuPoison.any (met 8)
  | .coma => m.comaPoison.any (met 8)
  | _ => false

/-- Poison the word or sector that holds an address. -/
def Mems.poison (m : Mems) (sp : Space) (a : Nat) : Mems :=
  match sp with
  | .tm => { m with tmPoison := insertNew (a / 8) m.tmPoison }
  | .hbm => { m with hbmPoison := insertNew (a / 64) m.hbmPoison }
  | .sfu => { m with sfuPoison := insertNew (a / 8) m.sfuPoison }
  | .coma => { m with comaPoison := insertNew (a / 8) m.comaPoison }
  | _ => m

/-- Clear an address range of a device memory to zero: its cells become unlisted. -/
def clearCells (m : List Host.Cell) (lo hi : Nat) : List Host.Cell :=
  m.filter (fun c => !(decide (lo ≤ c.1) && decide (c.1 < hi)))

/-- A flash slot erased (R410): nothing is programmed in it. -/
def Mems.eraseSlot (m : Mems) (b : Bool) : Mems :=
  if b then { m with flash := clearCells m.flash 0x400_0000 0x800_0000, erasedB := m.erasedB + 1 }
  else { m with flash := clearCells m.flash 0 0x400_0000, erasedA := m.erasedA + 1 }

/-- 16 MiB of tile memory a core (R16), 128 GiB of address room a die's HBM (R285). -/
def tmSize : Nat := 0x100_0000
def hbmStride : Nat := 0x20_0000_0000
def hbmSize : Nat := 0x18_0000_0000

/-- Where a core's tile memory, a die's HBM and a port's host memory start in their spaces. -/
def tmBase (d c : Nat) : Nat := (d * 64 + c) * tmSize
def hbmBase (d : Nat) : Nat := d * hbmStride
def hostBase (n : Nat) : Nat := n * 2 ^ 64

/-- A bus address of a port's host. DESIGN CHOICE: bus addresses wrap at 2^64, so that no ring reaches past its own host (R2, log 138). -/
def hostAt (n a : Nat) : Nat := hostBase n + a % 2 ^ 64

/-- The free bytes of an unpredictable region: draw number c, n of them. -/
def freeBytes (c n : Nat) : List Byte := (List.range n).map (Config.freeByte c)

end Sys2Proof.Machine
end

