-- ==== Sys2Proof/Machine/Regs.lean ====
section
/-! DEFINITION. The register space (R420, R435): every register of every page with its offset, array size
and stride, the bits a write sets (RW), the bits a write of 1 clears (W1C), and its reset value, row by
row from the register tables of the chapters; the names the meanings use; reading and writing the file. -/

namespace Sys2Proof.Machine
open Sys2Proof

/-- A row of a register table: name, offset, number of registers, stride, RW bits, W1C bits, reset value. -/
structure RegRow where
  name : String
  off : Nat
  cnt : Nat
  stride : Nat
  rw : Nat
  w1c : Nat
  reset : Nat
  /-- 1 a 32-bit counter, 2 the LO word of a 64-bit counter, else 0 -/
  ctr : Nat
  deriving DecidableEq, Repr

/-- The common header (R431). -/
def rows_hdr : List RegRow := [
  ⟨"PAGE_ID", 0x0, 1, 4, 0x0, 0x0, 0x0, 0⟩,
  ⟨"PAGE_VER", 0x4, 1, 4, 0x0, 0x0, 0x10000, 0⟩,
  ⟨"PAGE_CAP", 0x8, 1, 4, 0x0, 0x0, 0x0, 0⟩,
  ⟨"PAGE_CTRL", 0xC, 1, 4, 0x0, 0x0, 0x0, 0⟩,
  ⟨"PAGE_STAT", 0x10, 1, 4, 0x0, 0x0, 0x0, 0⟩,
  ⟨"IRQ_RAW", 0x14, 1, 4, 0x0, 0x0, 0x0, 0⟩,
  ⟨"IRQ_EN", 0x18, 1, 4, 0xF, 0x0, 0x0, 0⟩,
  ⟨"IRQ_STAT", 0x1C, 1, 4, 0x0, 0xF, 0x0, 0⟩,
  ⟨"IRQ_SET", 0x20, 1, 4, 0x0, 0x0, 0x0, 0⟩,
  ⟨"FAULT_CODE", 0x24, 1, 4, 0x0, 0x0, 0x0, 0⟩,
  ⟨"FAULT_INFO0", 0x28, 1, 4, 0x0, 0x0, 0x0, 0⟩,
  ⟨"FAULT_INFO1", 0x2C, 1, 4, 0x0, 0x0, 0x0, 0⟩,
  ⟨"OWNER", 0x30, 1, 4, 0x0, 0x0, 0x0, 0⟩,
  ⟨"reserved", 0x34, 1, 4, 0x0, 0x0, 0x0, 0⟩]

/-- Block registers: sem (R58). -/
def rows_sem : List RegRow := [
  ⟨"SEM_SEL", 0x40, 1, 4, 0xFFF, 0x0, 0x0, 0⟩,
  ⟨"SEM_DATA", 0x44, 1, 4, 0xFFFF, 0x10000, 0x0, 0⟩,
  ⟨"SEM_SAT_NUM", 0x48, 1, 4, 0x0, 0x0, 0x0, 0⟩,
  ⟨"SEM_TIMEOUT_CNT", 0x4C, 1, 4, 0x0, 0x0, 0x0, 1⟩,
  ⟨"SEM_LATE_CNT", 0x50, 1, 4, 0x0, 0x0, 0x0, 1⟩,
  ⟨"WCTR_ADD_REJ", 0x54, 1, 4, 0x0, 0x0, 0x0, 1⟩,
  ⟨"SEM_PLAN_SEL", 0x58, 1, 4, 0x7, 0x0, 0x0, 0⟩,
  ⟨"CMT_SLOT_i", 0x60, 16, 4, 0xFFFFFFFF, 0x0, 0x0, 0⟩,
  ⟨"WCTR_VAL_i", 0x100, 64, 4, 0xFFFFFFFF, 0x0, 0x0, 0⟩,
  ⟨"WCTR_LIM_i", 0x200, 64, 4, 0xFFFFFFFF, 0x0, 0xFFFFFFFF, 0⟩]

/-- Block registers: coreDie (R106). -/
def rows_coreDie : List RegRow := [
  ⟨"CORE_LFLAG_CLR", 0x40, 1, 4, 0x0, 0x0, 0x0, 0⟩,
  ⟨"CORE_RAMP_LVL", 0x44, 1, 4, 0x0, 0x0, 0x0, 0⟩,
  ⟨"CORE_RAMP_STALL_LO", 0x48, 1, 4, 0x0, 0x0, 0x0, 2⟩,
  ⟨"CORE_RAMP_STALL_HI", 0x4C, 1, 4, 0x0, 0x0, 0x0, 0⟩,
  ⟨"CORE_LFLAG_LO_i", 0x800, 256, 8, 0x0, 0x0, 0x0, 0⟩,
  ⟨"CORE_LFLAG_HI_i", 0x804, 256, 8, 0x0, 0x0, 0x0, 0⟩]

/-- Block registers: core (R107, R134). -/
def rows_core : List RegRow := [
  ⟨"CORE_SEQ_IDX", 0x40, 1, 4, 0x0, 0x0, 0x0, 0⟩,
  ⟨"CORE_FLAG_LAST_LO", 0x44, 1, 4, 0x0, 0x0, 0x0, 0⟩,
  ⟨"CORE_FLAG_LAST_HI", 0x48, 1, 4, 0x0, 0x0, 0x0, 0⟩,
  ⟨"CORE_ME_SPARE", 0x4C, 1, 4, 0x0, 0x0, 0x0, 0⟩,
  ⟨"CORE_RES_ME_CNT", 0x50, 1, 4, 0x0, 0x0, 0x0, 1⟩,
  ⟨"CORE_RES_CP_CNT", 0x54, 1, 4, 0x0, 0x0, 0x0, 1⟩,
  ⟨"CORE_VE_XFLAGS", 0x100, 1, 4, 0x0, 0x1F, 0x0, 0⟩,
  ⟨"CORE_SFU_SLOTS", 0x104, 1, 4, 0x0, 0x0, 0x0, 0⟩,
  ⟨"CORE_VE_BUSY_LO", 0x108, 1, 4, 0x0, 0x0, 0x0, 2⟩,
  ⟨"CORE_VE_BUSY_HI", 0x10C, 1, 4, 0x0, 0x0, 0x0, 0⟩,
  ⟨"CORE_SFU_E1_CNT", 0x110, 1, 4, 0x0, 0x0, 0x0, 1⟩,
  ⟨"CORE_VE_NAN_CNT", 0x114, 1, 4, 0x0, 0x0, 0x0, 1⟩]

/-- Block registers: kvt (R161). -/
def rows_kvt : List RegRow := [
  ⟨"KVT_CFG", 0x40, 1, 4, 0x1FF, 0x0, 0x20, 0⟩,
  ⟨"KVT_SEL", 0x44, 1, 4, 0x7FFF, 0x0, 0x0, 0⟩,
  ⟨"KVT_ENT0_LO", 0x48, 1, 4, 0xFFFFFFFF, 0x0, 0x0, 0⟩,
  ⟨"KVT_ENT0_HI", 0x4C, 1, 4, 0xFFFFFFFF, 0x0, 0x0, 0⟩,
  ⟨"KVT_ENT1_LO", 0x50, 1, 4, 0xFFFFFFFF, 0x0, 0x0, 0⟩,
  ⟨"KVT_ENT1_HI", 0x54, 1, 4, 0xFFFFFFFF, 0x0, 0x0, 0⟩,
  ⟨"KVT_FRAME_BASE_LO", 0x58, 1, 4, 0xFFFFF000, 0x0, 0x0, 0⟩,
  ⟨"KVT_FRAME_BASE_HI", 0x5C, 1, 4, 0xFFFFFFFF, 0x0, 0x0, 0⟩,
  ⟨"KVT_FRAME_CNT", 0x60, 1, 4, 0xFFFFF, 0x0, 0x0, 0⟩,
  ⟨"KVT_FRAME_FREE", 0x64, 1, 4, 0x0, 0x0, 0x0, 0⟩,
  ⟨"KVT_SPILL_LO", 0x68, 1, 4, 0xFFFFF, 0x0, 0x0, 0⟩,
  ⟨"KVT_SPILL_HI", 0x6C, 1, 4, 0xFFFFF, 0x0, 0x0, 0⟩,
  ⟨"KVT_HOST_BASE_LO", 0x70, 1, 4, 0xFFFFF000, 0x0, 0x0, 0⟩,
  ⟨"KVT_HOST_BASE_HI", 0x74, 1, 4, 0xFFFFFFFF, 0x0, 0x0, 0⟩,
  ⟨"KVT_EPOCH", 0x78, 1, 4, 0x0, 0x0, 0x0, 0⟩,
  ⟨"KVT_MISS_CNT", 0x80, 1, 4, 0x0, 0x0, 0x0, 1⟩,
  ⟨"KVT_SPILL_CNT", 0x84, 1, 4, 0x0, 0x0, 0x0, 1⟩,
  ⟨"KVT_SPILL_ABORT", 0x88, 1, 4, 0x0, 0x0, 0x0, 1⟩,
  ⟨"KVT_OP_REJ", 0x8C, 1, 4, 0x0, 0x0, 0x0, 1⟩,
  ⟨"KVT_FREE_USE", 0x90, 1, 4, 0x0, 0x0, 0x0, 1⟩,
  ⟨"KVT_ALLOC_HOST", 0x94, 1, 4, 0x0, 0x0, 0x0, 1⟩,
  ⟨"KVT_TIDE_SKIP", 0x98, 1, 4, 0x0, 0x0, 0x0, 1⟩]

/-- Block registers: pxe (R183). -/
def rows_pxe : List RegRow := [
  ⟨"PXE_IN_CTRL", 0x40, 1, 4, 0xFFF1F01, 0x0, 0x0, 0⟩,
  ⟨"PXE_IN_GEOM", 0x44, 1, 4, 0xFFFFFFFF, 0x0, 0x0, 0⟩,
  ⟨"PXE_IN_BASE_LO", 0x48, 1, 4, 0xFFFFF000, 0x0, 0x0, 0⟩,
  ⟨"PXE_IN_BASE_HI", 0x4C, 1, 4, 0xFFFFFFFF, 0x0, 0x0, 0⟩,
  ⟨"PXE_IN_PITCH", 0x50, 1, 4, 0xFFFFFFFF, 0x0, 0x0, 0⟩,
  ⟨"PXE_CFG", 0x54, 1, 4, 0x3F, 0x0, 0x0, 0⟩,
  ⟨"PXE_OUT_CTRL", 0x60, 1, 4, 0xFFF1F01, 0x0, 0x0, 0⟩,
  ⟨"PXE_OUT_GEOM", 0x64, 1, 4, 0xFFFFFFFF, 0x0, 0x0, 0⟩,
  ⟨"PXE_OUT_BASE_LO", 0x68, 1, 4, 0xFFFFF000, 0x0, 0x0, 0⟩,
  ⟨"PXE_OUT_BASE_HI", 0x6C, 1, 4, 0xFFFFFFFF, 0x0, 0x0, 0⟩,
  ⟨"PXE_OUT_PITCH", 0x70, 1, 4, 0xFFFFFFFF, 0x0, 0x0, 0⟩,
  ⟨"PXE_PIX_LO", 0x80, 1, 4, 0x0, 0x0, 0x0, 2⟩,
  ⟨"PXE_PIX_HI", 0x84, 1, 4, 0x0, 0x0, 0x0, 0⟩,
  ⟨"PXE_CLAMP_CNT", 0x88, 1, 4, 0x0, 0x0, 0x0, 1⟩,
  ⟨"PXE_COMA_SEL", 0x90, 1, 4, 0x3FF, 0x0, 0x0, 0⟩,
  ⟨"PXE_COMA_DATA_i", 0x94, 4, 4, 0x0, 0x0, 0x0, 0⟩,
  ⟨"PXE_COMA_VALID", 0xA4, 1, 4, 0x0, 0x0, 0x0, 0⟩]

/-- Block registers: ast (R212). -/
def rows_ast : List RegRow := [
  ⟨"AST_CFG", 0x40, 1, 4, 0x3F, 0x0, 0x0, 0⟩,
  ⟨"AST_BASE_LO", 0x44, 1, 4, 0xFFFFF000, 0x0, 0x0, 0⟩,
  ⟨"AST_BASE_HI", 0x48, 1, 4, 0xFFFFFFFF, 0x0, 0x0, 0⟩,
  ⟨"AST_HBM_SIZE_LO", 0x4C, 1, 4, 0xFFFFF000, 0x0, 0x0, 0⟩,
  ⟨"AST_HBM_SIZE_HI", 0x50, 1, 4, 0xFFFFFFFF, 0x0, 0x0, 0⟩,
  ⟨"AST_LIMIT_LO", 0x54, 1, 4, 0x0, 0x0, 0x0, 0⟩,
  ⟨"AST_LIMIT_HI", 0x58, 1, 4, 0x0, 0x0, 0x0, 0⟩,
  ⟨"AST_HOST_BASE_LO", 0x5C, 1, 4, 0xFFFFF000, 0x0, 0x0, 0⟩,
  ⟨"AST_HOST_BASE_HI", 0x60, 1, 4, 0xFFFFFFFF, 0x0, 0x0, 0⟩,
  ⟨"AST_SP_LO", 0x64, 1, 4, 0x0, 0x0, 0x0, 0⟩,
  ⟨"AST_SP_HI", 0x68, 1, 4, 0x0, 0x0, 0x0, 0⟩,
  ⟨"AST_SPILL_MARK_LO", 0x6C, 1, 4, 0x0, 0x0, 0x0, 0⟩,
  ⟨"AST_SPILL_MARK_HI", 0x70, 1, 4, 0x0, 0x0, 0x0, 0⟩,
  ⟨"AST_RES_MARK_LO", 0x74, 1, 4, 0x0, 0x0, 0x0, 0⟩,
  ⟨"AST_RES_MARK_HI", 0x78, 1, 4, 0x0, 0x0, 0x0, 0⟩,
  ⟨"AST_PEAK_LO", 0x7C, 1, 4, 0x0, 0x0, 0x0, 0⟩,
  ⟨"AST_PEAK_HI", 0x80, 1, 4, 0x0, 0x0, 0x0, 0⟩,
  ⟨"AST_MISS_CNT", 0x84, 1, 4, 0x0, 0x0, 0x0, 1⟩,
  ⟨"AST_RAW_LO", 0x88, 1, 4, 0x0, 0x0, 0x0, 2⟩,
  ⟨"AST_RAW_HI", 0x8C, 1, 4, 0x0, 0x0, 0x0, 0⟩,
  ⟨"AST_STORED_LO", 0x90, 1, 4, 0x0, 0x0, 0x0, 2⟩,
  ⟨"AST_STORED_HI", 0x94, 1, 4, 0x0, 0x0, 0x0, 0⟩,
  ⟨"AST_CTRL", 0x98, 1, 4, 0x0, 0x0, 0x0, 0⟩,
  ⟨"AST_PLAN_SEL", 0x9C, 1, 4, 0x7, 0x0, 0x0, 0⟩]

/-- Block registers: hbmc (R236). -/
def rows_hbmc : List RegRow := [
  ⟨"HBMC_STAT", 0x40, 1, 4, 0x0, 0x0, 0x0, 0⟩,
  ⟨"HBMC_C0_WAIT_MAX", 0x44, 1, 4, 0x0, 0x0, 0x0, 0⟩,
  ⟨"HBMC_IDLE_LO", 0x48, 1, 4, 0x0, 0x0, 0x0, 2⟩,
  ⟨"HBMC_IDLE_HI", 0x4C, 1, 4, 0x0, 0x0, 0x0, 0⟩,
  ⟨"HBMC_OPEN_LO", 0x50, 1, 4, 0x0, 0x0, 0x0, 2⟩,
  ⟨"HBMC_OPEN_HI", 0x54, 1, 4, 0x0, 0x0, 0x0, 0⟩,
  ⟨"HBMC_EDGE_WAIT", 0x58, 1, 4, 0x0, 0x0, 0x0, 1⟩,
  ⟨"TIDE_FIRED", 0x80, 1, 4, 0x0, 0x0, 0x0, 1⟩,
  ⟨"TIDE_DONE", 0x84, 1, 4, 0x0, 0x0, 0x0, 1⟩,
  ⟨"TIDE_RESTART", 0x88, 1, 4, 0x0, 0x0, 0x0, 1⟩,
  ⟨"TIDE_MISS_CNT", 0x8C, 1, 4, 0x0, 0x0, 0x0, 1⟩,
  ⟨"HOST_RD_LO", 0x90, 1, 4, 0x0, 0x0, 0x0, 2⟩,
  ⟨"HOST_RD_HI", 0x94, 1, 4, 0x0, 0x0, 0x0, 0⟩,
  ⟨"HOST_WR_LO", 0x98, 1, 4, 0x0, 0x0, 0x0, 2⟩,
  ⟨"HOST_WR_HI", 0x9C, 1, 4, 0x0, 0x0, 0x0, 0⟩,
  ⟨"HBMC_PLAN_BASE_LO_i", 0x100, 8, 16, 0xFFE00000, 0x0, 0x0, 0⟩,
  ⟨"HBMC_PLAN_BASE_HI_i", 0x104, 8, 16, 0xFFFFFFFF, 0x0, 0x0, 0⟩,
  ⟨"HBMC_PLAN_SIZE_LO_i", 0x108, 8, 16, 0xFFE00000, 0x0, 0x0, 0⟩,
  ⟨"HBMC_PLAN_SIZE_HI_i", 0x10C, 8, 16, 0xFFFFFFFF, 0x0, 0x0, 0⟩]

/-- Block registers: tcu (R252). -/
def rows_tcu : List RegRow := [
  ⟨"TCU_TBL_VALID_i", 0x40, 8, 4, 0x0, 0x0, 0x0, 0⟩,
  ⟨"TCU_TBL_SEL", 0x60, 1, 4, 0xFF, 0x0, 0x0, 0⟩,
  ⟨"TCU_TBL_DATA_i", 0x80, 32, 4, 0x0, 0x0, 0x0, 0⟩,
  ⟨"TCU_RAW_LO", 0x100, 1, 4, 0x0, 0x0, 0x0, 2⟩,
  ⟨"TCU_RAW_HI", 0x104, 1, 4, 0x0, 0x0, 0x0, 0⟩,
  ⟨"TCU_STORED_LO", 0x108, 1, 4, 0x0, 0x0, 0x0, 2⟩,
  ⟨"TCU_STORED_HI", 0x10C, 1, 4, 0x0, 0x0, 0x0, 0⟩,
  ⟨"TCU_BLK_RAW", 0x110, 1, 4, 0x0, 0x0, 0x0, 1⟩,
  ⟨"TCU_PROT_RAW", 0x114, 1, 4, 0x0, 0x0, 0x0, 1⟩,
  ⟨"TCU_OVERRUN_CNT", 0x118, 1, 4, 0x0, 0x0, 0x0, 1⟩,
  ⟨"TCU_UNDERRUN_CNT", 0x11C, 1, 4, 0x0, 0x0, 0x0, 1⟩,
  ⟨"TCU_CRC_CNT", 0x120, 1, 4, 0x0, 0x0, 0x0, 1⟩]

/-- Block registers: jlink (R280). -/
def rows_jlink : List RegRow := [
  ⟨"JLINK_STAT", 0x40, 1, 4, 0x0, 0x0, 0x0, 0⟩,
  ⟨"JLINK_SPARE", 0x44, 1, 4, 0x0, 0x0, 0x0, 0⟩,
  ⟨"JLINK_MARGIN", 0x48, 1, 4, 0x0, 0x0, 0x0, 0⟩,
  ⟨"JLINK_MARGIN_THR", 0x4C, 1, 4, 0xFFFFFFFF, 0x0, 0x3C0078, 0⟩,
  ⟨"JLINK_CRC_CNT", 0x50, 1, 4, 0x0, 0x0, 0x0, 1⟩,
  ⟨"JLINK_RETRY_CNT", 0x54, 1, 4, 0x0, 0x0, 0x0, 1⟩,
  ⟨"JLINK_CRSTALL_LO", 0x58, 1, 4, 0x0, 0x0, 0x0, 2⟩,
  ⟨"JLINK_CRSTALL_HI", 0x5C, 1, 4, 0x0, 0x0, 0x0, 0⟩,
  ⟨"JLINK_WAIT_IN_LO", 0x60, 1, 4, 0x0, 0x0, 0x0, 2⟩,
  ⟨"JLINK_WAIT_IN_HI", 0x64, 1, 4, 0x0, 0x0, 0x0, 0⟩,
  ⟨"JLINK_TX_FLITS_LO", 0x68, 1, 4, 0x0, 0x0, 0x0, 2⟩,
  ⟨"JLINK_TX_FLITS_HI", 0x6C, 1, 4, 0x0, 0x0, 0x0, 0⟩,
  ⟨"COLL_WD_DEFAULT", 0x80, 1, 4, 0xFFFF, 0x0, 0x64, 0⟩,
  ⟨"COLL_LAGGARD", 0x84, 1, 4, 0x0, 0x0, 0x0, 0⟩,
  ⟨"COLL_LAG_STEP", 0x88, 1, 4, 0x0, 0x0, 0x0, 0⟩,
  ⟨"COLL_TOKEN_WAIT_LO", 0x8C, 1, 4, 0x0, 0x0, 0x0, 2⟩,
  ⟨"COLL_TOKEN_WAIT_HI", 0x90, 1, 4, 0x0, 0x0, 0x0, 0⟩,
  ⟨"COLL_STEPS", 0x94, 1, 4, 0x0, 0x0, 0x0, 1⟩,
  ⟨"COLL_ABANDON", 0x98, 1, 4, 0x0, 0x0, 0x0, 1⟩,
  ⟨"COLL_LAGGARD_CNT_i", 0xA0, 16, 4, 0x0, 0x0, 0x0, 1⟩]

/-- Block registers: hq0 (R316). -/
def rows_hq0 : List RegRow := [
  ⟨"HQ_STAT", 0x40, 1, 4, 0x0, 0x0, 0x0, 0⟩,
  ⟨"HQ_PART_REQ", 0x44, 1, 4, 0x0, 0x0, 0x0, 0⟩,
  ⟨"HQ_PART_RESP", 0x48, 1, 4, 0x0, 0x0, 0x0, 0⟩,
  ⟨"HQ_STEP_WD", 0x4C, 1, 4, 0xFFFF, 0x0, 0x0, 0⟩,
  ⟨"HQ_QSEL", 0x50, 1, 4, 0x7, 0x0, 0x0, 0⟩,
  ⟨"HQ_QCFG", 0x54, 1, 4, 0x137FFFF, 0x0, 0x0, 0⟩,
  ⟨"HQ_QBASE_LO", 0x58, 1, 4, 0xFFFFF000, 0x0, 0x0, 0⟩,
  ⟨"HQ_QBASE_HI", 0x5C, 1, 4, 0xFFFFFFFF, 0x0, 0x0, 0⟩,
  ⟨"HQ_CQ_BASE_LO", 0x60, 1, 4, 0xFFFFF000, 0x0, 0x0, 0⟩,
  ⟨"HQ_CQ_BASE_HI", 0x64, 1, 4, 0xFFFFFFFF, 0x0, 0x0, 0⟩,
  ⟨"HQ_CQ_SIZE", 0x68, 1, 4, 0xFFFF, 0x0, 0x0, 0⟩,
  ⟨"HQ_CQ_HEAD", 0x6C, 1, 4, 0xFFFF, 0x0, 0x0, 0⟩,
  ⟨"HQ_CQ_TAIL", 0x70, 1, 4, 0x0, 0x0, 0x0, 0⟩,
  ⟨"HQ_CQ_VEC", 0x74, 1, 4, 0x3F, 0x0, 0x0, 0⟩,
  ⟨"HQ_DB_i", 0x80, 8, 4, 0x0, 0x0, 0x0, 0⟩,
  ⟨"HQ_HEAD_i", 0xA0, 8, 4, 0x0, 0x0, 0x0, 0⟩,
  ⟨"HQ_WSEL", 0xC0, 1, 4, 0xF, 0x0, 0x0, 0⟩,
  ⟨"HQ_WBASE_LO", 0xC4, 1, 4, 0xFFFFF000, 0x0, 0x0, 0⟩,
  ⟨"HQ_WBASE_HI", 0xC8, 1, 4, 0xFFFFFFFF, 0x0, 0x0, 0⟩,
  ⟨"HQ_WSIZE_LO", 0xCC, 1, 4, 0xFFFFF000, 0x0, 0x0, 0⟩,
  ⟨"HQ_WSIZE_HI", 0xD0, 1, 4, 0xFFFFFFFF, 0x0, 0x0, 0⟩,
  ⟨"HQ_SSEL", 0xE0, 1, 4, 0x7, 0x0, 0x0, 0⟩,
  ⟨"HQ_SAVE_BASE_LO", 0xE4, 1, 4, 0xFFE00000, 0x0, 0x0, 0⟩,
  ⟨"HQ_SAVE_BASE_HI", 0xE8, 1, 4, 0xFFFFFFFF, 0x0, 0x0, 0⟩,
  ⟨"HQ_SAVE_SIZE_LO", 0xEC, 1, 4, 0xFFE00000, 0x0, 0x0, 0⟩,
  ⟨"HQ_SAVE_SIZE_HI", 0xF0, 1, 4, 0xFFFFFFFF, 0x0, 0x0, 0⟩,
  ⟨"HQ_C0_LAT_LAST", 0x100, 1, 4, 0x0, 0x0, 0x0, 0⟩,
  ⟨"HQ_C0_LAT_MAX", 0x104, 1, 4, 0x0, 0x0, 0x0, 0⟩,
  ⟨"HQ_C0_LATE_CNT", 0x108, 1, 4, 0x0, 0x0, 0x0, 1⟩,
  ⟨"HQ_ECLIPSE_CNT", 0x10C, 1, 4, 0x0, 0x0, 0x0, 1⟩,
  ⟨"HQ_YIELD_CNT", 0x110, 1, 4, 0x0, 0x0, 0x0, 1⟩,
  ⟨"HQ_KILL_CNT", 0x114, 1, 4, 0x0, 0x0, 0x0, 1⟩,
  ⟨"HQ_REJ_CNT", 0x118, 1, 4, 0x0, 0x0, 0x0, 1⟩,
  ⟨"HQ_WD_LATE_CNT", 0x11C, 1, 4, 0x0, 0x0, 0x0, 1⟩]

/-- Block registers: part (R319). -/
def rows_part : List RegRow := [
  ⟨"PART_ROWS", 0x40, 1, 4, 0x0, 0x0, 0x0, 0⟩,
  ⟨"PART_ROW_OK", 0x44, 1, 4, 0x0, 0x0, 0x0, 0⟩,
  ⟨"PART_ALLOW", 0x48, 1, 4, 0x0, 0x0, 0xFFFF, 0⟩,
  ⟨"PART_P_i", 0x50, 4, 4, 0x0, 0x0, 0x0, 0⟩,
  ⟨"PART_CREATE_CNT", 0x60, 1, 4, 0x0, 0x0, 0x0, 1⟩,
  ⟨"PART_REJECT_CNT", 0x64, 1, 4, 0x0, 0x0, 0x0, 1⟩,
  ⟨"PART_TEARDOWN_CNT", 0x68, 1, 4, 0x0, 0x0, 0x0, 1⟩]

/-- Block registers: pwrG (R339). -/
def rows_pwrG : List RegRow := [
  ⟨"PWR_STAT", 0x40, 1, 4, 0x0, 0x0, 0x0, 0⟩,
  ⟨"PWR_IN_V", 0x44, 1, 4, 0x0, 0x0, 0x0, 0⟩,
  ⟨"PWR_IN_I", 0x48, 1, 4, 0x0, 0x0, 0x0, 0⟩,
  ⟨"PWR_BUDGET", 0x4C, 1, 4, 0xFFFFFFFF, 0x0, 0x21341D4C, 0⟩,
  ⟨"PWR_CAL", 0x50, 1, 4, 0x0, 0x0, 0x4000003C, 0⟩,
  ⟨"PWR_BUCKET", 0x54, 1, 4, 0x0, 0x0, 0x2710, 0⟩,
  ⟨"PWR_CUT_CNT", 0x58, 1, 4, 0x0, 0x0, 0x0, 1⟩,
  ⟨"PWR_UV_CNT", 0x5C, 1, 4, 0x0, 0x0, 0x0, 1⟩,
  ⟨"PWR_FLOOR_i", 0x60, 4, 4, 0x1F, 0x0, 0x0, 0⟩,
  ⟨"PWR_E_LO_p_s", 0x100, 36, 8, 0x0, 0x0, 0x0, 2⟩,
  ⟨"PWR_E_HI_p_s", 0x104, 36, 8, 0x0, 0x0, 0x0, 0⟩,
  ⟨"PWR_E_UNATTR_LO", 0x220, 1, 4, 0x0, 0x0, 0x0, 2⟩,
  ⟨"PWR_E_UNATTR_HI", 0x224, 1, 4, 0x0, 0x0, 0x0, 0⟩]

/-- Block registers: pwrD (R340). -/
def rows_pwrD : List RegRow := [
  ⟨"PWR_DIE_PT", 0x40, 1, 4, 0x7, 0x0, 0x70007, 0⟩,
  ⟨"PWR_LAT_TOL", 0x44, 1, 4, 0xFFFFFF, 0x0, 0x0, 0⟩,
  ⟨"PWR_MOON", 0x48, 1, 4, 0x0, 0x0, 0x0, 0⟩,
  ⟨"PWR_GRANT", 0x4C, 1, 4, 0x0, 0x0, 0x100010, 0⟩,
  ⟨"PWR_VF_i", 0x50, 8, 4, 0x0, 0x0, 0x0, 0⟩,
  ⟨"PWR_TEMP", 0x70, 1, 4, 0x0, 0x0, 0x0, 0⟩,
  ⟨"PWR_DROOP_CNT", 0x74, 1, 4, 0x0, 0x0, 0x0, 1⟩,
  ⟨"PWR_DROOP_DEFER", 0x78, 1, 4, 0x0, 0x0, 0x0, 1⟩,
  ⟨"PWR_MOON_UR", 0x7C, 1, 4, 0x0, 0x0, 0x0, 1⟩,
  ⟨"PWR_NEW_BASE_LO", 0x80, 1, 4, 0xFFE00000, 0x0, 0x0, 0⟩,
  ⟨"PWR_NEW_BASE_HI", 0x84, 1, 4, 0xFFFFFFFF, 0x0, 0x0, 0⟩,
  ⟨"PWR_THROT_LO", 0x88, 1, 4, 0x0, 0x0, 0x0, 2⟩,
  ⟨"PWR_THROT_HI", 0x8C, 1, 4, 0x0, 0x0, 0x0, 0⟩]

/-- Block registers: timeG (R357). -/
def rows_timeG : List RegRow := [
  ⟨"TIME_STAT", 0x40, 1, 4, 0x0, 0x200, 0x0, 0⟩,
  ⟨"TIME_CFG", 0x44, 1, 4, 0x1B, 0x0, 0x0, 0⟩,
  ⟨"TIME_NS_LO", 0x48, 1, 4, 0x0, 0x0, 0x0, 0⟩,
  ⟨"TIME_NS_HI", 0x4C, 1, 4, 0x0, 0x0, 0x0, 0⟩,
  ⟨"TIME_FRAC", 0x50, 1, 4, 0x0, 0x0, 0x0, 0⟩,
  ⟨"TIME_TOD_SEC_LO", 0x54, 1, 4, 0xFFFFFFFF, 0x0, 0x0, 0⟩,
  ⟨"TIME_TOD_SEC_HI", 0x58, 1, 4, 0xFFFFFFFF, 0x0, 0x0, 0⟩,
  ⟨"TIME_TOD_CTRL", 0x5C, 1, 4, 0x0, 0x0, 0x0, 0⟩,
  ⟨"TIME_UTC", 0x60, 1, 4, 0x7FFFF, 0x0, 0x25, 0⟩,
  ⟨"TIME_PHASE_ERR", 0x64, 1, 4, 0x0, 0x0, 0x0, 0⟩,
  ⟨"TIME_FREQ_ADJ", 0x68, 1, 4, 0x0, 0x0, 0x0, 0⟩,
  ⟨"TIME_HOLD_S", 0x6C, 1, 4, 0x0, 0x0, 0x0, 0⟩,
  ⟨"TIME_PTP_CFG", 0x70, 1, 4, 0xFFFFFF03, 0x0, 0x7FEDD303, 0⟩,
  ⟨"TIME_PTP_PRIO", 0x74, 1, 4, 0xFFFF, 0x0, 0x8080, 0⟩,
  ⟨"TIME_FP_CFG", 0x78, 1, 4, 0xFF8F, 0x0, 0xA01, 0⟩,
  ⟨"TIME_STRANGER_CNT_i", 0x80, 2, 4, 0x0, 0x0, 0x0, 1⟩,
  ⟨"TIME_ANN_TO_CNT", 0x88, 1, 4, 0x0, 0x0, 0x0, 1⟩,
  ⟨"TIME_LATE_CNT", 0x8C, 1, 4, 0x0, 0x0, 0x0, 1⟩,
  ⟨"TIME_STEP_CNT", 0x90, 1, 4, 0x0, 0x0, 0x0, 1⟩,
  ⟨"TIME_EDGE_REJ", 0x94, 1, 4, 0x0, 0x0, 0x0, 1⟩,
  ⟨"TIME_DREQ_DROP_i", 0x98, 2, 4, 0x0, 0x0, 0x0, 1⟩]

/-- Block registers: vcD (R379). -/
def rows_vcD : List RegRow := [
  ⟨"VC_DEC_CFG", 0x40, 1, 4, 0x1F, 0x0, 0x0, 0⟩,
  ⟨"VC_DEC_BS_BASE_LO", 0x44, 1, 4, 0xFFFFF000, 0x0, 0x0, 0⟩,
  ⟨"VC_DEC_BS_BASE_HI", 0x48, 1, 4, 0xFFFFFFFF, 0x0, 0x0, 0⟩,
  ⟨"VC_DEC_BS_SIZE", 0x4C, 1, 4, 0xFFFFF000, 0x0, 0x0, 0⟩,
  ⟨"VC_DEC_BS_WP", 0x50, 1, 4, 0xFFFFFFFF, 0x0, 0x0, 0⟩,
  ⟨"VC_DEC_BS_RP", 0x54, 1, 4, 0x0, 0x0, 0x0, 0⟩,
  ⟨"VC_DEC_CTRL", 0x58, 1, 4, 0x0, 0x0, 0x0, 0⟩,
  ⟨"VC_DEC_STAT", 0x5C, 1, 4, 0x0, 0x0, 0x0, 0⟩,
  ⟨"VC_DEC_PIC", 0x60, 1, 4, 0x0, 0x0, 0x0, 1⟩,
  ⟨"VC_DEC_ERR", 0x64, 1, 4, 0x0, 0x0, 0x0, 1⟩,
  ⟨"VC_ENC_CFG", 0x80, 1, 4, 0xFFFFFFFF, 0x0, 0x40020, 0⟩,
  ⟨"VC_ENC_RATE", 0x84, 1, 4, 0xFFFFFFFF, 0x0, 0x0, 0⟩,
  ⟨"VC_ENC_SCALE", 0x88, 1, 4, 0xFFFFFFFF, 0x0, 0x0, 0⟩,
  ⟨"VC_ENC_GOP", 0x8C, 1, 4, 0xFFFF, 0x0, 0x0, 0⟩,
  ⟨"VC_ENC_ROI_BASE_LO", 0x90, 1, 4, 0xFFFFF000, 0x0, 0x0, 0⟩,
  ⟨"VC_ENC_ROI_BASE_HI", 0x94, 1, 4, 0xFFFFFFFF, 0x0, 0x0, 0⟩,
  ⟨"VC_ENC_BS_BASE_LO", 0x98, 1, 4, 0xFFFFF000, 0x0, 0x0, 0⟩,
  ⟨"VC_ENC_BS_BASE_HI", 0x9C, 1, 4, 0xFFFFFFFF, 0x0, 0x0, 0⟩,
  ⟨"VC_ENC_BS_SIZE", 0xA0, 1, 4, 0xFFFFF000, 0x0, 0x0, 0⟩,
  ⟨"VC_ENC_BS_WP", 0xA4, 1, 4, 0x0, 0x0, 0x0, 0⟩,
  ⟨"VC_ENC_BS_RP", 0xA8, 1, 4, 0xFFFFFFFF, 0x0, 0x0, 0⟩,
  ⟨"VC_ENC_DST_A", 0xAC, 1, 4, 0xFFFFFFFF, 0x0, 0x0, 0⟩,
  ⟨"VC_ENC_DST_B", 0xB0, 1, 4, 0xFFFFFFFF, 0x0, 0x0, 0⟩,
  ⟨"VC_ENC_UDP", 0xB4, 1, 4, 0xFFFF7F3F, 0x0, 0x138C6022, 0⟩,
  ⟨"VC_ENC_SSRC", 0xB8, 1, 4, 0xFFFFFFFF, 0x0, 0x0, 0⟩,
  ⟨"VC_ENC_2110", 0xBC, 1, 4, 0xF, 0x0, 0x0, 0⟩,
  ⟨"VC_ENC_CTRL", 0xC0, 1, 4, 0x0, 0x0, 0x0, 0⟩,
  ⟨"VC_ENC_STAT", 0xC4, 1, 4, 0x0, 0x3000, 0x0, 0⟩,
  ⟨"VC_ENC_PIC", 0xC8, 1, 4, 0x0, 0x0, 0x0, 1⟩,
  ⟨"VC_ENC_LAT_MAX", 0xCC, 1, 4, 0x0, 0x0, 0x0, 0⟩,
  ⟨"VC_ENC_LATE_CNT", 0xD0, 1, 4, 0x0, 0x0, 0x0, 1⟩,
  ⟨"VC_ENC_BS_DROP", 0xD4, 1, 4, 0x0, 0x0, 0x0, 1⟩,
  ⟨"VC_MCAST_COLL_CNT", 0xD8, 1, 4, 0x0, 0x0, 0x0, 1⟩]

/-- Block registers: vcG (R381). -/
def rows_vcG : List RegRow := [
  ⟨"VC_CORE_i", 0x40, 16, 4, 0x0, 0x0, 0x0, 0⟩,
  ⟨"VC_E1_COEF_i", 0x100, 128, 4, 0x0, 0x0, 0x0, 0⟩]

/-- Block registers: netG (R382). -/
def rows_netG : List RegRow := [
  ⟨"NET_STAT_i", 0x40, 2, 64, 0x0, 0x0, 0x0, 0⟩,
  ⟨"NET_MAC_LO_i", 0x44, 2, 64, 0x0, 0x0, 0x0, 0⟩,
  ⟨"NET_MAC_HI_i", 0x48, 2, 64, 0x0, 0x0, 0x0, 0⟩,
  ⟨"NET_IP_i", 0x4C, 2, 64, 0xFFFFFFFF, 0x0, 0x0, 0⟩,
  ⟨"NET_VLAN_i", 0x50, 2, 64, 0x1EFFF, 0x0, 0x0, 0⟩,
  ⟨"NET_PTP_DSCP_i", 0x54, 2, 64, 0x3F, 0x0, 0x2E, 0⟩,
  ⟨"NET_TX_PKT_i", 0x58, 2, 64, 0x0, 0x0, 0x0, 1⟩,
  ⟨"NET_TX_DROP_i", 0x5C, 2, 64, 0x0, 0x0, 0x0, 1⟩,
  ⟨"NET_RX_DISC_i", 0x60, 2, 64, 0x0, 0x0, 0x0, 1⟩,
  ⟨"NET_RX_OVF_i", 0x64, 2, 64, 0x0, 0x0, 0x0, 1⟩]

/-- Block registers: tlmPath (R397). -/
def rows_tlmPath : List RegRow := [
  ⟨"TLM_STAT", 0x0, 1, 4, 0x1, 0x8, 0x1, 0⟩,
  ⟨"TLM_LVL", 0x4, 1, 4, 0x0, 0x0, 0x0, 0⟩,
  ⟨"TLM_DROP_TRACE", 0x8, 1, 4, 0x0, 0x0, 0x0, 1⟩,
  ⟨"TLM_DROP_PAIR", 0xC, 1, 4, 0x0, 0x0, 0x0, 1⟩,
  ⟨"TLM_COAL_LO", 0x10, 1, 4, 0x0, 0x0, 0x0, 2⟩,
  ⟨"TLM_COAL_HI", 0x14, 1, 4, 0x0, 0x0, 0x0, 0⟩,
  ⟨"TLM_ALARM_MERGE", 0x18, 1, 4, 0x0, 0x0, 0x0, 1⟩]

/-- Block registers: tlmD (R398). -/
def rows_tlmD : List RegRow := [
  ⟨"RAS_SRAM_CE", 0x60, 1, 4, 0x0, 0x0, 0x0, 1⟩,
  ⟨"RAS_SRAM_UE", 0x64, 1, 4, 0x0, 0x0, 0x0, 1⟩,
  ⟨"RAS_HBM_CE", 0x68, 1, 4, 0x0, 0x0, 0x0, 1⟩,
  ⟨"RAS_HBM_UE", 0x6C, 1, 4, 0x0, 0x0, 0x0, 1⟩,
  ⟨"RAS_SCRUB_SRAM", 0x70, 1, 4, 0x0, 0x0, 0x0, 1⟩,
  ⟨"RAS_SCRUB_HBM", 0x74, 1, 4, 0x0, 0x0, 0x0, 1⟩,
  ⟨"RAS_CORE_FAIL_LO", 0x78, 1, 4, 0x0, 0x0, 0x0, 0⟩,
  ⟨"RAS_CORE_FAIL_HI", 0x7C, 1, 4, 0x0, 0x0, 0x0, 0⟩]

/-- Block registers: tlmH (R398). -/
def rows_tlmH : List RegRow := [
  ⟨"TLM_HR_BASE_LO", 0x60, 1, 4, 0xFFFFF000, 0x0, 0x0, 0⟩,
  ⟨"TLM_HR_BASE_HI", 0x64, 1, 4, 0xFFFFFFFF, 0x0, 0x0, 0⟩,
  ⟨"TLM_HR_SIZE", 0x68, 1, 4, 0xFFFFF000, 0x0, 0x0, 0⟩,
  ⟨"TLM_HR_HEAD", 0x6C, 1, 4, 0xFFFFFFFF, 0x0, 0x0, 0⟩,
  ⟨"TLM_HR_TAIL", 0x70, 1, 4, 0x0, 0x0, 0x0, 0⟩,
  ⟨"TLM_HR_VEC", 0x74, 1, 4, 0x3F, 0x0, 0x0, 0⟩]

/-- Block registers: secG (R416). -/
def rows_secG : List RegRow := [
  ⟨"SEC_STAT", 0x40, 1, 4, 0x0, 0x0, 0x0, 0⟩,
  ⟨"SEC_FUSE", 0x44, 1, 4, 0x0, 0x0, 0x0, 0⟩,
  ⟨"SEC_BUNDLE_VER", 0x48, 1, 4, 0x0, 0x0, 0x0, 0⟩,
  ⟨"SEC_DBG_NONCE_LO", 0x4C, 1, 4, 0x0, 0x0, 0x0, 0⟩,
  ⟨"SEC_DBG_NONCE_HI", 0x50, 1, 4, 0x0, 0x0, 0x0, 0⟩,
  ⟨"SEC_DBG_CTRL", 0x54, 1, 4, 0x0, 0x0, 0x0, 0⟩,
  ⟨"SEC_KEY_CNT", 0x58, 1, 4, 0x0, 0x0, 0x0, 1⟩,
  ⟨"SEC_DBG_DENY_CNT", 0x5C, 1, 4, 0x0, 0x0, 0x0, 1⟩,
  ⟨"SEC_SPDM_CNT_i", 0x60, 4, 4, 0x0, 0x0, 0x0, 1⟩,
  ⟨"SEC_DBG_TOKEN_i", 0x80, 24, 4, 0x0, 0x0, 0x0, 0⟩]

/-- Block registers: secD (R417). -/
def rows_secD : List RegRow := [
  ⟨"SEC_PROT_CTRL", 0x40, 1, 4, 0x0, 0x0, 0x0, 0⟩,
  ⟨"SEC_PROT_STAT", 0x44, 1, 4, 0x0, 0x0, 0x0, 0⟩,
  ⟨"SEC_PROT_PAGES", 0x48, 1, 4, 0x0, 0x0, 0x0, 0⟩,
  ⟨"SEC_PROT_i", 0x80, 16, 4, 0xFFFFFFFF, 0x0, 0x0, 0⟩]

/-- Block registers: fwuG (R418). -/
def rows_fwuG : List RegRow := [
  ⟨"FWU_STATE", 0x40, 1, 4, 0x0, 0x0, 0x0, 0⟩,
  ⟨"FWU_ALLOW", 0x44, 1, 4, 0xF, 0x0, 0xF, 0⟩,
  ⟨"FWU_CONFIRMED", 0x48, 1, 4, 0x0, 0x0, 0x0, 0⟩,
  ⟨"FWU_HEALTH_LEFT", 0x4C, 1, 4, 0x0, 0x0, 0x0, 0⟩,
  ⟨"FWU_FALLBACK_CNT", 0x50, 1, 4, 0x0, 0x0, 0x0, 1⟩]

/-- Block registers: fwuH (R418). -/
def rows_fwuH : List RegRow := [
  ⟨"FWU_OP", 0x40, 1, 4, 0x0, 0x0, 0x0, 0⟩,
  ⟨"FWU_ADDR_LO", 0x44, 1, 4, 0xFFFFF000, 0x0, 0x0, 0⟩,
  ⟨"FWU_ADDR_HI", 0x48, 1, 4, 0xFFFFFFFF, 0x0, 0x0, 0⟩,
  ⟨"FWU_OFF", 0x4C, 1, 4, 0x3FF, 0x0, 0x0, 0⟩,
  ⟨"FWU_LEN", 0x50, 1, 4, 0x1FFFF, 0x0, 0x0, 0⟩,
  ⟨"FWU_TOTAL", 0x54, 1, 4, 0x3FFFFFF, 0x0, 0x0, 0⟩,
  ⟨"FWU_STATUS", 0x58, 1, 4, 0x0, 0x0, 0x0, 0⟩,
  ⟨"FWU_BLOCKS", 0x5C, 1, 4, 0x0, 0x0, 0x0, 0⟩]

/-- Block registers: dieG (R451). -/
def rows_dieG : List RegRow := [
  ⟨"DIE_BOOT_STAT", 0x40, 1, 4, 0x0, 0x0, 0x0, 0⟩,
  ⟨"DIE_RESET_CAUSE", 0x44, 1, 4, 0x0, 0x0, 0x1, 0⟩,
  ⟨"DIE_ROW_CTRL", 0x48, 1, 4, 0x0, 0x0, 0x0, 0⟩,
  ⟨"DIE_COOL_IN", 0x4C, 1, 4, 0x0, 0x0, 0x0, 0⟩,
  ⟨"DIE_COOL_OUT", 0x50, 1, 4, 0x0, 0x0, 0x0, 0⟩,
  ⟨"DIE_COOL_FLOW", 0x54, 1, 4, 0x0, 0x0, 0x0, 0⟩,
  ⟨"DIE_COOL_STAT", 0x58, 1, 4, 0x0, 0x0, 0x0, 0⟩,
  ⟨"DIE_SERIAL_LO", 0x5C, 1, 4, 0x0, 0x0, 0x0, 0⟩,
  ⟨"DIE_SERIAL_HI", 0x60, 1, 4, 0x0, 0x0, 0x0, 0⟩,
  ⟨"DIE_BOOT_MS", 0x64, 1, 4, 0x0, 0x0, 0x0, 0⟩]

/-- Block registers: dieD (R452). -/
def rows_dieD : List RegRow := [
  ⟨"DIE_ID", 0x40, 1, 4, 0x0, 0x0, 0x0, 0⟩,
  ⟨"DIE_BRING", 0x44, 1, 4, 0x0, 0x0, 0x0, 0⟩,
  ⟨"DIE_ST_FAIL", 0x48, 1, 4, 0x0, 0x0, 0x0, 0⟩]

/-- The rows of a page (R435), the common header apart. -/
def rowsOf : Page → List RegRow
  | .dieG => rows_dieG
  | .pwrG => rows_pwrG
  | .timeG => rows_timeG
  | .part => rows_part
  | .vcG => rows_vcG
  | .netG => rows_netG
  | .secG => rows_secG
  | .fwuG => rows_fwuG
  | .tlmG => (rows_tlmPath.map (fun r => { r with off := 0x40 + r.off })) ++
      (rows_tlmPath.map (fun r => { r with off := 0x80 + r.off })) ++
      (rows_tlmPath.map (fun r => { r with off := 0xC0 + r.off }))
  | .hq0 _ => rows_hq0
  | .hq1 _ => [⟨"HQ_C0_ENT_j", 0x40, 1008, 4, 0xFFFFFFFF, 0, 0, 0⟩]
  | .tlmH _ => (rows_tlmPath.map (fun r => { r with off := 0x40 + r.off })) ++ rows_tlmH
  | .fwuH _ => rows_fwuH
  | .dieD _ => rows_dieD
  | .pwrD _ => rows_pwrD
  | .hbmc _ s => if s = 0 then rows_hbmc else rows_hbmc.filter (fun r => decide (r.off < 0x80))
  | .jlink _ p => if p = 0 then rows_jlink else rows_jlink.filter (fun r => decide (r.off < 0x80))
  | .coreDie _ => rows_coreDie
  | .core _ _ => rows_core
  | .tcu _ _ => rows_tcu
  | .kvt _ => rows_kvt
  | .ast _ => rows_ast
  | .pxe _ => rows_pxe
  | .sem _ => rows_sem
  | .vcD _ => rows_vcD
  | .tlmD _ => (rows_tlmPath.map (fun r => { r with off := 0x40 + r.off })) ++ rows_tlmD
  | .secD _ => rows_secD

/-- Whether an offset is one of a row's registers. -/
def RegRow.covers (r : RegRow) (off : Nat) : Bool :=
  decide (r.off ≤ off) && decide ((off - r.off) / r.stride < r.cnt) && (off - r.off) % r.stride == 0

/-- The row an offset of a page belongs to; offsets below 0x040 are the common header's (R431). -/
def rowAt (r : Reg) : Option RegRow :=
  if r.off < 0x40 then rows_hdr.find? (·.covers r.off) else (rowsOf r.page).find? (·.covers r.off)

/-- The reset value of a register (R426: an offset no table lists reads 0). -/
def resetOf (r : Reg) : Word := BitVec.ofNat 32 (((rowAt r).map (·.reset)).getD 0)

/-- The value a register holds. -/
def Dev.reg (d : Dev) (r : Reg) : Word := look (resetOf r) d.regs r

/-- The value a register holds, as a number. -/
def Dev.rd (d : Dev) (r : Reg) : Nat := (d.reg r).toNat

/-- A register set. -/
def Dev.wr (d : Dev) (r : Reg) (v : Nat) : Dev := { d with regs := put d.regs r (BitVec.ofNat 32 v) }

/-- A LO/HI value. -/
def Dev.rd64 (d : Dev) (r : Reg) : Nat := d.rd r + 2 ^ 32 * d.rd ⟨r.page, r.off + 4⟩

/-- A field [hi:lo] of a register. -/
def Dev.fld (d : Dev) (r : Reg) (hi lo : Nat) : Nat := bits (d.rd r) hi lo

/-- A number with its bits [hi:lo] replaced. -/
def withBits (w hi lo v : Nat) : Nat :=
  w % 2 ^ lo + v % 2 ^ (hi + 1 - lo) * 2 ^ lo + w / 2 ^ (hi + 1) * 2 ^ (hi + 1)

/-- A field [hi:lo] of a register set. -/
def Dev.setFld (d : Dev) (r : Reg) (hi lo v : Nat) : Dev := d.wr r (withBits (d.rd r) hi lo v)

/-- Every register of the pages p picks returned to its reset value. -/
def Dev.resetPages (d : Dev) (p : Page → Bool) : Dev :=
  { d with regs := without (fun r => p r.page) d.regs, latches := without (fun l => p l.1) d.latches }

/-! The registers by their names. -/
namespace R

def SEM_SEL (d : Nat) : Reg := ⟨.sem d, 0x40⟩
def SEM_DATA (d : Nat) : Reg := ⟨.sem d, 0x44⟩
def SEM_SAT_NUM (d : Nat) : Reg := ⟨.sem d, 0x48⟩
def SEM_TIMEOUT_CNT (d : Nat) : Reg := ⟨.sem d, 0x4C⟩
def SEM_LATE_CNT (d : Nat) : Reg := ⟨.sem d, 0x50⟩
def WCTR_ADD_REJ (d : Nat) : Reg := ⟨.sem d, 0x54⟩
def SEM_PLAN_SEL (d : Nat) : Reg := ⟨.sem d, 0x58⟩
def CMT_SLOT (d : Nat) (i : Nat) : Reg := ⟨.sem d, 0x60 + 4 * i⟩
def WCTR_VAL (d : Nat) (i : Nat) : Reg := ⟨.sem d, 0x100 + 4 * i⟩
def WCTR_LIM (d : Nat) (i : Nat) : Reg := ⟨.sem d, 0x200 + 4 * i⟩
def CORE_LFLAG_CLR (d : Nat) : Reg := ⟨.coreDie d, 0x40⟩
def CORE_RAMP_LVL (d : Nat) : Reg := ⟨.coreDie d, 0x44⟩
def CORE_RAMP_STALL_LO (d : Nat) : Reg := ⟨.coreDie d, 0x48⟩
def CORE_RAMP_STALL_HI (d : Nat) : Reg := ⟨.coreDie d, 0x4C⟩
def CORE_LFLAG_LO (d : Nat) (i : Nat) : Reg := ⟨.coreDie d, 0x800 + 8 * i⟩
def CORE_LFLAG_HI (d : Nat) (i : Nat) : Reg := ⟨.coreDie d, 0x804 + 8 * i⟩
def CORE_SEQ_IDX (d : Nat) (c : Nat) : Reg := ⟨.core d c, 0x40⟩
def CORE_FLAG_LAST_LO (d : Nat) (c : Nat) : Reg := ⟨.core d c, 0x44⟩
def CORE_FLAG_LAST_HI (d : Nat) (c : Nat) : Reg := ⟨.core d c, 0x48⟩
def CORE_ME_SPARE (d : Nat) (c : Nat) : Reg := ⟨.core d c, 0x4C⟩
def CORE_RES_ME_CNT (d : Nat) (c : Nat) : Reg := ⟨.core d c, 0x50⟩
def CORE_RES_CP_CNT (d : Nat) (c : Nat) : Reg := ⟨.core d c, 0x54⟩
def CORE_VE_XFLAGS (d : Nat) (c : Nat) : Reg := ⟨.core d c, 0x100⟩
def CORE_SFU_SLOTS (d : Nat) (c : Nat) : Reg := ⟨.core d c, 0x104⟩
def CORE_VE_BUSY_LO (d : Nat) (c : Nat) : Reg := ⟨.core d c, 0x108⟩
def CORE_VE_BUSY_HI (d : Nat) (c : Nat) : Reg := ⟨.core d c, 0x10C⟩
def CORE_SFU_E1_CNT (d : Nat) (c : Nat) : Reg := ⟨.core d c, 0x110⟩
def CORE_VE_NAN_CNT (d : Nat) (c : Nat) : Reg := ⟨.core d c, 0x114⟩
def KVT_CFG (d : Nat) : Reg := ⟨.kvt d, 0x40⟩
def KVT_SEL (d : Nat) : Reg := ⟨.kvt d, 0x44⟩
def KVT_ENT0_LO (d : Nat) : Reg := ⟨.kvt d, 0x48⟩
def KVT_ENT0_HI (d : Nat) : Reg := ⟨.kvt d, 0x4C⟩
def KVT_ENT1_LO (d : Nat) : Reg := ⟨.kvt d, 0x50⟩
def KVT_ENT1_HI (d : Nat) : Reg := ⟨.kvt d, 0x54⟩
def KVT_FRAME_BASE_LO (d : Nat) : Reg := ⟨.kvt d, 0x58⟩
def KVT_FRAME_BASE_HI (d : Nat) : Reg := ⟨.kvt d, 0x5C⟩
def KVT_FRAME_CNT (d : Nat) : Reg := ⟨.kvt d, 0x60⟩
def KVT_FRAME_FREE (d : Nat) : Reg := ⟨.kvt d, 0x64⟩
def KVT_SPILL_LO (d : Nat) : Reg := ⟨.kvt d, 0x68⟩
def KVT_SPILL_HI (d : Nat) : Reg := ⟨.kvt d, 0x6C⟩
def KVT_HOST_BASE_LO (d : Nat) : Reg := ⟨.kvt d, 0x70⟩
def KVT_HOST_BASE_HI (d : Nat) : Reg := ⟨.kvt d, 0x74⟩
def KVT_EPOCH (d : Nat) : Reg := ⟨.kvt d, 0x78⟩
def KVT_MISS_CNT (d : Nat) : Reg := ⟨.kvt d, 0x80⟩
def KVT_SPILL_CNT (d : Nat) : Reg := ⟨.kvt d, 0x84⟩
def KVT_SPILL_ABORT (d : Nat) : Reg := ⟨.kvt d, 0x88⟩
def KVT_OP_REJ (d : Nat) : Reg := ⟨.kvt d, 0x8C⟩
def KVT_FREE_USE (d : Nat) : Reg := ⟨.kvt d, 0x90⟩
def KVT_ALLOC_HOST (d : Nat) : Reg := ⟨.kvt d, 0x94⟩
def KVT_TIDE_SKIP (d : Nat) : Reg := ⟨.kvt d, 0x98⟩
def PXE_IN_CTRL (d : Nat) : Reg := ⟨.pxe d, 0x40⟩
def PXE_IN_GEOM (d : Nat) : Reg := ⟨.pxe d, 0x44⟩
def PXE_IN_BASE_LO (d : Nat) : Reg := ⟨.pxe d, 0x48⟩
def PXE_IN_BASE_HI (d : Nat) : Reg := ⟨.pxe d, 0x4C⟩
def PXE_IN_PITCH (d : Nat) : Reg := ⟨.pxe d, 0x50⟩
def PXE_CFG (d : Nat) : Reg := ⟨.pxe d, 0x54⟩
def PXE_OUT_CTRL (d : Nat) : Reg := ⟨.pxe d, 0x60⟩
def PXE_OUT_GEOM (d : Nat) : Reg := ⟨.pxe d, 0x64⟩
def PXE_OUT_BASE_LO (d : Nat) : Reg := ⟨.pxe d, 0x68⟩
def PXE_OUT_BASE_HI (d : Nat) : Reg := ⟨.pxe d, 0x6C⟩
def PXE_OUT_PITCH (d : Nat) : Reg := ⟨.pxe d, 0x70⟩
def PXE_PIX_LO (d : Nat) : Reg := ⟨.pxe d, 0x80⟩
def PXE_PIX_HI (d : Nat) : Reg := ⟨.pxe d, 0x84⟩
def PXE_CLAMP_CNT (d : Nat) : Reg := ⟨.pxe d, 0x88⟩
def PXE_COMA_SEL (d : Nat) : Reg := ⟨.pxe d, 0x90⟩
def PXE_COMA_DATA (d : Nat) (i : Nat) : Reg := ⟨.pxe d, 0x94 + 4 * i⟩
def PXE_COMA_VALID (d : Nat) : Reg := ⟨.pxe d, 0xA4⟩
def AST_CFG (d : Nat) : Reg := ⟨.ast d, 0x40⟩
def AST_BASE_LO (d : Nat) : Reg := ⟨.ast d, 0x44⟩
def AST_BASE_HI (d : Nat) : Reg := ⟨.ast d, 0x48⟩
def AST_HBM_SIZE_LO (d : Nat) : Reg := ⟨.ast d, 0x4C⟩
def AST_HBM_SIZE_HI (d : Nat) : Reg := ⟨.ast d, 0x50⟩
def AST_LIMIT_LO (d : Nat) : Reg := ⟨.ast d, 0x54⟩
def AST_LIMIT_HI (d : Nat) : Reg := ⟨.ast d, 0x58⟩
def AST_HOST_BASE_LO (d : Nat) : Reg := ⟨.ast d, 0x5C⟩
def AST_HOST_BASE_HI (d : Nat) : Reg := ⟨.ast d, 0x60⟩
def AST_SP_LO (d : Nat) : Reg := ⟨.ast d, 0x64⟩
def AST_SP_HI (d : Nat) : Reg := ⟨.ast d, 0x68⟩
def AST_SPILL_MARK_LO (d : Nat) : Reg := ⟨.ast d, 0x6C⟩
def AST_SPILL_MARK_HI (d : Nat) : Reg := ⟨.ast d, 0x70⟩
def AST_RES_MARK_LO (d : Nat) : Reg := ⟨.ast d, 0x74⟩
def AST_RES_MARK_HI (d : Nat) : Reg := ⟨.ast d, 0x78⟩
def AST_PEAK_LO (d : Nat) : Reg := ⟨.ast d, 0x7C⟩
def AST_PEAK_HI (d : Nat) : Reg := ⟨.ast d, 0x80⟩
def AST_MISS_CNT (d : Nat) : Reg := ⟨.ast d, 0x84⟩
def AST_RAW_LO (d : Nat) : Reg := ⟨.ast d, 0x88⟩
def AST_RAW_HI (d : Nat) : Reg := ⟨.ast d, 0x8C⟩
def AST_STORED_LO (d : Nat) : Reg := ⟨.ast d, 0x90⟩
def AST_STORED_HI (d : Nat) : Reg := ⟨.ast d, 0x94⟩
def AST_CTRL (d : Nat) : Reg := ⟨.ast d, 0x98⟩
def AST_PLAN_SEL (d : Nat) : Reg := ⟨.ast d, 0x9C⟩
def HBMC_STAT (d : Nat) (s : Nat) : Reg := ⟨.hbmc d s, 0x40⟩
def HBMC_C0_WAIT_MAX (d : Nat) (s : Nat) : Reg := ⟨.hbmc d s, 0x44⟩
def HBMC_IDLE_LO (d : Nat) (s : Nat) : Reg := ⟨.hbmc d s, 0x48⟩
def HBMC_IDLE_HI (d : Nat) (s : Nat) : Reg := ⟨.hbmc d s, 0x4C⟩
def HBMC_OPEN_LO (d : Nat) (s : Nat) : Reg := ⟨.hbmc d s, 0x50⟩
def HBMC_OPEN_HI (d : Nat) (s : Nat) : Reg := ⟨.hbmc d s, 0x54⟩
def HBMC_EDGE_WAIT (d : Nat) (s : Nat) : Reg := ⟨.hbmc d s, 0x58⟩
def TIDE_FIRED (d : Nat) (s : Nat) : Reg := ⟨.hbmc d s, 0x80⟩
def TIDE_DONE (d : Nat) (s : Nat) : Reg := ⟨.hbmc d s, 0x84⟩
def TIDE_RESTART (d : Nat) (s : Nat) : Reg := ⟨.hbmc d s, 0x88⟩
def TIDE_MISS_CNT (d : Nat) (s : Nat) : Reg := ⟨.hbmc d s, 0x8C⟩
def HOST_RD_LO (d : Nat) (s : Nat) : Reg := ⟨.hbmc d s, 0x90⟩
def HOST_RD_HI (d : Nat) (s : Nat) : Reg := ⟨.hbmc d s, 0x94⟩
def HOST_WR_LO (d : Nat) (s : Nat) : Reg := ⟨.hbmc d s, 0x98⟩
def HOST_WR_HI (d : Nat) (s : Nat) : Reg := ⟨.hbmc d s, 0x9C⟩
def HBMC_PLAN_BASE_LO (d : Nat) (s : Nat) (i : Nat) : Reg := ⟨.hbmc d s, 0x100 + 16 * i⟩
def HBMC_PLAN_BASE_HI (d : Nat) (s : Nat) (i : Nat) : Reg := ⟨.hbmc d s, 0x104 + 16 * i⟩
def HBMC_PLAN_SIZE_LO (d : Nat) (s : Nat) (i : Nat) : Reg := ⟨.hbmc d s, 0x108 + 16 * i⟩
def HBMC_PLAN_SIZE_HI (d : Nat) (s : Nat) (i : Nat) : Reg := ⟨.hbmc d s, 0x10C + 16 * i⟩
def TCU_TBL_VALID (d : Nat) (t : Nat) (i : Nat) : Reg := ⟨.tcu d t, 0x40 + 4 * i⟩
def TCU_TBL_SEL (d : Nat) (t : Nat) : Reg := ⟨.tcu d t, 0x60⟩
def TCU_TBL_DATA (d : Nat) (t : Nat) (i : Nat) : Reg := ⟨.tcu d t, 0x80 + 4 * i⟩
def TCU_RAW_LO (d : Nat) (t : Nat) : Reg := ⟨.tcu d t, 0x100⟩
def TCU_RAW_HI (d : Nat) (t : Nat) : Reg := ⟨.tcu d t, 0x104⟩
def TCU_STORED_LO (d : Nat) (t : Nat) : Reg := ⟨.tcu d t, 0x108⟩
def TCU_STORED_HI (d : Nat) (t : Nat) : Reg := ⟨.tcu d t, 0x10C⟩
def TCU_BLK_RAW (d : Nat) (t : Nat) : Reg := ⟨.tcu d t, 0x110⟩
def TCU_PROT_RAW (d : Nat) (t : Nat) : Reg := ⟨.tcu d t, 0x114⟩
def TCU_OVERRUN_CNT (d : Nat) (t : Nat) : Reg := ⟨.tcu d t, 0x118⟩
def TCU_UNDERRUN_CNT (d : Nat) (t : Nat) : Reg := ⟨.tcu d t, 0x11C⟩
def TCU_CRC_CNT (d : Nat) (t : Nat) : Reg := ⟨.tcu d t, 0x120⟩
def JLINK_STAT (d : Nat) (p : Nat) : Reg := ⟨.jlink d p, 0x40⟩
def JLINK_SPARE (d : Nat) (p : Nat) : Reg := ⟨.jlink d p, 0x44⟩
def JLINK_MARGIN (d : Nat) (p : Nat) : Reg := ⟨.jlink d p, 0x48⟩
def JLINK_MARGIN_THR (d : Nat) (p : Nat) : Reg := ⟨.jlink d p, 0x4C⟩
def JLINK_CRC_CNT (d : Nat) (p : Nat) : Reg := ⟨.jlink d p, 0x50⟩
def JLINK_RETRY_CNT (d : Nat) (p : Nat) : Reg := ⟨.jlink d p, 0x54⟩
def JLINK_CRSTALL_LO (d : Nat) (p : Nat) : Reg := ⟨.jlink d p, 0x58⟩
def JLINK_CRSTALL_HI (d : Nat) (p : Nat) : Reg := ⟨.jlink d p, 0x5C⟩
def JLINK_WAIT_IN_LO (d : Nat) (p : Nat) : Reg := ⟨.jlink d p, 0x60⟩
def JLINK_WAIT_IN_HI (d : Nat) (p : Nat) : Reg := ⟨.jlink d p, 0x64⟩
def JLINK_TX_FLITS_LO (d : Nat) (p : Nat) : Reg := ⟨.jlink d p, 0x68⟩
def JLINK_TX_FLITS_HI (d : Nat) (p : Nat) : Reg := ⟨.jlink d p, 0x6C⟩
def COLL_WD_DEFAULT (d : Nat) (p : Nat) : Reg := ⟨.jlink d p, 0x80⟩
def COLL_LAGGARD (d : Nat) (p : Nat) : Reg := ⟨.jlink d p, 0x84⟩
def COLL_LAG_STEP (d : Nat) (p : Nat) : Reg := ⟨.jlink d p, 0x88⟩
def COLL_TOKEN_WAIT_LO (d : Nat) (p : Nat) : Reg := ⟨.jlink d p, 0x8C⟩
def COLL_TOKEN_WAIT_HI (d : Nat) (p : Nat) : Reg := ⟨.jlink d p, 0x90⟩
def COLL_STEPS (d : Nat) (p : Nat) : Reg := ⟨.jlink d p, 0x94⟩
def COLL_ABANDON (d : Nat) (p : Nat) : Reg := ⟨.jlink d p, 0x98⟩
def COLL_LAGGARD_CNT (d : Nat) (p : Nat) (i : Nat) : Reg := ⟨.jlink d p, 0xA0 + 4 * i⟩
def HQ_STAT (n : Nat) : Reg := ⟨.hq0 n, 0x40⟩
def HQ_PART_REQ (n : Nat) : Reg := ⟨.hq0 n, 0x44⟩
def HQ_PART_RESP (n : Nat) : Reg := ⟨.hq0 n, 0x48⟩
def HQ_STEP_WD (n : Nat) : Reg := ⟨.hq0 n, 0x4C⟩
def HQ_QSEL (n : Nat) : Reg := ⟨.hq0 n, 0x50⟩
def HQ_QCFG (n : Nat) : Reg := ⟨.hq0 n, 0x54⟩
def HQ_QBASE_LO (n : Nat) : Reg := ⟨.hq0 n, 0x58⟩
def HQ_QBASE_HI (n : Nat) : Reg := ⟨.hq0 n, 0x5C⟩
def HQ_CQ_BASE_LO (n : Nat) : Reg := ⟨.hq0 n, 0x60⟩
def HQ_CQ_BASE_HI (n : Nat) : Reg := ⟨.hq0 n, 0x64⟩
def HQ_CQ_SIZE (n : Nat) : Reg := ⟨.hq0 n, 0x68⟩
def HQ_CQ_HEAD (n : Nat) : Reg := ⟨.hq0 n, 0x6C⟩
def HQ_CQ_TAIL (n : Nat) : Reg := ⟨.hq0 n, 0x70⟩
def HQ_CQ_VEC (n : Nat) : Reg := ⟨.hq0 n, 0x74⟩
def HQ_DB (n : Nat) (i : Nat) : Reg := ⟨.hq0 n, 0x80 + 4 * i⟩
def HQ_HEAD (n : Nat) (i : Nat) : Reg := ⟨.hq0 n, 0xA0 + 4 * i⟩
def HQ_WSEL (n : Nat) : Reg := ⟨.hq0 n, 0xC0⟩
def HQ_WBASE_LO (n : Nat) : Reg := ⟨.hq0 n, 0xC4⟩
def HQ_WBASE_HI (n : Nat) : Reg := ⟨.hq0 n, 0xC8⟩
def HQ_WSIZE_LO (n : Nat) : Reg := ⟨.hq0 n, 0xCC⟩
def HQ_WSIZE_HI (n : Nat) : Reg := ⟨.hq0 n, 0xD0⟩
def HQ_SSEL (n : Nat) : Reg := ⟨.hq0 n, 0xE0⟩
def HQ_SAVE_BASE_LO (n : Nat) : Reg := ⟨.hq0 n, 0xE4⟩
def HQ_SAVE_BASE_HI (n : Nat) : Reg := ⟨.hq0 n, 0xE8⟩
def HQ_SAVE_SIZE_LO (n : Nat) : Reg := ⟨.hq0 n, 0xEC⟩
def HQ_SAVE_SIZE_HI (n : Nat) : Reg := ⟨.hq0 n, 0xF0⟩
def HQ_C0_LAT_LAST (n : Nat) : Reg := ⟨.hq0 n, 0x100⟩
def HQ_C0_LAT_MAX (n : Nat) : Reg := ⟨.hq0 n, 0x104⟩
def HQ_C0_LATE_CNT (n : Nat) : Reg := ⟨.hq0 n, 0x108⟩
def HQ_ECLIPSE_CNT (n : Nat) : Reg := ⟨.hq0 n, 0x10C⟩
def HQ_YIELD_CNT (n : Nat) : Reg := ⟨.hq0 n, 0x110⟩
def HQ_KILL_CNT (n : Nat) : Reg := ⟨.hq0 n, 0x114⟩
def HQ_REJ_CNT (n : Nat) : Reg := ⟨.hq0 n, 0x118⟩
def HQ_WD_LATE_CNT (n : Nat) : Reg := ⟨.hq0 n, 0x11C⟩
def PART_ROWS : Reg := ⟨.part, 0x40⟩
def PART_ROW_OK : Reg := ⟨.part, 0x44⟩
def PART_ALLOW : Reg := ⟨.part, 0x48⟩
def PART_P (i : Nat) : Reg := ⟨.part, 0x50 + 4 * i⟩
def PART_CREATE_CNT : Reg := ⟨.part, 0x60⟩
def PART_REJECT_CNT : Reg := ⟨.part, 0x64⟩
def PART_TEARDOWN_CNT : Reg := ⟨.part, 0x68⟩
def PWR_STAT : Reg := ⟨.pwrG, 0x40⟩
def PWR_IN_V : Reg := ⟨.pwrG, 0x44⟩
def PWR_IN_I : Reg := ⟨.pwrG, 0x48⟩
def PWR_BUDGET : Reg := ⟨.pwrG, 0x4C⟩
def PWR_CAL : Reg := ⟨.pwrG, 0x50⟩
def PWR_BUCKET : Reg := ⟨.pwrG, 0x54⟩
def PWR_CUT_CNT : Reg := ⟨.pwrG, 0x58⟩
def PWR_UV_CNT : Reg := ⟨.pwrG, 0x5C⟩
def PWR_FLOOR (i : Nat) : Reg := ⟨.pwrG, 0x60 + 4 * i⟩
def PWR_E (i : Nat) : Reg := ⟨.pwrG, 0x100 + 4 * i⟩
def PWR_E_UNATTR_LO : Reg := ⟨.pwrG, 0x220⟩
def PWR_E_UNATTR_HI : Reg := ⟨.pwrG, 0x224⟩
def PWR_DIE_PT (d : Nat) : Reg := ⟨.pwrD d, 0x40⟩
def PWR_LAT_TOL (d : Nat) : Reg := ⟨.pwrD d, 0x44⟩
def PWR_MOON (d : Nat) : Reg := ⟨.pwrD d, 0x48⟩
def PWR_GRANT (d : Nat) : Reg := ⟨.pwrD d, 0x4C⟩
def PWR_VF (d : Nat) (i : Nat) : Reg := ⟨.pwrD d, 0x50 + 4 * i⟩
def PWR_TEMP (d : Nat) : Reg := ⟨.pwrD d, 0x70⟩
def PWR_DROOP_CNT (d : Nat) : Reg := ⟨.pwrD d, 0x74⟩
def PWR_DROOP_DEFER (d : Nat) : Reg := ⟨.pwrD d, 0x78⟩
def PWR_MOON_UR (d : Nat) : Reg := ⟨.pwrD d, 0x7C⟩
def PWR_NEW_BASE_LO (d : Nat) : Reg := ⟨.pwrD d, 0x80⟩
def PWR_NEW_BASE_HI (d : Nat) : Reg := ⟨.pwrD d, 0x84⟩
def PWR_THROT_LO (d : Nat) : Reg := ⟨.pwrD d, 0x88⟩
def PWR_THROT_HI (d : Nat) : Reg := ⟨.pwrD d, 0x8C⟩
def TIME_STAT : Reg := ⟨.timeG, 0x40⟩
def TIME_CFG : Reg := ⟨.timeG, 0x44⟩
def TIME_NS_LO : Reg := ⟨.timeG, 0x48⟩
def TIME_NS_HI : Reg := ⟨.timeG, 0x4C⟩
def TIME_FRAC : Reg := ⟨.timeG, 0x50⟩
def TIME_TOD_SEC_LO : Reg := ⟨.timeG, 0x54⟩
def TIME_TOD_SEC_HI : Reg := ⟨.timeG, 0x58⟩
def TIME_TOD_CTRL : Reg := ⟨.timeG, 0x5C⟩
def TIME_UTC : Reg := ⟨.timeG, 0x60⟩
def TIME_PHASE_ERR : Reg := ⟨.timeG, 0x64⟩
def TIME_FREQ_ADJ : Reg := ⟨.timeG, 0x68⟩
def TIME_HOLD_S : Reg := ⟨.timeG, 0x6C⟩
def TIME_PTP_CFG : Reg := ⟨.timeG, 0x70⟩
def TIME_PTP_PRIO : Reg := ⟨.timeG, 0x74⟩
def TIME_FP_CFG : Reg := ⟨.timeG, 0x78⟩
def TIME_STRANGER_CNT (i : Nat) : Reg := ⟨.timeG, 0x80 + 4 * i⟩
def TIME_ANN_TO_CNT : Reg := ⟨.timeG, 0x88⟩
def TIME_LATE_CNT : Reg := ⟨.timeG, 0x8C⟩
def TIME_STEP_CNT : Reg := ⟨.timeG, 0x90⟩
def TIME_EDGE_REJ : Reg := ⟨.timeG, 0x94⟩
def TIME_DREQ_DROP (i : Nat) : Reg := ⟨.timeG, 0x98 + 4 * i⟩
def VC_DEC_CFG (d : Nat) : Reg := ⟨.vcD d, 0x40⟩
def VC_DEC_BS_BASE_LO (d : Nat) : Reg := ⟨.vcD d, 0x44⟩
def VC_DEC_BS_BASE_HI (d : Nat) : Reg := ⟨.vcD d, 0x48⟩
def VC_DEC_BS_SIZE (d : Nat) : Reg := ⟨.vcD d, 0x4C⟩
def VC_DEC_BS_WP (d : Nat) : Reg := ⟨.vcD d, 0x50⟩
def VC_DEC_BS_RP (d : Nat) : Reg := ⟨.vcD d, 0x54⟩
def VC_DEC_CTRL (d : Nat) : Reg := ⟨.vcD d, 0x58⟩
def VC_DEC_STAT (d : Nat) : Reg := ⟨.vcD d, 0x5C⟩
def VC_DEC_PIC (d : Nat) : Reg := ⟨.vcD d, 0x60⟩
def VC_DEC_ERR (d : Nat) : Reg := ⟨.vcD d, 0x64⟩
def VC_ENC_CFG (d : Nat) : Reg := ⟨.vcD d, 0x80⟩
def VC_ENC_RATE (d : Nat) : Reg := ⟨.vcD d, 0x84⟩
def VC_ENC_SCALE (d : Nat) : Reg := ⟨.vcD d, 0x88⟩
def VC_ENC_GOP (d : Nat) : Reg := ⟨.vcD d, 0x8C⟩
def VC_ENC_ROI_BASE_LO (d : Nat) : Reg := ⟨.vcD d, 0x90⟩
def VC_ENC_ROI_BASE_HI (d : Nat) : Reg := ⟨.vcD d, 0x94⟩
def VC_ENC_BS_BASE_LO (d : Nat) : Reg := ⟨.vcD d, 0x98⟩
def VC_ENC_BS_BASE_HI (d : Nat) : Reg := ⟨.vcD d, 0x9C⟩
def VC_ENC_BS_SIZE (d : Nat) : Reg := ⟨.vcD d, 0xA0⟩
def VC_ENC_BS_WP (d : Nat) : Reg := ⟨.vcD d, 0xA4⟩
def VC_ENC_BS_RP (d : Nat) : Reg := ⟨.vcD d, 0xA8⟩
def VC_ENC_DST_A (d : Nat) : Reg := ⟨.vcD d, 0xAC⟩
def VC_ENC_DST_B (d : Nat) : Reg := ⟨.vcD d, 0xB0⟩
def VC_ENC_UDP (d : Nat) : Reg := ⟨.vcD d, 0xB4⟩
def VC_ENC_SSRC (d : Nat) : Reg := ⟨.vcD d, 0xB8⟩
def VC_ENC_2110 (d : Nat) : Reg := ⟨.vcD d, 0xBC⟩
def VC_ENC_CTRL (d : Nat) : Reg := ⟨.vcD d, 0xC0⟩
def VC_ENC_STAT (d : Nat) : Reg := ⟨.vcD d, 0xC4⟩
def VC_ENC_PIC (d : Nat) : Reg := ⟨.vcD d, 0xC8⟩
def VC_ENC_LAT_MAX (d : Nat) : Reg := ⟨.vcD d, 0xCC⟩
def VC_ENC_LATE_CNT (d : Nat) : Reg := ⟨.vcD d, 0xD0⟩
def VC_ENC_BS_DROP (d : Nat) : Reg := ⟨.vcD d, 0xD4⟩
def VC_MCAST_COLL_CNT (d : Nat) : Reg := ⟨.vcD d, 0xD8⟩
def VC_CORE (i : Nat) : Reg := ⟨.vcG, 0x40 + 4 * i⟩
def VC_E1_COEF (i : Nat) : Reg := ⟨.vcG, 0x100 + 4 * i⟩
def NET_STAT (i : Nat) : Reg := ⟨.netG, 0x40 + 64 * i⟩
def NET_MAC_LO (i : Nat) : Reg := ⟨.netG, 0x44 + 64 * i⟩
def NET_MAC_HI (i : Nat) : Reg := ⟨.netG, 0x48 + 64 * i⟩
def NET_IP (i : Nat) : Reg := ⟨.netG, 0x4C + 64 * i⟩
def NET_VLAN (i : Nat) : Reg := ⟨.netG, 0x50 + 64 * i⟩
def NET_PTP_DSCP (i : Nat) : Reg := ⟨.netG, 0x54 + 64 * i⟩
def NET_TX_PKT (i : Nat) : Reg := ⟨.netG, 0x58 + 64 * i⟩
def NET_TX_DROP (i : Nat) : Reg := ⟨.netG, 0x5C + 64 * i⟩
def NET_RX_DISC (i : Nat) : Reg := ⟨.netG, 0x60 + 64 * i⟩
def NET_RX_OVF (i : Nat) : Reg := ⟨.netG, 0x64 + 64 * i⟩
def RAS_SRAM_CE (d : Nat) : Reg := ⟨.tlmD d, 0x60⟩
def RAS_SRAM_UE (d : Nat) : Reg := ⟨.tlmD d, 0x64⟩
def RAS_HBM_CE (d : Nat) : Reg := ⟨.tlmD d, 0x68⟩
def RAS_HBM_UE (d : Nat) : Reg := ⟨.tlmD d, 0x6C⟩
def RAS_SCRUB_SRAM (d : Nat) : Reg := ⟨.tlmD d, 0x70⟩
def RAS_SCRUB_HBM (d : Nat) : Reg := ⟨.tlmD d, 0x74⟩
def RAS_CORE_FAIL_LO (d : Nat) : Reg := ⟨.tlmD d, 0x78⟩
def RAS_CORE_FAIL_HI (d : Nat) : Reg := ⟨.tlmD d, 0x7C⟩
def TLM_HR_BASE_LO (n : Nat) : Reg := ⟨.tlmH n, 0x60⟩
def TLM_HR_BASE_HI (n : Nat) : Reg := ⟨.tlmH n, 0x64⟩
def TLM_HR_SIZE (n : Nat) : Reg := ⟨.tlmH n, 0x68⟩
def TLM_HR_HEAD (n : Nat) : Reg := ⟨.tlmH n, 0x6C⟩
def TLM_HR_TAIL (n : Nat) : Reg := ⟨.tlmH n, 0x70⟩
def TLM_HR_VEC (n : Nat) : Reg := ⟨.tlmH n, 0x74⟩
def SEC_STAT : Reg := ⟨.secG, 0x40⟩
def SEC_FUSE : Reg := ⟨.secG, 0x44⟩
def SEC_BUNDLE_VER : Reg := ⟨.secG, 0x48⟩
def SEC_DBG_NONCE_LO : Reg := ⟨.secG, 0x4C⟩
def SEC_DBG_NONCE_HI : Reg := ⟨.secG, 0x50⟩
def SEC_DBG_CTRL : Reg := ⟨.secG, 0x54⟩
def SEC_KEY_CNT : Reg := ⟨.secG, 0x58⟩
def SEC_DBG_DENY_CNT : Reg := ⟨.secG, 0x5C⟩
def SEC_SPDM_CNT (i : Nat) : Reg := ⟨.secG, 0x60 + 4 * i⟩
def SEC_DBG_TOKEN (i : Nat) : Reg := ⟨.secG, 0x80 + 4 * i⟩
def SEC_PROT_CTRL (d : Nat) : Reg := ⟨.secD d, 0x40⟩
def SEC_PROT_STAT (d : Nat) : Reg := ⟨.secD d, 0x44⟩
def SEC_PROT_PAGES (d : Nat) : Reg := ⟨.secD d, 0x48⟩
def SEC_PROT (d : Nat) (i : Nat) : Reg := ⟨.secD d, 0x80 + 4 * i⟩
def FWU_STATE : Reg := ⟨.fwuG, 0x40⟩
def FWU_ALLOW : Reg := ⟨.fwuG, 0x44⟩
def FWU_CONFIRMED : Reg := ⟨.fwuG, 0x48⟩
def FWU_HEALTH_LEFT : Reg := ⟨.fwuG, 0x4C⟩
def FWU_FALLBACK_CNT : Reg := ⟨.fwuG, 0x50⟩
def FWU_OP (n : Nat) : Reg := ⟨.fwuH n, 0x40⟩
def FWU_ADDR_LO (n : Nat) : Reg := ⟨.fwuH n, 0x44⟩
def FWU_ADDR_HI (n : Nat) : Reg := ⟨.fwuH n, 0x48⟩
def FWU_OFF (n : Nat) : Reg := ⟨.fwuH n, 0x4C⟩
def FWU_LEN (n : Nat) : Reg := ⟨.fwuH n, 0x50⟩
def FWU_TOTAL (n : Nat) : Reg := ⟨.fwuH n, 0x54⟩
def FWU_STATUS (n : Nat) : Reg := ⟨.fwuH n, 0x58⟩
def FWU_BLOCKS (n : Nat) : Reg := ⟨.fwuH n, 0x5C⟩
def DIE_BOOT_STAT : Reg := ⟨.dieG, 0x40⟩
def DIE_RESET_CAUSE : Reg := ⟨.dieG, 0x44⟩
def DIE_ROW_CTRL : Reg := ⟨.dieG, 0x48⟩
def DIE_COOL_IN : Reg := ⟨.dieG, 0x4C⟩
def DIE_COOL_OUT : Reg := ⟨.dieG, 0x50⟩
def DIE_COOL_FLOW : Reg := ⟨.dieG, 0x54⟩
def DIE_COOL_STAT : Reg := ⟨.dieG, 0x58⟩
def DIE_SERIAL_LO : Reg := ⟨.dieG, 0x5C⟩
def DIE_SERIAL_HI : Reg := ⟨.dieG, 0x60⟩
def DIE_BOOT_MS : Reg := ⟨.dieG, 0x64⟩
def DIE_ID (d : Nat) : Reg := ⟨.dieD d, 0x40⟩
def DIE_BRING (d : Nat) : Reg := ⟨.dieD d, 0x44⟩
def DIE_ST_FAIL (d : Nat) : Reg := ⟨.dieD d, 0x48⟩

/-- The header registers of a page (R431). -/
def IRQ_EN (p : Page) : Reg := ⟨p, 0x18⟩
def IRQ_STAT (p : Page) : Reg := ⟨p, 0x1C⟩
def FAULT_CODE (p : Page) : Reg := ⟨p, 0x24⟩
def FAULT_INFO0 (p : Page) : Reg := ⟨p, 0x28⟩
def FAULT_INFO1 (p : Page) : Reg := ⟨p, 0x2C⟩
end R

/-- The page and base offset of a path's block (R397). -/
def pathBlock : TlmPath → Reg
  | .die d => ⟨.tlmD d.val, 0x40⟩
  | .host n => ⟨.tlmH n.val, 0x40⟩
  | .aggr false => ⟨.tlmG, 0x40⟩
  | .aggr true => ⟨.tlmG, 0x80⟩
  | .bmc => ⟨.tlmG, 0xC0⟩

/-- The register at an offset of a path's block. -/
def pathReg (p : TlmPath) (off : Nat) : Reg := ⟨(pathBlock p).page, (pathBlock p).off + off⟩

end Sys2Proof.Machine
end

