-- ==== Sys2Proof/Machine/Flags.lean ====
section
/-! DEFINITION. The flag record (R95), its merge into a layer flag table (R96), and the exception register
of the vector engine (R114, R134). -/

namespace Sys2Proof.Machine
open Sys2Proof

/-- underflow_frac (R95): ⌊256 × underflow events / values written⌋, at most 255; 0 when nothing was written. -/
def underflowFrac (fl : Flags) : Nat :=
  if fl.written = 0 then 0 else min 255 (256 * fl.under / fl.written)

/-- The flag record as a 64-bit number (R95). -/
def packFlags (fl : Flags) (opcode variant layer : Nat) : Nat :=
  layer % 256 + 2 ^ 8 * (variant % 4) + 2 ^ 10 * (opcode % 1024) +
    2 ^ 20 * b2n fl.crc + 2 ^ 21 * b2n fl.underrun + 2 ^ 22 * b2n fl.overrun + 2 ^ 23 * b2n fl.tideMiss +
    2 ^ 24 * b2n fl.late + 2 ^ 25 * b2n fl.timeout + 2 ^ 26 * b2n (fl.ovf != 0) + 2 ^ 27 * b2n fl.nan +
    2 ^ 28 * underflowFrac fl + 2 ^ 36 * min fl.ovf 4095 + 2 ^ 48 * min fl.sat 65535

/-- A flag record merged into a layer flag entry (R96). -/
def mergeFlags (old new : Nat) : Nat :=
  bits new 19 0 + 2 ^ 20 * (bits old 27 20 ||| bits new 27 20) +
    2 ^ 28 * max (bits old 35 28) (bits new 35 28) +
    2 ^ 36 * min (bits old 47 36 + bits new 47 36) 4095 +
    2 ^ 48 * min (bits old 63 48 + bits new 63 48) 65535

/-- The exceptions as the bits of CORE_VE_XFLAGS (R134). -/
def packXFlags (x : XFlags) : Nat :=
  b2n x.invalid + 2 * b2n x.divZero + 4 * b2n x.overflow + 8 * b2n x.underflow + 16 * b2n x.inexact

end Sys2Proof.Machine
end

