-- ==== Sys2Proof/Machine/Events.lean ====
section
/-! DEFINITION. What units report: page identity (R431, R435), owners, page interrupts (R433, R434), counters,
telemetry records and paths (R392 to R398), faults posted in pages (R432), completion records (R297). -/

namespace Sys2Proof.Machine
open Sys2Proof

/-! ## Pages -/

/-- Block type code (R435). -/
def pageType : Page → Nat
  | .pwrG | .pwrD _ => 0x01
  | .timeG => 0x02
  | .hq0 _ | .hq1 _ => 0x03
  | .part => 0x04
  | .vcG | .vcD _ => 0x05
  | .netG => 0x06
  | .secG | .secD _ => 0x07
  | .fwuG | .fwuH _ => 0x08
  | .tlmG | .tlmD _ | .tlmH _ => 0x09
  | .dieG | .dieD _ => 0x10
  | .hbmc _ _ => 0x11
  | .jlink _ _ => 0x12
  | .coreDie _ | .core _ _ => 0x13
  | .tcu _ _ => 0x14
  | .kvt _ => 0x15
  | .ast _ => 0x16
  | .pxe _ => 0x17
  | .sem _ => 0x18

/-- Instance (R435). -/
def pageInst : Page → Nat
  | .pwrG | .timeG | .part | .vcG | .netG | .secG | .fwuG | .tlmG | .dieG => 0xFF
  | .coreDie _ => 0xFF
  | .pwrD d | .dieD d | .kvt d | .ast d | .pxe d | .sem d | .vcD d | .tlmD d | .secD d => d
  | .hq0 n | .hq1 n | .tlmH n | .fwuH n => n
  | .hbmc _ s => s
  | .jlink _ p => p
  | .core _ c => c
  | .tcu _ t => t

/-- Page index: 1 for HQ page 1 only (R435). -/
def pageIndex : Page → Nat
  | .hq1 _ => 1
  | _ => 0

/-- The die whose window holds a page. -/
def pageDie : Page → Option Nat
  | .pwrD d | .dieD d | .kvt d | .ast d | .pxe d | .sem d | .vcD d | .tlmD d | .secD d
  | .coreDie d | .hbmc d _ | .jlink d _ | .core d _ | .tcu d _ => some d
  | _ => none

/-- The host whose region holds a page. -/
def pageHost : Page → Option Nat
  | .hq0 n | .hq1 n | .tlmH n | .fwuH n => some n
  | _ => none

/-! ## Hosts and partitions -/

def Dev.port (d : Dev) (n : Nat) : Port := look {} d.ports n
def Dev.setPort (d : Dev) (n : Nat) (p : Port) : Dev := { d with ports := put d.ports n p }
def Dev.emit (d : Dev) (o : Out) : Dev := { d with out := o :: d.out }

/-- The partition that owns a die: Pn with the die's row in its row set (R29). -/
def ownerOf (d : Dev) (die : Nat) : Option Nat :=
  (List.range 4).find? (fun n => (d.port n).valid && bit (d.port n).rows (die / 4))

/-- The rows of a row set, ascending, and the dies of a partition in ascending CD order (R31). -/
def rowList (rows : Nat) : List Nat := (List.range 4).filter (bit rows)
def partDies (p : Port) : List Nat := (rowList p.rows).flatMap (fun r => [4 * r, 4 * r + 1, 4 * r + 2, 4 * r + 3])

/-- The absolute die of a relative die and back (R31). Legal row sets are contiguous (R29). -/
def baseDie (p : Port) : Nat := 4 * ((rowList p.rows).headD 0)
def relDie (p : Port) (die : Nat) : Nat := die - baseDie p

/-- The port whose host sees a page (R421), global pages apart. -/
def pagePort (d : Dev) (p : Page) : Option Nat :=
  match pageHost p with
  | some n => some n
  | none => (pageDie p).bind (ownerOf d)

/-- A row's stages run (R451). -/
def rowUp (d : Dev) (r : Nat) : Bool := bit (d.fld R.DIE_BOOT_STAT 11 8) r

/-- DEVTIME in whole nanoseconds (R343). -/
def devNs (d : Dev) : Nat := d.time.now / 2 ^ 32

/-- Elapsed time in whole nanoseconds, which a step of DEVTIME leaves alone: what the timers measure (R346). -/
def elapsedNs (d : Dev) : Nat := d.time.elapsed / 2 ^ 32

/-- The copy of DEVTIME a telemetry source reads (R347): a compute die its own, what sits on IOD-N (R19) copy 16; IOD-S
reads the timebase itself. -/
def sourceCopy (source : Nat) : Option Nat :=
  if source < 16 then some source
  else if source = 0x10 ∨ source = 0x12 ∨ source = 0x13 ∨ source = 0x18 ∨ source = 0x19 ∨ (0x20 ≤ source ∧ source < 0x28) then some 16
  else none

/-- DEVTIME as a copy or the timebase shows it. -/
def copyTime (d : Dev) : Option Nat → Nat
  | some i => look 0 d.time.copies i
  | none => d.time.now

/-- A copy takes the timebase's DEVTIME (R347). -/
def reloadCopy (i : Nat) (d : Dev) : Dev := { d with time := { d.time with copies := put d.time.copies i d.time.now } }

/-- DEVTIME as a source reads it, in whole nanoseconds. -/
def sourceNs (d : Dev) (source : Nat) : Nat := copyTime d (sourceCopy source) / 2 ^ 32

/-- DEVTIME as the writer of a path's own records reads it: the die, the I/O die of the aggregator or of the host's QP, the
MP for the BMC. -/
def pathNs (d : Dev) : TlmPath → Nat
  | .die i => sourceNs d i.val
  | .aggr south => sourceNs d (if south then 0x11 else 0x10)
  | .host n => sourceNs d (0x18 + n.val)
  | .bmc => sourceNs d 0x12

/-! ## Page interrupts -/

/-- One page-interrupt message: vector 63 of the port that sees the page, held in a gap; the MP for a
global page (R434). -/
def pageMsg (d : Dev) (pg : Page) : Dev :=
  match pageHost pg, pageDie pg with
  | none, none => d.emit (.mpIrq pg)
  | _, _ =>
    match pagePort d pg with
    | none => d
    | some n =>
      let p := d.port n
      if p.irqGap then d.setPort n { p with irqHeld := true }
      else (d.setPort n { p with irqGap := true }).emit (.msix n 63)

/-- An IRQ_STAT bit set (R431): a message when the bit rises and is enabled (R434). -/
def irqRise (d : Dev) (pg : Page) (b : Nat) : Dev :=
  let st := d.rd (R.IRQ_STAT pg)
  if bit st b then d
  else
    let d1 := d.wr (R.IRQ_STAT pg) (st + 2 ^ b)
    if bit (d.rd (R.IRQ_EN pg)) b then pageMsg d1 pg else d1

/-- A page's busy falls: the rising edge of source idle (R433). -/
def idle (d : Dev) (pg : Page) : Dev := irqRise d pg 1

/-- Whether a register is a counter at its maximum (R433). -/
def isSat (d : Dev) (r : Reg) : Bool :=
  match rowAt r with
  | none => false
  | some row =>
    (row.ctr == 1 && d.rd r == 0xFFFFFFFF) ||
    (row.ctr == 2 && d.rd r == 0xFFFFFFFF && d.rd ⟨r.page, r.off + 4⟩ == 0xFFFFFFFF)

/-- Whether a counter of an AST set is at its maximum (R206, R212). -/
def AstSet.sat (a : AstSet) : Bool := a.miss == 0xFFFFFFFF || a.raw == 2 ^ 64 - 1 || a.stored == 2 ^ 64 - 1

/-- Whether any counter of a page is at its maximum: IRQ_RAW bit 3. The AST page's stand in the plan slots' sets. -/
def anySat (d : Dev) (pg : Page) : Bool :=
  d.regs.any (fun e => decide (e.1.page = pg) && isSat d e.1) || d.ast.any (fun e => decide (pg = .ast e.1.1) && e.2.sat)

/-- A counter counts up and saturates (R426); the first counter of the page to reach its maximum raises
source counter_sat. -/
def Dev.inc (d : Dev) (r : Reg) (n : Nat) : Dev :=
  let v := d.rd r
  let w := min (v + n) 0xFFFFFFFF
  let d1 := d.wr r w
  if w == 0xFFFFFFFF && v != w && !(anySat d r.page) then irqRise d1 r.page 3 else d1

/-- A LO/HI counter counts up and saturates; r is its LO word (R425, R426). -/
def Dev.inc64 (d : Dev) (r : Reg) (n : Nat) : Dev :=
  let v := d.rd64 r
  let w := min (v + n) (2 ^ 64 - 1)
  let d1 := (d.wr r (w % 2 ^ 32)).wr ⟨r.page, r.off + 4⟩ (w / 2 ^ 32)
  if w == 2 ^ 64 - 1 && v != w && !(anySat d r.page) then irqRise d1 r.page 3 else d1

/-! ## Telemetry -/

/-- Severities (R392). -/
def sevTrace : Nat := 0
def sevEvent : Nat := 1
def sevFault : Nat := 2
def sevAlarm : Nat := 3

/-- A telemetry record (R392). -/
def mkRecord (ns sev source coal code data : Nat) : Nat :=
  data % 65536 + 2 ^ 16 * (code % 32768) + 2 ^ 31 * (coal % 2) + 2 ^ 32 * (source % 256) +
    2 ^ 40 * (sev % 4) + 2 ^ 42 * bits ns 31 10

/-- The model's stamp above a record: the number of the partition it is of. -/
def stamped (rec stamp : Nat) : Nat := rec % 2 ^ 64 + 2 ^ 64 * stamp
def recStamp (r : Nat) : Nat := r / 2 ^ 64

def recSev (r : Nat) : Nat := bits r 41 40
def recSource (r : Nat) : Nat := bits r 39 32
def recCode (r : Nat) : Nat := bits r 30 16

/-- Event code of a register (R393). -/
def eventCode (r : Reg) : Nat := 0x4000 + pageType r.page * 512 + r.off / 4

def Dev.path (d : Dev) (p : TlmPath) : Path := look {} d.tlm p
def Dev.setPath (d : Dev) (p : TlmPath) (q : Path) : Dev := { d with tlm := put d.tlm p q }

/-- Registers of a path block (R397). -/
def tlmStat (p : TlmPath) : Reg := pathReg p 0
def tlmDropTrace (p : TlmPath) : Reg := pathReg p 8
def tlmDropPair (p : TlmPath) : Reg := pathReg p 0xC
def tlmCoal (p : TlmPath) : Reg := pathReg p 0x10
def tlmMerge (p : TlmPath) : Reg := pathReg p 0x18

/-- Log ring of host n (R398): size in bytes, places in use, places free. -/
def ringSize (d : Dev) (n : Nat) : Nat := d.rd (R.TLM_HR_SIZE n) / 8 * 8
def ringUsed (d : Dev) (n : Nat) : Nat :=
  let sz := ringSize d n
  ((d.rd (R.TLM_HR_TAIL n) + sz - d.rd (R.TLM_HR_HEAD n)) % max sz 1) / 8
def ringFree (d : Dev) (n : Nat) : Nat := ringSize d n / 8 - 1 - ringUsed d n

/-- The log ring path of host n. -/
def hostPath (n : Nat) : TlmPath := .host ⟨n % 4, Nat.mod_lt _ (by decide)⟩

/-- The ring receives records only while enabled and at least 8 KiB (R398). -/
def ringOn (d : Dev) (n : Nat) : Bool :=
  d.fld (tlmStat (hostPath n)) 0 0 == 1 && decide (8192 ≤ ringSize d n)

/-- General-queue capacity of a path (R394). -/
def generalCap (d : Dev) : TlmPath → Nat
  | .die _ => 4096
  | .aggr _ => 16384
  | .host n => ringSize d n.val / 8 - 1 - 256
  | .bmc => 1024

/-- Entries in a path's general queue; a host ring's places in use are its queue. -/
def generalLevel (d : Dev) (p : TlmPath) : Nat :=
  match p with
  | .host n => (d.path p).general.length + ringUsed d n.val
  | _ => (d.path p).general.length

/-- Whether a path takes nothing: a host ring that is not enabled, whose records are discarded (R398). -/
def pathOff (d : Dev) : TlmPath → Bool
  | .host n => !ringOn d n.val
  | _ => false

/-- A record written to a host's ring at TLM_HR_TAIL (R398), with the MSI-X vector for an alarm (R394). -/
def ringWrite (d : Dev) (n : Nat) (rec : Nat) : Dev :=
  if !ringOn d n then d else
  let tail := d.rd (R.TLM_HR_TAIL n)
  let base := d.rd64 (R.TLM_HR_BASE_LO n)
  let sz := ringSize d n
  let loose := (d.path (hostPath n)).loose
  let d1 := { d with mem := d.mem.write .host (hostAt n (base + tail)) (if loose then freeBytes d.fresh 8 else leBytes 8 rec)
                     fresh := d.fresh + b2n loose }
  let d2 := d1.wr (R.TLM_HR_TAIL n) (if sz ≤ tail + 8 then 0 else tail + 8)
  if recSev rec == sevAlarm then d2.emit (.msix n (d.rd (R.TLM_HR_VEC n))) else d2

/-- An alarm-class record enters a path (R394, R395): the 256-entry alarm queue, or held at the source. A
host ring takes it while a place is free. An alarm raises the sideband; a fault record does not. -/
def pathAlarm (d : Dev) (p : TlmPath) (rec : Nat) : Dev :=
  if pathOff d p then d else
  let q := d.path p
  let room := match p with
    | .host n => decide (1 ≤ ringFree d n.val) && q.waiting.isEmpty
    | _ => decide (q.alarm.length < 256) && q.waiting.isEmpty
  if room then
    match p with
    | .host n => ringWrite d n.val rec
    | _ =>
      let d1 := d.setPath p { q with alarm := q.alarm ++ [rec] }
      if recSev rec == sevAlarm then d1.emit (.sideband p) else d1
  else if q.waiting.any (fun w => recSource w == recSource rec && recCode w == recCode rec) then
    d.inc (tlmMerge p) 1
  else (d.setPath p { q with waiting := q.waiting ++ [rec] }).setFld (tlmStat p) 1 1 1

/-- A record put in the general queue; reaching 3/4 of it starts a burst (R396). -/
def pathAppend (d : Dev) (p : TlmPath) (rec : Nat) : Dev :=
  if pathOff d p then d else
  let d1 := match p with
    | .host n => if (d.path p).general.isEmpty && decide (256 < ringFree d n.val) then ringWrite d n.val rec
        else d.setPath p { d.path p with general := (d.path p).general ++ [rec] }
    | _ => d.setPath p { d.path p with general := (d.path p).general ++ [rec] }
  if 3 * generalCap d1 p ≤ 4 * generalLevel d1 p then
    (d1.setPath p { d1.path p with burst := true }).setFld (tlmStat p) 2 2 1
  else d1

/-- A record enters the queue of its class: fault records go with the alarms (R394). -/
def pathEnter (d : Dev) (p : TlmPath) (rec : Nat) : Dev :=
  if recSev rec == sevFault || recSev rec == sevAlarm then pathAlarm d p rec else pathAppend d p rec

/-- A record of a key during a burst (R396): the first 16 verbatim while the queue of its class has room, then the latest
16 held and the rest counted. -/
def keyRecord (d : Dev) (p : TlmPath) (rec : Nat) : Dev :=
  let q := d.path p
  let same := fun (k : BurstKey) => k.source == recSource rec && k.code == recCode rec
  let room := recSev rec == sevFault || decide (generalLevel d p < generalCap d p)
  match q.keys.find? same with
  | none =>
    if q.keys.length < 256 then
      let k : BurstKey := ⟨recSource rec, recCode rec, recSev rec, recStamp rec, 1, [], 0⟩
      if room then pathEnter (d.setPath p { q with keys := q.keys ++ [k] }) p rec
      else d.setPath p { q with keys := q.keys ++ [{ k with sent := 16, held := [rec] }] }
    else (d.inc (tlmDropPair p) 1).setFld (tlmStat p) 3 3 1
  | some k0 =>
    let k := { k0 with stamp := if k0.stamp = recStamp rec then k0.stamp else 0 }
    let upd := fun (k' : BurstKey) => { q with keys := q.keys.map (fun x => if same x then k' else x) }
    if k.sent < 16 ∧ room = true then pathEnter (d.setPath p (upd { k with sent := k.sent + 1 })) p rec
    else if k.held.length < 16 then d.setPath p (upd { k with held := k.held ++ [rec] })
    else d.setPath p (upd { k with held := k.held.drop 1 ++ [rec], counted := k.counted + 1 })

/-- A record enters a path (TLM_RECORD_POST, R394 to R396, R398). In a burst fault records are keyed as events are. -/
def pathPost (d : Dev) (p : TlmPath) (rec : Nat) : Dev :=
  if pathOff d p then d
  else if recSev rec == sevAlarm || !(d.path p).burst then pathEnter d p rec
  else if recSev rec == sevTrace then (d.inc (tlmDropTrace p) 1).setFld (tlmStat p) 3 3 1
  else keyRecord d p rec

/-- The path a source writes first: its die FIFO, or the aggregator of its I/O die (R19, R394). -/
def firstPath (source : Nat) : TlmPath :=
  if h : source < 16 then .die ⟨source, h⟩
  else .aggr (source == 0x11 || source == 0x14 || source == 0x15 || source == 0x1A || source == 0x1B ||
    (decide (0x28 ≤ source) && decide (source ≤ 0x31)))

/-- The partition a record is of: that of its die, of its QP's port, of the die a codec core serves, which its data names
(R394). -/
def recordOwner (d : Dev) (source data : Nat) : Nat :=
  if source < 16 then ((ownerOf d source).map (fun n => (d.port n).number)).getD 0
  else if 0x18 ≤ source ∧ source < 0x1C then (d.port (source - 0x18)).number
  else if 0x20 ≤ source ∧ source < 0x30 then ((ownerOf d (bits data 15 8)).map (fun n => (d.port n).number)).getD 0
  else 0

/-- A record of a source, stamped with DEVTIME as the source reads it. -/
def postRecord (d : Dev) (sev source code data : Nat) : Dev :=
  pathPost d (firstPath source) (stamped (mkRecord (sourceNs d source) sev source 0 code data) (recordOwner d source data))

/-- The source whose page it is (R392): the die of a die-window page, the QP of a host page, the I/O-die
processor of a global page. -/
def pageSource : Page → Nat
  | .hq0 n | .hq1 n => 0x18 + n
  | .tlmH n => 0x18 + n
  | .fwuH _ | .fwuG | .secG => 0x13
  | .pwrG | .part | .dieG => 0x12
  | .timeG => 0x14
  | .vcG | .netG => 0x15
  | .tlmG => 0x10
  | .pwrD d | .dieD d | .kvt d | .ast d | .pxe d | .sem d | .vcD d | .tlmD d | .secD d
  | .coreDie d | .hbmc d _ | .jlink d _ | .core d _ | .tcu d _ => d

/-- An event or alarm of a register (R393) that a source reports. -/
def postRegFrom (d : Dev) (source sev : Nat) (r : Reg) (b : Nat) : Dev :=
  postRecord d sev source (eventCode r) (256 * pageInst r.page + b % 32)

/-- An event or alarm of a register (R393) that the owner of its page reports. -/
def postReg (d : Dev) (sev : Nat) (r : Reg) (b : Nat) : Dev := postRegFrom d (pageSource r.page) sev r b

/-- The source of a codec stream's events (R392): the first of its codec cores. DESIGN CHOICE: the die while it has none
(log 88). -/
def codecSource (die : Nat) (cores : List Nat) : Nat :=
  match cores with
  | c :: _ => 0x20 + c
  | [] => die

/-- A counter counts one and its event is posted. -/
def countEvent (d : Dev) (r : Reg) : Dev := postReg (d.inc r 1) sevEvent r 0

/-- The status bits of a page whose event has alarm severity, as they stand: the level of source alarm (R433). -/
def alarmBits (d : Dev) : Page → Nat
  | .pwrG => d.rd R.PWR_STAT &&& 0xE4
  | .dieG => d.rd R.DIE_COOL_STAT &&& 0xF
  | .jlink die p => d.rd (R.JLINK_STAT die p) &&& 4
  | _ => 0

/-- A status bit of a register set and its alarm or event posted; the first alarm bit of a page raises source alarm. -/
def flagBit (d : Dev) (sev : Nat) (r : Reg) (b : Nat) : Dev :=
  let d1 := postReg (d.setFld r b b 1) sev r b
  if sev == sevAlarm && alarmBits d r.page == 0 then irqRise d1 r.page 2 else d1

/-- A path's own record, source 0xFF (R392, R393). -/
def ownRecord (d : Dev) (p : TlmPath) (code data : Nat) : Dev :=
  pathPost d p (mkRecord (pathNs d p) sevAlarm 0xFF 0 code data)

/-- Wraps of DEVTIME ns [31:0] as a path reads it, and whether the path works (R393, R398). -/
def pathWraps (d : Dev) (p : TlmPath) : Nat := pathNs d p / 2 ^ 32
def pathRuns (d : Dev) : TlmPath → Bool
  | .die i => rowUp d (i.val / 4)
  | .host n => ringOn d n.val
  | _ => d.time.started

/-- TIME_MARK and DROP_SUMMARY (R393). -/
def timeMark (d : Dev) (p : TlmPath) : Dev :=
  ownRecord (d.setPath p { d.path p with marked := pathWraps d p }) p 0x0001 (bits (pathNs d p) 47 32)
def dropSummary (d : Dev) (p : TlmPath) : Dev := ownRecord d p 0x0002 (min (d.rd (tlmDropTrace p)) 0xFFFF)

/-- Every telemetry path (R394). -/
def allPaths : List TlmPath :=
  (List.finRange 16).map .die ++ [.aggr false, .aggr true] ++ (List.finRange 4).map .host ++ [.bmc]

/-- Every path that works marks the time, as after a DEVTIME step (R393). -/
def markAll (d : Dev) : Dev := (allPaths.filter (pathRuns d)).foldl timeMark d

/-- Whether host n's ring receives a record (R394): one of its partition, one of its own QP, an I/O die's from events up. Another
partition's it never receives, also where that one is gone. -/
def ringTakes (d : Dev) (n : Nat) (rec : Nat) : Bool :=
  let s := recSource rec
  if recStamp rec ≠ 0 then recStamp rec == (d.port n).number
  else s == 0x18 + n || (decide (0x10 ≤ s) && decide (s ≤ 0x15) && decide (1 ≤ recSev rec))

/-- A record that has left an aggregator reaches the rings that take it, and the BMC path (R394). -/
def fanOut (d : Dev) (rec : Nat) : Dev :=
  let d1 := (List.finRange 4).foldl (fun x n => if ringTakes x n.val rec then pathPost x (.host n) rec else x) d
  pathPost d1 .bmc rec

/-- The next record a path drains: alarms go first. -/
def pathPop (q : Path) : Option (Nat × Path) :=
  match q.alarm, q.general with
  | r :: t, _ => some (r, { q with alarm := t })
  | [], r :: t => some (r, { q with general := t })
  | [], [] => none

/-- The next MCTP message of the BMC path (R394): up to 8 records. -/
def bmcMessage : Nat → Path → List Nat × Path
  | 0, q => ([], q)
  | k + 1, q =>
    match pathPop q with
    | none => ([], q)
    | some (r, q1) => let m := bmcMessage k q1; (r % 2 ^ 64 :: m.1, m.2)

/-- One record drains from a path (R394), from the BMC path a message of up to 8: DESIGN CHOICE: of all that wait, up to 8
(log 137). A host path writes what waits for ring places. -/
def drainPath (d : Dev) (p : TlmPath) : Dev :=
  match p with
  | .host n =>
    match (d.path p).general with
    | [] => d
    | r :: t => if 256 < ringFree d n.val
        then ringWrite (d.setPath p { d.path p with general := t }) n.val r else d
  | _ =>
    match pathPop (d.path p) with
    | none => d
    | some (r, q) =>
      let d1 := d.setPath p q
      match p with
      | .die i => pathPost d1 (.aggr (decide (8 ≤ i.val))) r
      | .aggr _ => fanOut d1 r
      | _ => let m := bmcMessage 8 (d.path p); (d.setPath p m.2).emit (.bmc m.1)

/-! ## Faults in pages -/

/-- A fault posted in a page (R432) and in telemetry (R2, R393): its record carries FAULT_INFO0 as the page then shows it, of the
first fault since the last clear. -/
def postFault (d : Dev) (pg : Page) (code info0 info1 : Nat) : Dev :=
  let old := d.rd (R.FAULT_CODE pg)
  let d1 :=
    if bits old 15 0 = 0 then
      irqRise (((d.wr (R.FAULT_CODE pg) code).wr (R.FAULT_INFO0 pg) info0).wr (R.FAULT_INFO1 pg) info1) pg 0
    else d.setFld (R.FAULT_CODE pg) 23 16 (min 255 (bits old 23 16 + 1))
  postRecord d1 sevFault (pageSource pg) code (d1.rd (R.FAULT_INFO0 pg) % 65536)

/-! ## Completion records -/

/-- Entries of the completion ring (R297). -/
def cqSize (d : Dev) (n : Nat) : Nat := bits (d.rd (R.HQ_CQ_SIZE n)) 15 0 + 1

/-- Ring full: a size-s ring holds s − 1 records. -/
def cqFull (d : Dev) (n : Nat) : Bool :=
  (d.rd (R.HQ_CQ_TAIL n) + 1) % cqSize d n == d.rd (R.HQ_CQ_HEAD n) % cqSize d n

/-- The 16 bytes of a completion record (R297). -/
def cqBytes (r : CqRec) (phase : Bool) : List Byte :=
  leBytes 2 r.status ++ [BitVec.ofNat 8 (r.queue % 8 + 8 * b2n r.late + 64 * r.kind)] ++ [BitVec.ofNat 8 (b2n phase)] ++
    leBytes 4 r.word ++ leBytes 8 r.tagOrTime

/-- A record written at HQ_CQ_TAIL and its vector raised. -/
def cqWrite (d : Dev) (n : Nat) (r : CqRec) : Dev :=
  let tail := d.rd (R.HQ_CQ_TAIL n)
  let base := d.rd64 (R.HQ_CQ_BASE_LO n)
  let p := d.port n
  let d1 := { d with
    mem := d.mem.write .host (hostAt n (base + 16 * tail)) (if p.cqLoose then freeBytes d.fresh 16 else cqBytes r p.phase)
    fresh := d.fresh + b2n p.cqLoose }
  let wrap := decide (cqSize d n ≤ tail + 1)
  let d2 := (d1.wr (R.HQ_CQ_TAIL n) (if wrap then 0 else tail + 1)).setPort n { p with phase := p.phase != wrap }
  match r.vector with
  | some v => d2.emit (.msix n v)
  | none => d2

/-- The QP writes a completion record, or keeps it until HQ_CQ_HEAD moves (R297). -/
def complete (d : Dev) (n : Nat) (r : CqRec) : Dev :=
  let p := d.port n
  if cqFull d n || !p.cqWait.isEmpty then d.setPort n { p with cqWait := p.cqWait ++ [r] }
  else cqWrite d n r

/-- Records that waited go out in order while the ring has room. -/
def cqDrain (d : Dev) (n : Nat) : List CqRec → Dev
  | [] => d.setPort n { d.port n with cqWait := [] }
  | r :: t =>
    if cqFull d n then d.setPort n { d.port n with cqWait := r :: t }
    else cqDrain (cqWrite d n r) n t

/-- The completion vector (R297, R316). -/
def cqVec (d : Dev) (n : Nat) : Nat := d.rd (R.HQ_CQ_VEC n)

end Sys2Proof.Machine
end

