-- ==== Sys2Proof/Machine/Operands.lean ====
section
/-! DEFINITION. What a command is made of: the 64-byte record (R34) and its words, tail entries (R43), region
descriptors (R36) and where they lead, and the plan image the records stand in (R31, R97, R453 to R456). -/

namespace Sys2Proof.Machine
open Sys2Proof

/-! ## The command record -/

/-- The record as its numbers (R34): bytes 0–3, bytes 4–11, bytes 12–15, D0 to D5. -/
structure CmdWords where
  w0 : Nat
  eng : Nat
  w3 : Nat
  d0 : Nat
  d1 : Nat
  d2 : Nat
  d3 : Nat
  d4 : Nat
  d5 : Nat
  deriving DecidableEq, Repr

/-- Fields of a record (R34). -/
def Cmd.ofWords (w : CmdWords) : Cmd where
  opcode := bits w.w0 31 22
  fmtA := bits w.w0 21 18
  fmtB := bits w.w0 17 14
  fmtOut := bits w.w0 13 10
  cls := bits w.w0 9 8
  nk := bit w.w0 7
  f32Conv := bit w.w0 6
  acq := bit w.w0 5
  tailCount := bits w.w0 3 0
  eng := w.eng
  outMask := bits w.w3 31 26
  tailIndex := bits w.w3 23 0
  d0 := w.d0
  d1 := w.d1
  d2 := w.d2
  d3 := w.d3
  d4 := w.d4
  d5 := w.d5

/-- The record of a command, reserved bits 0 (R34). -/
def Cmd.toWords (c : Cmd) : CmdWords where
  w0 := c.tailCount + 2 ^ 5 * b2n c.acq + 2 ^ 6 * b2n c.f32Conv + 2 ^ 7 * b2n c.nk + 2 ^ 8 * c.cls +
    2 ^ 10 * c.fmtOut + 2 ^ 14 * c.fmtB + 2 ^ 18 * c.fmtA + 2 ^ 22 * c.opcode
  eng := c.eng
  w3 := c.tailIndex + 2 ^ 26 * c.outMask
  d0 := c.d0
  d1 := c.d1
  d2 := c.d2
  d3 := c.d3
  d4 := c.d4
  d5 := c.d5

/-- Shape (R34, R37). -/
def Cmd.m (c : Cmd) : Nat := bits c.eng 10 0 + 1
def Cmd.n (c : Cmd) : Nat := bits c.eng 21 11 + 1
def Cmd.k (c : Cmd) : Nat := bits c.eng 41 22 + 1

/-- Descriptor i. -/
def Cmd.desc (c : Cmd) (i : Nat) : Nat :=
  match i with
  | 0 => c.d0 | 1 => c.d1 | 2 => c.d2 | 3 => c.d3 | 4 => c.d4 | 5 => c.d5 | _ => 0

/-- A record read from a memory. -/
def readCmd (m : Mems) (a : Nat) : Cmd :=
  Cmd.ofWords ⟨m.num .hbm a 4, m.num .hbm (a + 4) 8, m.num .hbm (a + 12) 4, m.num .hbm (a + 16) 8,
    m.num .hbm (a + 24) 8, m.num .hbm (a + 32) 8, m.num .hbm (a + 40) 8, m.num .hbm (a + 48) 8,
    m.num .hbm (a + 56) 8⟩

/-! ## Tail entries -/

/-- A tail entry (R43). -/
structure TailEnt where
  ty : Nat
  target : Nat
  value : Nat
  operand : Nat
  deriving DecidableEq, Repr

def TailEnt.ofNat (w : Nat) : TailEnt := ⟨bits w 63 60, bits w 59 48, bits w 47 32, bits w 31 0⟩
def TailEnt.toNat (t : TailEnt) : Nat := t.operand + 2 ^ 32 * t.value + 2 ^ 48 * t.target + 2 ^ 60 * t.ty

/-- Whether an entry may be published: its type, its target's range, a KVT operation that exists (R43, R150). -/
def TailEnt.publishable (t : TailEnt) : Bool :=
  match t.ty with
  | 2 => true
  | 3 => decide (t.target < 64)
  | 4 => decide (t.target < 64)
  | 5 => decide (t.target < 63)
  | 6 => true
  | 7 => decide (1 ≤ t.target) && decide (t.target ≤ 3)
  | _ => false

/-! ## The plan image -/

def Port.slot (p : Port) (i : Nat) : PlanSlot := look {} p.slots i
def Port.setSlot (p : Port) (i : Nat) (s : PlanSlot) : Port := { p with slots := put p.slots i s }

/-- HBM place of a partition's BAR2 offset (R285); the dies of a partition are consecutive. -/
def bar2Base (p : Port) : Nat := hbmBase (baseDie p)

/-- A little-endian number of the image in a plan slot. -/
def imgNum (d : Dev) (p : Port) (s : PlanSlot) (off n : Nat) : Nat :=
  d.mem.num .hbm (bar2Base p + s.offset + off) n

/-- Offset and length of a section (R31). -/
def planSection (d : Dev) (p : Port) (s : PlanSlot) (i : Nat) : Nat × Nat :=
  (imgNum d p s (0x80 + 16 * i) 8, imgNum d p s (0x88 + 16 * i) 8)

/-- A directory entry of section 0 or of a segment's part of it: stream offset and command count (R453). -/
def dirEntry (d : Dev) (p : Port) (s : PlanSlot) (dirOff core : Nat) : Nat × Nat :=
  (imgNum d p s (dirOff + 16 * core) 8, imgNum d p s (dirOff + 16 * core + 8) 4)

/-- The recipe table's entry for a layer (R97): its offset in the image. -/
def recipeEntry (d : Dev) (p : Port) (s : PlanSlot) (layer : Nat) : Option Nat :=
  let sec := planSection d p s 7
  if sec.2 = 0 then none
  else
    let cnt := imgNum d p s sec.1 2
    (List.range cnt).findSome? (fun i =>
      let e := sec.1 + 8 + 32 * i
      if imgNum d p s e 1 = layer then some e else none)

/-- The variant an entry of the recipe table names; open after a write to the table during a step (R98). -/
def variantOf (d : Dev) (p : Port) (s : PlanSlot) (e : Nat) : Nat :=
  if s.looseEnts.contains e then Config.looseVariant d.fresh e % max 1 (imgNum d p s (e + 1) 1) else imgNum d p s (e + 2) 1

/-- The variant in force of a layer; 0 for a layer without an entry (R456). -/
def activeVariant (d : Dev) (p : Port) (s : PlanSlot) (layer : Nat) : Nat :=
  match recipeEntry d p s layer with
  | none => 0
  | some e => variantOf d p s e

/-- The active variant's segment record (R97): image offset of the record. -/
def segRecord (d : Dev) (p : Port) (s : PlanSlot) (e : Nat) : Nat :=
  (planSection d p s 7).1 + imgNum d p s (e + 8 + 8 * variantOf d p s e + 4) 4

/-- Part i (sections 0, 2, 3, 4, 6 in order) of a segment: image offset and length. DESIGN CHOICE: R97 does not say what the
offset counts from; here it is the start of the section (log 96). -/
def segPart (d : Dev) (p : Port) (s : PlanSlot) (rec i : Nat) : Nat × Nat :=
  let secIx := match i with | 0 => 0 | 1 => 2 | 2 => 3 | 3 => 4 | _ => 6
  ((planSection d p s secIx).1 + imgNum d p s (rec + 16 * i) 8, imgNum d p s (rec + 16 * i + 8) 8)

/-- HBM place of the record a core issues next (R34, R456): in its spliced segment, else in its base stream; none past
the end of the base stream. core is the partition-relative global core. -/
def fetchPlace (d : Dev) (p : Port) (s : PlanSlot) (core : Nat) (c : CoreSt) : Option Nat :=
  let sec0 := (planSection d p s 0).1
  let here := fun (off : Nat) => bar2Base p + s.offset + sec0 + off
  if c.segLeft ≠ 0 then some (here ((dirEntry d p s (segPart d p s c.segOff 0).1 core).1 + 64 * (c.segPos - 1)))
  else
    let e := dirEntry d p s sec0 core
    if c.idx < e.2 then some (here (e.1 + 64 * c.idx)) else none

/-- Tail entry i of section 1. -/
def tailAt (d : Dev) (p : Port) (s : PlanSlot) (i : Nat) : TailEnt :=
  TailEnt.ofNat (imgNum d p s ((planSection d p s 1).1 + 8 * i) 8)

/-- The published entries of a command, in order (R42). -/
def tailOf (d : Dev) (p : Port) (s : PlanSlot) (c : Cmd) : List TailEnt :=
  (List.range c.tailCount).map (fun i => tailAt d p s (c.tailIndex + i + b2n c.acq))

/-- Whether the record at a place, or its tail entries, are poisoned (R389). -/
def recordBad (d : Dev) (p : Port) (s : PlanSlot) (place : Nat) (c : Cmd) : Bool :=
  d.mem.poisoned .hbm place 64 ||
    d.mem.poisoned .hbm (bar2Base p + s.offset + (planSection d p s 1).1 + 8 * c.tailIndex) (8 * (c.tailCount + b2n c.acq))

/-! ## Regions -/

/-- Where a command runs. -/
structure Ctx where
  dev : Dev
  n : Nat
  slot : Nat
  die : Nat
  core : Nat
  cmd : Cmd

def Ctx.p (x : Ctx) : Port := x.dev.port x.n

/-- A region: the descriptor's number as fault postings name it (R40), its space, the address its offset 0
stands for, its declared length and the room its space leaves from there, both in bytes. For a host region
base counts in the concatenated windows of the port. -/
structure Region where
  idx : Nat
  space : Space
  base : Nat
  len : Nat
  room : Nat
  port : Nat
  deriving DecidableEq, Repr

/-- Fields of a descriptor (R36). -/
def descSpace (w : Nat) : Nat := bits w 63 61
def descBase (w : Nat) : Nat := bits w 60 30
def descLen (w : Nat) : Nat := 64 * bits w 29 0

/-- The registered windows of a port in registration order: base and size (R224, R292). DESIGN CHOICE: a window ends where the
64-bit bus addresses do (log 138). -/
def windowsOf (p : Port) : List (Nat × Nat) :=
  (List.range 16).filterMap (fun i =>
    let w := look (0, 0) p.windows i
    let size := min w.2 (2 ^ 64 - w.1)
    if size = 0 then none else some (w.1, size))

/-- Total size of the windows. -/
def windowTotal (p : Port) : Nat := ((windowsOf p).map (·.2)).foldl (· + ·) 0

/-- The bus pieces of n bytes from offset o of the concatenated windows. -/
def hostPieces : List (Nat × Nat) → Nat → Nat → List (Nat × Nat)
  | [], _, _ => []
  | (b, s) :: t, o, n =>
    if n = 0 then []
    else if o < s then (b + o, min n (s - o)) :: hostPieces t 0 (n - min n (s - o))
    else hostPieces t (o - s) n

/-- HBM range of a plan slot on a die: base and size (R234). -/
def planBase (d : Dev) (die slot : Nat) : Nat := d.rd64 (R.HBMC_PLAN_BASE_LO die 0 slot)
def planSize (d : Dev) (die slot : Nat) : Nat := d.rd64 (R.HBMC_PLAN_SIZE_LO die 0 slot)

/-- Page size of a die's KVT (R149). -/
def kvPageSize (d : Dev) (die : Nat) : Nat := 4096 * bits (d.rd (R.KVT_CFG die)) 8 0

/-- KVT entry access. -/
def Dev.kv (d : Dev) (die i : Nat) : KvtEnt := look {} d.kvt (die, i)
def Dev.setKv (d : Dev) (die i : Nat) (e : KvtEnt) : Dev := { d with kvt := put d.kvt (die, i) e }

/-- The HBM address of frame f of a die (R149). -/
def frameAddr (d : Dev) (die f : Nat) : Nat :=
  d.rd64 (R.KVT_FRAME_BASE_LO die) + f * kvPageSize d die

/-- A free entry's state (R148). -/
def kvFree : Nat := 0

/-- The page of a free entry (R157, R158): a region of the page's size at no place, since what is read there is unpredictable
and what is written there meets the entry's next page. No port has windows for it. -/
def noPage (idx len size : Nat) : Region := ⟨idx, .host, 0, len, size, 4⟩

/-- The page of a KVT entry as a region (R148, R162): reached only up to the end of its memory. The home of a
tier-2 page is in the host windows. -/
def kvRegion (d : Dev) (die idx i len : Nat) : Region :=
  let e := d.kv die i
  let sz := kvPageSize d die
  let n := (ownerOf d die).getD 0
  if e.state = kvFree then noPage idx len sz else
  match e.tier with
  | 0 =>
    let c := bits e.addr 29 24
    let o := 64 * bits e.addr 17 0
    ⟨idx, .tm, tmBase die c + o, len, min sz (tmSize - o), n⟩
  | 1 =>
    let a := frameAddr d die (bits e.addr 19 0)
    ⟨idx, .hbm, hbmBase die + a, len, min sz (hbmSize - a), n⟩
  | _ =>
    let o := d.rd64 (R.KVT_HOST_BASE_LO die) + i * sz
    ⟨idx, .host, o, len, min sz (windowTotal (d.port n) - o), n⟩

/-- The region a descriptor of spaces 0b001 to 0b101 names for a command (R36, R234). -/
def regionOf (d : Dev) (n slot die core idx w : Nat) : Region :=
  let b := descBase w
  match descSpace w with
  | 1 => ⟨idx, .tm, tmBase die core + 64 * b, descLen w, tmSize - 64 * b, n⟩
  | 2 => ⟨idx, .tm, tmBase die (bits b 23 18) + 64 * bits b 17 0, descLen w, tmSize - 64 * bits b 17 0, n⟩
  | 3 =>
    let a := planBase d die slot + 64 * b
    ⟨idx, .hbm, hbmBase die + a, descLen w, min (planSize d die slot - 64 * b) (hbmSize - a), n⟩
  | 4 => ⟨idx, .host, 64 * b, descLen w, windowTotal (d.port n) - 64 * b, n⟩
  | 5 => kvRegion d die idx (bits b 14 0) (descLen w)
  | _ => ⟨idx, .tm, 0, 0, 0, n⟩

def Ctx.region (x : Ctx) (i : Nat) : Region := regionOf x.dev x.n x.slot x.die x.core i (x.cmd.desc i)

/-- Bytes of a region that exist. -/
def Region.bound (r : Region) : Nat := min r.len r.room

/-- The addressed pieces of n bytes at an offset. -/
def Region.pieces (d : Dev) (r : Region) (off n : Nat) : List (Nat × Nat) :=
  match r.space with
  | .host => (hostPieces (windowsOf (d.port r.port)) (r.base + off) n).map (fun q => (hostBase r.port + q.1, q.2))
  | _ => [(r.base + off, n)]

/-- The bytes of a region, without checks. -/
def Region.bytes (d : Dev) (r : Region) (off n : Nat) : List Byte :=
  (r.pieces d off n).flatMap (fun q => d.mem.bytes r.space q.1 q.2)

/-- Writes of bytes at an offset of a region, one for each piece. -/
def Region.writes (d : Dev) (r : Region) (off : Nat) (bs : List Byte) : List Wr :=
  ((r.pieces d off bs.length).foldl (fun (acc : List Wr × List Byte) q =>
    (acc.1 ++ [⟨r.space, q.1, acc.2.take q.2⟩], acc.2.drop q.2)) ([], bs)).1

/-- The whole region as spans. -/
def Region.spans (d : Dev) (r : Region) : List Span :=
  (r.pieces d 0 r.bound).map (fun q => ⟨r.space, q.1, q.2⟩)

def Region.poisoned (d : Dev) (r : Region) (off n : Nat) : Bool :=
  (r.pieces d off n).any (fun q => d.mem.poisoned r.space q.1 q.2)

/-- Whether two spans share a byte. -/
def Span.meets (a b : Span) : Bool :=
  decide (a.space = b.space) && decide (a.base < b.base + b.len) && decide (b.base < a.base + a.len)

def spansMeet (as bs : List Span) : Bool := as.any (fun a => bs.any (Span.meets a))

/-- The bytes two spans share. -/
def Span.common (a b : Span) : Span :=
  ⟨a.space, max a.base b.base, min (a.base + a.len) (b.base + b.len) - max a.base b.base⟩

/-- What is left of a span when another is taken out. -/
def Span.minus (a b : Span) : List Span :=
  if !a.meets b then [a]
  else (if a.base < b.base then [⟨a.space, a.base, b.base - a.base⟩] else []) ++
    (if b.base + b.len < a.base + a.len then [⟨a.space, b.base + b.len, a.base + a.len - (b.base + b.len)⟩] else [])

/-- n bytes from offset o of spans one after another. -/
def cutSpans : List Span → Nat → Nat → List Span
  | [], _, _ => []
  | s :: t, o, n =>
    if n = 0 then []
    else if o < s.len then ⟨s.space, s.base + o, min n (s.len - o)⟩ :: cutSpans t 0 (n - min n (s.len - o))
    else cutSpans t (o - s.len) n

end Sys2Proof.Machine
end

