-- ==== Sys2Proof/Machine/Load.lean ====
section
/-! DEFINITION. Loading a plan: the checks of R32 over the layouts of R31, R97, R229, R300, R302 and R453 to R455,
and the values a load sets (R57, R96, R130, R167, R200). -/

namespace Sys2Proof.Machine
open Sys2Proof

/-- An image under load: its place and the numbers in it. -/
structure Img where
  dev : Dev
  port : Port
  offset : Nat
  len : Nat

def Img.num (g : Img) (off n : Nat) : Nat := g.dev.mem.num .hbm (bar2Base g.port + g.offset + off) n

/-- Offset and length of a section. -/
def Img.sec (g : Img) (i : Nat) : Nat × Nat := (g.num (0x80 + 16 * i) 8, g.num (0x88 + 16 * i) 8)

/-- row_count (R31). -/
def Img.rows (g : Img) : Nat := g.num 6 1

/-- Every number below n satisfies p, tried in order. -/
def allBelow (p : Nat → Bool) : Nat → Bool
  | 0 => true
  | n + 1 => allBelow p n && p n

/-- Section or part off .. off + len of section i lies within it. -/
def Img.partIn (g : Img) (i off len : Nat) : Bool := decide (off + len ≤ (g.sec i).2)

/-- The directory of section 0 or of a part of it (R453), and its streams wholly within section 0. least is
the least command count allowed. -/
def Img.streamsOk (g : Img) (dirOff dirLen least : Nat) : Bool :=
  let s := g.sec 0
  decide (g.rows * 256 * 16 ≤ dirLen) &&
  allBelow (fun i =>
    let off := g.num (dirOff + 16 * i) 8
    let cnt := g.num (dirOff + 16 * i + 8) 4
    off % 64 == 0 && decide (least ≤ cnt) && (cnt == 0 || decide (off + 64 * cnt ≤ s.2))) (g.rows * 256)

/-- Size of a section of slot tables (R454). -/
def tableSize (rows i : Nat) : Nat :=
  match i with | 2 => rows * 163840 | 3 => rows * 2048 | 4 => rows * 65536 | _ => rows * 256

/-- An entry of section 11 (R455). -/
def Img.initOk (g : Img) (off : Nat) : Bool :=
  let kind := g.num off 1
  decide (kind ≤ 2) && decide (g.num (off + 1) 1 < 4 * g.rows) &&
    (if kind = 0 then decide (g.num (off + 2) 2 < 4096) && decide (g.num (off + 4) 4 ≤ 65535)
     else decide (g.num (off + 2) 2 < 64))

/-- Tide entries at off: the header's count lies within len, and they are sorted by die, core, cmd (R229). -/
def Img.tideOk (g : Img) (off len : Nat) : Bool :=
  len == 0 ||
  (let cnt := g.num off 4
   let key := fun i =>
     let e := off + 8 + 32 * i
     (g.num (e + 1) 1 * 256 + g.num (e + 2) 1) * 2 ^ 32 + g.num (e + 4) 4
   decide (8 + 32 * cnt ≤ len) && allBelow (fun i => decide (key i ≤ key (i + 1))) (cnt - 1))

/-- A segment record (R97): its parts lie within their sections and have their layouts. -/
def Img.segmentOk (g : Img) (rec : Nat) : Bool :=
  let s7 := g.sec 7
  let part := fun i => (g.num (s7.1 + rec + 16 * i) 8, g.num (s7.1 + rec + 16 * i + 8) 8)
  let table := fun (i sec : Nat) =>
    g.partIn sec (part i).1 (part i).2 && ((part i).2 == 0 || (part i).2 == tableSize g.rows sec)
  decide (rec + 80 ≤ s7.2) &&
    g.partIn 0 (part 0).1 (part 0).2 && g.streamsOk ((g.sec 0).1 + (part 0).1) (part 0).2 0 &&
    table 1 2 && table 2 3 && table 3 4 &&
    g.partIn 6 (part 4).1 (part 4).2 && g.tideOk ((g.sec 6).1 + (part 4).1) (part 4).2

/-- The recipe table (R97). -/
def Img.recipeOk (g : Img) : Bool :=
  let s := g.sec 7
  s.2 == 0 ||
  (let cnt := g.num s.1 2
   let ent := fun i => s.1 + 8 + 32 * i
   let layer := fun i => g.num (ent i) 1
   decide (8 + 32 * cnt ≤ s.2) &&
   allBelow (fun i =>
     let nvar := g.num (ent i + 1) 1
     decide (1 ≤ layer i) && allBelow (fun j => layer j != layer i) i &&
     decide (1 ≤ nvar) && decide (nvar ≤ 3) && decide (g.num (ent i + 2) 1 < nvar) &&
     allBelow (fun v => g.segmentOk (g.num (ent i + 8 + 8 * v + 4) 4)) nvar) cnt)

/-- The live-range table (R300): counted entries within the section, sorted by core, then first boundary. -/
def Img.liveOk (g : Img) : Bool :=
  let s := g.sec 9
  s.2 == 0 ||
  (let cnt := g.num s.1 8
   decide (8 + 16 * cnt ≤ s.2) &&
   allBelow (fun i => decide (g.num (s.1 + 8 + 16 * i) 4 ≤ g.num (s.1 + 8 + 16 * (i + 1)) 4)) (cnt - 1))

/-- The cheap-point list (R302): sorted by point, then core. -/
def Img.cheapOk (g : Img) : Bool :=
  let s := g.sec 10
  let cnt := g.num 0x40 2
  decide (8 * cnt ≤ s.2) &&
  allBelow (fun i => decide (g.num (s.1 + 8 * i) 8 / 2 ^ 38 ≤ g.num (s.1 + 8 * (i + 1)) 8 / 2 ^ 38)) (cnt - 1)

/-- The checks of R32, the row count apart. -/
def Img.formatOk (g : Img) : Bool :=
  decide (4096 ≤ g.len) && g.num 0 4 == 0x3258444D && g.num 4 2 == 1 && decide (g.num 7 1 ≤ 3) &&
  allBelow (fun i => (g.sec i).2 == 0 || decide ((g.sec i).1 + (g.sec i).2 ≤ g.len)) 16 &&
  g.streamsOk (g.sec 0).1 (g.sec 0).2 1 &&
  allBelow (fun i => i < 2 || (g.sec i).2 == 0 || (g.sec i).2 == tableSize g.rows i) 6 &&
  (g.sec 11).2 % 8 == 0 && allBelow (fun i => g.initOk ((g.sec 11).1 + 8 * i)) ((g.sec 11).2 / 8) &&
  g.tideOk (g.sec 6).1 (g.sec 6).2 && g.recipeOk && g.liveOk && g.cheapOk

/-- The directories in section 0 (R453): the base streams', and one for every variant of the recipe table (R97). -/
def Img.directories (g : Img) : List (Nat × Nat) :=
  let s := g.sec 7
  let ent := fun (i : Nat) => s.1 + 8 + 32 * i
  ((g.sec 0).1, g.rows * 4096) ::
    (List.range (if s.2 = 0 then 0 else g.num s.1 2)).flatMap (fun i => (List.range (g.num (ent i + 1) 1)).map (fun v =>
      ((g.sec 0).1 + g.num (s.1 + g.num (ent i + 8 + 8 * v + 4) 4) 8, g.rows * 4096)))

/-- Whether a load reads poisoned bytes (R389): of the header, the directories, and the sections whose contents it checks. -/
def Img.poisoned (g : Img) : Bool :=
  ((0, 0x180) :: g.directories ++ [5, 6, 7, 9, 10, 11].map g.sec).any (fun s =>
    g.dev.mem.poisoned .hbm (bar2Base g.port + g.offset + s.1) s.2)

/-- The outcome of the checks (R32, R389): none, or the load's fault code. -/
def Img.check (g : Img) : Option Nat :=
  if g.poisoned then some 0x0502
  else if !g.formatOk then some 0x0106
  else if g.rows ≠ (rowList g.port.rows).length then some 0x0107
  else none

/-- One entry of section 11 applied to the set of a plan slot (R57, R455). -/
def applyInit (d : Dev) (base slot kind rel ix v : Nat) : Dev :=
  match kind with
  | 0 => { d with sem := put d.sem (base + rel, slot, ix) v }
  | 1 => { d with ctr := put d.ctr (base + rel, slot, ix) v }
  | _ => { d with lim := put d.lim (base + rel, slot, ix) v }

/-- The set of a plan slot of a partition's dies emptied: semaphores 0, counters 0, limits and commit slots at
their default (R57, R454), SFU and coma copies invalid (R130, R167), the layer flag tables clear (R96). -/
def clearSet (d : Dev) (dies : List Nat) (slot : Nat) : Dev :=
  let mine := fun (k : Nat × Nat × Nat) => dies.contains k.1 && k.2.1 == slot
  { d with
    sem := without mine d.sem
    semSat := d.semSat.filter (fun k => !mine k)
    semPoison := d.semPoison.filter (fun k => !mine k)
    ctr := without mine d.ctr
    lim := without mine d.lim
    slotTab := without mine d.slotTab
    sfuValid := d.sfuValid.filter (fun k => !(dies.contains k.1 && k.2.2.1 == slot))
    comaValid := d.comaValid.filter (fun k => !(dies.contains k.1 && k.2.2 == slot))
    lflag := without (fun k => dies.contains k.1) d.lflag
    tabs := without (fun k => dies.contains k.1) d.tabs }

/-- A die's AST set of a plan slot. -/
def Dev.astSet (d : Dev) (die slot : Nat) : AstSet := look {} d.ast (die, slot)
def Dev.setAst (d : Dev) (die slot : Nat) (a : AstSet) : Dev := { d with ast := put d.ast (die, slot) a }

/-- A set whose counters have counted: the first of the page's counters at its maximum raises source counter_sat (R433). -/
def Dev.countAst (d : Dev) (die slot : Nat) (a : AstSet) : Dev :=
  let d1 := d.setAst die slot a
  if anySat d1 (.ast die) && !anySat d (.ast die) then irqRise d1 (.ast die) 3 else d1

/-- The HBM pieces of n virtual bytes from v: offset in the range and length (R200); fuel n. -/
def astPieces (size : Nat) : Nat → Nat → Nat → List (Nat × Nat)
  | 0, _, _ => []
  | f + 1, v, n =>
    if n = 0 then []
    else
      let o := v % size
      let k := if size = 0 then n else min n (size - o)
      (o, k) :: astPieces size f (v + k) (n - k)

/-- The host home of stack offset v, n bytes (R200). -/
def astHome (d : Dev) (a : AstSet) (n v len : Nat) : Region :=
  ⟨2, .host, a.hostBase + v, len, windowTotal (d.port n) - (a.hostBase + v), n⟩

/-- Stack offset v in HBM as a region of len bytes that does not wrap. -/
def astAt (a : AstSet) (die v len n : Nat) : Region :=
  ⟨2, .hbm, hbmBase die + a.base + v % a.hbmSize, len, hbmSize - (a.base + v % a.hbmSize), n⟩

/-- HBM bytes of stack offsets lo … hi. -/
def astSpans (a : AstSet) (die lo hi : Nat) : List Span :=
  (astPieces a.hbmSize (hi - lo) lo (hi - lo)).map (fun q => ⟨.hbm, hbmBase die + (a.base + q.1), q.2⟩)

/-- How far an AST_SPILL goes, and how far an AST_FETCH (R231). -/
def spillTo (a : AstSet) (t : TideEnt) : Nat := min a.sp (a.spill + 64 * t.arg)
def fetchTo (a : AstSet) (t : TideEnt) : Nat := max (a.res - 64 * t.arg) (a.sp - a.hbmSize)

/-- What a load that passes its checks sets (R57, R200, R222's C0_WAIT_MAX). -/
def Img.apply (g : Img) (slot : Nat) : Dev :=
  let dies := partDies g.port
  let d1 := clearSet g.dev dies slot
  let s5 := g.sec 5
  let d2 := if s5.2 = 0 then d1
    else (List.range s5.2).foldl (fun x i =>
      { x with slotTab := put x.slotTab (baseDie g.port + i / 64, slot, i % 64) (g.num (s5.1 + i) 1) }) d1
  let s11 := g.sec 11
  let d3 := (List.range (s11.2 / 8)).foldl (fun x i =>
    let e := s11.1 + 8 * i
    applyInit x (baseDie g.port) slot (g.num e 1) (g.num (e + 1) 1) (g.num (e + 2) 2) (g.num (e + 4) 4)) d2
  dies.foldl (fun x die =>
    let a := x.astSet die slot
    (((x.setAst die slot { a with limit := g.num 0x18 8 / 64 * 64, sp := 0, spill := 0, res := 0, peak := 0 }).wr
      (R.HBMC_C0_WAIT_MAX die 0) 0).wr (R.HBMC_C0_WAIT_MAX die 1) 0)) d3

end Sys2Proof.Machine
end

