-- ==== Sys2Proof/Machine/Units.lean ====
section
/-! DEFINITION. The per-die units a commit acts on: free draws, semaphores (R50), work counters (R49), the KV
page table and its frame pool (R148 to R157), residency, spills and demand fetches (R153, R154). -/

namespace Sys2Proof.Machine
open Sys2Proof

/-! ## Free values -/

/-- A fresh free number. -/
def Dev.draw (d : Dev) : Nat × Dev := (Config.freeNat d.fresh, { d with fresh := d.fresh + 1 })

/-- Every byte of the spans takes an unpredictable value (R2, R3). -/
def scramble (d : Dev) (ss : List Span) : Dev :=
  ss.foldl (fun x s =>
    { x with mem := x.mem.put s.space s.base (freeBytes x.fresh s.len), fresh := x.fresh + 1 }) d

/-- n bytes from an offset of a die's HBM, as far as the die's HBM goes: what a rule makes unpredictable there touches no
other die (R2, R3). -/
def dieSpan (die off n : Nat) : Span := ⟨.hbm, hbmBase die + min off hbmSize, min n (hbmSize - off)⟩

/-- One member of a list, which one being open: a free draw picks it. -/
def pickFree {α : Type} (d : Dev) (l : List α) : Option α × Dev :=
  (l[(Config.freeNat d.fresh) % max l.length 1]?, { d with fresh := d.fresh + 1 })

/-! ## What is written where -/

/-- The marks of corrected outputs (R89) leave what is written anew. -/
def dropMarks (d : Dev) (ss : List Span) : Dev :=
  { d with corrected := d.corrected.flatMap (fun m => (ss.foldl (fun l s => l.flatMap (·.minus s)) [m.1]).map (·, m.2)) }

/-- Data copied from spans to others takes its marks along (R89). -/
def carryMarks (d : Dev) (src dst : List Span) : Dev :=
  let moved := (src.foldl (fun (acc : Nat × List (Span × Bool × Bool)) s =>
    (acc.1 + s.len, acc.2 ++ d.corrected.flatMap (fun m =>
      if m.1.meets s then (cutSpans dst (acc.1 + ((m.1.common s).base - s.base)) (m.1.common s).len).map (·, m.2) else []))) (0, [])).2
  let d1 := dropMarks d dst
  { d1 with corrected := moved ++ d1.corrected }

/-! ## HBM channels -/

/-- The channel (32 × stack + channel) of a byte address of a die's HBM (R217). -/
def hbmChannel (a : Nat) : Nat :=
  let u := a / 256
  bits u 5 0 ^^^ bits u 11 6 ^^^ bits u 17 12 ^^^ bits u 23 18 ^^^ bits u 28 24

/-- Column, bank and row of a byte address within its channel (R217). -/
def hbmColumn (a : Nat) : Nat := bits (a / 256) 8 6
def hbmBank (a : Nat) : Nat := bits (a / 256) 13 9
def hbmRow (a : Nat) : Nat := bits (a / 256) 28 14

/-- One 256-byte piece served on a die (R218): the rows open after it, and one more opened unless its bank's last piece was in
the same row; the counts are of stack 0 and stack 1. -/
def openPiece (die : Nat) (acc : List (Nat × Nat) × Nat × Nat) (a : Nat) : List (Nat × Nat) × Nat × Nat :=
  let ch := hbmChannel a
  let k := die * 2048 + ch * 32 + hbmBank a
  if look (2 ^ 15) acc.1 k = hbmRow a then acc
  else (put acc.1 k (hbmRow a), acc.2.1 + b2n (decide (ch < 32)), acc.2.2 + b2n (decide (32 ≤ ch)))

/-- The pieces of HBM ranges served in order: the rows they open are counted (R218, R236). -/
def countOpens (d : Dev) (ss : List Span) : Dev :=
  ss.foldl (fun (x : Dev) s =>
    if s.space ≠ .hbm ∨ s.len = 0 then x
    else
      let die := s.base / hbmStride
      let a := s.base % hbmStride
      let r := (List.range (cdiv (a % 256 + s.len) 256)).foldl (fun acc i => openPiece die acc (a + 256 * i)) (x.openRows, 0, 0)
      ({ x with openRows := r.1 }.inc64 (R.HBMC_OPEN_LO die 0) r.2.1).inc64 (R.HBMC_OPEN_LO die 1) r.2.2) d

/-! ## Frame rings -/

/-- A frame ring of a die (R180, R183). -/
structure Ring where
  yuv : Bool
  count : Nat
  w : Nat
  h : Nat
  base : Nat
  pitch : Nat
  deriving DecidableEq, Repr

def inRing (d : Dev) (die : Nat) : Ring :=
  ⟨d.fld (R.PXE_IN_CTRL die) 0 0 == 1, d.fld (R.PXE_IN_CTRL die) 12 8 + 1, d.fld (R.PXE_IN_GEOM die) 15 0,
    d.fld (R.PXE_IN_GEOM die) 31 16, d.rd64 (R.PXE_IN_BASE_LO die), d.rd (R.PXE_IN_PITCH die)⟩
def outRing (d : Dev) (die : Nat) : Ring :=
  ⟨d.fld (R.PXE_OUT_CTRL die) 0 0 == 1, d.fld (R.PXE_OUT_CTRL die) 12 8 + 1, d.fld (R.PXE_OUT_GEOM die) 15 0,
    d.fld (R.PXE_OUT_GEOM die) 31 16, d.rd64 (R.PXE_OUT_BASE_LO die), d.rd (R.PXE_OUT_PITCH die)⟩

/-- Bytes of a frame and of a slot (R180). -/
def Ring.frame (r : Ring) : Nat := if r.yuv then r.pitch * r.h * 3 / 2 else r.pitch * r.h
def Ring.slot (r : Ring) : Nat := alignUp r.frame 4096

/-- Slot s of a ring as a region. -/
def Ring.region (r : Ring) (die s : Nat) : Region :=
  let a := r.base + s * r.slot
  ⟨0, .hbm, hbmBase die + a, r.frame, hbmSize - a, 0⟩

/-! ## Semaphores -/

def semCount (d : Dev) (die slot i : Nat) : Nat := look 0 d.sem (die, slot, i)
def setSem (d : Dev) (die slot i v : Nat) : Dev := { d with sem := put d.sem (die, slot, i) v }

/-- Whether a semaphore's word is poisoned (R388); a write of the count clears it. -/
def semBad (d : Dev) (die slot i : Nat) : Bool := d.semPoison.contains (die, slot, i)
def semGood (d : Dev) (die slot i : Nat) : Dev := { d with semPoison := d.semPoison.filter (· != (die, slot, i)) }

/-- A release of n, clipped at 65,535; a clipped release sets sat and posts an event (R50). -/
def semRelease (d : Dev) (die slot i n : Nat) : Dev :=
  let v := semCount d die slot i + n
  let d1 := setSem d die slot i (min v 65535)
  if 65535 < v then
    let d2 := if (die, slot, i) ∈ d1.semSat then d1 else { d1 with semSat := (die, slot, i) :: d1.semSat }
    postReg d2 sevEvent (R.SEM_DATA die) 16
  else d1

/-! ## Work counters -/

def ctrVal (d : Dev) (die slot i : Nat) : Nat := look 0 d.ctr (die, slot, i)
def ctrLim (d : Dev) (die slot i : Nat) : Nat := look 0xFFFFFFFF d.lim (die, slot, i)
def setCtr (d : Dev) (die slot i v : Nat) : Dev := { d with ctr := put d.ctr (die, slot, i) v }

/-- CTR_ADD (R49): not applied, counted and posted when the sum would exceed the limit. -/
def ctrAdd (d : Dev) (die slot i n : Nat) : Dev :=
  let v := ctrVal d die slot i + n
  if ctrLim d die slot i < v then countEvent d (R.WCTR_ADD_REJ die) else setCtr d die slot i v

/-! ## The KV page table -/

/-- KVT states (R148). -/
def kvValid : Nat := 1
def kvSpilling : Nat := 2
def kvPrefetch : Nat := 3
def kvCopying : Nat := 4
def kvFreePending : Nat := 5

/-- Frames of a die's pool that no entry holds (R150). -/
def freeFrames (d : Dev) (die : Nat) : List Nat :=
  (List.range (bits (d.rd (R.KVT_FRAME_CNT die)) 19 0)).filter (fun f => !d.taken.contains (die, f))

/-- Free frames of a die as KVT_FRAME_FREE shows them. -/
def freeFrameCount (d : Dev) (die : Nat) : Nat :=
  bits (d.rd (R.KVT_FRAME_CNT die)) 19 0 - (d.taken.filter (fun t => t.1 == die)).length

/-- The host home of an entry (R149). -/
def kvHome (d : Dev) (die i : Nat) : Region :=
  let sz := kvPageSize d die
  let n := (ownerOf d die).getD 0
  let o := d.rd64 (R.KVT_HOST_BASE_LO die) + i * sz
  ⟨0, .host, o, sz, min sz (windowTotal (d.port n) - o), n⟩

/-- Frame f of a die as a region. -/
def frameRegion (d : Dev) (die f : Nat) : Region :=
  let sz := kvPageSize d die
  let a := frameAddr d die f
  ⟨0, .hbm, hbmBase die + a, sz, min sz (hbmSize - a), (ownerOf d die).getD 0⟩

/-- Where the page of an entry lies: a page in tier 0 in its frame too. -/
def kvPlaces (d : Dev) (die i : Nat) : List Span :=
  let e := d.kv die i
  (kvRegion d die 0 i (kvPageSize d die)).spans d ++
    (if e.tier = 0 ∧ e.state ≠ kvFree then (frameRegion d die e.frame).spans d else [])

/-- Pages written while their entries were free are unpredictable to every later holder (R158). -/
def wildPages (d : Dev) (die : Nat) (l : List Nat) : Dev :=
  l.foldl (fun x i =>
    let e := x.kv die i
    if e.state = kvFree then x.setKv die i { e with wild := true } else scramble x (kvPlaces x die i)) d

/-- An entry becomes free: both words 0, its frame back in the pool (R150). The plans that have named it stay noted (R158). -/
def kvRelease (d : Dev) (die i : Nat) : Dev :=
  let e := d.kv die i
  let d1 := d.setKv die i { users := e.users }
  if e.tier ≤ 1 then { d1 with taken := d1.taken.filter (· != (die, e.frame)) } else d1

/-- The page a spill takes next: valid, tier 1, unpinned, smallest epoch, lowest index on a tie (R154). -/
def spillPick (d : Dev) (die : Nat) : Option Nat :=
  let better := fun (best : Option (Nat × Nat)) (c : (Nat × Nat) × KvtEnt) =>
    let ok := decide (c.1.1 = die) && c.2.state == kvValid && c.2.tier == 1 && c.2.pins == 0
    if !ok then best
    else match best with
      | none => some (c.2.epoch, c.1.2)
      | some (ep, i) => if c.2.epoch < ep || (c.2.epoch == ep && decide (c.1.2 < i)) then some (c.2.epoch, c.1.2) else best
  (d.kvt.foldl better none).map (·.2)

/-- The controller starts the next spill while free frames are below its high-water mark (R154). -/
def spillNext (d : Dev) (die : Nat) : Dev :=
  if !d.spillRun.contains die then d
  else if bits (d.rd (R.KVT_SPILL_HI die)) 19 0 ≤ freeFrameCount d die then
    { d with spillRun := d.spillRun.filter (· != die) }
  else if d.kvt.any (fun c => decide (c.1.1 = die) && c.2.state == kvSpilling) then d
  else match spillPick d die with
    | none => d
    | some i => d.setKv die i { d.kv die i with state := kvSpilling, pinnedInSpill := false }

/-- An ALLOC that left fewer free frames than the low-water mark starts spilling (R154); a run that found no page to spill
looks again. -/
def spillCheck (d : Dev) (die : Nat) : Dev :=
  if freeFrameCount d die < bits (d.rd (R.KVT_SPILL_LO die)) 19 0 && !d.spillRun.contains die then
    spillNext { d with spillRun := die :: d.spillRun } die
  else spillNext d die

/-- A rejected operation: counted and posted (R151). -/
def kvReject (d : Dev) (die : Nat) : Dev := countEvent d (R.KVT_OP_REJ die)

/-- KVT_EPOCH of a die. -/
def kvEpoch (d : Dev) (die : Nat) : Nat := d.rd (R.KVT_EPOCH die)

/-- ALLOC (R150, R151), of a command of a plan slot: which free frame it takes is open. -/
def kvAlloc (d : Dev) (die slot i : Nat) : Dev :=
  let e := d.kv die i
  let new : KvtEnt := { e with state := kvValid, refcnt := 1, pins := 0, epoch := kvEpoch d die, users := insertNew slot e.users, wild := false }
  if e.state ≠ kvFree then kvReject d die
  else
    let open' := fun (x : Dev) => if e.wild then scramble x (kvPlaces x die i) else x
    match pickFree d (freeFrames d die) with
    | (some f, d1) =>
      spillCheck (open' ({ d1 with taken := (die, f) :: d1.taken }.setKv die i { new with tier := 1, addr := f, frame := f })) die
    | (none, d1) => spillCheck (open' ((d1.setKv die i { new with tier := 2 }).inc (R.KVT_ALLOC_HOST die) 1)) die

/-- REF (R150, R151). -/
def kvRef (d : Dev) (die i : Nat) : Dev :=
  let e := d.kv die i
  if (e.state == kvValid || e.state == kvSpilling || e.state == kvPrefetch) && decide (e.refcnt < 255) then
    d.setKv die i { e with refcnt := e.refcnt + 1 }
  else kvReject d die

/-- DEREF (R150, R151). -/
def kvDeref (d : Dev) (die i : Nat) : Dev :=
  let e := d.kv die i
  if (e.state == kvValid || e.state == kvSpilling || e.state == kvPrefetch) && e.refcnt != 0 then
    if e.refcnt = 1 then
      if e.pins = 0 then spillNext (kvRelease d die i) die
      else d.setKv die i { e with refcnt := 0, state := kvFreePending }
    else d.setKv die i { e with refcnt := e.refcnt - 1 }
  else kvReject d die

/-- A KVT_OP tail entry (R150): operation in the target, entry in operand [30:16]. -/
def kvOp (d : Dev) (die slot : Nat) (t : TailEnt) : Dev :=
  let i := bits t.operand 30 16
  match t.target with
  | 1 => kvAlloc d die slot i
  | 2 => kvRef d die i
  | _ => kvDeref d die i

/-- A command of a core pins a page (R152, R157); who: its plan slot and core. -/
def kvPin (d : Dev) (die i : Nat) (who : Nat × Nat) : Dev :=
  let e := d.kv die i
  let d1 := d.setKv die i { e with pins := e.pins + 1, epoch := kvEpoch d die, pinnedInSpill := true,
                                   users := insertNew who.1 e.users }
  if e.state = kvFree ∨ (e.state = kvCopying ∧ e.copier ≠ some who) then d1.inc (R.KVT_FREE_USE die) 1 else d1

/-- A pin is released; the last one on a free-pending entry frees it (R157). -/
def kvUnpin (d : Dev) (die i : Nat) : Dev :=
  let e := d.kv die i
  if e.pins ≤ 1 ∧ e.state = kvFreePending then spillNext (kvRelease d die i) die
  else spillNext (d.setKv die i { e with pins := e.pins - 1 }) die

def kvUnpinAll (d : Dev) (die : Nat) (l : List Nat) : Dev := l.foldl (fun x i => kvUnpin x die i) d

/-- A page a command may go on with: tier 0 or 1 and not prefetching (R153). Free and copying entries are read with
an unpredictable result (R157); a free one does not stall. -/
def kvResident (e : KvtEnt) : Bool := e.state == kvFree || (e.state != kvPrefetch && decide (e.tier ≤ 1))

/-- The data of a page a command pins is unpredictable to it (R157, R158): free, being copied into by another command, or named
by commands of several plans. -/
def kvUnsure (e : KvtEnt) (who : Nat × Nat) : Bool :=
  e.state == kvFree || (e.state == kvCopying && e.copier != some who) || e.users.any (· != who.1)

/-- The pages of a list that are not resident. -/
def kvMissing (d : Dev) (die : Nat) (l : List Nat) : List Nat := l.filter (fun i => !kvResident (d.kv die i))

/-- A demand fetch starts for a tier-2 page that is not being fetched already (R153). -/
def fetchStart (d : Dev) (die i : Nat) : Dev :=
  let e := d.kv die i
  if e.state ≠ kvPrefetch ∧ e.tier = 2 ∧ !d.fetching.contains (die, i) then
    { d with fetching := d.fetching ++ [(die, i)] }
  else d

/-- Misses counted and fetched (R153). -/
def kvMiss (d : Dev) (die : Nat) (l : List Nat) : Dev :=
  l.foldl (fun x i => fetchStart (x.inc (R.KVT_MISS_CNT die) 1) die i) d

/-- An entry that does not fit the frame pool, as a direct write can leave it (R162): its frame is free, or another entry's,
or is not the one tier 1 names. -/
def kvClash (d : Dev) (die i : Nat) : Bool :=
  let e := d.kv die i
  e.state != kvFree && decide (e.tier ≤ 1) &&
    (!d.taken.contains (die, e.frame) || (e.tier == 1 && bits e.addr 19 0 != e.frame) ||
      d.kvt.any (fun c => decide (c.1.1 = die) && decide (c.1.2 ≠ i) && c.2.state != kvFree && decide (c.2.tier ≤ 1) && c.2.frame == e.frame))

/-- Everywhere the pages of a die lie: its frame pool, and what its entries name. -/
def kvSpans (d : Dev) (die : Nat) : List Span :=
  dieSpan die (frameAddr d die 0) (bits (d.rd (R.KVT_FRAME_CNT die)) 19 0 * kvPageSize d die) ::
    d.kvt.flatMap (fun c => if c.1.1 = die ∧ c.2.state ≠ kvFree then
      (kvRegion d die 0 c.1.2 (kvPageSize d die)).spans d ++ (kvHome d die c.1.2).spans d else [])

/-- The words of an entry (R148). -/
def KvtEnt.word0 (e : KvtEnt) : Nat :=
  e.addr % 2 ^ 32 + 2 ^ 44 * (e.pins % 128) + 2 ^ 51 * (e.refcnt % 256) + 2 ^ 59 * (e.tier % 4) + 2 ^ 61 * (e.state % 8)
def KvtEnt.word1 (e : KvtEnt) : Nat := e.frame % 2 ^ 20 + 2 ^ 32 * (e.epoch % 2 ^ 32)

/-- An entry from its words (R148). -/
def KvtEnt.ofWords (w0 w1 : Nat) : KvtEnt where
  state := bits w0 63 61
  tier := bits w0 60 59
  refcnt := bits w0 58 51
  pins := bits w0 50 44
  addr := bits w0 31 0
  epoch := bits w1 63 32
  frame := bits w1 19 0

/-! ## Tables -/

/-- The bytes of a core's SFU user slot under a plan slot (R130), and the 256 bytes of its coma table (R167). -/
def sfuBase (die core plan slot : Nat) : Nat := (((die * 64 + core) * 8 + plan) * 8 + slot) * 256
def comaBase (die core slot : Nat) : Nat := ((die * 64 + core) * 8 + slot) * 256

/-- The code table base of a partition's die under an id: 128 bytes each. -/
def tblBase (die id : Nat) : Nat := (die * 256 + id) * 128

/-- A code table as a command that names it reads it, and a load writes it (R245). -/
def tableSpan (die id : Nat) : Span := ⟨.tcu, tblBase die id, 128⟩

/-- An uncorrectable word of SRAM outside tile memory is poisoned (R388). DESIGN CHOICE: that of a buffer or accumulator slot is
not held, what it holds being of one command; a KVT entry and a semaphore are words of their own (log 116). -/
def poisonWord (d : Dev) (die c : Nat) : TableWord → Dev
  | .buffer => d
  | .sfu a => { d with mem := d.mem.poison .sfu (sfuBase die c 0 0 + a % 16384) }
  | .coma a => { d with mem := d.mem.poison .coma (comaBase die c 0 + a % 2048) }
  | .kvt i => { d with kvtPoison := insertNew (die, i) d.kvtPoison }
  | .sem slot i => { d with semPoison := insertNew (die, slot, i) d.semPoison }

/-- Whether another plan's commands load or name a table (R245). -/
def tableShared (d : Dev) (die slot id : Nat) : Bool := (look [] d.tblUsers (die, id)).any (· != slot)

/-- A plan's command loads or names tables. -/
def nameTables (d : Dev) (die slot : Nat) (ids : List Nat) : Dev :=
  { d with tblUsers := ids.foldl (fun l i => put l (die, i) (insertNew slot (look [] l (die, i)))) d.tblUsers }

/-! ## Commands between issue and commit -/

def Dev.cs (d : Dev) (die c : Nat) : CoreSt := look {} d.cores (die, c)
def Dev.setCs (d : Dev) (die c : Nat) (s : CoreSt) : Dev := { d with cores := put d.cores (die, c) s }

/-- Every command that has started and reads one of the spans gets an unpredictable output (R44); the command of
core (die, c) itself apart. A command that waits in its acquire has not started: its input may still be written (R53's steps). -/
def taintReaders (d : Dev) (die c : Nat) (ss : List Span) : Dev :=
  { d with cores := d.cores.map (fun e =>
      if e.1 = (die, c) then e
      else match e.2.flight with
        | none => e
        | some f => if e.2.phase ≠ .waitAcq ∧ spansMeet f.ins ss = true then (e.1, { e.2 with flight := some { f with taint := true } }) else e) }

/-- Commands in flight that meet a condition get unpredictable outputs. -/
def taintFlights (d : Dev) (hit : Nat × Nat → Flight → Bool) : Dev :=
  { d with cores := d.cores.map (fun (e : (Nat × Nat) × CoreSt) =>
      (e.1, { e.2 with flight := e.2.flight.map (fun f => if hit e.1 f then { f with taint := true } else f) })) }

/-- A semaphore of a die has been released: no core of the running step holds it any more (R52). -/
def unhold (d : Dev) (die i : Nat) : Dev :=
  { d with cores := d.cores.map (fun e => if e.1.1 = die then (e.1, { e.2 with held := e.2.held.filter (fun q => q.1 != i) }) else e) }

/-- What a partition's suspended steps held without a mark when the kill cut them (R306): held by a core of one of them. -/
def cutHold (p : Port) : Bool :=
  p.slots.any (fun s => match s.2.susp with
    | some u => u.cores.any (fun e => !e.2.held.isEmpty)
    | none => false)

/-- Quality maps of pictures already handed over that one of the spans meets (R365): those pictures' quantisers are open. -/
def lateMaps (d : Dev) (ss : List Span) : Dev :=
  { d with codec := d.codec.map (fun e => (e.1, { e.2 with encQueue := e.2.encQueue.map (fun q =>
      if spansMeet [⟨.hbm, q.mapAt, q.map.length⟩] ss then { q with mapLoose := true } else q) })) }

/-- Whether a span is an output of a killed command of a suspended step, unpredictable until its rerun commits (R45). -/
def staleAside (d : Dev) (ss : List Span) : Bool :=
  d.ports.any (fun p => p.2.slots.any (fun s => match s.2.susp with
    | some u => u.cores.any (fun e => spansMeet e.2.stale ss)
    | none => false))

/-- Whether a span is being written by a command in flight other than (die, c)'s, or waits for the rerun of a killed one:
its contents are unpredictable to readers (R44, R45). -/
def beingWritten (d : Dev) (die c : Nat) (ss : List Span) : Bool :=
  staleAside d ss || d.cores.any (fun e => decide (e.1 ≠ (die, c)) &&
    (spansMeet e.2.stale ss ||
    match e.2.flight with
    | none => false
    | some f => f.worked && spansMeet f.outs ss))

/-- The boundary a core stands at (R301, R457). -/
def CoreSt.boundary (c : CoreSt) : Nat := if c.segLeft ≠ 0 then c.idx + 1 else c.idx

/-- The core's next command after one has committed (R456, R457). -/
def CoreSt.advance (c : CoreSt) : CoreSt :=
  let b := { c with flight := none, carried := [], rerun := false, stale := [], resKills := 0, phase := .ready }
  if c.segLeft ≠ 0 then
    if c.segLeft = 1 then { b with segLeft := 0, segPos := 0, idx := c.idx + 1 }
    else { b with segLeft := c.segLeft - 1, segPos := c.segPos + 1 }
  else { b with idx := c.idx + 1 }

end Sys2Proof.Machine
end

