-- ==== Sys2Proof/Machine/Jobs.lean ====
section
/-! DEFINITION. Steps and jobs of a partition: kills (R45, R277, R305), saving and restoring live sets (R235, R300,
R301, R307), suspension, the choice of the next step (R299), job faults and their completion records (R297,
R309), loads at a point where no plan runs (R295). -/

namespace Sys2Proof.Machine
open Sys2Proof

/-- The cores of a die and of a partition. -/
def coresOf (dies : List Nat) : List (Nat × Nat) := dies.flatMap (fun d => (List.range 64).map (fun c => (d, c)))

/-- Dies that share no entry with a list. -/
def inDies (dies : List Nat) (k : Nat × Nat) : Bool := dies.contains k.1

/-! ## Busy pages -/

/-- A step has a partition's cores: from its start until it has left the dies. -/
def stepOn (p : Port) : Bool :=
  p.run.isSome && (p.mode == .running || p.mode == .yielding || p.mode == .draining || p.mode == .saving)

/-- The step leaves the dies: the cores still in it are idle (R107, R433). -/
def idleCores (d : Dev) (n : Nat) : Dev :=
  let p := d.port n
  if !stepOn p then d
  else (coresOf (partDies p)).foldl (fun (x : Dev) k =>
    if (d.cs k.1 k.2).phase == .ended then x else idle x (.core k.1 k.2)) d

/-- A partition holds a plan. -/
def holdsPlan (p : Port) : Bool := p.slots.any (fun e => e.2.loaded)

/-- The die pages whose busy shows that the partition holds a plan (R57, R161, R183, R212, R252). -/
def planPages (die : Nat) : List Page :=
  [.sem die, .kvt die, .pxe die, .ast die, .tcu die 0, .tcu die 1]

/-- The last plan of a partition has gone. -/
def idlePlans (d : Dev) (dies : List Nat) : Dev := (dies.flatMap planPages).foldl idle d

/-! ## Collective membership -/

/-- The absolute dies of a step's members in ring position order (R267). -/
def collMembers (p : Port) (die : Nat) (cf : CollFlight) : List Nat :=
  let b := baseDie p
  let r := relDie p die
  if cf.axisY then (List.range cf.p).map (fun i => b + r % 4 + 4 * i)
  else (List.range 4).map (fun i => b + 4 * (r / 4) + i)

def Dev.coll (d : Dev) (die id : Nat) : Coll := look {} d.colls (die, id)
def Dev.setColl (d : Dev) (die id : Nat) (c : Coll) : Dev := { d with colls := put d.colls (die, id) c }

/-- The flights of a die that take part in a collective. -/
def collCores (d : Dev) (die id : Nat) : List (Nat × Flight) :=
  d.cores.filterMap (fun e =>
    if e.1.1 = die then
      match e.2.flight with
      | some f => match f.coll with
        | some cf => if cf.id = id then some (e.1.2, f) else none
        | none => none
      | none => none
    else none)

/-! ## Kills -/

/-- Flits of a core's transfers that are still under way are discarded and their credits restored (R305). -/
def dropFlits (d : Dev) (who : Nat × Nat → Bool) : Dev :=
  { d with links := d.links.map (fun e =>
      (e.1, { e.2 with queue := e.2.queue.filter (fun f => !who f.sender), held := e.2.held.filter (fun f => !who f.sender),
                       wait := e.2.wait.filter (fun f => !who f.sender), owed := e.2.owed.filter (fun f => !who f.sender) })) }

/-- The bytes an attempt has to write, and those it has sent to their places before its commit (R227). -/
def Flight.written (f : Flight) : List Span := f.writes.map (fun w => ⟨w.space, w.addr, w.data.length⟩) ++ f.sent

/-- The core that hears from a killed step command counts its bytes anew: the rerun sends them all again (R277). -/
def restartReceive (d : Dev) (c : Nat) (cf : CollFlight) : Dev :=
  match cf.sendsTo with
  | none => d
  | some peer =>
    let s := d.cs peer c
    match s.flight with
    | none => d
    | some f =>
      match f.coll with
      | some g => if g.id = cf.id then d.setCs peer c { s with flight := some { f with coll := some { g with received := 0 } } } else d
      | none => d

/-- A core's command is killed (R45): acquired counts return, outputs are unpredictable until the rerun, pins
pass to the rerun (R152), the command is at its boundary again. -/
def killCore (d : Dev) (slot die c : Nat) (residue : Bool) : Dev :=
  let s := d.cs die c
  match s.flight with
  | none => d
  | some f =>
    let d1 := match f.acquired with
      | some (i, n) => semRelease d die slot i n
      | none => d
    let d2 := wildPages (scramble (dropFlits d1 (· == (die, c))) f.written) die f.wild
    let d3 := match f.coll with
      | some cf => restartReceive d2 c cf
      | none => d2
    d3.setCs die c { s with flight := none, carried := s.carried ++ f.pins, rerun := true, phase := .ready, stale := f.outs,
                            resKills := s.resKills + b2n residue }

/-- DONE tokens of a member that no longer stands prepared count for nothing: no member can have committed on
them (R276, R277). -/
def dropTokens (d : Dev) (die id : Nat) : Dev :=
  { d with colls := d.colls.map (fun (e : (Nat × Nat) × Coll) =>
      if e.1.2 = id then (e.1, { e.2 with done := e.2.done.filter (fun t => t.1 != die), due := e.2.due.filter (fun t => t.1 != die) })
      else e) }

/-- Every step command of a die in a collective is killed, and the member forgets the step (R277). -/
def killMember (d : Dev) (slot die id : Nat) (residue : Bool) : Dev :=
  let d1 := dropTokens ((collCores d die id).foldl (fun x e => killCore x slot die e.1 residue) d) die id
  let c := d1.coll die id
  (d1.setColl die id { c with prepared := none, done := [] }).inc (R.COLL_ABANDON die 0) 1

/-- NOGO to every other member of a step (R277). -/
def sendNogo (d : Dev) (p : Port) (die : Nat) (cf : CollFlight) : Dev :=
  ((collMembers p die cf).filter (· != die)).foldl (fun x m =>
    x.setColl m cf.id { x.coll m cf.id with nogoDue := insertNew die (x.coll m cf.id).nogoDue }) d

/-- A kill reaches a core (R305, R277): a member that has not prepared its step sends NOGO and is killed; a
prepared member waits, and one that has its step decided commits it; every other command is killed. -/
def killAt (d : Dev) (n slot die c : Nat) (residue : Bool) : Dev :=
  match (d.cs die c).flight with
  | none => d
  | some f =>
    match f.coll with
    | none => killCore d slot die c residue
    | some cf =>
      if (d.coll die cf.id).prepared.isSome || cf.decided then d
      else sendNogo (killMember d slot die cf.id residue) (d.port n) die cf

/-! ## Live ranges -/

/-- An entry of the live-range table (R300). -/
structure LiveRange where
  core : Nat
  first : Nat
  last : Nat
  hold : Bool
  off : Nat
  len : Nat
  deriving DecidableEq, Repr

/-- The live-range table of a plan. DESIGN CHOICE: an entry for a core the partition does not have counts for nothing, and a range
ends where the core's tile memory does (log 139). -/
def liveRanges (d : Dev) (p : Port) (s : PlanSlot) : List LiveRange :=
  let sec := planSection d p s 9
  if sec.2 = 0 then []
  else ((List.range (imgNum d p s sec.1 8)).map (fun i =>
    let e := sec.1 + 8 + 16 * i
    let w0 := imgNum d p s e 4
    let w1 := imgNum d p s (e + 4) 4
    let off := 64 * bits (imgNum d p s (e + 8) 4) 17 0
    (⟨bits w0 31 22, bits w0 21 0, bits w1 21 0, bit w1 31, off,
      min (64 * bits (imgNum d p s (e + 12) 4) 18 0) (tmSize - off)⟩ : LiveRange))).filter
    (fun r => decide (r.core < 64 * (partDies p).length))

/-- Whether a hold range lets a core at a boundary go on issuing (R305): until the range's last boundary. -/
def inHold (rs : List LiveRange) (core b : Nat) : Bool :=
  rs.any (fun r => r.hold && r.core == core && decide (r.first ≤ b) && decide (b < r.last))

/-- What is left of one range when another is taken out. -/
def LiveRange.without (r k : LiveRange) : List LiveRange :=
  if r.core ≠ k.core ∨ r.off + r.len ≤ k.off ∨ k.off + k.len ≤ r.off then [r]
  else (if r.off < k.off then [{ r with len := k.off - r.off }] else []) ++
    (if k.off + k.len < r.off + r.len then [{ r with off := k.off + k.len, len := r.off + r.len - (k.off + k.len) }] else [])

/-- The union of ranges, as ranges that share no byte (R301). -/
def rangeUnion (rs : List LiveRange) : List LiveRange :=
  rs.foldl (fun acc r => acc ++ acc.foldl (fun l k => l.flatMap (fun x => x.without k)) [r]) []

/-- The live ranges of a set of boundaries, with the offset each takes in its die's save area: contiguous in
table order. Area needed beyond size on any die makes the list none (R307). -/
def savePlan (rs : List LiveRange) (size : Nat) (boundary : Nat → Nat) : Option (List (LiveRange × Nat)) :=
  let live := rangeUnion (rs.filter (fun r => !r.hold && decide (r.first ≤ boundary r.core) && decide (boundary r.core ≤ r.last)))
  let placed := live.foldl (fun (acc : List (LiveRange × Nat) × List (Nat × Nat)) r =>
    let cur := look 0 acc.2 (r.core / 64)
    (acc.1 ++ [(r, cur)], put acc.2 (r.core / 64) (cur + r.len))) ([], [])
  if placed.2.all (fun e => decide (e.2 ≤ size)) then some placed.1 else none

/-- A plan slot's save area: HBM offset on each die, and size (R307). DESIGN CHOICE: an area that runs past a die's HBM ends
where the HBM does (log 97). -/
def saveArea (p : Port) (slot : Nat) : Nat × Nat :=
  match p.saves.find? (fun e => e.1 == slot) with
  | some e => (e.2.1, min e.2.2 (hbmSize - e.2.1))
  | none => (0, 0)

/-- Where a save area must not lie (R307): the die's plan ranges, KV frames, activation stacks, frame rings and bitstream
rings. -/
def guardedSpans (d : Dev) (die : Nat) : List Span :=
  (List.range 8).map (fun i => dieSpan die (planBase d die i) (planSize d die i)) ++
  (List.range 8).map (fun i => dieSpan die (d.astSet die i).base (d.astSet die i).hbmSize) ++
  (dieSpan die (frameAddr d die 0) (bits (d.rd (R.KVT_FRAME_CNT die)) 19 0 * kvPageSize d die) ::
    [inRing d die, outRing d die].map (fun r => dieSpan die r.base (r.count * r.slot))) ++
  [dieSpan die (d.rd64 (R.VC_DEC_BS_BASE_LO die)) (d.rd (R.VC_DEC_BS_SIZE die)),
   dieSpan die (d.rd64 (R.VC_ENC_BS_BASE_LO die)) (d.rd (R.VC_ENC_BS_SIZE die))]

/-- Where n bytes of a die's save area and guarded data overlap. -/
def saveClash (d : Dev) (die at' n : Nat) : List Span :=
  let s : Span := ⟨.hbm, hbmBase die + at', n⟩
  ((guardedSpans d die).filter (s.meets ·)).map s.common

/-- Where a saved range stands in tile memory and in the save area. -/
def livePlace (p : Port) (slot : Nat) (e : LiveRange × Nat) : Span × Span :=
  let die := baseDie p + e.1.core / 64
  (⟨.tm, tmBase die (e.1.core % 64) + e.1.off, e.1.len⟩, ⟨.hbm, hbmBase die + (saveArea p slot).1 + e.2, e.1.len⟩)

/-- The fault of a save or restore that would read poisoned data (R389). -/
def livePoison (d : Dev) (p : Port) (slot : Nat) (pl : List (LiveRange × Nat)) (out : Bool) : Option Nat :=
  let hit := fun (s : Span) => d.mem.poisoned s.space s.base s.len
  if out then (if pl.any (fun e => hit (livePlace p slot e).1) then some 0x0501 else none)
  else if pl.any (fun e => hit (livePlace p slot e).2) then some 0x0502 else none

/-- One range copied into the save area, or back from it (R301): its HBM pieces open rows (R218), marks of corrected outputs go
along, and what an ill-placed area shares with other data is unpredictable (R307). -/
def copyRange (p : Port) (slot : Nat) (out : Bool) (x : Dev) (e : LiveRange × Nat) : Dev :=
  let (tm, hb) := livePlace p slot e
  let die := hb.base / hbmStride
  let clash := saveClash x die (hb.base % hbmStride) e.1.len
  let y := countOpens x [hb]
  if out then
    scramble (carryMarks { y with mem := y.mem.write .hbm hb.base (y.mem.bytes .tm tm.base e.1.len) } [tm] [hb]) clash
  else if clash.isEmpty then carryMarks { y with mem := y.mem.write .tm tm.base (y.mem.bytes .hbm hb.base e.1.len) } [hb] [tm]
  else scramble y [tm]

def copyLive (d : Dev) (p : Port) (slot : Nat) (pl : List (LiveRange × Nat)) (out : Bool) : Dev :=
  pl.foldl (copyRange p slot out) d

/-- Boundaries of a partition's cores now, by partition-relative core. -/
def boundariesNow (d : Dev) (p : Port) (core : Nat) : Nat :=
  (d.cs (baseDie p + core / 64) (core % 64)).boundary

/-- The live set of the plan in a slot saved at the cores' boundaries; the fault code where the area is too small (R307) or the
set is poisoned (R389). -/
def saveLive (d : Dev) (n slot : Nat) : Except Nat Dev :=
  let p := d.port n
  match savePlan (liveRanges d p (p.slot slot)) (saveArea p slot).2 (boundariesNow d p) with
  | none => .error 0x010F
  | some pl => match livePoison d p slot pl true with
    | some code => .error code
    | none => .ok (copyLive d p slot pl true)

/-- A saved set restored; at: the boundaries it was saved at. -/
def restoreLive (d : Dev) (n slot : Nat) (at' : Nat → Nat) : Except Nat Dev :=
  let p := d.port n
  match savePlan (liveRanges d p (p.slot slot)) (saveArea p slot).2 at' with
  | none => .ok d
  | some pl => match livePoison d p slot pl false with
    | some code => .error code
    | none => .ok (copyLive d p slot pl false)

/-! ## Completion records of entries -/

/-- An entry's completion: a record when notify is set (R295) and for every fault and rejection; the vector for notify
and every fault, 0x010E being a status only (R296, R297). -/
def entryDone (d : Dev) (n q entry status tag : Nat) (notify late : Bool) : Dev :=
  if notify || status != 0 then
    complete d n ⟨status, q, late, 0, entry, tag, if notify || status != 0x010E then some (cqVec d n) else none⟩
  else d

/-- An entry that was outstanding has completed (R295's FENCE): fences that waited for it complete too. -/
def fencesDone (d : Dev) (n q entry : Nat) : Dev :=
  let p := d.port n
  let qu := look {} p.queues q
  let fs := qu.fences.map (fun f => (f.1, f.2.1, f.2.2.1, f.2.2.2.erase entry))
  let d1 := d.setPort n { p with queues := put p.queues q { qu with fences := fs.filter (fun f => !f.2.2.2.isEmpty) } }
  (fs.filter (fun f => f.2.2.2.isEmpty)).foldl (fun x f => entryDone x n q f.1 0 f.2.2.1 f.2.1 false) d1

def entryOver (d : Dev) (n q entry status tag : Nat) (notify late : Bool) : Dev :=
  let d1 := entryDone d n q entry status tag notify late
  let p := d1.port n
  let qu := look {} p.queues q
  fencesDone (d1.setPort n { p with queues := put p.queues q { qu with outstanding := qu.outstanding.erase entry } }) n q entry

/-- A job's record (R297, R315). -/
def jobOver (d : Dev) (n : Nat) (j : Job) (status : Nat) (late : Bool) : Dev :=
  entryOver d n j.queue j.entry status j.tag j.notify late

/-! ## Stopping the cores -/

/-- What a core's command held is given up: pins are released, the outputs of one whose work had begun, or that waited for its
rerun, are unpredictable (R44, R45). -/
def quitCore (x : Dev) (e : (Nat × Nat) × CoreSt) : Dev :=
  let y := scramble (kvUnpinAll x e.1.1 (e.2.carried ++ ((e.2.flight.map (·.pins)).getD []))) e.2.stale
  match e.2.flight with
  | some f => if f.worked then wildPages (scramble y f.outs) e.1.1 f.wild else y
  | none => y

/-- Every core of some dies gives its command up. -/
def quitCores (d : Dev) (dies : List Nat) : Dev :=
  let d1 := d.cores.foldl (fun (x : Dev) (e : (Nat × Nat) × CoreSt) => if inDies dies e.1 then quitCore x e else x) d
  { d1 with cores := d1.cores.map (fun (e : (Nat × Nat) × CoreSt) =>
      if inDies dies e.1 then (e.1, { e.2 with flight := none, carried := [], stale := [] }) else e) }

/-- Destinations of a plan slot's copies turn valid again (R160). -/
def dropCopies (d : Dev) (dies : List Nat) (slot : Nat) : Dev :=
  { d with kvt := d.kvt.map (fun (e : (Nat × Nat) × KvtEnt) =>
      if dies.contains e.1.1 && e.2.state == kvCopying && e.2.copier.any (fun k => k.1 == slot)
      then (e.1, { e.2 with state := kvValid, copier := none }) else e) }

/-- All commands of a partition's cores stop (R309): flits and tokens under way are discarded, destinations of the running step's
copies turn valid again (R160), and spilling goes on (R154). -/
def stopCores (d : Dev) (n : Nat) : Dev :=
  let dies := partDies (d.port n)
  let run := (d.port n).run
  let d1 := dropFlits (quitCores (idleCores d n) dies) (fun k => dies.contains k.1)
  let d2 := { d1 with
    colls := (d1.colls.map (fun (e : (Nat × Nat) × Coll) =>
      if dies.contains e.1.1 then (e.1, ({ faultDue := e.2.faultDue } : Coll)) else e)).filter (fun e => decide (e.2 ≠ ({} : Coll))) }
  let d3 := match run with
    | some j => dropCopies d2 dies j.slot
    | none => d2
  dies.foldl spillNext (d3.setPort n { d3.port n with tides := (d3.port n).tides.filter (fun t => run.any (fun j => j.slot != t.slot)) })

/-! ## The next step -/

/-- The next step of a partition: the pending step of the lowest class, one queue of a class after another in
rotation; a suspended step before any new step of its own class; a pending step of a slot with a suspended
step makes that one resume (R299). none, or the job and whether it resumes. -/
def jobBefore (p : Port) (a b : Job) : Bool :=
  decide (a.cls < b.cls) ||
    (a.cls == b.cls && (let q := look 0 p.lastQueue a.cls; decide ((a.queue + 7 - q) % 8 < (b.queue + 7 - q) % 8)))

def bestJob (p : Port) : Option Job :=
  p.jobs.foldl (fun best j => match best with
    | none => some j
    | some b => if jobBefore p j b then some j else best) none

def bestSusp (p : Port) : Option Job :=
  (List.range 8).foldl (fun best i => match (p.slot i).susp, best with
    | some s, none => some s.job
    | some s, some b => if s.job.cls < b.cls then some s.job else best
    | none, _ => best) none

def pickNext (p : Port) : Option (Job × Bool) :=
  match bestJob p, bestSusp p with
  | none, none => none
  | some j, none => some (j, false)
  | none, some s => some (s, true)
  | some j, some s =>
    if j.cls < s.cls then
      match (p.slot j.slot).susp with
      | some t => some (t.job, true)
      | none => some (j, false)
    else some (s, true)

/-- Moon state of a die (R340). -/
def moonState (d : Dev) (die : Nat) : Nat := d.fld (R.PWR_MOON die) 2 0

/-- Whether every die of a partition is in Full (R337); the dies of a stopped row are not (R28). -/
def awake (d : Dev) (n : Nat) : Bool := (partDies (d.port n)).all (fun die => moonState d die == 0 && rowUp d (die / 4))

/-- The dies of a partition start to leave their moon states (R337). -/
def wake (d : Dev) (n : Nat) : Dev :=
  if awake d n then d else d.setPort n { d.port n with waking := true }

/-- The class of a queue (R293). -/
def queueCls (u : Queue) (q : Nat) : Nat := if q = 0 then 0 else u.cls

/-- The plan slot an entry names (R295). -/
def entrySlot (u : Queue) (q : Nat) (e : QEntry) : Nat :=
  if q = 0 || bit e.slot 7 then bits e.slot 2 0 else u.slot

def Port.queue (p : Port) (q : Nat) : Queue := look {} p.queues q
def Port.setQueue (p : Port) (q : Nat) (u : Queue) : Port := { p with queues := put p.queues q u }

/-- A slot as its plan will stand in it, loaded or loading (R296). -/
def slotView (p : Port) (slot : Nat) : Option PlanSlot :=
  let s := p.slot slot
  if s.loaded then some s
  else (p.loads.find? (fun r => r.slot == slot)).map (fun r => { s with loaded := true, offset := r.offset, len := r.len })

/-- plan_class agrees with a queue's class (R296). -/
def classOk (d : Dev) (p : Port) (s : PlanSlot) (cls : Nat) : Bool := (imgNum d p s 7 1 == 0) == (cls == 0)

/-- Whether the QP rejects an entry (R296). -/
def entryBad (d : Dev) (p : Port) (q : Nat) (e : QEntry) : Bool :=
  let u := p.queue q
  let slot := entrySlot u q e
  match e.op with
  | 1 => match slotView p slot with
    | none => true
    | some s => !classOk d p s (queueCls u q)
  | 2 => q == 0 || (slotView p slot).isSome
  | 3 => q == 0 || (p.run.any (fun j => j.slot == slot)) || (p.slot slot).susp.isSome
  | 4 => match slotView p slot with
    | none => true
    | some s => !classOk d p s (queueCls u q) ||
      (match recipeEntry d p s (bits e.arg0 7 0) with
       | none => true
       | some r => decide (imgNum d p s (r + 1) 1 ≤ bits e.arg0 9 8))
  | 5 => false
  | _ => true

/-! ## Yields -/

/-- A cheap point's entries: core and stopping boundary (R302). -/
def cheapEntries (d : Dev) (p : Port) (s : PlanSlot) : List (Nat × Nat × Nat) :=
  let sec := planSection d p s 10
  (List.range (imgNum d p s 0x40 2)).map (fun i =>
    let w := imgNum d p s (sec.1 + 8 * i) 8
    (bits w 63 48, bits w 47 38, bits w 21 0))

/-- Whether a core has passed a boundary. -/
def passed (d : Dev) (p : Port) (core b : Nat) : Bool :=
  let s := d.cs (baseDie p + core / 64) (core % 64)
  s.phase == .ended || decide (b < s.boundary) || (decide (b = s.boundary) && s.phase != .ready)

/-- The lowest-numbered point at which no listed core has passed its boundary (R303). -/
def cheapPoint (d : Dev) (p : Port) (s : PlanSlot) : Option Nat :=
  let es := cheapEntries d p s
  let pts := (es.map (·.1)).eraseDups
  pts.find? (fun pt => es.all (fun e => e.1 != pt || !passed d p e.2.1 e.2.2))

/-- Whether a pending step of a class and slot may have the running one yield (R298, R299). -/
def yieldsTo (run : Job) (cls slot : Nat) : Bool :=
  slot != run.slot && ((cls == 1 && decide (2 ≤ run.cls)) || (cls == 2 && run.cls == 3))

/-- The QP considers a yield for the steps pending (R303): pend, their classes and slots. -/
def considerYield (d : Dev) (n : Nat) (pend : List (Nat × Nat)) : Dev :=
  let p := d.port n
  match p.run with
  | none => d
  | some j =>
    if p.mode ≠ .running ∨ !pend.any (fun c => yieldsTo j c.1 c.2) then d
    else match cheapPoint d p (p.slot j.slot) with
      | none => d
      | some pt => (d.setPort n { p with mode := .yielding, yieldPoint := some pt }).inc (R.HQ_YIELD_CNT n) 1

/-- Classes and slots of the steps pending. -/
def pendingSteps (p : Port) : List (Nat × Nat) := p.jobs.map (fun j => (j.cls, j.slot))

/-- A plan is being switched on a partition's dies (R236): a save, a restore. -/
def switchOn (p : Port) : Bool := p.mode == .saving || p.mode == .switching || p.mode == .restoring

/-- Plans stop being switched on a partition's dies: their HBM pages' busy falls. -/
def idleHbmc (d : Dev) (n : Nat) : Dev :=
  ((partDies (d.port n)).flatMap (fun die => [Page.hbmc die 0, Page.hbmc die 1])).foldl idle d
def switchOver (d : Dev) (n : Nat) : Dev := if switchOn (d.port n) then idleHbmc d n else d

/-- The step a partition was brought to begins on every core (R298, R299): a new step at boundary 0, a resumed
one where it stood, its fired and incomplete tide entries from their first byte (R233). A step that already waits may have
it yield (R303). -/
def beginStep (d0 : Dev) (n : Nat) : Dev :=
  let d := switchOver d0 n
  let p := d.port n
  match p.run with
  | none => d
  | some j =>
    let dies := partDies p
    let old := without (inDies dies) d.cores
    let tabs := without (inDies dies) d.tabs
    let ps := p.slot j.slot
    let p1 := { p with mode := .running, lastSlot := j.slot, lastCls := j.cls, ranOnce := true, lastQueue := put p.lastQueue j.cls j.queue,
                       resuming := false, yieldPoint := none, dbTime := if j.cls = 0 then none else p.dbTime,
                       firstDue := if j.cls = 0 then p.dbTime else none }
    let begun := match p.resuming, ps.susp with
      | true, some s =>
        let d1 := { d with cores := old ++ s.cores, tabs := tabs ++ s.tabs }.setPort n
          { (p1.setSlot j.slot { ps with susp := none }) with fired := s.fired, tides := s.running ++ p1.tides }
        s.running.foldl (fun x t => x.inc (R.TIDE_RESTART (baseDie p + t.ent.die) 0) 1) d1
      | _, _ =>
        let any := (List.range 8).any (fun i => (p.slot i).susp.isSome)
        { d with cores := old, tabs := tabs }.setPort n
          { (p1.setSlot j.slot { ps with loose := false, looseEnts := [] }) with jobs := p.jobs.erase j, fired := [], hostLoose := p.hostLoose && any }
    considerYield begun n (pendingSteps (begun.port n))

/-- A core that has issued a command of the step it runs. -/
def hasIssued (s : CoreSt) : Bool := s.phase != .ready || decide (0 < s.idx) || s.rerun

/-- Every core of the partition has issued its first class-0 command: the latency from the doorbell is recorded (R304
step 8, R311). -/
def firstIssue (d : Dev) (n : Nat) : Dev :=
  let p := d.port n
  match p.firstDue with
  | none => d
  | some t =>
    if !(coresOf (partDies p)).all (fun k => hasIssued (d.cs k.1 k.2)) then d
    else
      let lat := min 0xFFFFFFFF (elapsedNs d - t)
      let d1 := d.setPort n { p with firstDue := none }
      let d2 := (d1.wr (R.HQ_C0_LAT_LAST n) lat).wr (R.HQ_C0_LAT_MAX n) (max lat (d1.rd (R.HQ_C0_LAT_MAX n)))
      if 300000 < lat then d2.inc (R.HQ_C0_LATE_CNT n) 1 else d2

/-- The plan to bring in is already on the dies: no other plan has run since it last did. -/
def resident (p : Port) (slot : Nat) : Bool := p.ranOnce && p.lastSlot == slot

/-- An image loads into its slot when no plan of the partition runs (R295): the checks of R32, the values of R57,
and its completion record. -/
def loadNow (d : Dev) (n : Nat) (r : LoadReq) : Dev :=
  let p := d.port n
  let g : Img := ⟨d, p, r.offset, r.len⟩
  match g.check with
  | some code => entryOver (postFault d (.hq0 n) code 0 0) n r.queue r.entry code r.tag r.notify false
  | none =>
    let d1 := g.apply r.slot
    let p1 := d1.port n
    let ps : PlanSlot := { loaded := true, offset := r.offset, len := r.len }
    entryOver (d1.setPort n (p1.setSlot r.slot ps)) n r.queue r.entry 0 r.tag r.notify false

def loadAll (d : Dev) (n : Nat) : Dev :=
  let p := d.port n
  p.loads.foldl (fun x r => loadNow x n r) (d.setPort n { p with loads := [] })

/-- The live set of the plan that last ran is saved as its boundary set (R235, R299); too small an area or poisoned data lose it
and fault nothing but that plan's saved state (R307, R389). -/
def saveOutgoing (d : Dev) (n : Nat) : Dev :=
  let p := d.port n
  let slot := p.lastSlot
  let ps := p.slot slot
  if !p.ranOnce || !ps.loaded || ps.susp.isSome then d
  else
    let at' := d.cores.filterMap (fun e => if inDies (partDies p) e.1 then some (e.1, e.2.boundary) else none)
    match saveLive d n slot with
    | .ok d1 => d1.setPort n ((d1.port n).setSlot slot { ps with saved := some at' })
    | .error code => postFault (d.setPort n (p.setSlot slot { ps with saved := none })) (.hq0 n) code 0 0

/-- The set to restore for the step being brought in: where its slot's plan was suspended or stood at STEP_END. -/
def restoreTarget (d : Dev) (n : Nat) : Except Nat Dev :=
  let p := d.port n
  match p.run with
  | none => .ok d
  | some j =>
    let ps := p.slot j.slot
    let place := fun (l : List ((Nat × Nat) × Nat)) (core : Nat) => look 0 l (baseDie p + core / 64, core % 64)
    match p.resuming, ps.susp with
    | true, some s => restoreLive d n j.slot (place (s.cores.map (fun e => (e.1, e.2.boundary))))
    | _, _ => match ps.saved with
      | some l => restoreLive d n j.slot (place l)
      | none => .ok d

/-- A class-0 step whose doorbell has rung and whose entry the QP has yet to read (R304, R308 to R310). -/
def c0Waiting (d : Dev) (p : Port) : Bool :=
  let u := p.queue 0
  u.en && u.entries.any (fun e => e.op == 1 && !entryBad d p 0 e)

/-- A doorbell whose class-0 entries have all been turned away is timed no more (R304). -/
def bellSpent (d : Dev) (n : Nat) : Dev :=
  let p := d.port n
  if p.jobs.any (fun j => j.cls == 0) || p.run.any (fun j => j.cls == 0) || c0Waiting d p then d
  else d.setPort n { p with dbTime := none }

/-- A pending step whose plan slot is empty when its turn comes is rejected (R296). -/
def dropEmpty (d : Dev) (n : Nat) : Dev :=
  let p := d.port n
  let bad := p.jobs.filter (fun j => !(p.slot j.slot).loaded)
  let d1 := bad.foldl (fun x j => jobOver (x.inc (R.HQ_REJ_CNT n) 1) n j 0x010E false)
    (d.setPort n { p with jobs := p.jobs.filter (fun j => (p.slot j.slot).loaded) })
  if bad.isEmpty then d1 else bellSpent d1 n

/-- A requested variant written into the image, or rejected where the plan or the layer is gone (R98, R296). -/
def writeRecipe (d : Dev) (n : Nat) (r : RecipeReq) : Dev :=
  let p := d.port n
  let ps := p.slot r.slot
  match if ps.loaded then recipeEntry d p ps r.layer else none with
  | none => entryOver (d.inc (R.HQ_REJ_CNT n) 1) n r.queue r.entry 0x010E r.tag r.notify false
  | some e =>
    let a := bar2Base p + ps.offset + e + 2
    entryOver { d with mem := d.mem.write .hbm a [BitVec.ofNat 8 r.variant] } n r.queue r.entry 0 r.tag r.notify false

/-- A suspended step keeps its variants: a request for its plan waits (R99). -/
def recipeLater (p : Port) (r : RecipeReq) : Bool := (p.slot r.slot).susp.isSome

/-- At a step boundary the QP writes the variants asked for, those of suspended steps' plans apart (R98, R99). -/
def recipesDue (d : Dev) (n : Nat) : Dev :=
  let p := d.port n
  (p.recipes.filter (fun r => !recipeLater p r)).foldl (fun x r => writeRecipe x n r)
    (d.setPort n { p with recipes := p.recipes.filter (recipeLater p) })

/-- The QP does what comes next on an idle partition (R299): the variants asked for (R98), loads that waited, then the next step, at
once when its plan stands on the dies, else by a switch (R235). Work waits for Full (R337), and for a class-0 entry
that the QP has yet to read (R304). -/
def schedule (d : Dev) (n : Nat) : Dev :=
  let p0 := d.port n
  if p0.mode ≠ .idle ∨ !p0.valid then d
  else if !awake d n then (if p0.loads.isEmpty && p0.recipes.all (recipeLater p0) && (pickNext p0).isNone then d else wake d n)
  else
    let d1 := dropEmpty (loadAll (recipesDue d n) n) n
    let p := d1.port n
    match pickNext p with
    | none => d1
    | some (j, res) =>
      if c0Waiting d1 p && j.cls != 0 then d1 else
      let p1 := { p with run := some j, resuming := res }
      if resident p j.slot && !res then beginStep (d1.setPort n p1) n
      else
        let d2 := saveOutgoing d1 n
        let q := { d2.port n with run := some j, resuming := res, mode := if j.cls = 0 then .restoring else .switching }
        d2.setPort n q

/-- The step ends its stay on the dies and the QP goes on (R299, R309). -/
def stepOver (d : Dev) (n : Nat) : Dev :=
  schedule (d.setPort n { d.port n with mode := .idle, run := none, resuming := false, yieldPoint := none, fired := [] }) n

/-- A step boundary passes: KVT_EPOCH moves on (R161). DESIGN CHOICE: it wraps past 0xFFFF_FFFF, R161 saturating the counters and
R163 naming it apart from them (log 108). -/
def epochOn (d : Dev) (n : Nat) : Dev :=
  (partDies (d.port n)).foldl (fun (x : Dev) die => x.wr (R.KVT_EPOCH die) (x.rd (R.KVT_EPOCH die) + 1)) d

/-- The running job faults (R2, R309): its cores stop, its record says the code, the QP goes on. DESIGN CHOICE: the end of a step
that was on the dies counts as its boundary for KVT_EPOCH too (log 140). -/
def faultRun (d : Dev) (n code : Nat) (late : Bool) : Dev :=
  let d0 := stopCores d n
  let d1 := if stepOn (d.port n) then epochOn d0 n else d0
  match (d1.port n).run with
  | none => d1
  | some j => stepOver (jobOver (d1.setPort n { d1.port n with ranOnce := false }) n j code late) n

/-- What the suspended steps' killed commands still hold is given up. -/
def dropSuspended (d : Dev) (n : Nat) : Dev :=
  (List.range 8).foldl (fun (x : Dev) i => match ((d.port n).slot i).susp with
    | none => x
    | some s => s.cores.foldl quitCore x) d

/-- The step being brought in cannot be: its saved set is poisoned (R389). Its job faults, and a suspended step is given up. -/
def failIncoming (d : Dev) (n code : Nat) : Dev :=
  match (d.port n).run with
  | none => d
  | some j =>
    let d1 := postFault (switchOver d n) (.hq0 n) code 0 0
    let ps := (d.port n).slot j.slot
    let d2 := match (d.port n).resuming, ps.susp with
      | true, some s => dropCopies (s.cores.foldl quitCore d1) (partDies (d.port n)) j.slot
      | _, _ => d1
    let p := d2.port n
    let p1 := if p.resuming then p.setSlot j.slot { ps with susp := none } else { (p.setSlot j.slot { ps with saved := none }) with jobs := p.jobs.erase j }
    stepOver (jobOver (d2.setPort n { p1 with ranOnce := false }) n j code false) n

/-- Every job of a partition faults: running, suspended and pending steps (R258, R291, R323, R384). -/
def faultAll (d : Dev) (n code : Nat) : Dev :=
  let d0 := dropSuspended (stopCores (switchOver d n) n) n
  let p := d0.port n
  let dies := partDies p
  let d1 := (List.range 8).foldl (fun x i => dropCopies x dies i) d0
  let susp := (List.range 8).filterMap (fun i => (p.slot i).susp.map (·.job))
  let running := match p.mode, p.run with
    | .idle, _ => []
    | _, some j => if p.resuming || p.jobs.contains j then [] else [j]
    | _, none => []
  let all := running ++ susp ++ p.jobs
  let d2 := d1.setPort n { p with
    run := none, jobs := [], mode := .idle, resuming := false, ranOnce := false, tides := [], fired := [], yieldPoint := none, dbTime := none, firstDue := none,
    slots := p.slots.map (fun e => (e.1, { e.2 with susp := none })) }
  all.foldl (fun x j => jobOver x n j code false) d2

/-- A kill broadcast abandons the tide transfers (R233): those of the killed step's slot, given apart, and of other suspended
steps go with the steps they belong to. -/
def parkTides (p : Port) (own : Nat) : Port × List TideRun :=
  ({ p with slots := p.slots.map (fun e => (e.1, { e.2 with susp := e.2.susp.map (fun s => { s with running := s.running ++ p.tides.filter (·.slot == e.1) }) }))
            tides := p.tides.filter (fun t => t.slot != own && (p.slot t.slot).susp.isNone) },
   p.tides.filter (·.slot == own))

/-- A step is suspended (R299, R303, R304): its job, the cores' places, its fired entries; its set is saved. The tide
transfers that a kill broadcast abandoned go with it (R233); in a yield they go on. A save
past its area's end, or of poisoned data, faults the job, whose saved state is lost (R307, R389). -/
def suspendStep (d : Dev) (n : Nat) : Dev :=
  let p := d.port n
  match p.run with
  | none => d
  | some j =>
    let dies := partDies p
    let parked := if p.mode = .yielding then (p, []) else parkTides p j.slot
    match saveLive d n j.slot with
    | .error code =>
      let d1 := dropCopies (quitCores (postFault (idleCores (d.setPort n parked.1) n) (.hq0 n) code 0 0) dies) dies j.slot
      let left := (d1.port n).tides.filter (fun t => t.slot != j.slot)
      jobOver (d1.setPort n { d1.port n with run := none, fired := [], tides := left, ranOnce := false }) n j code false
    | .ok d1 =>
      let s : Susp := ⟨j, d.cores.filter (fun e => inDies dies e.1), p.fired, parked.2, d.tabs.filter (fun e => inDies dies e.1)⟩
      let y := idleCores (d1.setPort n { d1.port n with slots := parked.1.slots, tides := parked.1.tides }) n
      let q := (y.port n).setSlot j.slot { (y.port n).slot j.slot with susp := some s }
      y.setPort n { q with run := none, fired := [] }

end Sys2Proof.Machine
end

