-- ==== Sys2Proof/Machine/Slots.lean ====
section
/-! DEFINITION. Slot tables and the torus: which identifier owns slots on an HBM channel (R217, R220 to R223) or a
Jalsil port (R54, R259, R260), the routes of R14 and R227, flits and their links (R255 to R263). -/

namespace Sys2Proof.Machine
open Sys2Proof

/-! ## Tables in force -/

/-- The plan that runs on a die: its port and plan slot. -/
def planOn (d : Dev) (die : Nat) : Option (Port × PlanSlot) :=
  match ownerOf d die with
  | none => none
  | some n =>
    let p := d.port n
    match p.run with
    | none => none
    | some j => if p.mode = .running ∨ p.mode = .yielding ∨ p.mode = .draining then some (p, p.slot j.slot) else none

/-- The image offset of a die's tables of one kind (0 on-die network, 1 links, 2 HBM channels): those a layer's
variant brought in, else the base section (R454, R456); none for default tables. -/
def slotTableAt (d : Dev) (die kind : Nat) : Option (Port × PlanSlot × Nat) :=
  match planOn d die with
  | none => none
  | some (p, s) =>
    match (d.tabs.find? (fun e => e.1 == (die, kind))).map (·.2) with
    | some seg => some (p, s, (segPart d p s seg (kind + 1)).1)
    | none =>
      let sec := planSection d p s (kind + 2)
      if sec.2 = 0 then none else some (p, s, sec.1)

/-- A 16-bit table entry: qualifier and identifier (R54). -/
def tableEntry (d : Dev) (t : Port × PlanSlot × Nat) (off : Nat) : Nat × Nat :=
  let w := imgNum d t.1 t.2.1 (t.2.2 + off) 2
  (bits w 15 14, bits w 13 0)

/-! ## HBM channels -/

/-- The channels n bytes from an address lie on: all of them for two 16 KiB and more (R217). -/
def hbmChannels (a n : Nat) : List Nat :=
  if 32768 ≤ n then List.range 64
  else ((List.range (cdiv (a % 256 + n) 256)).map (fun i => hbmChannel (a + 256 * i))).eraseDups

/-- Whether an identifier owns a slot of a channel (R221 to R223); window: class-0 windows serve it too. -/
def channelServes (d : Dev) (die ch xfer : Nat) (window : Bool) : Bool :=
  match slotTableAt d die 2 with
  | none => xfer == 0x3FFE
  | some t => xfer != 0x3FFF && (List.range 128).any (fun i =>
      let e := tableEntry d t (((relDie t.1 die) * 64 + ch) * 256 + 2 * i)
      i != 0 && i != 64 && e.2 == xfer && (e.1 == 0 || (window && e.1 == 1)))

/-- Whether an identifier owns slots on every HBM channel of a byte range; ranges in other spaces need none. -/
def spanServed (d : Dev) (xfer : Nat) (window : Bool) (s : Span) : Bool :=
  match s.space with
  | .hbm => (hbmChannels (s.base % hbmStride) s.len).all (fun ch => channelServes d (s.base / hbmStride) ch xfer window)
  | _ => true

/-! ## The on-die network -/

/-- The output port a router sends a flit out of, X first and then Y, and the core position it comes to (R15, R454). -/
def meshStep (a b : Nat) : Nat × Nat :=
  if a % 8 < b % 8 then (0, a + 1)
  else if b % 8 < a % 8 then (1, a - 1)
  else if a / 8 < b / 8 then (2, a + 8) else (3, a - 8)

/-- The output ports from one core position to another, the last into the core: at most 14 hops. -/
def meshPorts : Nat → Nat → Nat → List (Nat × Nat)
  | 0, _, _ => []
  | f + 1, a, b =>
    if a = b then [(b, 4)]
    else
      let s := meshStep a b
      (a, s.1) :: meshPorts f s.2 b

/-- Die, core position and port of what data crosses between two cores of a die; a core's own tile memory needs none. -/
def netPorts (die a b : Nat) : List (Nat × Nat × Nat) := if a = b then [] else (meshPorts 15 a b).map (fun q => (die, q.1, q.2))

/-- The core whose tile memory a region is in. -/
def Region.core (r : Region) : Option Nat := if r.space = .tm then some (r.base / tmSize % 64) else none

/-- Router ports a core's read of a region, and its write to one, cross (R54, R215): another core's tile memory only. -/
def readPorts (die c : Nat) (r : Region) : List (Nat × Nat × Nat) :=
  match r.core with
  | some a => netPorts die a c
  | none => []
def writePorts (die c : Nat) (r : Region) : List (Nat × Nat × Nat) :=
  match r.core with
  | some b => netPorts die c b
  | none => []

/-- Whether an identifier owns a slot of a router's output port (R54, R454). -/
def portServes (d : Dev) (xfer : Nat) (k : Nat × Nat × Nat) : Bool :=
  match slotTableAt d k.1 0 with
  | none => xfer == 0x3FFE
  | some t => xfer != 0x3FFF && (List.range 64).any (fun i =>
      (tableEntry d t (((relDie t.1 k.1 * 64 + k.2.1) * 5 + k.2.2) * 128 + 2 * i)).2 == xfer)

/-- A move of data in an identifier's slots: the HBM ranges and router ports it needs; class-0 reads use windows too (R222). -/
structure Move where
  xfer : Nat
  spans : List Span
  window : Bool := false
  ports : List (Nat × Nat × Nat) := []

def Move.served (d : Dev) (m : Move) : Bool := m.spans.all (spanServed d m.xfer m.window) && m.ports.all (portServes d m.xfer)

/-! ## Turns -/

/-- Whether a transfer of an identifier that started earlier is still in flight on a die (R56): a tide entry that moves data,
or a command of another core whose data waits for its slots. -/
def turnTaken (d : Dev) (die c xfer order : Nat) : Bool :=
  (match ownerOf d die with
   | none => false
   | some n => (d.port n).tides.any (fun t =>
       baseDie (d.port n) + t.ent.die == die && t.ent.xfer == xfer && decide (t.ent.kind < 4) && decide (t.order < order))) ||
  d.cores.any (fun e => decide (e.1.1 = die) && decide (e.1.2 ≠ c) && e.2.phase == .stalled &&
    (match e.2.flight with
     | some f => f.moving.contains xfer && decide (f.order < order)
     | none => false))

/-! ## The torus -/

/-- The die at the other end of a link (R14); ports 0 +X, 1 −X, 2 +Y, 3 −Y. -/
def neighbour (die p : Nat) : Nat :=
  let x := die % 4
  let y := die / 4
  match p with
  | 0 => 4 * y + (x + 1) % 4
  | 1 => 4 * y + (x + 3) % 4
  | 2 => 4 * ((y + 1) % 4) + x
  | _ => 4 * ((y + 3) % 4) + x

/-- The port at the other end of a link. -/
def opposite (p : Nat) : Nat := match p with | 0 => 1 | 1 => 0 | 2 => 3 | _ => 2

/-- The next port from a die toward another of its partition (R227): X first, then Y, the shorter way, + when both
are two hops; between the rows of a two-row partition the link that joins them. -/
def nextPort (rows src dst : Nat) : Nat :=
  let dx := (dst % 4 + 4 - src % 4) % 4
  if dx ≠ 0 then (if dx ≤ 2 then 0 else 1)
  else if rows = 2 then (if src / 4 < dst / 4 then 2 else 3)
  else if (dst / 4 + 4 - src / 4) % 4 ≤ 2 then 2 else 3

/-- The ports of a route: at most four hops. -/
def routePorts (rows dst : Nat) : Nat → Nat → List (Nat × Nat)
  | 0, _ => []
  | f + 1, src =>
    if src = dst then []
    else
      let p := nextPort rows src dst
      (src, p) :: routePorts rows dst f (neighbour src p)

/-! ## Links -/

def Dev.link (d : Dev) (k : Nat × Nat) : Link := look {} d.links k
def Dev.setLink (d : Dev) (k : Nat × Nat) (l : Link) : Dev := { d with links := put d.links k l }

/-- Whether a link direction carries flits. -/
def linkUp (d : Dev) (k : Nat × Nat) : Bool := d.fld (R.JLINK_STAT k.1 k.2) 0 0 == 1

/-- Both ends of a link lie in one partition (R262). -/
def linkInside (d : Dev) (k : Nat × Nat) : Bool :=
  (ownerOf d k.1).isSome && ownerOf d (neighbour k.1 k.2) == ownerOf d k.1

/-- Whether a virtual channel and identifier own a slot of a link direction (R259, R260); a link that leaves its partition
runs the default table (R262, R454). -/
def linkServes (d : Dev) (k : Nat × Nat) (vc xfer : Nat) : Bool :=
  match (if linkInside d k then slotTableAt d k.1 1 else none) with
  | none => vc == 3
  | some t => (List.range 64).any (fun i =>
      let e := tableEntry d t (((relDie t.1 k.1) * 4 + k.2) * 128 + 2 * i)
      e.1 == vc && (vc == 3 || (e.2 == xfer && xfer != 0x3FFF)))

/-- Whether a link direction can carry a control flit now: VC3 owns a slot of it (R260), and the flits sent before are in, their
replays too (R257). -/
def controlReady (d : Dev) (k : Nat × Nat) : Bool := linkUp d k && linkServes d k 3 0 && (d.link k).queue.isEmpty

/-- Whether a control token can pass from a die to another. -/
def tokenRoute (d : Dev) (rows src dst : Nat) : Bool := (routePorts rows dst 4 src).all (controlReady d)

/-- Receive credits of a virtual channel (R263). -/
def vcCredits (vc : Nat) : Nat := match vc with | 0 => 64 | 1 => 512 | 2 => 256 | _ => 64

/-- Flits of a virtual channel that hold a credit of a link direction (R263): those that crossed it and are not written yet,
and those whose credit is on its way back. -/
def creditsUsed (d : Dev) (k : Nat × Nat) (vc : Nat) : Nat :=
  ((d.links.map (fun e => ((e.2.queue ++ e.2.held ++ e.2.wait).filter (fun f => f.vc == vc && f.path.contains k)).length)).foldl (· + ·) 0) +
    ((d.link k).owed.filter (fun f => f.vc == vc)).length

/-- The direction that comes back over a link. -/
def reverse (k : Nat × Nat) : Nat × Nat := (neighbour k.1 k.2, opposite k.2)

/-- A non-idle flit leaves in its slot (R256, R257): its sequence number, what the die acknowledges of the other direction,
whether it asks for a replay there; the sender keeps the last 1,024. -/
def stamp (d : Dev) (k : Nat × Nat) (f : Flit) : Flit :=
  let back := d.link (reverse k)
  { f with seq := (d.link k).seq, ack := back.last, nak := decide (back.naks ≠ 0), path := f.path ++ [k] }
def keepSent (d : Dev) (k : Nat × Nat) (f : Flit) : Dev :=
  let l := d.link k
  let kept := l.kept ++ [f]
  (d.setLink k { l with seq := (l.seq + 1) % 4096, kept := kept.drop (kept.length - 1024) }).inc64 (R.JLINK_TX_FLITS_LO k.1 k.2) 1

/-- A control flit crosses a link direction and is taken intact: VC3, no transfer (R256, R259). -/
def crossControl (d : Dev) (k : Nat × Nat) : Dev :=
  let f := stamp d k { vc := 3, xfer := 0x3FFF, seq := 0, tag := 0, offset := 0, payload := [], dest := neighbour k.1 k.2, space := .tm,
                       addr := 0, sender := (k.1, 64) }
  let d1 := keepSent d k f
  d1.setLink k { d1.link k with last := some f.seq, naks := 0 }

/-- A control token crosses every link of its route (R259). -/
def controlToken (d : Dev) (rows src dst : Nat) : Dev := (routePorts rows dst 4 src).foldl crossControl d

/-- A payload is written, or its first credit is back: the sender's command counts it (R228, R275). -/
def credited (d : Dev) (f : Flit) : Dev :=
  let s := d.cs f.sender.1 f.sender.2
  match s.flight with
  | none => d
  | some g =>
    let g1 := if f.vc = 1 then { g with coll := g.coll.map (fun cf => { cf with unsent := cf.unsent - 1 }) }
      else { g with unacked := g.unacked - 1 }
    d.setCs f.sender.1 f.sender.2 { s with flight := some g1 }

/-- Credits of written payloads return over a link on VC3 (R263), where the direction back can carry them. -/
def returnCredits (d : Dev) (k : Nat × Nat) : Dev :=
  let back := reverse k
  if !controlReady d back then d
  else (d.link k).owed.foldl (fun (x : Dev) f =>
    let y := crossControl x back
    if f.vc = 1 ∧ f.path.head? = some k then credited y f else y) (d.setLink k { d.link k with owed := [] })

/-- A waiting flit is sent when its slots and credits allow (R259, R263), else it waits on. -/
def sendOne (k : Nat × Nat) (d : Dev) (f : Flit) : Dev :=
  if creditsUsed d k f.vc < vcCredits f.vc && linkServes d k f.vc f.xfer then
    let g := stamp d k f
    keepSent (d.setLink k { d.link k with queue := (d.link k).queue ++ [g] }) k g
  else d.setLink k { d.link k with wait := (d.link k).wait ++ [f] }

/-- The traffic of a link direction: credits come back, then what waits at the port goes out. -/
def pumpLink (d : Dev) (k : Nat × Nat) : Dev :=
  let d1 := returnCredits d k
  if !linkUp d1 k then d1
  else
    let l := d1.link k
    l.wait.foldl (sendOne k) (d1.setLink k { l with wait := [] })

/-- The payload of a flit is written: every link it crossed gets its credit back (R263), and an SE_PUT's sender its
acknowledgement (R228). -/
def payloadWritten (d : Dev) (f : Flit) : Dev :=
  let d1 := if f.vc = 1 then d else credited d f
  f.path.foldl (fun (x : Dev) k => pumpLink (x.setLink k { x.link k with owed := (x.link k).owed ++ [f] }) k) d1

/-- The traffic of a die's links, both ways, is looked at anew: its slot tables have changed (R259). -/
def pumpDie (d : Dev) (die : Nat) : Dev :=
  (List.range 4).foldl (fun (x : Dev) p => pumpLink (pumpLink x (die, p)) (reverse (die, p))) d

/-- Rows of the partition a die belongs to. -/
def rowsAround (d : Dev) (die : Nat) : Nat :=
  match ownerOf d die with
  | some n => (rowList (d.port n).rows).length
  | none => 4

/-- Flits leave a die for another. -/
def sendFlits (d : Dev) (src dst : Nat) (fs : List Flit) : Dev :=
  if fs.isEmpty then d
  else
    let k := (src, nextPort (rowsAround d src) src dst)
    let l := d.link k
    pumpLink (d.setLink k { l with wait := l.wait ++ fs }) k

/-- The 268 bytes of a flit before its CRC: header and payload (R256). DESIGN CHOICE: a payload of fewer than 256 bytes is filled up
with zeros, which the CRC covers (log 141). -/
def flitBytes (f : Flit) : List Byte :=
  leBytes 12 (f.offset % 2 ^ 32 + 2 ^ 38 * (f.tag % 2 ^ 16) + 2 ^ 54 * b2n f.nak + 2 ^ 55 * b2n f.ack.isSome +
      2 ^ 56 * (f.ack.getD 0 % 4096) + 2 ^ 68 * (f.seq % 4096) + 2 ^ 80 * (f.xfer % 2 ^ 14) + 2 ^ 94 * (f.vc % 4)) ++
    (f.payload ++ List.replicate (256 - f.payload.length) 0)

/-- The idle flit of a slot whose owner has nothing ready (R256): it carries acknowledgements and advances nothing. DESIGN CHOICE:
its vc field, which R256 leaves open, is 0 (log 142). -/
def idleFlit (d : Dev) (k : Nat × Nat) : Flit :=
  stamp d k { vc := 0, xfer := 0x3FFF, seq := 0, tag := 0, offset := 0, payload := [], dest := neighbour k.1 k.2, space := .tm, addr := 0,
              sender := (k.1, 64) }

/-- Byte strings cut into payloads of at most 256 bytes, with the offset of each. -/
def payloads (bs : List Byte) : List (Nat × List Byte) :=
  (List.range (cdiv bs.length 256)).map (fun i => (256 * i, (bs.drop (256 * i)).take 256))

end Sys2Proof.Machine
end

