-- ==== Sys2Proof/Machine/Engine.lean ====
section
/-! DEFINITION. One command on one core, whatever its opcode: decode checks in the order of R458, issue, acquire
(R50, R53), pins and stalls (R152, R153), engine work with its checked accesses (R40), residue and memory
errors (R384 to R389), commit and its tail (R41 to R44), faults. An opcode brings its particulars as an OpSpec. -/

namespace Sys2Proof.Machine
open Sys2Proof

/-! ## Engine work -/

/-- Why a command stops with a fault: code, descriptor and die fields of FAULT_INFO0, FAULT_INFO1, whether
FAULT_INFO0 holds the core number (R40, R458), and whether the outputs stay as they were (R244). -/
structure Stop where
  code : Nat
  desc : Nat := 0
  die : Nat := 0
  info1 : Nat := 0
  core : Bool := false
  keep : Bool := false
  deriving DecidableEq, Repr

/-- Engine work: it fills in the attempt and may stop with a fault; the attempt keeps what it did before the fault. -/
abbrev Eng := ExceptT Stop (StateM Flight)

/-- Fault codes of the decode checks (R390). -/
def cDecodeUndef : Nat := 0x0105
def cFmtCode : Nat := 0x0202
def cFmtPair : Nat := 0x0201
def cFmtOut : Nat := 0x0203
def cSpace : Nat := 0x0104
def cAccSlot : Nat := 0x0102
def cRegion : Nat := 0x0101

def stop {α : Type} (s : Stop) : Eng α := throw s

/-- DECODE_UNDEF unless a condition holds. -/
def require (b : Bool) : Eng Unit := if b then pure () else stop { code := cDecodeUndef, core := true }

/-- Arithmetic inside engine work. -/
def lift {α : Type} (m : Num α) : Eng α := ExceptT.mk (fun f =>
  let r := m ⟨f.flags, f.xflags⟩
  (.ok r.1, { f with flags := r.2.fl, xflags := r.2.xf }))

/-- FAULT_INFO1 of a failing access (R40): the first 64-byte unit outside the bound, from the base. -/
def failUnit (bound off : Nat) : Nat := (max off bound / 64) % 2 ^ 32

/-- The bound check of one access (R40). -/
def access (r : Region) (off n : Nat) : Eng Unit :=
  if n = 0 ∨ off + n ≤ r.bound then pure ()
  else stop { code := cRegion, desc := r.idx, info1 := failUnit r.bound off, core := true }

/-- The fault a poisoned read makes (R389). -/
def poisonCode : Space → Nat
  | .tm => 0x0501
  | _ => 0x0502

/-- A read access to a region: its bound, then poison (R389). -/
def touch (x : Ctx) (r : Region) (off n : Nat) : Eng Unit := do
  access r off n
  if r.poisoned x.dev off n then stop { code := poisonCode r.space }

/-- A read of a table in SRAM (R389). -/
def touchTable (x : Ctx) (sp : Space) (a n : Nat) : Eng Unit :=
  if x.dev.mem.poisoned sp a n then stop { code := 0x0501 } else pure ()

/-- Bytes read from a region. -/
def getBytes (x : Ctx) (r : Region) (off n : Nat) : Eng (List Byte) := do
  touch x r off n
  return r.bytes x.dev off n

/-- A little-endian number of a region whose access was made before. -/
def rawNum (x : Ctx) (r : Region) (off n : Nat) : Nat := ofLe (r.bytes x.dev off n)

/-- A little-endian number read from a region. -/
def getNum (x : Ctx) (r : Region) (off n : Nat) : Eng Nat := do
  return ofLe (← getBytes x r off n)

/-- Bytes written to a region: they wait for the commit (R41). -/
def putBytes (x : Ctx) (r : Region) (off : Nat) (bs : List Byte) : Eng Unit := do
  access r off bs.length
  modify (fun f => { f with writes := (r.writes x.dev off bs).reverse ++ f.writes })

/-- Cycles of the command (Timing). -/
def takes (n : Nat) : Eng Unit := modify (fun f => { f with cycles := f.cycles + n })

/-- The output is unpredictable. -/
def taint : Eng Unit := modify (fun f => { f with taint := true })

/-- n bytes at an offset of an output region are unpredictable after the commit. -/
def loosen (x : Ctx) (r : Region) (off n : Nat) : Eng Unit :=
  modify (fun f => { f with loose := f.loose ++ (r.pieces x.dev off (min n (r.bound - off))).map (fun q => ⟨r.space, q.1, q.2⟩) })

/-- A loop over 0 … n − 1 in order. -/
def upTo (n : Nat) (body : Nat → Eng Unit) : Eng Unit := (List.range n).forM body

/-- Where the scale bytes of nblk blocks start: after the elements, at the next 64 B (R86). -/
def scaleOff (f nblk : Nat) : Nat := alignUp (nblk * blockBytes f) 64

/-! ## Opcode particulars -/

/-- What one opcode brings to the shared machinery: used formats, legal pair and output format (rec: where a
record decides it), used
descriptors with the spaces they may name, the remaining decode conditions, accumulator slots (R458 groups 2
to 7); the out_mask it requires; regions read, code tables named, and regions written; page-list values; what
happens at first issue, and whether that leaves the output unpredictable; what happens as its work begins; whether it must not
issue yet; whether the stack makes it wait; whether a page of unpredictable data concerns a part of its output only; the data it
moves in slots of its own, and HBM data the spec names no slots for; its work, and what that sends; what its commit slot fills in before the
tail, changes beyond outputs and tail, and where the core goes next; which units compute for it (engines, companion path, vector engine), and on
how many columns; its layer field; the collective step it is part of. DESIGN CHOICE: an operand of a compute command in another core's tile memory
(space 0b010) needs no router slot, and the stack's data no channel slot, for no record gives them an identifier (log 19). -/
structure OpSpec where
  opcode : Nat
  mine : Cmd → Bool := fun _ => true
  fmts : Cmd → List Nat := fun _ => []
  pair : Cmd → Bool := fun _ => true
  out : Cmd → Bool := fun _ => true
  recFmts : Ctx → List Nat := fun _ => []
  recOut : Ctx → Bool := fun _ => true
  descs : Ctx → List (Nat × Nat × List Nat) := fun _ => []
  check : Ctx → Eng Unit := fun _ => pure ()
  slots : Cmd → Nat := fun _ => 0
  mask : Ctx → Nat := fun _ => 0
  reads : Ctx → List Region := fun _ => []
  tables : Ctx → List Nat := fun _ => []
  writes : Ctx → List Region := fun _ => []
  inPlace : List (Nat × Nat) := []
  pages : Ctx → List Nat := fun _ => []
  atIssue : Ctx → Dev → Dev × Bool := fun _ d => (d, false)
  atStart : Ctx → Dev → Dev := fun _ d => d
  partDoubt : Bool := false
  coll : Ctx → Option CollFlight := fun _ => none
  holds : Ctx → Bool := fun _ => false
  waits : Ctx → Bool := fun _ => false
  moves : Ctx → List Move := fun _ => []
  opens : Ctx → List Span := fun _ => []
  work : Ctx → Eng Unit := fun _ => pure ()
  sends : Ctx → Flight → Dev → Dev := fun _ _ d => d
  fill : Ctx → Flight → Dev → Flight × Dev := fun _ f d => (f, d)
  atCommit : Ctx → Flight → Dev → Dev := fun _ _ d => d
  next : Ctx → Flight → CoreSt → CoreSt := fun _ _ s => s.advance
  units : Cmd → Bool × Bool × Bool := fun _ => (false, false, false)
  cols : Cmd → Nat := fun _ => 64
  vector : Bool := false
  alwaysNk : Bool := false
  layer : Cmd → Nat := fun _ => 0

/-- A used descriptor restricted to tile memory (spaces 0b001 and 0b010). -/
def tmDesc (x : Ctx) (i : Nat) : Nat × Nat × List Nat := (i, x.cmd.desc i, [1, 2])

/-- Every opcode of the device (R34). -/
def opcodeDefined (o : Nat) : Bool :=
  [0x000, 0x001, 0x002, 0x040, 0x180, 0x181, 0x1C0, 0x1C1, 0x1C2, 0x1C3, 0x200, 0x201, 0x202, 0x203,
   0x280, 0x281, 0x282, 0x283, 0x2C0, 0x2C1, 0x2C2].contains o ||
  (decide (0x100 ≤ o) && decide (o ≤ 0x109)) || (decide (0x240 ≤ o) && decide (o ≤ 0x247))

/-- The conditions of R35 on a tail: the acquire entry a SEM_ACQ, every published entry publishable (R43). -/
def tailOk (c : Cmd) (acq : TailEnt) (tail : List TailEnt) : Bool :=
  (!c.acq || acq.ty == 1) && tail.all TailEnt.publishable

/-- The first descriptor outside its spaces. -/
def badDesc (ds : List (Nat × Nat × List Nat)) : Option Nat :=
  (ds.find? (fun t => !t.2.2.contains (descSpace t.2.1))).map (·.1)

/-- The decode checks in the order of R458: none, or the fault of the first failing group. -/
def decodeStop (op : OpSpec) (x : Ctx) (acq : TailEnt) (tail : List TailEnt) : Option Stop :=
  let ds := op.descs x
  if !tailOk x.cmd acq tail || ds.any (fun t => descSpace t.2.1 == 7) then
    some { code := cDecodeUndef, core := true }
  else if (op.fmts x.cmd ++ op.recFmts x).any (fun f => decide (10 ≤ f)) then some { code := cFmtCode, core := true }
  else if !op.pair x.cmd then some { code := cFmtPair, core := true }
  else if !(op.out x.cmd && op.recOut x) then some { code := cFmtOut, core := true }
  else match badDesc ds with
    | some i => some { code := cSpace, desc := i, core := true }
    | none =>
      if ds.any (fun t => descSpace t.2.1 == 5 && bits (descBase t.2.1) 30 29 != 0) then
        some { code := cDecodeUndef, core := true }
      else match (op.check x { cmd := x.cmd }).1 with
        | .error s => some s
        | .ok _ => if 64 < op.slots x.cmd then some { code := cAccSlot, core := true } else none

/-! ## Where a core stands -/

/-- The step a core is in: partition, its port, the running job, its plan slot, the core's state. -/
structure Here where
  n : Nat
  p : Port
  job : Job
  ps : PlanSlot
  cs : CoreSt

/-- A core's step, when its partition runs one. -/
def here (d : Dev) (die c : Nat) : Option Here :=
  match ownerOf d die with
  | none => none
  | some n =>
    let p := d.port n
    match p.run with
    | none => none
    | some j =>
      if p.mode = .running ∨ p.mode = .yielding ∨ p.mode = .draining then
        some ⟨n, p, j, p.slot j.slot, d.cs die c⟩
      else none

/-- Partition-relative global core (R31). -/
def relCore (p : Port) (die c : Nat) : Nat := 64 * relDie p die + c

/-- The boundary at which a yield stops a core, when its point lists the core (R303). -/
def yieldStop (d : Dev) (p : Port) (s : PlanSlot) (core : Nat) : Option Nat :=
  match p.yieldPoint with
  | none => none
  | some pt => ((cheapEntries d p s).find? (fun e => e.1 == pt && e.2.1 == core)).map (·.2.2)

/-- A core inside a hold range, which a pre-emption waits for (R52, R305). -/
def holding (d : Dev) (p : Port) (s : PlanSlot) (core b : Nat) : Bool := inHold (liveRanges d p s) core b

/-- A yield has a core stand at its boundary: it has reached the listed one, and no hold crosses (R303, R52). -/
def yieldStands (d : Dev) (p : Port) (s : PlanSlot) (core b : Nat) : Bool :=
  (match yieldStop d p s core with
   | some l => decide (l ≤ b)
   | none => false) && !holding d p s core b

/-- Whether a core at a boundary may issue: in a yield until it stands (R303), in an eclipse only
a core inside a hold range goes on (R305). -/
def mayIssue (d : Dev) (h : Here) (die c : Nat) : Bool :=
  h.cs.phase == .ready &&
  match h.p.mode with
  | .running => true
  | .yielding => !yieldStands d h.p h.ps (relCore h.p die c) h.cs.boundary
  | .draining => holding d h.p h.ps (relCore h.p die c) h.cs.boundary
  | _ => false

/-! ## Faults of a command -/

/-- FAULT_INFO0 of a stop. -/
def stopInfo0 (die c : Nat) (s : Stop) : Nat :=
  (if s.core then 64 * die + c else 0) + 2 ^ 16 * s.desc + 2 ^ 24 * s.die

/-- The cores of a die that take part in the step that faults: those of its collective, and those whose step sent
the flit whose tag differed (R274). -/
def stepPeers (d : Dev) (die : Nat) (cf : CollFlight) (heard : Option Nat) : List Nat :=
  (List.range 64).filter (fun q =>
    match (d.cs die q).flight.bind (·.coll) with
    | some g => g.id == cf.id || heard == some g.tag
    | none => false)

/-- FAULT tokens of a member's fault (R277): the other participating cores of its die end with COLL_PEER_FAULT
at once, those of the other members when the token arrives; cores that have faulted with a code of their own are left out. -/
def collFault (d : Dev) (p : Port) (die : Nat) (own : Nat × Nat → Bool) (cf : CollFlight) (heard : Option Nat) : Dev :=
  let peers := fun (x : Dev) (m : Nat) => (stepPeers x m cf heard).filter (fun q => !own (m, q))
  let d1 := (peers d die).foldl (fun x q => postFault x (.core die q) 0x0302 (2 ^ 24 * die) 0) d
  ((collMembers p die cf).filter (· != die)).foldl (fun x m =>
    let k := x.coll m cf.id
    x.setColl m cf.id { k with faultDue := k.faultDue ++ [(die, peers x m)] }) d1

/-- A command faults (R2, R44): the fault in its core's page and in telemetry, its job stopped. -/
def cmdStop (d : Dev) (h : Here) (die c : Nat) (s : Stop) : Dev :=
  let d1 := postFault d (.core die c) s.code (stopInfo0 die c s) s.info1
  let d2 := match (d1.cs die c).flight.bind (·.coll) with
    | some cf => collFault d1 h.p die (· == (die, c)) cf (if s.code = 0x0301 then some (s.info1 / 65536) else none)
    | none => d1
  faultRun d2 h.n s.code (decide (2 ^ 31 ≤ s.info1) && s.code == 0x0902)

/-! ## The tide fires -/

/-- The tide entries of a part of section 6 (R229). -/
def tideEntries (d : Dev) (p : Port) (s : PlanSlot) (part : Nat × Nat) : List TideEnt :=
  if part.2 = 0 then []
  else (List.range (imgNum d p s part.1 4)).map (fun i =>
    let e := part.1 + 8 + 32 * i
    { kind := imgNum d p s e 1, die := imgNum d p s (e + 1) 1, core := imgNum d p s (e + 2) 1,
      semEn := bit (imgNum d p s (e + 3) 1) 0, cmd := imgNum d p s (e + 4) 4,
      xfer := bits (imgNum d p s (e + 8) 2) 13 0, sem := imgNum d p s (e + 10) 2,
      arg := imgNum d p s (e + 12) 4, src := imgNum d p s (e + 16) 8, dst := imgNum d p s (e + 24) 8 })

/-- A host side of a transfer inside R224: whole 4 KiB bursts within the registered windows. -/
def hostSideOk (p : Port) (w : Nat) : Bool :=
  descSpace w != 4 || (descBase w % 64 == 0 && descLen w % 4096 == 0 && decide (64 * descBase w + descLen w ≤ windowTotal p))

/-- Source and destination of a REGION entry, as its trigger core names them (R229, R231). -/
def tideRegion (d : Dev) (n slot : Nat) (p : Port) (t : TideEnt) (idx w : Nat) : Region :=
  regionOf d n slot (baseDie p + t.die) t.core idx w

/-- Where in tile memory a KV_PREFETCH to tier 0 puts its page, as R148 gives an address: the core, and the place in 64-byte
units (R155). -/
def prefetchAddr (t : TideEnt) : Nat :=
  2 ^ 24 * (if descSpace t.dst = 1 then t.core else bits (descBase t.dst) 23 18) + bits (descBase t.dst) 17 0

/-- What a running entry reads, and what it writes (R232): a page where it lies, and in tier 0 its place there; stack bytes and
their host homes. -/
def tideSpans (d : Dev) (n : Nat) (r : TideRun) : List Span × List Span :=
  let p := d.port n
  let t := r.ent
  let die := baseDie p + t.die
  let a := d.astSet die r.slot
  let home := fun (lo hi : Nat) => (astHome d a n lo (hi - lo)).spans d
  match t.kind with
  | 0 => ((tideRegion d n r.slot p t 0 t.src).spans d, (tideRegion d n r.slot p t 2 t.dst).spans d)
  | 1 =>
    let o := 64 * bits (prefetchAddr t) 17 0
    (kvPlaces d die (bits t.arg 14 0), if bits t.arg 16 15 = 0 then
      [⟨.tm, tmBase die (bits (prefetchAddr t) 29 24) + o, min (kvPageSize d die) (tmSize - o)⟩] else [])
  | 2 => (astSpans a die a.spill (spillTo a t), home a.spill (spillTo a t))
  | 3 => (home (fetchTo a t) a.res, astSpans a die (fetchTo a t) a.res)
  | _ => ([], [])

/-- The check of an entry when it fires (R231). -/
def tideOk (p : Port) (t : TideEnt) : Bool :=
  match t.kind with
  | 0 =>
    let okSpace := fun w => decide (1 ≤ descSpace w) && decide (descSpace w ≤ 4)
    okSpace t.src && okSpace t.dst && descLen t.src == descLen t.dst && hostSideOk p t.src && hostSideOk p t.dst
  | 1 => bits t.arg 16 15 != 0 || descSpace t.dst == 1 || descSpace t.dst == 2
  | 2 => true
  | 3 => true
  | _ => false

/-- One entry fires (R230, R231, R155): counted; a KV_PREFETCH marks its page, or is skipped; an invalid entry
faults the job. -/
def fireOne (d : Dev) (n slot die part ix : Nat) (t : TideEnt) : Dev :=
  let d1 := d.inc (R.TIDE_FIRED die 0) 1
  let p := d1.port n
  if !tideOk p t then faultRun (postFault d1 (.hbmc die 0) 0x010C 0 0) n 0x010C false
  else
    let r : TideRun := ⟨slot, part, ix, t, d1.order, false⟩
    let d2 := { d1 with order := d1.order + 1 }.setPort n { p with fired := (part, ix) :: p.fired, tides := p.tides ++ [r] }
    if t.kind = 1 then
      let i := bits t.arg 14 0
      let e := d2.kv die i
      if e.state ≠ kvValid ∨ e.tier ≤ bits t.arg 16 15 then
        (d2.setPort n { d2.port n with tides := p.tides ++ [{ r with ent := { t with kind := 4 } }] }).inc (R.KVT_TIDE_SKIP die) 1
      else d2.setKv die i { e with state := kvPrefetch }
    else d2

/-- Every entry a command's first issue fires (R230, R457). -/
def fireTides (d : Dev) (h : Here) (die c : Nat) : Dev :=
  let rel := relDie h.p die
  let part := if h.cs.segLeft ≠ 0 then segPart d h.p h.ps h.cs.segOff 4 else planSection d h.p h.ps 6
  let pid := if h.cs.segLeft ≠ 0 then part.1 + 1 else 0
  let at' := if h.cs.segLeft ≠ 0 then h.cs.segPos - 1 else h.cs.idx
  ((tideEntries d h.p h.ps part).zipIdx).foldl (fun x e =>
    if e.1.die = rel ∧ e.1.core = c ∧ e.1.cmd = at' ∧ (x.port h.n).run = some h.job ∧
        !(x.port h.n).fired.contains (pid, e.2) then
      fireOne x h.n h.job.slot die pid e.2 e.1
    else x) d

/-- The prologue entry of a command's first issue (R102): the core's cap from the next window. DESIGN CHOICE: a start of 17
to 31, which the table leaves out, is taken as 16 (log 95). -/
def prologue (d : Dev) (h : Here) (die c : Nat) : Dev :=
  let sec := planSection d h.p h.ps 8
  if sec.2 = 0 ∨ h.cs.segLeft ≠ 0 then d
  else
    ((List.range (imgNum d h.p h.ps sec.1 8)).map (fun i => imgNum d h.p h.ps (sec.1 + 8 + 8 * i) 8)).foldl (fun x w =>
      if bits w 63 54 = relCore h.p die c ∧ bits w 53 32 = h.cs.idx then
        x.setCs die c { x.cs die c with cap := some (min 16 (bits w 31 27), bits w 26 23, 0) }
      else x) d

/-! ## Residue -/

/-- Whether a physical engine serves a logical one. -/
def inService (d : Dev) (die c phys : Nat) : Bool :=
  let w := d.rd (R.CORE_ME_SPARE die c)
  !d.fenced.contains (die, c, phys) &&
    (decide (phys < 32) || (phys == 32 && bit w 5) || (phys == 33 && bit w 13))

/-- The logical engine a physical one serves. -/
def servedBy (d : Dev) (die c phys : Nat) : Nat :=
  let w := d.rd (R.CORE_ME_SPARE die c)
  if phys < 32 then phys else if phys = 32 then bits w 4 0 else bits w 12 8

/-- A physical engine is fenced; a free spare takes its logical number when it served one (R104, R105). The answer
tells whether its work goes on. -/
def fenceEngine (d : Dev) (die c phys : Nat) : Dev × Bool :=
  let w := d.rd (R.CORE_ME_SPARE die c)
  let serves := inService d die c phys
  let logical := servedBy d die c phys
  let d1 := { d with fenced := (die, c, phys) :: d.fenced }
  let d2 := if phys = 32 then d1.setFld (R.CORE_ME_SPARE die c) 5 5 0
    else if phys = 33 then d1.setFld (R.CORE_ME_SPARE die c) 13 13 0 else d1
  if !serves then (d2, true)
  else if !bit w 5 && !d1.fenced.contains (die, c, 32) then
    ((d2.setFld (R.CORE_ME_SPARE die c) 5 5 1).setFld (R.CORE_ME_SPARE die c) 4 0 logical, true)
  else if !bit w 13 && !d1.fenced.contains (die, c, 33) then
    ((d2.setFld (R.CORE_ME_SPARE die c) 13 13 1).setFld (R.CORE_ME_SPARE die c) 12 8 logical, true)
  else (d2, false)

/-- A core's bit in RAS_CORE_FAIL. -/
def markFailed (d : Dev) (die c : Nat) : Dev :=
  let r := if c < 32 then R.RAS_CORE_FAIL_LO die else R.RAS_CORE_FAIL_HI die
  d.wr r (d.rd r ||| 2 ^ (c % 32))

/-- A second mismatch of a unit within 1 s (R384): an engine is fenced and a free spare takes its number. The answer
tells whether the core still computes. -/
def secondMismatch (d : Dev) (die c : Nat) (u : ResUnit) : Dev × Bool :=
  match u with
  | .engine e => fenceEngine d die c e.val
  | _ => (d, false)

/-- No spare is left (R384): every job of the partition faults, and the row leaves service. -/
def noSpare (d : Dev) (n die c : Nat) : Dev :=
  let d1 := postFault ((markFailed d die c).setFld R.PART_ROW_OK (die / 4) (die / 4) 0) (.core die c) 0x0402 0 0
  let d2 := match (d1.cs die c).flight.bind (·.coll) with
    | some cf => collFault d1 (d1.port n) die (· == (die, c)) cf none
    | none => d1
  faultAll d2 n 0x0402

/-- A residue mismatch in an attempt whose work is done (R384, R385): a fault goes before the kill (R4). -/
def residueHit (d : Dev) (h : Here) (die c : Nat) (nk : Bool) (u : ResUnit) : Dev :=
  let d0 := match u with
    | .engine _ => d.inc (R.CORE_RES_ME_CNT die c) 1
    | .companion => d.inc (R.CORE_RES_CP_CNT die c) 1
    | .vector => d
  let last := (d0.mismatch.find? (fun e => decide (e.1 = (die, c, u)))).map (·.2)
  let now := d0.time.elapsed
  let second := match last with
    | some t => decide (now - t ≤ 1000000000 * 2 ^ 32)
    | none => false
  let d1 := { d0 with mismatch := put d0.mismatch (die, c, u) now }
  let m : Dev × Bool := if second then secondMismatch d1 die c u else (d1, true)
  if !m.2 then noSpare m.1 h.n die c
  else if nk then cmdStop m.1 h die c { code := 0x0401 }
  else if 3 ≤ (m.1.cs die c).resKills then cmdStop m.1 h die c { code := 0x0403 }
  else killAt m.1 h.n h.job.slot die c true

/-- Whether a command's work uses the unit and the unit is in service. A logical engine of column group g takes part when some
column block has a column of that group (R82, R101); the row groups all take part. -/
def unitUsed (d : Dev) (op : OpSpec) (cmd : Cmd) (die c : Nat) : ResUnit → Bool
  | .engine e => (op.units cmd).1 && inService d die c e.val && decide (8 * (servedBy d die c e.val % 8) < op.cols cmd)
  | .companion => (op.units cmd).2.1
  | .vector => (op.units cmd).2.2

/-! ## Memory errors an attempt meets -/

/-- A corrected error is counted and posted (R386); an uncorrectable one is counted and poisons its word or
sector (R388). -/
def applyUpset (d : Dev) (die c : Nat) : Upset → Dev
  | .corrected false => countEvent d (R.RAS_SRAM_CE die)
  | .corrected true => countEvent d (R.RAS_HBM_CE die)
  | .uncorrected false a =>
    { d with mem := d.mem.poison .tm (tmBase die 0 + a % (64 * tmSize)) }.inc (R.RAS_SRAM_UE die) 1
  | .uncorrected true a =>
    { d with mem := d.mem.poison .hbm (hbmBase die + a % hbmSize) }.inc (R.RAS_HBM_UE die) 1
  | .table _ w => (poisonWord d die c w).inc (R.RAS_SRAM_UE die) 1
  | _ => d

/-- The alarm of an uncorrectable error whose consumer does not use the word (R388). -/
def upsetAlarm (d : Dev) (die : Nat) : Upset → Dev
  | .uncorrected false _ => postReg d sevAlarm (R.RAS_SRAM_UE die) 0
  | .uncorrected true _ => postReg d sevAlarm (R.RAS_HBM_UE die) 0
  | .table _ _ => postReg d sevAlarm (R.RAS_SRAM_UE die) 0
  | _ => d

/-- Engine work that uses an uncorrectable word of a buffer, accumulator slot or table faults (R389). -/
def workUnder (u : Upset) (work : Eng Unit) : Eng Unit := do
  work
  match u with
  | .table true _ => stop { code := 0x0501 }
  | _ => pure ()

/-! ## Issue and work -/

/-- The entries of a page list, holes left out, and its distinct pages, in list order (R143, R152). -/
def listEntries (l : List Nat) : List Nat := (l.filter (· != 0xFFFF)).map (· % 32768)
def listPages (l : List Nat) : List Nat := (listEntries l).eraseDups

/-- Whether regions written meet regions read, in-place pairs apart (R44). -/
def overlaps (d : Dev) (op : OpSpec) (ins outs : List Region) : Bool :=
  outs.any (fun o => ins.any (fun i =>
    !op.inPlace.contains (o.idx, i.idx) && spansMeet (o.spans d) (i.spans d)))

/-- The core that a commit slot names, and whether it is valid; slot s names core s by default (R47). -/
def slotByte (d : Dev) (die slot i : Nat) : Nat := look (0x80 + i) d.slotTab (die, slot, i)
def ownsSlot (d : Dev) (die slot c : Nat) : Bool :=
  (List.range 64).any (fun i => let b := slotByte d die slot i; bit b 7 && bits b 5 0 == c)

/-- Cycles a vector-engine command has been in execution (R134). -/
def busyCycles (op : OpSpec) (die c : Nat) (f : Flight) (d : Dev) : Dev :=
  if op.vector then d.inc64 (R.CORE_VE_BUSY_LO die c) f.cycles else d

/-- The stack marks as far as a push has written (R205). -/
def moveMarks (die slot : Nat) (f : Flight) (d : Dev) : Dev :=
  match f.astMarks with
  | some (res, spill) => d.setAst die slot { d.astSet die slot with res := res, spill := spill }
  | none => d

/-- Whether the code tables a command names leave its output unpredictable: another plan names them, one was loaded since its
issue, or a hold was cut by a kill (R245, R306). -/
def tablesOpen (h : Here) (x : Ctx) (f : Flight) (ids : List Nat) : Bool :=
  (cutHold h.p && !ids.isEmpty) || ids.any (fun i => tableShared x.dev x.die x.slot i || f.tblLoads.contains i)

/-- An attempt as its work begins: what its opcode reads and writes now, and whether a rule of R44 or R245 already makes its
output unpredictable. -/
def workFlight (op : OpSpec) (h : Here) (x : Ctx) (f : Flight) : Flight :=
  let ins := op.reads x
  let outs := op.writes x
  let ids := op.tables x
  let inSpans := ins.flatMap (Region.spans x.dev) ++ ids.map (tableSpan x.die)
  { f with worked := true, ins := inSpans, outs := outs.flatMap (Region.spans x.dev), moving := [],
           taint := f.taint || overlaps x.dev op ins outs || beingWritten x.dev x.die x.core inSpans || tablesOpen h x f ids }

/-- The engine work of an attempt, its acquire done and its pages resident. The attempt's outputs wait for the
commit; a fault stops the job, a residue mismatch kills the attempt unless a fault stands (R4). -/
def runWork (op : OpSpec) (h : Here) (die c : Nat) (u : Upset) (f : Flight) (d : Dev) : Dev :=
  let d0' := applyUpset d die c u
  let d0 := nameTables d0' die h.job.slot (op.tables ⟨d0', h.n, h.job.slot, die, c, f.cmd⟩)
  let x : Ctx := ⟨d0, h.n, h.job.slot, die, c, f.cmd⟩
  let cs := d0.cs die c
  let d00 := countOpens d0 ((op.moves x).flatMap (·.spans) ++ op.opens x)
  match workUnder u (op.work x) (workFlight op h x f) with
  | (.error s, f1) =>
    let dq := if s.code == 0x0501 || s.code == 0x0502 then d00 else upsetAlarm d00 die u
    let d1 := dq.setCs die c { cs with flight := some (if s.keep then { f1 with outs := [] } else { f1 with outs := f1.outs ++ f1.written }),
                                       carried := [], phase := .worked }
    cmdStop (moveMarks die h.job.slot f1 (busyCycles op die c f1 d1)) h die c s
  | (.ok _, f1) =>
    let d1 := (upsetAlarm d00 die u).setCs die c { cs with flight := some f1, carried := [], phase := .worked }
    let d2 := moveMarks die h.job.slot f1 (busyCycles op die c f1 d1)
    let d3 := op.sends { x with dev := d2 } f1 d2
    match u with
    | .residue unit => if unitUsed d3 op f.cmd die c unit then residueHit d3 h die c (f.cmd.nk || op.alwaysNk) unit else d3
    | _ => d3

/-- The data of a command moves in the slots of its identifiers: each has slots wherever it needs them, and no transfer of it
started earlier is still in flight on the die (R55, R56). -/
def movesServed (d : Dev) (die c order : Nat) (ms : List Move) : Bool :=
  ms.all (fun m => m.served d && !turnTaken d die c m.xfer order)

/-- A command whose pages and stack are ready: its work, once its data can move; else it waits for its slots. -/
def startMoves (op : OpSpec) (h : Here) (die c : Nat) (u : Upset) (f : Flight) (d : Dev) : Dev :=
  let ms := op.moves ⟨d, h.n, h.job.slot, die, c, f.cmd⟩
  if movesServed d die c f.order ms then runWork op h die c u f d
  else d.setCs die c { d.cs die c with phase := .stalled, carried := [], flight := some { f with moving := ms.map (·.xfer) } }

/-- A command whose pages are pinned (R153, R205): it stalls, with TIDE_MISS, while one is not resident or the stack is not
ready. -/
def startPinned (op : OpSpec) (h : Here) (die c : Nat) (u : Upset) (f : Flight) (d : Dev) : Dev :=
  let missing := kvMissing d die f.pins
  let waits := op.waits ⟨d, h.n, h.job.slot, die, c, f.cmd⟩
  if missing.isEmpty && !waits then startMoves op h die c u f d
  else
    let d1 := kvMiss d die missing
    let d2 := if waits then
        d1.countAst die h.job.slot { d1.astSet die h.job.slot with miss := min 0xFFFFFFFF ((d1.astSet die h.job.slot).miss + 1) }
      else d1
    d2.setCs die c { d2.cs die c with phase := .stalled, carried := [], flight := some { f with missing := missing, flags := { f.flags with tideMiss := true } } }

/-- One commit slot of the core takes the next 16 entries of its page list (R152). A poisoned entry faults (R389). -/
def pinSlot (op : OpSpec) (h : Here) (die c : Nat) (u : Upset) (f : Flight) (d : Dev) : Dev :=
  let new := (f.toPin.take 16).eraseDups.filter (fun i => !f.pins.contains i)
  let d1 := new.foldl (fun y i => kvPin y die i (h.job.slot, c)) d
  let bad := new.any (fun i => kvUnsure (d.kv die i) (h.job.slot, c) || kvClash d die i)
  let f1 := { f with pins := f.pins ++ new, toPin := f.toPin.drop 16, doubt := f.doubt || bad, taint := f.taint || (bad && !op.partDoubt) }
  let d2 := d1.setCs die c { d1.cs die c with phase := .stalled, carried := [], flight := some f1 }
  if new.any (fun i => d.kvtPoison.contains (die, i)) then cmdStop d2 h die c { code := 0x0501 }
  else if f1.toPin.isEmpty then startPinned op h die c u f1 d1
  else d2

/-- Work begins once the acquire is done (R50): pages are pinned in the core's commit slots, but for the pins a killed attempt
has passed on (R152). -/
def startWork (op : OpSpec) (h : Here) (die c : Nat) (u : Upset) (f : Flight) (d0 : Dev) : Dev :=
  let x : Ctx := ⟨d0, h.n, h.job.slot, die, c, f.cmd⟩
  let d := op.atStart x d0
  let cs := d.cs die c
  let list := listEntries (op.pages { x with dev := d })
  let f1 := { f with pins := cs.carried, toPin := list.filter (fun i => !cs.carried.contains i), upset := u }
  if f1.toPin.isEmpty then startPinned op h die c u f1 d
  else if ownsSlot d die h.job.slot c then pinSlot op h die c u f1 d
  else d.setCs die c { cs with phase := .stalled, carried := [], flight := some f1 }

/-- A stalled command goes on once its pages are resident, the stack is ready and its slots serve it (R153, R205, R55). A page
that has ceased to be resident meanwhile is a miss too (R153). -/
def proceed (op : OpSpec) (h : Here) (die c : Nat) (u : Upset) (d : Dev) : Dev :=
  match (d.cs die c).flight with
  | none => d
  | some f =>
    if !f.toPin.isEmpty then d
    else
      let missing := kvMissing d die f.pins
      if missing.isEmpty && !op.waits ⟨d, h.n, h.job.slot, die, c, f.cmd⟩ then
        startMoves op h die c u { f with missing := [] } d
      else
        let new := missing.filter (fun i => !f.missing.contains i)
        let d1 := kvMiss d die new
        let g := { f with missing := missing, flags := { f.flags with tideMiss := f.flags.tideMiss || !new.isEmpty } }
        d1.setCs die c { d1.cs die c with flight := some g }

/-- A commit slot of a core whose command is stalled (R152): it pins on, or looks again. -/
def stalledSlot (op : OpSpec) (h : Here) (die c : Nat) (f : Flight) (d : Dev) : Dev :=
  if f.toPin.isEmpty then proceed op h die c f.upset d else pinSlot op h die c f.upset f d

/-- What a command's first issue does beside its core (R230, R102, R456): the tide, the prologue, the opcode's own part; a
rerun has none of them (R45). The Bool: that leaves the output unpredictable. -/
def begun (op : OpSpec) (h : Here) (x : Ctx) : Dev × Bool :=
  if h.cs.rerun then (x.dev, false) else op.atIssue x (prologue (fireTides x.dev h x.die x.core) h x.die x.core)

/-- The attempt an issue opens, with the regions of R44; b: as begun leaves it. Its output is unpredictable after a broken rule
of the plan, beside a hold cut by a kill (R306), or with host-tier data after an untimely change of the windows (R292). -/
def opened (op : OpSpec) (h : Here) (x : Ctx) (b : Dev × Bool) : Flight :=
  let ins := (op.reads x).flatMap (Region.spans x.dev)
  let outs := (op.writes x).flatMap (Region.spans x.dev)
  let cut := cutHold h.p && (!(op.pages x).isEmpty || ins.any (fun s => s.space == .hbm || s.space == .host))
  let host := h.p.hostLoose && (ins ++ outs).any (fun s => s.space == .host)
  { cmd := x.cmd, taint := b.2 || h.ps.loose || cut || host, coll := op.coll x, order := b.1.order, ins := ins, outs := outs }

/-- The device once the command is issued, its work to begin. -/
def afterIssue (h : Here) (x : Ctx) (d : Dev) : Dev :=
  ({ d with order := d.order + 1 } : Dev).setCs x.die x.core { d.cs x.die x.core with issued := h.cs.idx }

/-- A command that passed its decode checks issues (R34, R41): the page-list check of R143, the tide and the
prologue at its first issue; it waits in its acquire, or starts its work. DESIGN CHOICE: a command that faults in its decode
checks or at issue is not the one CORE_SEQ_IDX calls issued (R107, log 143). -/
def issue (op : OpSpec) (h : Here) (die c : Nat) (u : Upset) (cmd : Cmd) (d : Dev) : Dev :=
  let x : Ctx := ⟨d, h.n, h.job.slot, die, c, cmd⟩
  let acq := tailAt d h.p h.ps cmd.tailIndex
  match decodeStop op x acq (tailOf d h.p h.ps cmd) with
  | some s => cmdStop d h die c s
  | none =>
    if (op.pages x).any (fun v => decide (0x8000 ≤ v) && decide (v < 0xFFFF)) then
      cmdStop d h die c { code := 0x0108 }
    else
      let b := begun op h x
      if (b.1.port h.n).run ≠ some h.job then b.1
      else
        let f := opened op h x b
        let d2 := afterIssue h x b.1
        firstIssue (if cmd.acq then d2.setCs die c { d2.cs die c with phase := .waitAcq, flight := some f }
          else startWork op h die c u f d2) h.n

/-- The row of an opcode on a core: the core issues the record at its boundary when it is that opcode. Past the
end of the stream (R34), on an undefined opcode (R35) and on a poisoned record or tail entry (R389) the core faults. -/
def issueRow (op : OpSpec) (k : CoreIx) (u : Upset) (d : Dev) : Dev :=
  let die := k.die.val
  let c := k.core.val
  match here d die c with
  | none => d
  | some h =>
    if !mayIssue d h die c then d
    else match fetchPlace d h.p h.ps (relCore h.p die c) h.cs with
      | none => cmdStop d h die c { code := cDecodeUndef, core := true }
      | some place =>
        let cmd := readCmd d.mem place
        if recordBad d h.p h.ps place cmd then cmdStop d h die c { code := 0x0502 }
        else if !opcodeDefined cmd.opcode then cmdStop d h die c { code := cDecodeUndef, core := true }
        else if cmd.opcode == op.opcode && op.mine cmd then
          if op.holds ⟨d, h.n, h.job.slot, die, c, cmd⟩ then d else issue op h die c u cmd d
        else d

/-! ## Commit -/

/-- One tail entry published (R43). -/
def publish (h : Here) (die : Nat) (d : Dev) (t : TailEnt) : Dev :=
  match t.ty with
  | 2 => semRelease d die h.job.slot t.target t.value
  | 3 => ctrAdd d die h.job.slot t.target t.value
  | 4 => setCtr d die h.job.slot t.target t.operand
  | 5 => complete d h.n ⟨0, h.job.queue, false, 1, t.operand, sourceNs d (0x18 + h.n), some (t.target % 64)⟩
  | 6 => postRecord d sevTrace die (0x1000 + t.target) (t.operand % 65536)
  | 7 => kvOp d die h.job.slot t
  | _ => d

/-- The flag record in the core's page, and merged into the layer flag table (R95, R96, R107). -/
def commitFlags (op : OpSpec) (h : Here) (die c : Nat) (f : Flight) (d : Dev) : Dev :=
  let layer := op.layer f.cmd
  let w := packFlags f.flags f.cmd.opcode (activeVariant d h.p h.ps layer) layer
  let d1 := (d.wr (R.CORE_FLAG_LAST_LO die c) (w % 2 ^ 32)).wr (R.CORE_FLAG_LAST_HI die c) (w / 2 ^ 32)
  { d1 with lflag := put d1.lflag (die, layer) (mergeFlags (look 0 d1.lflag (die, layer)) w) }

/-- The vector engine's registers at the commit of one of its commands (R114, R134). -/
def commitVector (die c : Nat) (f : Flight) (d : Dev) : Dev :=
  let x := R.CORE_VE_XFLAGS die c
  let d1 := d.wr x (d.rd x ||| packXFlags f.xflags)
  if f.flags.nan then d1.inc (R.CORE_VE_NAN_CNT die c) 1 else d1

/-- A command commits beside running tide entries (R232): what it wrote and they read or write is unpredictable, and so is
what they bring; one that read what they write has an unpredictable output. Pushes and pops keep to the stack's marks (R205). -/
def meetTides (x : Ctx) (f : Flight) (d : Dev) : Dev :=
  let p := d.port x.n
  let outs := f.outs ++ f.written
  let met := fun (r : TideRun) =>
    let s := tideSpans d x.n r
    !(f.astSp.isSome && (r.ent.kind == 2 || r.ent.kind == 3)) && (spansMeet outs (s.1 ++ s.2) || spansMeet f.ins s.2)
  let hit := p.tides.filter met
  if hit.isEmpty then d
  else
    let places := hit.flatMap (fun r => let s := tideSpans d x.n r; s.1 ++ s.2)
    let common := outs.flatMap (fun o => (places.filter (o.meets ·)).map o.common)
    let read := hit.any (fun r => spansMeet f.ins (tideSpans d x.n r).2)
    (scramble d (if read then outs else common)).setPort x.n
      { p with tides := p.tides.map (fun r => if met r then { r with hazard := true } else r) }

/-- Outputs become visible (R41): as computed, or unpredictable when a rule of the programmer was broken
(R44) or out_mask is not the one required; ranges left open are unpredictable in any case. -/
def commitOutputs (op : OpSpec) (x : Ctx) (f : Flight) (d : Dev) : Dev :=
  let d0 := { d with mem := d.mem.clearPoison f.written }
  let d1 := if f.taint || f.cmd.outMask != op.mask x then scramble d0 (f.outs ++ f.loose)
    else scramble { d0 with mem := f.writes.foldr (fun w m => m.write w.space w.addr w.data) d0.mem } f.loose
  let outs := f.outs ++ f.written
  lateMaps (meetTides x f (taintReaders (wildPages (dropMarks d1 outs) x.die f.wild) x.die x.core (f.outs ++ f.loose))) outs

/-- Whether a fired, incomplete tide entry of a die will release a semaphore (R232). -/
def tidePending (h : Here) (die sem : Nat) : Bool :=
  h.p.tides.any (fun t => t.slot == h.job.slot && t.ent.semEn && t.ent.sem == sem && t.ent.die == relDie h.p die)

/-- A command commits in a slot of its core (R41, R42, R156): flag record, tail, pins, outputs, and what its opcode
adds. A command whose acquire timed out publishes no tail entry (R53). -/
def commitCmd (op : OpSpec) (h : Here) (die c : Nat) (f : Flight) (d : Dev) : Dev :=
  let x : Ctx := ⟨d, h.n, h.job.slot, die, c, f.cmd⟩
  let tail := if f.flags.timeout then [] else tailOf d h.p h.ps f.cmd
  let (f1, d0) := op.fill x f d
  let d1 := tail.foldl (publish h die) (commitFlags op h die c f1 d0)
  let d2 := if op.vector then commitVector die c f1 d1 else d1
  let freed := (tail.filter (fun t => t.ty == 2)).map (·.target)
  let d3 := kvUnpinAll (freed.foldl (fun y i => unhold y die i) d2) die f1.pins
  let d4 := op.atCommit x f1 (commitOutputs op x f1 d3)
  let cs := d4.cs die c
  let kept := match f1.acquired with
    | some a => if freed.contains a.1 then cs.held else a :: cs.held
    | none => cs.held
  d4.setCs die c (op.next { x with dev := d4 } f1 { cs with held := kept })

/-- Whether a command's work is done and nothing else keeps it from its commit slot: flits acknowledged (R228),
its step decided (R276), a slot of its own (R48). -/
def mayCommit (d : Dev) (h : Here) (die c : Nat) (f : Flight) : Bool :=
  h.cs.phase == .worked && f.unacked == 0 && (match f.coll with | some cf => cf.decided | none => true) &&
    ownsSlot d die h.job.slot c

end Sys2Proof.Machine
end

