-- ==== Sys2Proof/Machine/Matrix.lean ====
section
/-! DEFINITION. Matrix products (R82 to R94): the loop of R38 with its accesses in the order of R88, the order of
accumulation of R89, the outlier side list (R91 to R93), the cycles of R83 and R90, and the MM opcode. -/

namespace Sys2Proof.Machine
open Sys2Proof

/-! ## Shapes -/

/-- The stationary depth (R38). -/
def stationaryDepth (fb : Nat) : Nat :=
  match fb with
  | 8 | 9 => 4096 | 6 | 7 => 2720 | 4 | 5 => 2048 | 1 | 2 => 1024 | _ => 512

/-- The pieces (start, size) of 0 … n − 1 in steps. -/
def pieces (n step : Nat) : List (Nat × Nat) :=
  (List.range (cdiv n step)).map (fun i => (i * step, min step (n - i * step)))

/-- Bytes of one element of a long format. -/
def longSize (f : Nat) : Nat := fmtBits f / 8

/-- One access of each kind the loop of R38 makes; each takes the ranges it covers as (start, size). -/
structure Touches where
  head : Eng Unit := pure ()
  side : Nat × Nat → Eng Unit := fun _ => pure ()
  b : Nat × Nat → Nat × Nat → Eng Unit
  c : Nat × Nat → Nat × Nat → Eng Unit := fun _ _ => pure ()
  a : Nat × Nat → Nat × Nat → Eng Unit
  out : Nat × Nat → Eng Unit

/-- The accesses of a product in the order of R88: the loop of R38. -/
def Touches.walk (t : Touches) (m n k fb : Nat) : Eng Unit := do
  t.head
  (pieces n 64).forM (fun cols => do
    t.side cols
    (pieces k (stationaryDepth fb)).forM (fun deep => do
      t.b cols deep
      (pieces m 32).forM (fun rows => do
        if deep.1 = 0 then t.c cols rows
        t.a rows deep))
    t.out cols)

/-- Stored block i of an MX operand of nblk blocks, cnt of its elements, then its scale byte (R37, R86). -/
def touchBlock (x : Ctx) (r : Region) (f nblk i cnt : Nat) : Eng Unit := do
  touch x r (i * blockBytes f) (cdiv (cnt * fmtBits f) 8)
  touch x r (scaleOff f nblk + i) 1

/-- Operand rows of K elements, streamed 32 at a time, in the A layout of R86. -/
def touchRows (x : Ctx) (r : Region) (f rowsTotal k : Nat) (rows deep : Nat × Nat) : Eng Unit :=
  let nbk := cdiv k 32
  (pieces deep.2 32).forM (fun p => upTo rows.2 (fun i =>
    let row := rows.1 + i
    if isLong f then touch x r ((row * k + deep.1 + p.1) * longSize f) (p.2 * longSize f)
    else touchBlock x r f (rowsTotal * nbk) (row * nbk + (deep.1 + p.1) / 32) p.2))

/-- The stationary elements of a column block (R86): each column of B, long in one run, MX by its blocks. -/
def touchB (x : Ctx) (r : Region) (f n k : Nat) (cols deep : Nat × Nat) : Eng Unit :=
  if isLong f then upTo cols.2 (fun i => touch x r (((cols.1 + i) * k + deep.1) * longSize f) (deep.2 * longSize f))
  else upTo cols.2 (fun i => (pieces deep.2 32).forM (fun p =>
    touchBlock x r f (n * cdiv k 32) ((cols.1 + i) * cdiv k 32 + (deep.1 + p.1) / 32) p.2))

/-- The rows of a block of an M × N long tensor read, or written. -/
def touchTile (x : Ctx) (r : Region) (f n : Nat) (cols rows : Nat × Nat) : Eng Unit :=
  upTo rows.2 (fun i => touch x r (((rows.1 + i) * n + cols.1) * longSize f) (cols.2 * longSize f))
def accessTile (r : Region) (f n : Nat) (cols rows : Nat × Nat) : Eng Unit :=
  upTo rows.2 (fun i => access r (((rows.1 + i) * n + cols.1) * longSize f) (cols.2 * longSize f))

/-- The scale byte and stored block (row, j) of an operand with nbk blocks a row (R86). -/
def mxAt (x : Ctx) (r : Region) (f rowsTotal nbk row j : Nat) : Nat × Nat :=
  (rawNum x r (scaleOff f (rowsTotal * nbk) + row * nbk + j) 1, rawNum x r ((row * nbk + j) * blockBytes f) (blockBytes f))

/-- Long element i of a region as an engine takes it. -/
def f19At (x : Ctx) (r : Region) (f i : Nat) : Val :=
  toF19 f x.cmd.f32Conv (rawNum x r (i * longSize f) (longSize f))

/-- An MX element expanded to F19 (R188): beyond the largest finite value it is an infinity. -/
def expandF19 (f scale code : Nat) : Val :=
  match elemScaled f scale code with
  | .num s m e => decodeVal e19 (signed e19 s (min (roundMag e19 0 s m e).1 (e19.maxCode + 1)))
  | w => w

/-! ## Accumulation -/

/-- What the accumulators of a product receive: for MX pairs the blocks of both operands (scale byte, stored
block) with the codes that replace marked positions of B, else F19 elements; the start; the exact products
of R89 steps 2 and 3. -/
structure Product where
  k : Nat
  fa : Nat
  fb : Nat
  mx : Bool
  blkA : Nat → Nat → Nat × Nat := fun _ _ => (0x7F, 0)
  blkB : Nat → Nat → Nat × Nat := fun _ _ => (0x7F, 0)
  marked : Nat → Nat → Nat → Option Nat := fun _ _ _ => none
  valA : Nat → Nat → Val := fun _ _ => zeroV
  valB : Nat → Nat → Val := fun _ _ => zeroV
  start : Nat → Nat → Val := fun _ _ => zeroV
  first : Nat → Nat → List (Val × Val) := fun _ _ => []

/-- Exact products added one by one (R77, R79). -/
def accProds (acc : Val) (ps : List (Val × Val)) : Num Val :=
  ps.foldlM (fun a p => do accAdd a (← accProd p.1 p.2)) acc

/-- The block register over block j of an element (R74, R75): positions beyond K are zero (R37). -/
def Product.block (p : Product) (m n j : Nat) : BlockSt :=
  let a := p.blkA m j
  let b := p.blkB n j
  (List.range (min 32 (p.k - 32 * j))).foldl (fun st i =>
    let code := (p.marked n j i).getD (codeAt p.fb b.2 i)
    blockAdd st (elemVal p.fa (codeAt p.fa a.2 i)) (elemVal p.fb code)) (.fin 0)

/-- A C element as the starting value (R89 step 1). -/
def startVal (v : Val) : Num Val :=
  match v with
  | .nan _ => passNan false
  | .num _ 0 _ => pure zeroV
  | w => pure w

/-- The accumulator of output (m, n) (R89). -/
def Product.acc (p : Product) (m n : Nat) : Num Val := do
  let a0 ← startVal (p.start m n)
  let a1 ← accProds a0 (p.first m n)
  if p.mx then
    (List.range (cdiv p.k 32)).foldlM (fun a j => do
      accAdd a (← blockValue (p.block m n j) (p.blkA m j).1 (p.blkB n j).1)) a1
  else accProds a1 ((List.range p.k).map (fun i => (p.valA m i, p.valB i n)))

/-- Output (m, n) of a product stored at element (m, n) of the output region. -/
def Product.store (p : Product) (x : Ctx) (r : Region) (f n m j : Nat) (satOff : Bool) : Eng Unit := do
  let bs ← lift (p.acc m j >>= outBytes f satOff)
  putBytes x r ((m * n + j) * longSize f) bs

/-! ## The outlier side list -/

/-- An outlier entry (R91): its block, position and BF16 value. -/
structure Outlier where
  block : Nat
  pos : Nat
  value : Nat
  deriving DecidableEq, Repr

def Outlier.ofNat (w : Nat) : Outlier := ⟨bits w 63 32, bits w 31 27, bits w 15 0⟩

/-- A side list at an offset of B: header count, budget, and the entries inside the region. -/
structure SideList where
  off : Nat
  count : Nat
  budget : Nat
  ents : List Outlier

/-- Where the side list starts: after the scales (R86). -/
def sideOff (f n nbk : Nat) : Nat := alignUp (scaleOff f (n * nbk) + n * nbk) 64

def readSide (x : Ctx) (r : Region) (off : Nat) : SideList :=
  let h := rawNum x r off 8
  let cnt := bits h 63 32
  ⟨off, cnt, min 16 (bits h 4 0),
    (List.range (min cnt ((r.bound - (off + 8)) / 8))).map (fun i => Outlier.ofNat (rawNum x r (off + 8 + 8 * i) 8))⟩

/-- Strictly ascending blocks (R91). -/
def ascending : List Nat → Bool
  | a :: b :: t => decide (a < b) && ascending (b :: t)
  | _ => true

/-- Entries read before those of blocks b and above. -/
def SideList.below (s : SideList) (b : Nat) : Nat := (s.ents.takeWhile (fun e => decide (e.block < b))).length

/-- The entries a column block reads: from its first to the one that belongs to a later block; the last column
block reads the rest of the count. -/
def SideList.touch (s : SideList) (x : Ctx) (r : Region) (n nbk : Nat) (cols : Nat × Nat) : Eng Unit :=
  let lo := s.below (cols.1 * nbk)
  let hi := if n ≤ cols.1 + cols.2 then s.count else min s.count (s.below ((cols.1 + cols.2) * nbk) + 1)
  upTo (hi - lo) (fun i => Machine.touch x r (s.off + 8 + 8 * (lo + i)) 8)

/-- The entries of the column block of a column, in order, each with whether the companion path computes it (R93). -/
def SideList.ofBlock (s : SideList) (n nbk col : Nat) : List (Outlier × Bool) :=
  let n0 := col / 64 * 64
  let cols := min 64 (n - n0)
  let cap := s.budget * (cols * nbk) / 256
  ((s.ents.filter (fun e => decide (n0 * nbk ≤ e.block) && decide (e.block < (n0 + cols) * nbk))).zipIdx).map
    (fun e => (e.1, decide (e.2 < cap)))

/-- Entries beyond capacity in the whole product (R93). -/
def SideList.overs (s : SideList) (n nbk : Nat) : Nat :=
  ((pieces n 64).map (fun c => ((s.ofBlock n nbk c.1).filter (fun e => !e.2)).length)).foldl (· + ·) 0

/-- The code an engine reads at a marked position: 0, or the largest finite code with the mark's sign (R92, R93). -/
def markCode (f : Nat) (e : Outlier × Bool) : Nat :=
  let neg := bit e.1.value 15
  if e.2 then 0
  else if f = 9 then (if neg then 3 else 1)
  else signed (encOf f) neg (encOf f).maxCode

/-! ## Cycles -/

/-- Companion work for a row block of a column block (R90). -/
def companionWork (r outliers : Nat) : Nat := cdiv (32 * (64 * r + outliers)) 1024

/-- CCLK cycles of a product (R83, R90): kpc the K per cycle, r the correction's rank, outliers of each column block. -/
def productCycles (m n k kpc fb fo : Nat) (db : Bool) (r : Nat) (outliers : Nat → Nat) : Nat :=
  let ks := stationaryDepth fb
  let rowBlocks := cdiv m 32
  let stream := rowBlocks * cdiv n 64 * (cdiv k 32 * (32 / kpc))
  let d0 := min ks (alignUp k 32)
  let cols := pieces n 64
  let loads := (cols.map (fun c => ((pieces k ks).map (fun d =>
    cdiv (cdiv c.2 8 * 8 * d.2 * fmtBits fb) 16384)).foldl (· + ·) 0)).foldl (· + ·) 0
  let drains := (cols.map (fun c =>
    if db && decide (c.1 + 64 < n) then 0 else cdiv (m * c.2 * longSize fo) 2048)).foldl (· + ·) 0
  let waits := (cols.map (fun c =>
    let w := companionWork r (outliers c.1)
    w + (rowBlocks - 1) * (w - d0 / kpc))).foldl (· + ·) 0
  stream + loads + drains + waits

/-! ## MM -/

/-- Fields of MM's engine bits (R85). -/
def mmLayer (c : Cmd) : Nat := bits c.eng 63 56
def mmLr (c : Cmd) : Bool := bit c.eng 55
def mmRank (c : Cmd) : Nat := bits c.eng 54 51 + 1
def mmOutl (c : Cmd) : Bool := bit c.eng 50 && isShort c.fmtB
def mmAcc (c : Cmd) : Bool := bit c.eng 49
def mmDb (c : Cmd) : Bool := bit c.eng 48
def mmSatOff (c : Cmd) : Bool := bit c.eng 47

/-- Accumulator slots (R84). -/
def accSlots (c : Cmd) : Nat := cdiv c.m 32 * (if mmDb c then 2 else 1)

/-- T and V of the low-rank correction: the exact products of R89 step 2. -/
def lowRank (x : Ctx) (m n : Nat) : List (Val × Val) :=
  let r := mmRank x.cmd
  (List.range r).map (fun j =>
    (decodeVal e19 (rawNum x (x.region 4) (4 * (m * r + j)) 4 / 8192),
     decodeVal e19 (rawNum x (x.region 5) (4 * (j * x.cmd.n + n)) 4 / 8192)))

/-- The accesses to T and V for a column block. -/
def touchLowRank (x : Ctx) (cols : Nat × Nat) : Eng Unit := do
  let r := mmRank x.cmd
  upTo x.cmd.m (fun i => touch x (x.region 4) (4 * r * i) (4 * r))
  upTo r (fun j => touch x (x.region 5) (4 * (j * x.cmd.n + cols.1)) (4 * cols.2))

/-- The low-rank correction reads its regions as the options select. -/
def mmReads (x : Ctx) : List Region :=
  [x.region 0, x.region 1] ++ (if mmAcc x.cmd then [x.region 3] else []) ++
    (if mmLr x.cmd then [x.region 4, x.region 5] else [])

/-- The outlier products of a column in ascending block order (R89 step 3, R92). -/
def outlierProds (blkA : Nat → Nat → Nat × Nat) (fa nbk k m n : Nat) (es : List (Outlier × Bool)) : List (Val × Val) :=
  (es.filter (fun e => e.2 && e.1.block / nbk == n && decide (32 * (e.1.block % nbk) + e.1.pos < k))).map (fun e =>
    let a := blkA m (e.1.block % nbk)
    (elemScaled fa a.1 (codeAt fa a.2 e.1.pos), decodeVal (encOf 2) e.1.value))

/-- The corrections a matrix command adds (R85, R190): low rank, and outliers, which BW_MM has none of. -/
def corrects (c : Cmd) : Bool × Bool := (mmLr c, mmOutl c && c.opcode != 0x240)

/-- The bytes of an M × N output, or of the sum it starts from, in its region. -/
def sumSpans (x : Ctx) (r : Region) : List Span :=
  { r with len := min r.len (x.cmd.m * x.cmd.n * longSize x.cmd.fmtOut) }.spans x.dev

/-- Whether the sum a command starts from (its accumulator input in a region) has the low-rank correction, and the outliers, in
it already (R89). -/
def counted (x : Ctx) (acc : Bool) (r : Region) : Bool × Bool :=
  let es := if acc then x.dev.corrected.filter (fun e => spansMeet [e.1] (sumSpans x r)) else []
  (es.any (·.2.1), es.any (·.2.2))

/-- A correction enabled in two commands of one K range (R89). DEDUCED: the commands of a K range are those each of which
starts from the output of the one before (log 99). -/
def countedTwice (x : Ctx) (acc : Bool) (r : Region) : Bool :=
  ((corrects x.cmd).1 && (counted x acc r).1) || ((corrects x.cmd).2 && (counted x acc r).2)

/-- The corrections in a command's output, once it has committed. -/
def noteCounted (x : Ctx) (acc : Bool) (r out : Region) (d : Dev) : Dev :=
  let c := counted x acc r
  let now := ((corrects x.cmd).1 || c.1, (corrects x.cmd).2 || c.2)
  if now.1 || now.2 then { d with corrected := (sumSpans x out).map (fun s => (s, now)) ++ d.corrected } else d

/-- The product of an MM command, given its side list. -/
def mmProduct (x : Ctx) (side : SideList) : Product :=
  let c := x.cmd
  let nbk := cdiv c.k 32
  let fa := c.fmtA
  let blkA := mxAt x (x.region 0) fa c.m nbk
  { k := c.k, fa := fa, fb := c.fmtB, mx := isShort fa
    blkA := blkA
    blkB := mxAt x (x.region 1) c.fmtB c.n nbk
    marked := fun n j i =>
      if mmOutl c then
        ((side.ofBlock c.n nbk n).find? (fun e => e.1.block == n * nbk + j && e.1.pos == i)).map (markCode c.fmtB)
      else none
    valA := fun m i => f19At x (x.region 0) fa (m * c.k + i)
    valB := fun i n => f19At x (x.region 1) c.fmtB (n * c.k + i)
    start := fun m n => if mmAcc c then longVal c.fmtOut (rawNum x (x.region 3) ((m * c.n + n) * longSize c.fmtOut) (longSize c.fmtOut)) else zeroV
    first := fun m n => (if mmLr c then lowRank x m n else []) ++
      (if mmOutl c then outlierProds blkA fa nbk c.k m n (side.ofBlock c.n nbk n) else []) }

/-- The accesses of an MM command (R88). -/
def mmTouches (x : Ctx) (side : SideList) : Touches :=
  let c := x.cmd
  { head := if mmOutl c then touch x (x.region 1) side.off 8 else pure ()
    side := fun cols => do
      if mmOutl c then side.touch x (x.region 1) c.n (cdiv c.k 32) cols
      if mmLr c then touchLowRank x cols
    b := touchB x (x.region 1) c.fmtB c.n c.k
    c := fun cols rows => if mmAcc c then touchTile x (x.region 3) c.fmtOut c.n cols rows else pure ()
    a := touchRows x (x.region 0) c.fmtA c.m c.k
    out := fun cols => accessTile (x.region 2) c.fmtOut c.n cols (0, c.m) }

/-- The work of MM. -/
def mmWork (x : Ctx) : Eng Unit := do
  let c := x.cmd
  let nbk := cdiv c.k 32
  let side := readSide x (x.region 1) (sideOff c.fmtB c.n nbk)
  (mmTouches x side).walk c.m c.n c.k c.fmtB
  if countedTwice x (mmAcc c) (x.region 3) then taint
  if mmOutl c then
    if !ascending (side.ents.map (·.block)) then taint
    lift (noteOvf (side.overs c.n nbk))
  upTo c.m (fun m => upTo c.n (fun n => (mmProduct x side).store x (x.region 2) c.fmtOut c.n m n (mmSatOff c)))
  takes (productCycles c.m c.n c.k (kPerCycle c.fmtA c.fmtB) c.fmtB c.fmtOut (mmDb c)
    (if mmLr c then mmRank c else 0) (fun n0 => if mmOutl c then ((side.ofBlock c.n nbk n0).filter (·.2)).length else 0))

/-- 0x040 MM (R85 to R93). -/
def opMm : OpSpec where
  opcode := 0x040
  fmts := fun c => [c.fmtA, c.fmtB, c.fmtOut]
  pair := fun c => kPerCycle c.fmtA c.fmtB != 0
  out := fun c => isLong c.fmtOut
  descs := fun x => [tmDesc x 0, tmDesc x 1, tmDesc x 2] ++ (if mmAcc x.cmd then [tmDesc x 3] else []) ++
    (if mmLr x.cmd then [tmDesc x 4, tmDesc x 5] else [])
  slots := accSlots
  mask := fun _ => 0b000100
  reads := mmReads
  writes := fun x => [x.region 2]
  work := mmWork
  atCommit := fun x _ d => noteCounted x (mmAcc x.cmd) (x.region 3) (x.region 2) d
  units := fun c => (true, mmLr c || mmOutl c, false)
  cols := Cmd.n
  layer := mmLayer

/-- MM (R85). -/
def execMm (k : CoreIx) (u : Upset) (s : State) : Host.Outcome State Fault Refusal :=
  .next { s with dev := issueRow opMm k u s.dev }

end Sys2Proof.Machine
end

