-- ==== Sys2Proof/Machine/Blocks.lean ====
section
/-! DEFINITION. Tensor compression blocks (R239 to R246): CRC-32C, canonical code tables, the encoder, the decoder
and its outcomes, protection (R251), and which TCU a block belongs to (R217, R247). -/

namespace Sys2Proof.Machine
open Sys2Proof

/-! ## Checksums -/

/-- One bit of a reflected CRC. -/
def crcBit (poly c : Nat) : Nat := if c % 2 = 1 then Nat.xor (c / 2) poly else c / 2

/-- Eight bits of a reflected CRC. -/
def crcByte (poly c : Nat) (b : Byte) : Nat :=
  let f := crcBit poly
  f (f (f (f (f (f (f (f (Nat.xor c b.toNat))))))))

/-- A reflected 32-bit CRC with initial value and final XOR 0xFFFF_FFFF. -/
def crc32 (poly : Nat) (bs : List Byte) : Nat := Nat.xor (bs.foldl (crcByte poly) 0xFFFFFFFF) 0xFFFFFFFF

/-- CRC-32C (R240), and the CRC-32 of IEEE 802.3 (R256). -/
def crc32c (bs : List Byte) : Nat := crc32 0x82F63B78 bs
def crcEther (bs : List Byte) : Nat := crc32 0xEDB88320 bs

/-! ## Code tables -/

/-- Code length of symbol s in a table (R243). -/
def codeLen (d : Dev) (die id s : Nat) : Nat :=
  let b := (d.mem.byte .tcu (tblBase die id + s / 2)).toNat
  if s % 2 = 0 then b % 16 else b / 16

/-- The canonical codes of a table (R243): (symbol, length, code) by length, then symbol. -/
def codesOf (lens : List Nat) : List (Nat × Nat × Nat) :=
  let sorted := (List.range 12).flatMap (fun i =>
    ((lens.zipIdx).filter (fun e => e.1 == i + 1)).map (fun e => (e.2, i + 1)))
  (sorted.foldl (fun (acc : List (Nat × Nat × Nat) × Nat × Nat) e =>
    let code := acc.2.1 * 2 ^ (e.2 - acc.2.2)
    (acc.1 ++ [(e.1, e.2, code)], code + 1, e.2)) ([], 0, 0)).1

/-- The Kraft sum of a table's lengths in units of 2^-15 (R244). -/
def kraft (lens : List Nat) : Nat := (lens.map (fun l => if l = 0 then 0 else 2 ^ (15 - l))).foldl (· + ·) 0

/-- The lengths of a table held in a die's TCUs. -/
def tableLens (d : Dev) (die id : Nat) : List Nat := (List.range 256).map (codeLen d die id)

/-! ## Bits -/

/-- Bits of a byte, lowest first; bytes of bits. -/
def byteBits (b : Byte) : List Bool := (List.range 8).map (fun i => bit b.toNat i)
def toBits (bs : List Byte) : List Bool := bs.flatMap byteBits
def bitsNat (l : List Bool) : Nat := l.foldr (fun b acc => b2n b + 2 * acc) 0
def ofBits : Nat → List Bool → List Byte
  | 0, _ => []
  | n + 1, l => BitVec.ofNat 8 (bitsNat (l.take 8)) :: ofBits n (l.drop 8)

/-- Whether a format's element symbols are 6 bits wide (R241). -/
def sixBit (f : Nat) : Bool := f == 6 || f == 7

/-- The symbols of raw bytes, and the bits left over (R241). -/
def symbolsOf (six : Bool) (raw : List Byte) : List Nat × List Bool :=
  if six then
    let bs := toBits raw
    let n := bs.length / 6
    ((List.range n).map (fun i => bitsNat ((bs.drop (6 * i)).take 6)), bs.drop (6 * n))
  else (raw.map (·.toNat), [])

/-! ## The encoder -/

/-- The coded bits of symbols (R241): each code most significant bit first; none where a symbol has no code. -/
def codeBits (codes : List (Nat × Nat × Nat)) : List Nat → Option (List Bool)
  | [] => some []
  | s :: t =>
    match codes.find? (fun c => c.1 == s), codeBits codes t with
    | some c, some r => some ((List.range c.2.1).map (fun i => bit c.2.2 (c.2.1 - 1 - i)) ++ r)
    | _, _ => none

/-- A stored block: header fields and payload (R240). -/
structure Block where
  crc : Nat
  raw : Bool
  scl : Bool
  table : Nat
  tail : Nat
  fmt : Nat
  payload : List Byte

/-- The bytes of a stored block, header first. -/
def Block.bytes (b : Block) : List Byte :=
  leBytes 8 (b.fmt + 2 ^ 4 * b.tail + 2 ^ 8 * b.table + 2 ^ 16 * b.payload.length + 2 ^ 29 * b2n b.scl +
    2 ^ 31 * b2n b.raw + 2 ^ 32 * b.crc) ++ b.payload

/-- One block of raw bytes encoded (R240 to R242). ask: compression requested and allowed. -/
def encodeBlock (codes : List (Nat × Nat × Nat)) (table fmt : Nat) (ask scl : Bool) (raw : List Byte) : Block :=
  let six := sixBit fmt && !scl
  let sy := symbolsOf six raw
  let plain : Block := ⟨crc32c raw, true, scl, 0, bitsNat sy.2, fmt, raw⟩
  if !ask || scl then plain
  else match codeBits codes sy.1 with
    | none => plain
    | some bs =>
      let n := cdiv bs.length 8
      if 4096 ≤ n ∨ raw.length ≤ n then plain
      else { plain with raw := false, table := table, payload := ofBits n bs }

/-- A byte string cut into pieces of 4,096. -/
def cut4096 (l : List Byte) : List (List Byte) := (pieces l.length 4096).map (fun p => (l.drop p.1).take p.2)

/-- The blocks of a tensor: its element part, then its scale part (R239). DESIGN CHOICE: R242 to R246 ask for a valid table of the
decoder only; an encoder takes the lengths the store holds under the named id, valid or not (log 148). -/
def encodeTensor (d : Dev) (die table fmt : Nat) (ask : Bool) (elems scales : List Byte) : List Block :=
  let codes := if ask then codesOf (tableLens d die table) else []
  (cut4096 elems).map (encodeBlock codes table fmt ask false) ++ (cut4096 scales).map (encodeBlock codes table fmt ask true)

/-- Blocks laid on 64-byte boundaries: the offset of each, and the length of all, a multiple of 64 (R239). DESIGN CHOICE: TCU_PACK's
stored length counts the last block's padding too, which R249 does not say (log 149). -/
def layBlocks (bs : List Block) : List (Nat × Block) × Nat :=
  bs.foldl (fun acc b => (acc.1 ++ [(acc.2, b)], alignUp (acc.2 + 8 + b.payload.length) 64)) ([], 0)

/-! ## The decoder -/

/-- How a block came out (R246). -/
structure Decoded where
  data : List Byte
  overs : Bool
  under : Bool
  crcBad : Bool

/-- The next symbol of a bit string: the first code that its bits spell; fuel 12. -/
def nextSym (codes : List (Nat × Nat × Nat)) : Nat → Nat → Nat → List Bool → Option (Nat × List Bool)
  | 0, _, _, _ => none
  | _, _, _, [] => none
  | n + 1, len, code, b :: t =>
    let c := 2 * code + b2n b
    match codes.find? (fun e => e.2.1 == len + 1 && e.2.2 == c) with
    | some e => some (e.1, t)
    | none => nextSym codes n (len + 1) c t

/-- Symbols read until n are found or the payload ends. -/
def readSyms (codes : List (Nat × Nat × Nat)) : Nat → List Bool → List Nat × List Bool × Bool
  | 0, bs => ([], bs, true)
  | n + 1, bs =>
    match nextSym codes 12 0 0 bs with
    | none => ([], bs, false)
    | some (s, rest) =>
      let r := readSyms codes n rest
      (s :: r.1, r.2)

/-- Bytes padded with zeros to n. -/
def padTo (n : Nat) (l : List Byte) : List Byte := l.take n ++ List.replicate (n - l.length) 0

/-- A block decoded to its declared size (R246). six: the format's element symbols are 6 bits, for which a table's symbols 0 to
63 alone are used (R243); codes: the named table's codes, none where the table is not valid. -/
def decodeBlock (codes : Option (List (Nat × Nat × Nat))) (six : Bool) (hdr declared : Nat) (payload : List Byte) : Decoded :=
  let crc := bits hdr 63 32
  let good := fun (l : List Byte) => (⟨l, false, false, crc32c l != crc⟩ : Decoded)
  if bit hdr 31 then
    if payload.length = declared then good payload
    else ⟨padTo declared payload, decide (declared < payload.length), decide (payload.length < declared), true⟩
  else
    let wide := six && !bit hdr 29
    let n := if wide then 8 * declared / 6 else declared
    match codes with
    | none => ⟨List.replicate declared 0, false, true, true⟩
    | some cs =>
      let r := readSyms (if wide then cs.filter (fun e => decide (e.1 < 64)) else cs) n (toBits payload)
      let left := if wide then 8 * declared % 6 else 0
      if r.2.2 then
        let data := if wide then
            ofBits declared (r.1.flatMap (fun s => (List.range 6).map (bit s)) ++ (List.range left).map (bit (bits hdr 7 4)))
          else r.1.map (fun s => BitVec.ofNat 8 s)
        if 8 ≤ r.2.1.length then ⟨data, true, false, true⟩ else good data
      else
        let some' := if wide then
            let bs := r.1.flatMap (fun s => (List.range 6).map (bit s))
            ofBits (bs.length / 8) bs
          else r.1.map (fun s => BitVec.ofNat 8 s)
        ⟨padTo declared some', false, true, true⟩

/-- The table a block's header names: a raw block is decoded by none (R240). -/
def headerTable (hdr : Nat) : List Nat := if bit hdr 31 then [] else [bits hdr 15 8]

/-- The tables that blocks of a number lying one after another name, and where the last ends; hdr: the header at an offset. -/
def walkBlocks (hdr : Nat → Nat) : Nat → Nat → List Nat × Nat
  | 0, off => ([], off)
  | n + 1, off =>
    let h := hdr off
    let r := walkBlocks hdr n (alignUp (off + 8 + bits h 28 16) 64)
    (headerTable h ++ r.1, r.2)

/-- Blocks of a tensor of an element part and a scale part of those sizes (R239). -/
def tensorBlocks (e s : Nat) : Nat := cdiv e 4096 + cdiv s 4096

/-! ## Units and protection -/

/-- The stack of an HBM byte address (R217). -/
def stackOf (a : Nat) : Nat :=
  let u := a / 256
  bits (Nat.xor (Nat.xor (Nat.xor (bits u 5 0) (bits u 11 6)) (Nat.xor (bits u 17 12) (bits u 23 18))) (bits u 28 24)) 5 5

/-- Whether a 2 MiB page of a die is protected (R408). -/
def pageProtected (d : Dev) (die page : Nat) : Bool :=
  decide (page ≤ 49151) && (look [] d.sec.inForce die).any (fun r => decide (r.1 ≤ page) && decide (page < r.1 + r.2))

/-- Whether any page of an HBM byte range of a die is protected (R251). -/
def rangeProtected (d : Dev) (die a n : Nat) : Bool :=
  n != 0 && (List.range ((a + n - 1) / 2 ^ 21 + 1 - a / 2 ^ 21)).any (fun i => pageProtected d die (a / 2 ^ 21 + i))

def TcuCnt.add (a b : TcuCnt) : TcuCnt :=
  ⟨a.raw + b.raw, a.stored + b.stored, a.blkRaw + b.blkRaw, a.protRaw + b.protRaw, a.overs + b.overs, a.under + b.under, a.crc + b.crc⟩

/-- Additions to the counters of the TCU whose stack holds a block's header. -/
def countTcu (addr : Nat) (c : TcuCnt) : Eng Unit :=
  modify (fun f => if stackOf addr = 0 then { f with tcu0 := f.tcu0.add c } else { f with tcu1 := f.tcu1.add c })

/-- The flags of a decoded block (R246), and its counts. -/
def noteDecoded (addr stored : Nat) (r : Decoded) : Eng Unit := do
  modify (fun f => { f with flags := { f.flags with
    overrun := f.flags.overrun || r.overs, underrun := f.flags.underrun || r.under, crc := f.flags.crc || r.crcBad } })
  countTcu addr { raw := r.data.length, stored := stored, overs := b2n r.overs, under := b2n r.under, crc := b2n r.crcBad }

/-- The counts of a written block. -/
def noteEncoded (addr : Nat) (prot : Bool) (rawLen : Nat) (b : Block) : Eng Unit :=
  countTcu addr { raw := rawLen, stored := 8 + b.payload.length, blkRaw := b2n b.raw, protRaw := b2n prot }

/-- The counts of an attempt reach the TCU pages at its commit. -/
def commitTcu (d : Dev) (die : Nat) (f : Flight) : Dev :=
  let one := fun (x : Dev) (t : Nat) (c : TcuCnt) =>
    (((((((x.inc64 (R.TCU_RAW_LO die t) c.raw).inc64 (R.TCU_STORED_LO die t) c.stored).inc (R.TCU_BLK_RAW die t) c.blkRaw).inc
      (R.TCU_PROT_RAW die t) c.protRaw).inc (R.TCU_OVERRUN_CNT die t) c.overs).inc (R.TCU_UNDERRUN_CNT die t) c.under).inc
      (R.TCU_CRC_CNT die t) c.crc)
  one (one d 0 f.tcu0) 1 f.tcu1

/-! ## Tensors in the A layout -/

/-- Bytes of the element and the scale part of an M × K tensor (R86, R239). -/
def tensorElems (f m k : Nat) : Nat := if isLong f then m * k * longSize f else m * cdiv k 32 * blockBytes f
def tensorScales (f m k : Nat) : Nat := if isLong f then 0 else m * cdiv k 32

/-- The parts of a tensor in a region, without checks. -/
def rawTensor (x : Ctx) (r : Region) (f m k : Nat) : List Byte × List Byte :=
  let e := tensorElems f m k
  (r.bytes x.dev 0 e, r.bytes x.dev (alignUp e 64) (tensorScales f m k))

/-- The parts of a tensor read from a region. -/
def getTensor (x : Ctx) (r : Region) (f m k : Nat) : Eng (List Byte × List Byte) := do
  let e ← getBytes x r 0 (tensorElems f m k)
  let s ← getBytes x r (alignUp (tensorElems f m k) 64) (tensorScales f m k)
  return (e, s)

/-- The parts of a tensor written to a region. -/
def putTensor (x : Ctx) (r : Region) (e s : List Byte) : Eng Unit := do
  putBytes x r 0 e
  putBytes x r (alignUp e.length 64) s

end Sys2Proof.Machine
end

