-- ==== Sys2Proof/Machine/Cipher.lean ====
section
/-! DEFINITION. AES-256-XTS over one 256-byte HBM unit (R406), and the bytes the HBM of a die holds. PRESUMED: the cipher is that
of FIPS 197 in the mode of IEEE 1619, the spec naming both only (log 110). -/

namespace Sys2Proof.Machine
open Sys2Proof

/-! ## AES-256 -/

/-- A field element of GF(2^8) times x. -/
def xtime (a : Nat) : Nat := if a < 128 then 2 * a else Nat.xor (2 * a) 0x11B

/-- The product in GF(2^8): the low n bits of b taken. -/
def gfMul : Nat → Nat → Nat → Nat
  | 0, _, _ => 0
  | n + 1, a, b => Nat.xor (if b % 2 = 1 then a else 0) (gfMul n (xtime a) (b / 2))

/-- The inverse, a to the power of 254; 0 for 0. -/
def gfInv (a : Nat) : Nat :=
  ((List.range 7).foldl (fun (acc : Nat × Nat) _ => let s := gfMul 8 acc.1 acc.1; (s, gfMul 8 acc.2 s)) (a, 1)).2

/-- The substitution of a byte. -/
def subByte (a : Nat) : Nat :=
  let b := gfInv a
  let r := fun (i : Nat) => (b * 2 ^ i) % 256 + b / 2 ^ (8 - i)
  Nat.xor 0x63 (Nat.xor b (Nat.xor (Nat.xor (r 1) (r 2)) (Nat.xor (r 3) (r 4))))

def xorBytes (a b : List Nat) : List Nat := (a.zip b).map (fun e => Nat.xor e.1 e.2)

/-- The words of the key schedule, four bytes each, from word i on: the words so far, oldest first. -/
def keyWords : Nat → Nat → Nat → List (List Nat) → List (List Nat)
  | 0, _, _, ws => ws
  | f + 1, i, rcon, ws =>
    let last := ws.getLastD []
    let t := if i % 8 = 0 then xorBytes ((last.drop 1 ++ last.take 1).map subByte) [rcon, 0, 0, 0]
      else if i % 8 = 4 then last.map subByte else last
    keyWords f (i + 1) (if i % 8 = 0 then xtime rcon else rcon) (ws ++ [xorBytes (ws.getD (i - 8) []) t])

/-- Round keys of a 32-byte key. -/
def roundKeys (key : List Nat) : List (List Nat) :=
  let ws := keyWords 52 8 1 ((List.range 8).map (fun i => (key.drop (4 * i)).take 4))
  (List.range 15).map (fun r => ((ws.drop (4 * r)).take 4).flatten)

/-- Rows of the state, which lies in columns, shifted. -/
def shiftRows (s : List Nat) : List Nat := (List.range 16).map (fun i => s.getD ((i + 4 * (i % 4)) % 16) 0)

/-- Columns mixed. -/
def mixColumns (s : List Nat) : List Nat :=
  (List.range 16).map (fun i =>
    let c := fun (j : Nat) => s.getD (i / 4 * 4 + (i + j) % 4) 0
    Nat.xor (Nat.xor (xtime (c 0)) (Nat.xor (xtime (c 1)) (c 1))) (Nat.xor (c 2) (c 3)))

/-- One 16-byte block encrypted under round keys. -/
def aesBlock (ks : List (List Nat)) (p : List Nat) : List Nat :=
  let s := ((ks.drop 1).take 13).foldl (fun s k => xorBytes (mixColumns (shiftRows (s.map subByte))) k) (xorBytes p (ks.headD []))
  xorBytes (shiftRows (s.map subByte)) (ks.getLastD [])

/-! ## XTS -/

/-- The n low bytes of a number, lowest first. -/
def numBytes (n v : Nat) : List Nat := (List.range n).map (fun i => v / 256 ^ i % 256)

/-- A tweak times the primitive element, as a number of 128 bits. -/
def tweakNext (t : Nat) : Nat := if t < 2 ^ 127 then 2 * t else Nat.xor (2 * t - 2 ^ 128) 0x87

/-- Blocks of 16 bytes encrypted one after another, the tweak moving on. -/
def xtsBlocks (ks : List (List Nat)) : Nat → Nat → List Nat → List Nat
  | 0, _, _ => []
  | n + 1, t, p =>
    let tb := numBytes 16 t
    xorBytes (aesBlock ks (xorBytes (p.take 16) tb)) tb ++ xtsBlocks ks n (tweakNext t) (p.drop 16)

/-- The tweak of a unit (R406): its index in [28:0], the global die number in [35:32]. -/
def unitTweak (die u : Nat) : Nat := u % 2 ^ 29 + 2 ^ 32 * (die % 16)

/-- A 256-byte unit encrypted under a 512-bit key: the data key in the low half of the number, the tweak key in the high half. -/
def xtsUnit (key tweak : Nat) (p : List Nat) : List Nat :=
  let t := (aesBlock (roundKeys (numBytes 32 (key / 2 ^ 256))) (numBytes 16 tweak)).foldr (fun b acc => b + 256 * acc) 0
  xtsBlocks (roundKeys (numBytes 32 key)) 16 t p

/-! ## What the HBM holds -/

/-- The bytes that unit u of a die's HBM holds (R406): encrypted in a protected page. Every agent of the partition reads and
writes the plaintext (R407), which is what the memory of the model lists. -/
def storedUnit (d : Dev) (die u : Nat) : List Nat :=
  let p := (d.mem.bytes .hbm (hbmBase die + 256 * u) 256).map (·.toNat)
  if pageProtected d die (u / 8192) then xtsUnit (look 0 d.sec.xts die) (unitTweak die u) p else p

end Sys2Proof.Machine
end

