-- ==== Sys2Proof/Machine/Sfu.lean ====
section
/-! DEFINITION. The special function unit: tables and their interpolation (R125, R126), the built-in functions
(R127, R128), user tables (R131) and the E1 mode (R132, R133). -/

namespace Sys2Proof.Machine
open Sys2Proof

/-- Endpoints of exp2 (R125). -/
def tabExp2 : List Int :=
  [536870912, 548626854, 560640218, 572916640, 585461881, 598281827, 611382493, 624770026,
   638450708, 652430958, 666717336, 681316545, 696235434, 711481005, 727060411, 742980960,
   759250125, 775875538, 792865000, 810226483, 827968132, 846098274, 864625413, 883558244,
   902905651, 922676710, 942880699, 963527098, 984625594, 1006186087, 1028218693, 1050733751,
   1073741824]

/-- Endpoints of log2 (R125). -/
def tabLog2 : List Int :=
  [0, 23833911, 46956255, 69408291, 91227790, 112449419, 133105070, 153224150,
   172833830, 191959271, 210623813, 228849148, 246655472, 264061620, 281085185, 297742623,
   314049351, 330019835, 345667660, 361005607, 376045710, 390799318, 405277142, 419489302,
   433445373, 447154422, 460625039, 473865379, 486883181, 499685803, 512280243, 524673164,
   536870912]

/-- Endpoints of recip (R125). -/
def tabRecip : List Int :=
  [536870912, 520602096, 505290270, 490853405, 477218588, 464320789, 452101821, 440509466,
   429496730, 419021200, 409044504, 399531841, 390451572, 381774871, 373475417, 365529132,
   357913941, 350609575, 343597384, 336860180, 330382100, 324148475, 318145726, 312361258,
   306783378, 301401214, 296204641, 291184223, 286331153, 281637200, 277094664, 272696336,
   268435456]

/-- Endpoints of rsqrt (R125). -/
def tabRsqrt : List Int :=
  [536870912, 528673928, 520841289, 513346779, 506166750, 499279807, 492666537, 486309283,
   480191942, 474299793, 468619351, 463138234, 457845052, 452729304, 447781295, 442992052,
   438353264, 433857214, 429496730, 425265132, 421156193, 417164101, 413283421, 409509064,
   405836263, 402260543, 398777702, 395383788, 392075079, 388848068, 385699449, 382626098,
   379625062]

/-- Endpoints of tanh (R125). -/
def tabTanh : List Int :=
  [0, 16771757, 33510809, 50184709, 66761509, 83210015, 99500004, 115602448,
   131489706, 147135695, 162516048, 177608235, 192391663, 206847754, 220959991, 234713942,
   248097260, 261099661, 273712883, 285930622, 297748459, 309163767, 320175615, 330784652,
   340992997, 350804118, 360222705, 369254555, 377906444, 386186011, 394101646, 401662373,
   408877749]

/-- Endpoints of phi (R125). -/
def tabPhi : List Int :=
  [268435456, 295138462, 321428011, 346909752, 371226082, 394071018, 415201279, 434442947,
   451693521, 466919576, 480150622, 491470036, 501004069, 508909988, 515364316, 520551990,
   524657028, 527855074, 530307948, 532160152, 533537123, 534544946, 535271164, 535786359,
   536146191, 536393620, 536561124, 536672765, 536746020, 536793345, 536823443, 536842290,
   536853909]

/-- Endpoints of sin (R125). -/
def tabSin : List Int :=
  [0, 26343007, 52622552, 78775324, 104738319, 130448991, 155845399, 180866363,
   205451603, 229541893, 253079196, 276006809, 298269498, 319813629, 340587301, 360540469,
   379625062, 397795106, 415006827, 431218760, 446391849, 460489541, 473477874, 485325556,
   496004047, 505487621, 513753431, 520781564, 526555088, 531060095, 534285732, 536224227,
   536870912]

/-- E1 endpoints of exp2 (R132 step 2). -/
def tabE1Exp2 : List Int :=
  [536870912, 560640192, 585461888, 611382464, 638450688, 666717312, 696235456, 727060416,
   759250112, 792865024, 827968128, 864625408, 902905664, 942880704, 984625600, 1028218688,
   1073741824]

/-- E1 endpoints of log2 (R132 step 2). -/
def tabE1Log2 : List Int :=
  [0, 46956256, 91227792, 133105072, 172833824, 210623808, 246655472, 281085184,
   314049344, 345667648, 376045696, 405277152, 433445376, 460625024, 486883168, 512280256,
   536870912]

/-- E1 endpoints of recip (R132 step 2). -/
def tabE1Recip : List Int :=
  [536870912, 505290272, 477218592, 452101824, 429496736, 409044512, 390451584, 373475424,
   357913952, 343597376, 330382112, 318145728, 306783392, 296204640, 286331168, 277094656,
   268435456]

/-- E1 endpoints of rsqrt (R132 step 2). -/
def tabE1Rsqrt : List Int :=
  [536870912, 520841280, 506166752, 492666528, 480191936, 468619360, 457845056, 447781280,
   438353280, 429496736, 421156192, 413283424, 405836256, 398777696, 392075072, 385699456,
   379625056]

/-- A table's output at a 23-bit argument in units of 2^-29 (R126). -/
def tableAt (tab : List Int) (u : Nat) : Int :=
  let j := u / 2 ^ 18
  let e := tab.getD j 0
  e + Int.tdiv ((tab.getD (j + 1) e - e) * ((u % 2 ^ 18 : Nat) : Int)) (2 ^ 18)

/-- One binary32 ulp of an endpoint in units of 2^-29. -/
def ulpUnits (e : Int) : Int := 2 ^ (bitLen e.natAbs - 24)

/-- The segments of an E1 table whose stored difference is increased (R133). -/
def e1Raised (func j : Nat) : Bool :=
  (func == 0 && (j == 2 || j == 8 || j == 12)) || (func == 1 && j == 4)

/-- An E1 table's output (R132). -/
def tableE1 (func : Nat) (tab : List Int) (u : Nat) : Int :=
  let j := u / 2 ^ 19
  let e := tab.getD j 0
  let f := tab.getD (j + 1) e
  let d := f - e + (if e1Raised func j then ulpUnits f + (cdiv (f - e).natAbs (2 ^ 19) : Nat) else 0)
  e + d * ((u % 2 ^ 19 : Nat) : Int) / 2 ^ 19

/-- A table output converted to binary32 (R126). -/
def tableOut (y : Int) : Num Val := ieee e32 0 (ofInt y (-29) false)

/-- A 23-bit argument: m × 2^e with the bits below 2^-23 dropped. -/
def arg23 (m : Nat) (e : Int) : Nat := scaleTo m e (-23)

/-- The four base tables, E1 or not. -/
def baseTable (e1 : Bool) (func u : Nat) : Int :=
  match func with
  | 0 => if e1 then tableE1 0 tabE1Exp2 u else tableAt tabExp2 u
  | 1 => if e1 then tableE1 1 tabE1Log2 u else tableAt tabLog2 u
  | 2 => if e1 then tableE1 2 tabE1Recip u else tableAt tabRecip u
  | _ => if e1 then tableE1 3 tabE1Rsqrt u else tableAt tabRsqrt u

/-- A value times 2^n, rounded to binary32. -/
def scale2 (v : Val) (n : Int) : Num Val :=
  match v with
  | .num s m e => ieee e32 0 (.num s m (e + n))
  | w => pure w

/-- exp2 (R127 row 0, R128). -/
def sfuExp2 (e1 : Bool) (x : Val) : Num Val :=
  match x with
  | .nan s => passNan s
  | .inf s => pure (if s then zeroV else .inf false)
  | .num s m e => do
    if !ltVal x (natV 128) then
      noteOverflow
      return .inf false
    if ltVal x (.num true 149 0) then
      noteUnderflow
      return zeroV
    let q := min e (-23)
    let k := toUnits s m e q
    let one : Int := 2 ^ (-q).toNat
    let n := k / one
    let f := (k % one).toNat
    scale2 (← tableOut (baseTable e1 0 (arg23 f q))) n

/-- The exponent of a finite nonzero magnitude and its fraction as a 23-bit number. -/
def splitMag (m : Nat) (e : Int) : Int × Nat :=
  let b := bitLen m
  (msbExp m e, arg23 (m - 2 ^ (b - 1)) (1 - (b : Int)))

/-- log2 (R127 row 1, R128). -/
def sfuLog2 (e1 : Bool) (x : Val) : Num Val :=
  match x with
  | .nan s => passNan s
  | .inf s => if s then invalidNan else pure (.inf false)
  | .num s m e =>
    if m = 0 then do
      noteDivZero
      return .inf true
    else if s then invalidNan
    else do
      let p := splitMag m e
      add32 (ofInt p.1 0 false) (← tableOut (baseTable e1 1 p.2))

/-- Reciprocal (R127 row 2, R128). -/
def sfuRecip (e1 : Bool) (x : Val) : Num Val :=
  match x with
  | .nan s => passNan s
  | .inf s => pure (.num s 0 0)
  | .num s m e =>
    if m = 0 then do
      noteDivZero
      return .inf s
    else do
      let p := splitMag m e
      let y ← scale2 (← tableOut (baseTable e1 2 p.2)) (-p.1)
      return if s then negVal y else y

/-- Reciprocal square root (R127 row 3, R128). R128 gives −0 no result: a free value. -/
def sfuRsqrt (e1 : Bool) (x : Val) : Num Val :=
  match x with
  | .nan s => passNan s
  | .inf s => if s then invalidNan else pure zeroV
  | .num s m e =>
    if m = 0 then
      if s then do
        let v := v32 (Config.rsqrtNegZero % 2 ^ 32)
        if v.isNan then noteNan
        return v
      else do
        noteDivZero
        return .inf false
    else if s then invalidNan
    else do
      let p := splitMag m e
      let y ← scale2 (← tableOut (baseTable e1 3 p.2)) (-(p.1 / 2))
      if p.1 % 2 = 0 then return y else mul32 y (v32 0x3F3504F3)

/-- The magnitude of a value. -/
def absVal : Val → Val
  | .num _ m e => .num false m e
  | .inf _ => .inf false
  | w => w

/-- log2(e) and ln(2) in binary32 (R119, R127). -/
def log2eV : Val := v32 0x3FB8AA3B
def ln2V : Val := v32 0x3F317218

/-- E = exp2(−|x| × log2(e)) (R127). -/
def sfuE (x : Val) : Num Val := do
  sfuExp2 false (negVal (← mul32 (absVal x) log2eV))

/-- Sigmoid (R127 row 4). -/
def sfuSigmoid (x : Val) : Num Val := do
  match x with
  | .nan s => passNan s
  | _ =>
    let e ← sfuE x
    let r ← sfuRecip false (← add32 oneV e)
    if ltVal x (.num true 0 0) then mul32 e r else return r

/-- Hyperbolic tangent (R127 row 5). -/
def sfuTanh (x : Val) : Num Val := do
  match x with
  | .nan s => passNan s
  | _ =>
    let a := absVal x
    let y ← match a with
      | .num _ m e =>
        if ltVal a oneV then tableOut (tableAt tabTanh (arg23 m e))
        else do
          let t ← sfuE x
          let t2 ← mul32 t t
          mul32 (← sub32 oneV t2) (← sfuRecip false (← add32 oneV t2))
      | _ => do
        let t ← sfuE x
        let t2 ← mul32 t t
        mul32 (← sub32 oneV t2) (← sfuRecip false (← add32 oneV t2))
    return if x.neg then negVal y else y

/-- GELU (R127 row 6). -/
def sfuGelu (x : Val) : Num Val := do
  match x with
  | .nan s => passNan s
  | _ =>
    let a := absVal x
    let p ← match a with
      | .num _ m e => if ltVal a (natV 4) then tableOut (tableAt tabPhi (arg23 m (e - 2))) else pure oneV
      | _ => pure oneV
    let q ← if ltVal x (.num true 0 0) then sub32 oneV p else pure p
    mul32 x q

/-- SiLU (R127 row 7). -/
def sfuSilu (x : Val) : Num Val := do
  match x with
  | .nan s => passNan s
  | _ => mul32 x (← sfuSigmoid x)

/-- Softplus (R127 row 8). -/
def sfuSoftplus (x : Val) : Num Val := do
  match x with
  | .nan s => passNan s
  | _ =>
    let l ← sfuLog2 false (← add32 oneV (← sfuE x))
    add32 (if ltVal x zeroV then zeroV else x) (← mul32 ln2V l)

/-- 1/(2π) in units of 2^-98: its 96 leading bits, rounded to nearest. -/
def invTwoPi : Nat := 0xA2F9836E4E441529FC2757D2

/-- Sine, or cosine as a sine a quarter turn ahead (R127 rows 9 and 10, R128). -/
def sfuSin (cos turns : Bool) (x : Val) : Num Val :=
  match x with
  | .nan s => passNan s
  | .inf _ => invalidNan
  | .num s m e =>
    let wm := if turns then m else m * invTwoPi
    let we := if turns then e else e - 98
    let q := min we (-25)
    let quarter : Int := 2 ^ (-q).toNat / 4
    let k := toUnits s wm we q + (if cos then quarter else 0)
    let quad := (k / quarter) % 4
    let f := (k % quarter).toNat
    let u := if quad = 0 ∨ quad = 2 then f else quarter.toNat - f
    do
      let y ← tableOut (tableAt tabSin (arg23 u (q + 2)))
      return if quad = 2 ∨ quad = 3 then negVal y else y

/-- A signed little-endian field of w bits. -/
def signedOf (w n : Nat) : Int := if bit n (w - 1) then (n : Int) - 2 ^ w else n

/-- A user table as its 140 bytes hold it (R130). -/
structure UserTable where
  xLo : Nat
  shift : Int
  outExp : Int
  ends : List Int

/-- A user table evaluated (R131). -/
def sfuUser (t : UserTable) (x : Val) : Num Val := do
  match x with
  | .nan s => passNan s
  | _ =>
    let a ← scale2 (← sub32 x (v32 t.xLo)) (-t.shift)
    match a with
    | .nan s => return .nan s
    | _ =>
      let u := match a with
        | .num s m e => if s || m == 0 then 0 else min (arg23 m e) (2 ^ 23 - 1)
        | w => if w.neg then 0 else 2 ^ 23 - 1
      scale2 (← tableOut (tableAt t.ends u)) t.outExp

/-- The built-in functions by their codes (R127). -/
def sfuFunc (func : Nat) (e1 turns : Bool) (x : Val) : Num Val :=
  match func with
  | 0 => sfuExp2 e1 x
  | 1 => sfuLog2 e1 x
  | 2 => sfuRecip e1 x
  | 3 => sfuRsqrt e1 x
  | 4 => sfuSigmoid x
  | 5 => sfuTanh x
  | 6 => sfuGelu x
  | 7 => sfuSilu x
  | 8 => sfuSoftplus x
  | 9 => sfuSin false turns x
  | _ => sfuSin true turns x

end Sys2Proof.Machine
end

