-- ==== Sys2Proof/Machine/Tiles.lean ====
section
/-! DEFINITION. Coma entries and the tile record (R167 to R171): where a tap of an output position reads. -/

namespace Sys2Proof.Machine
open Sys2Proof

/-- A coma entry (R167). -/
structure Coma where
  kx : Nat
  ky : Nat
  kt : Nat
  sx : Nat
  sy : Nat
  st : Nat
  lox : Nat
  loy : Nat
  lot : Nat
  deriving DecidableEq, Repr

/-- Entry i of a core's coma table. -/
def comaEntry (d : Dev) (die core slot i : Nat) : Coma :=
  let b := fun j => (d.mem.byte .coma (comaBase die core slot + 16 * i + j)).toNat
  ⟨b 0, b 1, b 2, b 3, b 4, b 5, b 6, b 7, b 8⟩

/-- Values R167 allows. DESIGN CHOICE: bytes 9 to 15, which R167 has written 0, are not looked at: R171 names no fault for them
(log 101). -/
def Coma.ok (c : Coma) : Bool :=
  let axis := fun (k s lo : Nat) => decide (1 ≤ k) && decide (k ≤ 7) && decide (1 ≤ s) && decide (s ≤ 2) && decide (lo < k)
  axis c.kx c.sx c.lox && axis c.ky c.sy c.loy && axis c.kt c.st c.lot

def Coma.taps (c : Coma) : Nat := c.kx * c.ky * c.kt

/-- The tile record (R168). -/
structure Tile where
  coma : Nat
  x0 : Nat
  y0 : Nat
  t0 : Nat
  ox : Nat
  oy : Nat
  ot : Nat
  fw : Nat
  fh : Nat
  ft : Nat
  iw : Nat
  ih : Nat
  it : Nat
  bx0 : Int
  by0 : Int
  bt0 : Int
  bw : Nat
  bh : Nat
  bt : Nat
  cin : Nat
  deriving DecidableEq, Repr

/-- A signed 16-bit field. -/
def signed16 (n : Nat) : Int := if 2 ^ 15 ≤ n then (n : Int) - 2 ^ 16 else n

/-- The tile record at the start of a region. DESIGN CHOICE: R168 gives coma indices 0 to 15 and no outcome above; the low
4 bits of the byte are taken (log 101). -/
def tileAt (x : Ctx) (r : Region) : Tile :=
  let h := fun off => rawNum x r off 2
  { coma := bits (rawNum x r 0 1) 3 0
    x0 := h 4, y0 := h 6, t0 := h 8, ox := h 10, oy := h 12, ot := h 14, fw := h 16, fh := h 18, ft := h 20
    iw := h 22, ih := h 24, it := h 26
    bx0 := signed16 (h 28), by0 := signed16 (h 30), bt0 := signed16 (h 32)
    bw := h 34, bh := h 36, bt := h 38, cin := h 40 }

/-- The positions of an output tile (R168). -/
def Tile.count (t : Tile) : Nat := t.ox * t.oy * t.ot

/-- Output position m of the tile in the layer's output frame, along x, y and t (R169). -/
def Tile.pos (t : Tile) (m : Nat) : Nat × Nat × Nat :=
  (t.x0 + m % t.ox, t.y0 + m / t.ox % t.oy, t.t0 + m / (t.ox * t.oy))

/-- Whether output position m lies in the output frame (R170). -/
def Tile.inside (t : Tile) (m : Nat) : Bool :=
  let p := t.pos m
  decide (p.1 < t.fw) && decide (p.2.1 < t.fh) && decide (p.2.2 < t.ft)

/-- Where a tap leads (R170): outside the input frame it is zero; else its position from the buffer's origin,
which is outside the buffer when held is false. -/
inductive Tap where
  | zero
  | at (x y t : Int) (held : Bool)
  deriving DecidableEq, Repr

/-- The index of a buffer position (R169). -/
def Tile.index (t : Tile) (x y z : Int) : Int := (z * t.bh + y) * t.bw + x

/-- The tap (dx, dy, dt) of output position m under strides and leading counts of a coma entry (R167 to R170). -/
def Tile.tap (t : Tile) (c : Coma) (m dx dy dt : Nat) : Tap :=
  let p := t.pos m
  let px : Int := (p.1 * c.sx + dx : Nat) - (c.lox : Int)
  let py : Int := (p.2.1 * c.sy + dy : Nat) - (c.loy : Int)
  let pt : Int := (p.2.2 * c.st + dt : Nat) - (c.lot : Int)
  let inFrame := fun (v : Int) (n : Nat) => decide (0 ≤ v) && decide (v < (n : Int))
  if !(inFrame px t.iw && inFrame py t.ih && inFrame pt t.it) then .zero
  else
    let bx := px - t.bx0
    let by' := py - t.by0
    let bt := pt - t.bt0
    .at bx by' bt (inFrame bx t.bw && inFrame by' t.bh && inFrame bt t.bt)

/-- The fault of a tap inside the input frame and outside the buffer (R170): unit bytes from the descriptor's
base to the first byte the tap would read. -/
def tapStop (idx : Nat) (byte : Int) : Stop :=
  { code := cRegion, desc := idx, info1 := ((byte / 64) % 2 ^ 32).toNat, core := true }

/-- Tap number j of a coma entry in the order of R172: x fastest, then y, then t. -/
def Coma.split (c : Coma) (j : Nat) : Nat × Nat × Nat := (j % c.kx, j / c.kx % c.ky, j / (c.kx * c.ky))

/-- The decode conditions of R171 that every tile command shares: the record's coma entry, valid and in range,
and M the tile's positions. slot i of the descriptors holds the record. -/
def checkTile (x : Ctx) (r : Region) : Eng Unit := do
  touch x r 0 64
  let t := tileAt x r
  require (decide ((x.die, x.core, x.slot) ∈ x.dev.comaValid))
  touchTable x .coma (comaBase x.die x.core x.slot + 16 * t.coma) 16
  require (comaEntry x.dev x.die x.core x.slot t.coma).ok
  require (x.cmd.m == t.count)

end Sys2Proof.Machine
end

