-- ==== Sys2Proof/Machine/Vector.lean ====
section
/-! DEFINITION. The vector engine and the SFU's opcodes (R109 to R124, R130 to R134). -/

namespace Sys2Proof.Machine
open Sys2Proof

/-! ## Rows and lanes -/

/-- Long element i of a region. -/
def longAt (x : Ctx) (r : Region) (f i : Nat) : Val := longVal f (rawNum x r (i * longSize f) (longSize f))

/-- A row of n long elements from element i. -/
def rowAt' (x : Ctx) (r : Region) (f i n : Nat) : List Val := (List.range n).map (fun k => longAt x r f (i + k))

/-- n elements from element i are operands: a signaling NaN among them raises invalid (R113, R114). -/
def noteSignals (x : Ctx) (r : Region) (f i n : Nat) : Eng Unit :=
  lift ((List.range n).forM (fun k => noteSignal f (rawNum x r ((i + k) * longSize f) (longSize f))))

/-- The row read: access and elements. -/
def getRow (x : Ctx) (r : Region) (f i n : Nat) : Eng (List Val) := do
  touch x r (i * longSize f) (n * longSize f)
  noteSignals x r f i n
  return rowAt' x r f i n

/-- A value rounded once to a long format, as IEEE 754 rounds (R113), and its bytes. -/
def ieeeBytes (f rm : Nat) (v : Val) : Num (List Byte) := do
  noteWritten 1
  return longBytes f (← ieeeCode (encOf f) rm v)

/-- Values stored from element i on, each rounded to the format. -/
def putRow (x : Ctx) (r : Region) (f rm i : Nat) (vs : List Val) : Eng Unit := do
  let bs ← lift (vs.mapM (ieeeBytes f rm))
  putBytes x r (i * longSize f) bs.flatten

/-- One element to each lane in turn. -/
def laneStep (g : Val → Val → Num Val) : List Val → List Val → Num (List Val)
  | l :: ls, v :: vs => do
    let a ← g l v
    return a :: (← laneStep g ls vs)
  | ls, _ => pure ls

/-- A row folded into 256 lanes (R115); fuel: the row's length. -/
def laneFold (g : Val → Val → Num Val) : Nat → List Val → List Val → Num (List Val)
  | 0, ls, _ => pure ls
  | _, ls, [] => pure ls
  | n + 1, ls, vs => do
    let l2 ← laneStep g ls (vs.take 256)
    laneFold g n l2 (vs.drop 256)

/-- Lane i becomes lane i + lane i + s for s = 2^(n−1) … 1 (R115). -/
def laneTree : Nat → List Val → Num Val
  | 0, ls => pure (ls.headD zeroV)
  | n + 1, ls => do
    let s := 2 ^ n
    let l2 ← laneStep add32 (ls.take s) (ls.drop s)
    laneTree n l2

/-- The lane-order sum and sum of squares of a row (R115). -/
def laneSum (vs : List Val) : Num Val := do
  laneTree 8 (← laneFold add32 vs.length (List.replicate 256 zeroV) vs)
def laneSquares (vs : List Val) : Num Val := do
  laneTree 8 (← laneFold (fun l v => fma32 v v l) vs.length (List.replicate 256 zeroV) vs)

/-- The extreme of a row (R115). A NaN in it is a NaN source (R70), alone too. -/
def foldVals (g : Val → Val → Num Val) : List Val → Num Val
  | [] => pure zeroV
  | v :: vs => do
    if v.isNan then noteNan
    vs.foldlM g v

/-- A negative or −0 variance becomes +0 (R117). -/
def clipVar (v : Val) : Val := if v.isNan || !v.neg then v else zeroV

/-- Mean and variance of a row (R117). -/
def rowStats (vs : List Val) : Num (Val × Val) := do
  let n := natV vs.length
  let x0 := vs.headD zeroV
  let ds ← vs.mapM (fun v => sub32 v x0)
  let mu ← div32 (← laneSum ds) n
  let a ← div32 (← laneSquares ds) n
  let var ← fma32 (negVal mu) mu a
  return (← add32 x0 mu, clipVar var)

/-- rstd (R118). -/
def rstdOf (var eps : Val) : Num Val := do
  div32 oneV (← sqrt32 (← add32 var eps))

/-- Mean, if the kind subtracts one, and rstd of a row (R118): RMSNorm takes Q/n without shift. -/
def normStats (rms : Bool) (eps : Val) (vs : List Val) : Num (Option Val × Val) := do
  if rms then
    let a ← div32 (← laneSquares vs) (natV vs.length)
    return (none, ← rstdOf a eps)
  else
    let s ← rowStats vs
    return (some s.1, ← rstdOf s.2 eps)

/-- x̂ of an element (R118, R192). -/
def normHat (st : Option Val × Val) (v : Val) : Num Val := do
  match st.1 with
  | some mean => mul32 (← sub32 v mean) st.2
  | none => mul32 v st.2

/-- e, r, m and s of a softmax row (R119); none where every element is −∞. -/
def softmaxRow (scale : Val) (vs : List Val) : Num (Option (List Val × Val × Val × Val)) := do
  if vs.all (fun v => decide (v = .inf true)) then return none
  else
    let c ← mul32 scale log2eV
    let zs ← vs.mapM (fun v =>
      if v = .inf true then pure (Val.inf true) else if v = .inf false ∧ c.neg then invalidNan else mul32 v c)
    let m ← foldVals maxVal ((vs.zip zs).filterMap (fun e => if e.1 = .inf true then none else some e.2))
    let es ← (vs.zip zs).mapM (fun e => do
      if e.1 = .inf true then return zeroV
      else sfuExp2 false (← sub32 e.2 m))
    let s ← laneSum es
    return some (es, ← div32 oneV s, m, s)

/-- EMPTY (R120). -/
def emptyV : Val := .inf true
def binary32 : Nat := 0

/-! ## Opcodes -/

/-- What every VE opcode shares. -/
def veSpec (opcode : Nat) : OpSpec :=
  { opcode := opcode, units := fun _ => (false, false, true), vector := true }

/-- The work of a command's rows, with the cycles it takes (R116): 32, and as many for each row. DESIGN CHOICE: a command that stops in
its work has been in execution (R134) for the rows it began (log 132). -/
def eachRow (rows per : Nat) (body : Nat → Eng Unit) : Eng Unit := do
  takes 32
  upTo rows (fun m => do
    takes per
    body m)

/-- VE_EW's fields (R112). -/
def ewOp (c : Cmd) : Nat := bits c.eng 63 60
def ewRm (c : Cmd) : Nat := bits c.eng 59 57
def ewSatOff (c : Cmd) : Bool := bit c.eng 56
def ewUsesB (c : Cmd) : Bool := decide (ewOp c ≤ 4) || ewOp c == 6 || ewOp c == 7
def ewUsesC (c : Cmd) : Bool := ewOp c == 3

/-- The exact result of an elementwise operation (R113). -/
def ewResult (op rm : Nat) (a b c : Val) : Num Val :=
  match op with
  | 0 => addVal rm a b
  | 1 => if a.isNan || b.isNan then addVal rm a b else addVal rm a (negVal b)
  | 2 => mulVal a b
  | 3 => fmaVal rm a b c
  | 4 => divVal a b
  | 5 => sqrtVal a
  | 6 => minVal a b
  | _ => maxVal a b

/-- Operand a of VE_EW: element (m, k), long, or a block element for convert. -/
def ewA (x : Ctx) (m k : Nat) : Val :=
  let c := x.cmd
  if isLong c.fmtA then longAt x (x.region 0) c.fmtA (m * c.k + k)
  else
    let b := mxAt x (x.region 0) c.fmtA c.m (cdiv c.k 32) m (k / 32)
    elemScaled c.fmtA b.1 (codeAt c.fmtA b.2 (k % 32))

def ewWork (x : Ctx) : Eng Unit := do
  let c := x.cmd
  eachRow c.m ((if ewOp c = 4 ∨ ewOp c = 5 then 8 else 1) * cdiv c.k 256) (fun m => (pieces c.k 256).forM (fun p => do
    touchRows x (x.region 0) c.fmtA c.m c.k (m, 1) p
    if ewUsesB c then touch x (x.region 1) ((m * c.k + p.1) * longSize c.fmtB) (p.2 * longSize c.fmtB)
    if ewUsesC c then touch x (x.region 3) ((m * c.k + p.1) * longSize c.fmtB) (p.2 * longSize c.fmtB)
    if isLong c.fmtA then noteSignals x (x.region 0) c.fmtA (m * c.k + p.1) p.2
    if ewUsesB c then noteSignals x (x.region 1) c.fmtB (m * c.k + p.1) p.2
    if ewUsesC c then noteSignals x (x.region 3) c.fmtB (m * c.k + p.1) p.2
    let bs ← lift ((List.range p.2).mapM (fun i => do
      let k := p.1 + i
      let e := m * c.k + k
      let a := ewA x m k
      if ewOp c = 8 then
        noteWritten 1
        return longBytes c.fmtOut (← convertCode (encOf c.fmtOut) (ewSatOff c) a)
      else
        let b := if ewUsesB c then longAt x (x.region 1) c.fmtB e else zeroV
        let d := if ewUsesC c then longAt x (x.region 3) c.fmtB e else zeroV
        ieeeBytes c.fmtOut (ewRm c) (← ewResult (ewOp c) (ewRm c) a b d)))
    putBytes x (x.region 2) ((m * c.k + p.1) * longSize c.fmtOut) bs.flatten))

/-- 0x100 VE_EW. -/
def opVeEw : OpSpec := { veSpec 0x100 with
  fmts := fun c => [c.fmtA] ++ (if ewUsesB c then [c.fmtB] else []) ++ [c.fmtOut]
  pair := fun c => (isLong c.fmtA || ewOp c == 8) && (!ewUsesB c || isLong c.fmtB)
  out := fun c => isLong c.fmtOut
  descs := fun x => [tmDesc x 0] ++ (if ewUsesB x.cmd then [tmDesc x 1] else []) ++ [tmDesc x 2] ++
    (if ewUsesC x.cmd then [tmDesc x 3] else [])
  check := fun x => require (decide (ewOp x.cmd ≤ 8) && decide (ewRm x.cmd ≤ 4))
  mask := fun _ => 0b000100
  reads := fun x => [x.region 0] ++ (if ewUsesB x.cmd then [x.region 1] else []) ++
    (if ewUsesC x.cmd then [x.region 3] else [])
  writes := fun x => [x.region 2]
  work := ewWork }

/-- VE_RED's kind. -/
def redKind (c : Cmd) : Nat := bits c.eng 63 61

/-- The statistics of a row: one value, or mean and variance (R115, R117). -/
def redRow (kind : Nat) (vs : List Val) : Num (List Val) := do
  match kind with
  | 0 => return [← laneSum vs]
  | 1 => return [← foldVals maxVal vs]
  | 2 => return [← foldVals minVal vs]
  | 3 => return [← laneSquares vs]
  | _ =>
    let s ← rowStats vs
    return [s.1, s.2]

/-- 0x101 VE_RED. DESIGN CHOICE: its results are binary32 whatever fmt_out holds, so fmt_out is not a used field and a short
one is no fault (R61, R111; log 113). -/
def opVeRed : OpSpec := { veSpec 0x101 with
  fmts := fun c => [c.fmtA]
  pair := fun c => isLong c.fmtA
  descs := fun x => [tmDesc x 0, tmDesc x 2]
  check := fun x => require (decide (redKind x.cmd ≤ 4))
  mask := fun _ => 0b000100
  reads := fun x => [x.region 0]
  writes := fun x => [x.region 2]
  work := fun x => do
    let c := x.cmd
    eachRow c.m (cdiv c.k 256 + (if redKind c = 4 then 12 else 8)) (fun m => do
      let vs ← getRow x (x.region 0) c.fmtA (m * c.k) c.k
      let r ← lift (redRow (redKind c) vs)
      putRow x (x.region 2) binary32 0 (m * r.length) r) }

/-- VE_NORM's fields. -/
def normKind (c : Cmd) : Nat := bits c.eng 63 62
def normEps (c : Cmd) : Val := decodeVal (encOf 2) (bits c.eng 61 46)

/-- Groups of a row: N for group norm, else one. -/
def normGroups (c : Cmd) : Nat := if normKind c = 2 then c.n else 1

/-- An output element of VE_NORM before its rounding to fmt_out (R118). -/
def normOut (rms : Bool) (st : Option Val × Val) (v g b : Val) : Num Val := do
  let h ← normHat st v
  if rms then mulVal h g else fmaVal 0 h g b

def normWork (x : Ctx) : Eng Unit := do
  let c := x.cmd
  let rms := normKind c == 1
  let size := c.k / normGroups c
  if c.k % normGroups c ≠ 0 then taint
  eachRow c.m (2 * cdiv c.k 256 + 24) (fun m => do
    let vs ← getRow x (x.region 0) c.fmtA (m * c.k) c.k
    lift (noteSignal 2 (bits c.eng 61 46))
    let gs ← getRow x (x.region 1) c.fmtB 0 c.k
    let bs ← if rms then pure [] else getRow x (x.region 3) c.fmtB 0 c.k
    (pieces (size * normGroups c) size).forM (fun p => do
      let part := (vs.drop p.1).take p.2
      let st ← lift (normStats rms (normEps c) part)
      let outs ← lift ((part.zipIdx).mapM (fun e => do
        ieeeBytes c.fmtOut 0 (← normOut rms st e.1 (gs.getD (p.1 + e.2) zeroV) (bs.getD (p.1 + e.2) zeroV))))
      putBytes x (x.region 2) ((m * c.k + p.1) * longSize c.fmtOut) outs.flatten))

/-- 0x102 VE_NORM. -/
def opVeNorm : OpSpec := { veSpec 0x102 with
  fmts := fun c => [c.fmtA, c.fmtB, c.fmtOut]
  pair := fun c => isLong c.fmtA && isLong c.fmtB
  out := fun c => isLong c.fmtOut
  descs := fun x => [tmDesc x 0, tmDesc x 1, tmDesc x 2] ++ (if normKind x.cmd = 1 then [] else [tmDesc x 3])
  check := fun x => require (normKind x.cmd != 3)
  mask := fun _ => 0b000100
  reads := fun x => [x.region 0, x.region 1] ++ (if normKind x.cmd = 1 then [] else [x.region 3])
  writes := fun x => [x.region 2]
  work := normWork }

/-- VE_SOFTMAX's fields. -/
def smScale (c : Cmd) : Val := decodeVal (encOf 2) (bits c.eng 63 48)
def smLse (c : Cmd) : Bool := bit c.eng 47

def softmaxWork (x : Ctx) : Eng Unit := do
  let c := x.cmd
  eachRow c.m (2 * cdiv c.k 256 + cdiv c.k 64 + 16) (fun m => do
    let vs ← getRow x (x.region 0) c.fmtA (m * c.k) c.k
    let r ← lift (softmaxRow (smScale c) vs)
    match r with
    | none =>
      putRow x (x.region 2) c.fmtOut 0 (m * c.k) (List.replicate c.k zeroV)
      if smLse c then putRow x (x.region 4) binary32 0 m [emptyV]
    | some (es, r, mx, s) =>
      lift (noteSignal 2 (bits c.eng 63 48))
      let ys ← lift (es.mapM (fun e => do ieeeBytes c.fmtOut 0 (← mulVal e r)))
      putBytes x (x.region 2) (m * c.k * longSize c.fmtOut) ys.flatten
      if smLse c then
        let l ← lift (do add32 mx (← sfuLog2 false s))
        putRow x (x.region 4) binary32 0 m [l])

/-- 0x103 VE_SOFTMAX. -/
def opVeSoftmax : OpSpec := { veSpec 0x103 with
  fmts := fun c => [c.fmtA, c.fmtOut]
  pair := fun c => isLong c.fmtA
  out := fun c => isLong c.fmtOut
  descs := fun x => [tmDesc x 0, tmDesc x 2] ++ (if smLse x.cmd then [tmDesc x 4] else [])
  mask := fun x => if smLse x.cmd then 0b010100 else 0b000100
  reads := fun x => [x.region 0]
  writes := fun x => [x.region 2] ++ (if smLse x.cmd then [x.region 4] else [])
  work := softmaxWork }

/-- VE_COMBINE's fields. -/
def cbParts (c : Cmd) : Nat := bits c.eng 63 58 + 1
def cbFinal (c : Cmd) : Bool := bit c.eng 57

/-- A sum in order from its first term. -/
def sumFrom : List Val → Num Val
  | [] => pure zeroV
  | v :: vs => vs.foldlM add32 v

/-- The merge of the partials (m, l, o) of a row that are not EMPTY (R121): Mx, L, O. -/
def combineRow (ps : List (Val × Val × List Val)) (n : Nat) : Num (Val × Val × List Val) := do
  let mx ← foldVals maxVal (ps.map (·.1))
  let ws ← ps.mapM (fun p => do sfuExp2 false (← sub32 p.1 mx))
  let pw := ps.zip ws
  let l ← sumFrom (← pw.mapM (fun e => mul32 e.1.2.1 e.2))
  let o ← (List.range n).mapM (fun j => do sumFrom (← pw.mapM (fun e => mul32 (e.1.2.2.getD j zeroV) e.2)))
  return (mx, l, o)

def combineWork (x : Ctx) : Eng Unit := do
  let c := x.cmd
  let p := cbParts c
  eachRow c.m (p * cdiv c.n 256 + cdiv p 64 + 16) (fun m => do
    let stats ← (List.range p).mapM (fun q => do
      touch x (x.region 1) (8 * (q * c.m + m)) 8
      return rowAt' x (x.region 1) binary32 (2 * (q * c.m + m)) 2)
    let live := (stats.zipIdx).filter (fun e => decide (e.1.headD emptyV ≠ emptyV))
    let parts ← live.mapM (fun e => do
      noteSignals x (x.region 1) binary32 (2 * (e.2 * c.m + m)) 2
      let o ← getRow x (x.region 0) binary32 ((e.2 * c.m + m) * c.n) c.n
      return (e.1.headD zeroV, e.1.getD 1 zeroV, o))
    let fo := if cbFinal c then c.fmtOut else binary32
    if parts.isEmpty then
      putRow x (x.region 2) fo 0 (m * c.n) (List.replicate c.n zeroV)
      if cbFinal c then putRow x (x.region 4) binary32 0 m [emptyV]
      else putRow x (x.region 4) binary32 0 (2 * m) [emptyV, zeroV]
    else
      let r ← lift (combineRow parts c.n)
      if cbFinal c then
        let inv ← lift (div32 oneV r.2.1)
        let ys ← lift (r.2.2.mapM (fun o => do ieeeBytes fo 0 (← mulVal o inv)))
        putBytes x (x.region 2) (m * c.n * longSize fo) ys.flatten
        let l ← lift (do add32 r.1 (← sfuLog2 false r.2.1))
        putRow x (x.region 4) binary32 0 m [l]
      else
        putRow x (x.region 2) binary32 0 (m * c.n) r.2.2
        putRow x (x.region 4) binary32 0 (2 * m) [r.1, r.2.1])

/-- 0x104 VE_COMBINE. -/
def opVeCombine : OpSpec := { veSpec 0x104 with
  fmts := fun c => if cbFinal c then [c.fmtOut] else []
  out := fun c => !cbFinal c || isLong c.fmtOut
  descs := fun x => [tmDesc x 0, tmDesc x 1, tmDesc x 2, tmDesc x 4]
  check := fun x => require (decide (x.cmd.n ≤ 256))
  mask := fun _ => 0b010100
  reads := fun x => [x.region 0, x.region 1]
  writes := fun x => [x.region 2, x.region 4]
  work := combineWork }

/-- VE_QUANT's fields. -/
def qSatOff (c : Cmd) : Bool := bit c.eng 63
def qInfKeep (c : Cmd) : Bool := bit c.eng 62
def qThr (c : Cmd) : Nat := bits c.eng 61 54
def qEfInit (c : Cmd) : Bool := bit c.eng 53

/-- A block stored: elements at block i of one region, its scale at byte i of another. -/
def putBlock (x : Ctx) (re rs : Region) (f scaleAt i : Nat) (b : Nat × List Nat) : Eng Unit := do
  putBytes x re (i * blockBytes f) (packCodes f b.2)
  putBytes x rs (scaleAt + i) [BitVec.ofNat 8 b.1]

/-- 0x105 VE_QUANT. -/
def opVeQuant : OpSpec := { veSpec 0x105 with
  fmts := fun c => [c.fmtA, c.fmtOut]
  pair := fun c => isLong c.fmtA
  out := fun c => isShort c.fmtOut
  descs := fun x => [tmDesc x 0, tmDesc x 2, tmDesc x 3]
  mask := fun _ => 0b001100
  reads := fun x => [x.region 0]
  writes := fun x => [x.region 2, x.region 3]
  work := fun x => do
    let c := x.cmd
    let nbk := cdiv c.k 32
    eachRow c.m (cdiv c.k 256 + 4) (fun m => (pieces c.k 32).forM (fun p => do
      let vs ← getRow x (x.region 0) c.fmtA (m * c.k + p.1) p.2
      let b ← lift (do
        noteWritten p.2
        quantBlock c.fmtOut (qSatOff c) (qInfKeep c) (qThr c) vs)
      putBlock x (x.region 2) (x.region 3) c.fmtOut 0 (m * nbk + p.1 / 32) b)) }

/-- The residual of an element (R123): v less its dequantised value, or +0. -/
def efResidual (f scale code : Nat) (v : Val) : Num (List Byte) := do
  let q := elemScaled f scale code
  if scale = 0xFF ∨ v.isInf ∨ q.isNan then return longBytes 3 0
  else
    let r ← addVal 0 v (negVal q)
    return longBytes 3 (← ieeeCode e19 0 r)

/-- 0x106 VE_QUANT_EF. -/
def opVeQuantEf : OpSpec := { veSpec 0x106 with
  fmts := fun c => [c.fmtA, c.fmtOut]
  pair := fun c => isLong c.fmtA
  out := fun c => isShort c.fmtOut
  descs := fun x => [tmDesc x 0] ++ (if qEfInit x.cmd then [] else [tmDesc x 1]) ++ [tmDesc x 2, tmDesc x 3, tmDesc x 4]
  mask := fun _ => 0b011100
  reads := fun x => [x.region 0] ++ (if qEfInit x.cmd then [] else [x.region 1])
  writes := fun x => [x.region 2, x.region 3, x.region 4]
  work := fun x => do
    let c := x.cmd
    let nbk := cdiv c.k 32
    eachRow c.m (cdiv c.k 256 + 4) (fun m => (pieces c.k 32).forM (fun p => do
      let e := m * c.k + p.1
      let xs ← getRow x (x.region 0) c.fmtA e p.2
      let rs ← if qEfInit c then pure (List.replicate p.2 zeroV) else getRow x (x.region 1) 3 e p.2
      let vs ← lift ((xs.zip rs).mapM (fun q => add32 q.1 q.2))
      let b ← lift (do
        noteWritten p.2
        quantBlock c.fmtOut (qSatOff c) (qInfKeep c) (qThr c) vs)
      putBlock x (x.region 2) (x.region 3) c.fmtOut 0 (m * nbk + p.1 / 32) b
      let out ← lift ((vs.zip b.2).mapM (fun q => efResidual c.fmtOut b.1 q.2 q.1))
      putBytes x (x.region 4) (4 * e) out.flatten)) }

/-- VE_DWCONV's fields (R112). -/
def dwKt (c : Cmd) : Nat := bits c.eng 63 61 + 1
def dwKh (c : Cmd) : Nat := bits c.eng 60 58 + 1
def dwKw (c : Cmd) : Nat := bits c.eng 57 55 + 1
def dwStride (c : Cmd) : Nat := bits c.eng 54 53
def dwGroup (c : Cmd) : Nat := bits c.eng 52 49 + 1
def dwBias (c : Cmd) : Bool := bit c.eng 48

/-- Taps and strides of the command, leading counts of the coma entry (R182). -/
def dwComa (x : Ctx) (t : Tile) : Coma :=
  let c := x.cmd
  let e := comaEntry x.dev x.die x.core x.slot t.coma
  { e with kx := dwKw c, ky := dwKh c, kt := dwKt c,
           sx := if dwStride c = 0 then 1 else 2, sy := if dwStride c = 0 then 1 else 2,
           st := if dwStride c = 2 then 2 else 1 }

/-- One output (m, n) of VE_DWCONV (R124, R182). -/
def dwOut (x : Ctx) (t : Tile) (co : Coma) (m n : Nat) : Eng Val := do
  let c := x.cmd
  let sz := longSize c.fmtA
  let g := dwGroup c
  let start ← if dwBias c then do
      let b ← getRow x (x.region 3) c.fmtA n 1
      pure (b.headD zeroV)
    else pure zeroV
  (List.range (g * co.taps)).foldlM (fun acc i => do
    let tap := co.split (i % co.taps)
    let ch := g * (n / g) + i / co.taps
    let v ← match t.tap co m tap.1 tap.2.1 tap.2.2 with
      | .zero => pure zeroV
      | .at px py pt held => do
        let ix := t.index px py pt
        if !held then stop (tapStop 0 ((ix * t.cin + ch) * sz))
        let r ← getRow x (x.region 0) c.fmtA (ix.toNat * t.cin + ch) 1
        pure (r.headD zeroV)
    touch x (x.region 1) (64 + (n * g * co.taps + i) * sz) sz
    let w := rawNum x (x.region 1) (64 + (n * g * co.taps + i) * sz) sz
    lift (do
      noteSignal c.fmtA w
      fma32 v (longVal c.fmtA w) acc)) start

/-- 0x107 VE_DWCONV. -/
def opVeDwconv : OpSpec := { veSpec 0x107 with
  fmts := fun c => [c.fmtA, c.fmtOut]
  pair := fun c => isLong c.fmtA
  out := fun c => isLong c.fmtOut
  descs := fun x => [tmDesc x 0, tmDesc x 1, tmDesc x 2] ++ (if dwBias x.cmd then [tmDesc x 3] else [])
  check := fun x => do
    let c := x.cmd
    require (decide (dwKt c ≤ 7) && decide (dwKh c ≤ 7) && decide (dwKw c ≤ 7) && dwStride c != 3)
    checkTile x (x.region 1)
    require ((tileAt x (x.region 1)).cin == c.n && c.n % dwGroup c == 0)
  mask := fun _ => 0b000100
  reads := fun x => [x.region 0, x.region 1] ++ (if dwBias x.cmd then [x.region 3] else [])
  writes := fun x => [x.region 2]
  work := fun x => do
    let c := x.cmd
    let t := tileAt x (x.region 1)
    let co := dwComa x t
    eachRow c.m (cdiv c.n 256 * co.taps * dwGroup c) (fun m => upTo c.n (fun n => do
      let v ← if t.inside m then dwOut x t co m n else pure zeroV
      putRow x (x.region 2) c.fmtOut 0 (m * c.n + n) [v])) }

/-- VE_SFU's fields. -/
def sfuFn (c : Cmd) : Nat := bits c.eng 63 59
def sfuE1 (c : Cmd) : Bool := bit c.eng 58
def sfuTurns (c : Cmd) : Bool := bit c.eng 57

/-- A user table as its bytes give it (R130). -/
def userTable (d : Dev) (die core plan slot : Nat) : UserTable :=
  let b := sfuBase die core plan slot
  ⟨d.mem.num .sfu b 4, signedOf 8 (d.mem.num .sfu (b + 4) 1), signedOf 8 (d.mem.num .sfu (b + 5) 1),
    (List.range 33).map (fun i => signedOf 32 (d.mem.num .sfu (b + 8 + 4 * i) 4))⟩

/-- The function of a VE_SFU command. -/
def sfuApply (x : Ctx) (v : Val) : Num Val :=
  let c := x.cmd
  if 16 ≤ sfuFn c then do
    let t := userTable x.dev x.die x.core x.slot (sfuFn c - 16)
    if !v.isNan then noteSignal binary32 t.xLo
    sfuUser t v
  else sfuFunc (sfuFn c) (sfuE1 c) (sfuTurns c) v

/-- Whether func's rate is 32 results a cycle (R127). -/
def sfuTwoTables (f : Nat) : Bool := f == 4 || f == 5 || f == 7 || f == 8

/-- 0x108 VE_SFU. -/
def opVeSfu : OpSpec := { veSpec 0x108 with
  fmts := fun c => [c.fmtA, c.fmtOut]
  pair := fun c => isLong c.fmtA
  out := fun c => isLong c.fmtOut
  descs := fun x => [tmDesc x 0, tmDesc x 2]
  check := fun x => do
    let c := x.cmd
    require (decide (sfuFn c ≤ 10) || (decide (16 ≤ sfuFn c) && decide (sfuFn c ≤ 23)))
    require (!sfuE1 c || decide (sfuFn c ≤ 3))
    require (decide (sfuFn c < 16) || decide ((x.die, x.core, x.slot, sfuFn c - 16) ∈ x.dev.sfuValid))
  mask := fun _ => 0b000100
  reads := fun x => [x.region 0]
  writes := fun x => [x.region 2]
  work := fun x => do
    let c := x.cmd
    eachRow c.m (if sfuTwoTables (sfuFn c) then cdiv c.k 32 else cdiv c.k 64) (fun m => do
      let vs ← getRow x (x.region 0) c.fmtA (m * c.k) c.k
      if 16 ≤ sfuFn c then touchTable x .sfu (sfuBase x.die x.core x.slot (sfuFn c - 16)) 140
      let ys ← lift (vs.mapM (fun v => do ieeeBytes c.fmtOut 0 (← sfuApply x v)))
      putBytes x (x.region 2) (m * c.k * longSize c.fmtOut) ys.flatten)
  atCommit := fun x _ d => if sfuE1 x.cmd then d.inc (R.CORE_SFU_E1_CNT x.die x.core) 1 else d }

/-- VE_SFU_LOAD's slot. -/
def loadSlot (c : Cmd) : Nat := bits c.eng 63 61

/-- The table slot as the region the load writes. -/
def sfuRegion (x : Ctx) : Region := ⟨9, .sfu, sfuBase x.die x.core x.slot (loadSlot x.cmd), 140, 140, x.n⟩

/-- 0x109 VE_SFU_LOAD. DESIGN CHOICE: the 16 cycles of R130 are all it takes, the 32 of R116 not added (log 114). -/
def opVeSfuLoad : OpSpec := { veSpec 0x109 with
  descs := fun x => [tmDesc x 0]
  reads := fun x => [x.region 0]
  writes := fun x => [sfuRegion x]
  work := fun x => do
    let bs ← getBytes x (x.region 0) 0 140
    putBytes x (sfuRegion x) 0 bs
    takes 16
  atCommit := fun x _ d =>
    let k := (x.die, x.core, x.slot, loadSlot x.cmd)
    if k ∈ d.sfuValid then d else { d with sfuValid := k :: d.sfuValid } }

/-- VE_EW (R113). -/
def execVeEw (k : CoreIx) (u : Upset) (s : State) : Host.Outcome State Fault Refusal :=
  .next { s with dev := issueRow opVeEw k u s.dev }

/-- VE_RED (R115). -/
def execVeRed (k : CoreIx) (u : Upset) (s : State) : Host.Outcome State Fault Refusal :=
  .next { s with dev := issueRow opVeRed k u s.dev }

/-- VE_NORM (R118). -/
def execVeNorm (k : CoreIx) (u : Upset) (s : State) : Host.Outcome State Fault Refusal :=
  .next { s with dev := issueRow opVeNorm k u s.dev }

/-- VE_SOFTMAX (R119). -/
def execVeSoftmax (k : CoreIx) (u : Upset) (s : State) : Host.Outcome State Fault Refusal :=
  .next { s with dev := issueRow opVeSoftmax k u s.dev }

/-- VE_COMBINE (R121). -/
def execVeCombine (k : CoreIx) (u : Upset) (s : State) : Host.Outcome State Fault Refusal :=
  .next { s with dev := issueRow opVeCombine k u s.dev }

/-- VE_QUANT (R122). -/
def execVeQuant (k : CoreIx) (u : Upset) (s : State) : Host.Outcome State Fault Refusal :=
  .next { s with dev := issueRow opVeQuant k u s.dev }

/-- VE_QUANT_EF (R123). -/
def execVeQuantEf (k : CoreIx) (u : Upset) (s : State) : Host.Outcome State Fault Refusal :=
  .next { s with dev := issueRow opVeQuantEf k u s.dev }

/-- VE_DWCONV (R124, R182). -/
def execVeDwconv (k : CoreIx) (u : Upset) (s : State) : Host.Outcome State Fault Refusal :=
  .next { s with dev := issueRow opVeDwconv k u s.dev }

/-- VE_SFU (R127). -/
def execVeSfu (k : CoreIx) (u : Upset) (s : State) : Host.Outcome State Fault Refusal :=
  .next { s with dev := issueRow opVeSfu k u s.dev }

/-- VE_SFU_LOAD (R130). -/
def execVeSfuLoad (k : CoreIx) (u : Upset) (s : State) : Host.Outcome State Fault Refusal :=
  .next { s with dev := issueRow opVeSfuLoad k u s.dev }

end Sys2Proof.Machine
end

