-- ==== Sys2Proof/Machine/Attention.lean ====
section
/-! DEFINITION. Attention and the page moves (R136 to R146, R152, R159, R160): ATT_PART, ATT_PIN, KV_WRITE, KV_COPY. -/

namespace Sys2Proof.Machine
open Sys2Proof

/-! ## Pages -/

/-- Page formats (R138). -/
def pageFmt (f : Nat) : Bool := f == 1 || f == 2 || (decide (4 ≤ f) && decide (f ≤ 8))

/-- Sizes in a head slot (R141): K elements, K scales, and the slot rounded up to 64 B. -/
def slotElems (f n : Nat) : Nat := 256 * n * fmtBits f / 8
def slotScales (f n : Nat) : Nat := if isLong f then 0 else 256 * (n / 32)
def slotSize (f n : Nat) : Nat := alignUp (2 * (slotElems f n + slotScales f n)) 64

/-- Entry i of a page as a region of its page size, named by descriptor idx. -/
def pageRegion (x : Ctx) (idx i : Nat) : Region := kvRegion x.dev x.die idx i (kvPageSize x.dev x.die)

/-- Value j of the page list in D1 (R138). -/
def listEntry (x : Ctx) (j : Nat) : Nat := rawNum x (x.region 1) (2 * j) 2

/-- The whole page list. -/
def pageList (x : Ctx) : List Nat := (List.range (cdiv x.cmd.k 256)).map (listEntry x)

/-- The regions of the pages of a list, holes left out. -/
def listRegions (x : Ctx) : List Region := (listPages (pageList x)).map (pageRegion x 1)

/-! ## The attention record -/

/-- The attention record (R140). -/
structure AttRec where
  qPos : Nat
  kPos : Nat
  frame : Nat
  window : Nat
  head : Nat
  bitmap : Nat
  deriving DecidableEq, Repr

/-- The record as D3 gives it. DESIGN CHOICE: the table's head_slot is 0 to 31; of a byte above 31 the low five bits are taken
(log 112). -/
def attRec (x : Ctx) : AttRec :=
  let r := x.region 3
  ⟨rawNum x r 0 4, rawNum x r 4 4, rawNum x r 8 4, rawNum x r 12 2, bits (rawNum x r 14 1) 4 0, 64 * rawNum x r 16 4⟩

/-- Parts of a region, each from an offset on, as spans up to the region's end. -/
def partSpans (x : Ctx) (r : Region) (parts : List (Nat × Nat)) : List Span :=
  parts.flatMap (fun q => (r.pieces x.dev q.1 (min q.2 (r.bound - q.1))).map (fun e => ⟨r.space, e.1, e.2⟩))

/-- A page descriptor's move of parts of the page (offset and length), in the slots of the identifier in its base (R36). -/
def pageMove (x : Ctx) (idx : Nat) (r : Region) (parts : List (Nat × Nat)) (read : Bool) : Move :=
  { xfer := bits (descBase (x.cmd.desc idx)) 28 15, spans := partSpans x r parts, window := read && x.cmd.cls == 0,
    ports := if read then readPorts x.die x.core r else [] }

/-- Fields of ATT_PART and BW_ATT. -/
def attScale (c : Cmd) : Val := decodeVal (encOf 2) (bits c.eng 63 48)
def attCausal (c : Cmd) : Bool := bit c.eng 47
def attWindow (c : Cmd) : Bool := bit c.eng 46
def attSparse (c : Cmd) : Bool := bit c.eng 45

/-- The temporal slice of a position (R142). -/
def AttRec.slice (a : AttRec) (pos : Nat) : Int := if a.frame = 0 then 0 else (pos / a.frame : Nat)

/-- The bit of the block-sparse bitmap for row m and list page j. -/
def sparseBit (k m j : Nat) : Nat := m / 256 * cdiv k 256 + j

/-- Whether key k is visible to row m (R142). -/
def visible (x : Ctx) (a : AttRec) (m k : Nat) : Bool :=
  let c := x.cmd
  let qp := a.qPos + m
  let kp := a.kPos + k
  let b := sparseBit c.k m (k / 256)
  decide (k < c.k) && (!attCausal c || decide (kp ≤ qp)) &&
    (!attWindow c || (decide (a.slice qp - a.window < a.slice kp) && decide (a.slice kp ≤ a.slice qp))) &&
    (!attSparse c || bit (rawNum x (x.region 3) (a.bitmap + b / 8) 1) (b % 8))

/-! ## Keys and values -/

/-- A page of the list in use: its list position, region, and the offset of the head slot in it. -/
structure KvPage where
  j : Nat
  region : Region
  base : Nat

/-- The pages of a command in list order, holes skipped (R143). -/
def kvPages (x : Ctx) (a : AttRec) : List KvPage :=
  ((pageList x).zipIdx).filterMap (fun e =>
    if e.1 = 0xFFFF then none
    else some ⟨e.2, pageRegion x 1 e.1, a.head * slotSize x.cmd.fmtB x.cmd.n⟩)

/-- Tokens of list page j that are keys. -/
def tokens (x : Ctx) (j : Nat) : Nat := min 256 (x.cmd.k - 256 * j)

/-- Key block (t, j) and value block (n, j) of a page (R141). -/
def keyBlock (x : Ctx) (p : KvPage) (t j : Nat) : Nat × Nat :=
  let f := x.cmd.fmtB
  let i := t * (x.cmd.n / 32) + j
  (rawNum x p.region (p.base + slotElems f x.cmd.n + i) 1, rawNum x p.region (p.base + i * blockBytes f) (blockBytes f))
def valueBlock (x : Ctx) (p : KvPage) (n j : Nat) : Nat × Nat :=
  let f := x.cmd.fmtB
  let v := p.base + slotElems f x.cmd.n + slotScales f x.cmd.n
  let i := n * 8 + j
  (rawNum x p.region (v + slotElems f x.cmd.n + i) 1, rawNum x p.region (v + i * blockBytes f) (blockBytes f))

/-- A key or value element of a long page, or an MX one expanded (R188), as F19. -/
def keyF19 (x : Ctx) (p : KvPage) (t n : Nat) : Val :=
  let f := x.cmd.fmtB
  if isLong f then f19At x { p.region with base := p.region.base + p.base } f (t * x.cmd.n + n)
  else
    let b := keyBlock x p t (n / 32)
    expandF19 f b.1 (codeAt f b.2 (n % 32))
def valueF19 (x : Ctx) (p : KvPage) (n t : Nat) : Val :=
  let f := x.cmd.fmtB
  if isLong f then f19At x { p.region with base := p.region.base + p.base + slotElems f x.cmd.n } f (n * 256 + t)
  else
    let b := valueBlock x p n (t / 32)
    expandF19 f b.1 (codeAt f b.2 (t % 32))

/-- The parts of a page that are read (R141): the keys' rows and their scales, the values of each n and theirs. -/
def pageParts (x : Ctx) (p : KvPage) : List (Nat × Nat) :=
  let f := x.cmd.fmtB
  let n := x.cmd.n
  let cnt := tokens x p.j
  let v := p.base + slotElems f n + slotScales f n
  [(p.base, cdiv (cnt * n * fmtBits f) 8), (p.base + slotElems f n, cnt * (slotScales f n / 256))] ++
    (List.range n).map (fun i => (v + 32 * fmtBits f * i, cdiv (cnt * fmtBits f) 8)) ++
    (if isLong f then [] else (List.range n).map (fun i => (v + slotElems f n + 8 * i, cdiv cnt 32)))

/-- The accesses to a page: the whole head slot must lie in the page (R141); then the parts that are read. -/
def touchPage (x : Ctx) (p : KvPage) : Eng Unit := do
  access p.region p.base (slotSize x.cmd.fmtB x.cmd.n)
  (pageParts x p).forM (fun q => touch x p.region q.1 q.2)

/-- The page reads of a list, in the slots of the record's identifier (R140, R222). -/
def attMoves (x : Ctx) : List Move :=
  [{ xfer := bits (rawNum x (x.region 3) 20 2) 13 0, window := x.cmd.cls == 0,
     spans := (kvPages x (attRec x)).flatMap (fun p => partSpans x p.region (pageParts x p)),
     ports := (listRegions x).flatMap (readPorts x.die x.core) }]

/-- An accumulator rounded to binary32 inside a fixed procedure (R80); only conversions of p are counted (R144). -/
def roundAcc (v : Val) : Num Val := fun st =>
  let r := (convertCode e32 false (match v with | .num _ 0 _ => zeroV | w => w)).run st
  (decodeVal e32 r.1, { r.2 with fl := { r.2.fl with sat := st.fl.sat, under := st.fl.under } })

/-- A value rounded to F19 to nearest (R144, R195). -/
def toF19Near (v : Val) : Num Val := ieee e19 0 v

/-- The score of row m and key t of a page (R144), before its scale. -/
def score (x : Ctx) (p : KvPage) (m t : Nat) : Num Val := do
  let c := x.cmd
  let pr : Product :=
    { k := c.n, fa := c.fmtA, fb := c.fmtB, mx := isShort c.fmtA
      blkA := fun _ j => mxAt x (x.region 0) c.fmtA c.m (c.n / 32) m j
      blkB := fun _ j => keyBlock x p t j
      valA := fun _ i => f19At x (x.region 0) c.fmtA (m * c.n + i)
      valB := fun i _ => keyF19 x p t i }
  roundAcc (← pr.acc 0 0)

/-- The probabilities as the value product takes them (R144): F19, or E4M3 blocks of 32 keys. -/
def probBlocks (es : List Val) : Num (List (Nat × List Nat)) :=
  (List.range 8).mapM (fun j => do
    noteWritten 32
    quantBlock 4 false false 0 ((es.drop (32 * j)).take 32))
def probF19 (es : List Val) : Num (List Val) :=
  es.mapM (fun e => do
    noteWritten 1
    return decodeVal e19 (← convertCode e19 false e))

/-- u[n] of a page (R144). -/
def valueProduct (x : Ctx) (p : KvPage) (bs : List (Nat × List Nat)) (fs : List Val) (n : Nat) : Num Val := do
  let c := x.cmd
  let pr : Product :=
    { k := tokens x p.j, fa := 4, fb := c.fmtB, mx := isShort c.fmtB
      blkA := fun _ j => let b := bs.getD j (0x7F, []); (b.1, b.2.foldr (fun k acc => k + acc * 256) 0)
      blkB := fun _ j => valueBlock x p n j
      valA := fun _ t => fs.getD t zeroV
      valB := fun t _ => valueF19 x p n t }
  roundAcc (← pr.acc 0 0)

/-- The running state of a query row: mx, l, o; mx none while EMPTY. -/
structure RowSt where
  mx : Option Val
  l : Val
  o : List Val

/-- One page of a query row (R144). -/
def attPage (x : Ctx) (a : AttRec) (c0 : Val) (m : Nat) (st : RowSt) (p : KvPage) : Num RowSt := do
  let n := x.cmd.n
  let zs ← (List.range 256).mapM (fun t => do
    if visible x a m (256 * p.j + t) then mul32 (← score x p m t) c0 else return emptyV)
  let pm ← foldVals maxVal zs
  if pm = emptyV then return st
  else
    let mn ← match st.mx with
      | none => pure pm
      | some mx => maxVal mx pm
    let a ← match st.mx with
      | none => pure zeroV
      | some mx => do sfuExp2 false (← sub32 mx mn)
    let es ← zs.mapM (fun z => do if z = emptyV then return zeroV else sfuExp2 false (← sub32 z mn))
    let l ← fma32 st.l a (← laneSum es)
    let long := isLong x.cmd.fmtB
    let bs ← if long then pure [] else probBlocks es
    let fs ← if long then probF19 es else pure []
    let o ← (List.range n).mapM (fun i => do fma32 (st.o.getD i zeroV) a (← valueProduct x p bs fs i))
    return ⟨some mn, l, o⟩

/-- CCLK cycles of ATT_PART (R146). -/
def attCycles (c : Cmd) (pages : Nat) : Nat :=
  let qk := 4 * cdiv c.n 32 * (32 / kPerCycle c.fmtA c.fmtB)
  let pv := cdiv c.n 64 * (256 / kPerCycle (if isLong c.fmtB then 3 else 4) c.fmtB)
  32 + 64 * (cdiv pages 16 - 1) + cdiv c.m 32 * (max (qk + pv) 128 + 8) * pages +
    cdiv (4 * c.m * c.n) 2048 + cdiv (8 * c.m) 2048

/-- The accesses of the attention procedures to Q, record, bitmap and pages. -/
def touchAttention (x : Ctx) (a : AttRec) (pages : List KvPage) : Eng Unit := do
  let c := x.cmd
  touch x (x.region 3) 0 64
  upTo c.m (fun m => touchRows x (x.region 0) c.fmtA c.m c.n (m, 1) (0, c.n))
  pages.forM (fun p => do
    if attSparse c then
      upTo (cdiv c.m 256) (fun i => touch x (x.region 3) (a.bitmap + sparseBit c.k (256 * i) p.j / 8) 1)
    touchPage x p)

/-- The work of ATT_PART (R144, R145). -/
def attWork (x : Ctx) : Eng Unit := do
  let c := x.cmd
  let a := attRec x
  let pages := kvPages x a
  touchAttention x a pages
  let c0 ← lift (mul32 (attScale c) log2eV)
  upTo c.m (fun m => do
    let st ← lift (pages.foldlM (attPage x a c0 m) ⟨none, zeroV, List.replicate c.n zeroV⟩)
    putBytes x (x.region 2) (4 * m * c.n) ((← lift (st.o.mapM (ieeeCode e32 0))).flatMap (longBytes 0))
    putBytes x (x.region 4) (8 * m) ((← lift ([st.mx.getD emptyV, st.l].mapM (ieeeCode e32 0))).flatMap (longBytes 0)))
  takes (attCycles c pages.length)

/-- The shape and format conditions of R139. -/
def attShape (c : Cmd) : Bool := decide (c.n ≤ 256) && ((isLong c.fmtA && isLong c.fmtB) || c.n % 32 == 0)

/-- The page list itself must be readable when the command issues. -/
def checkList (x : Ctx) : Eng Unit := touch x (x.region 1) 0 (2 * cdiv x.cmd.k 256)

/-- 0x1C0 ATT_PART. DESIGN CHOICE: no field gives it a sat_off; what it narrows is converted with sat_off = 0 (R69, log 102). -/
def opAttPart : OpSpec where
  opcode := 0x1C0
  fmts := fun c => [c.fmtA, c.fmtB, c.fmtOut]
  pair := fun c => pageFmt c.fmtB && kPerCycle c.fmtA c.fmtB != 0
  out := fun c => c.fmtOut == binary32
  descs := fun x => [tmDesc x 0, tmDesc x 1, tmDesc x 2, tmDesc x 3, tmDesc x 4]
  check := fun x => do
    require (attShape x.cmd)
    checkList x
  mask := fun _ => 0b010100
  reads := fun x => [x.region 0, x.region 1, x.region 3] ++ listRegions x
  writes := fun x => [x.region 2, x.region 4]
  pages := pageList
  moves := attMoves
  work := attWork
  units := fun _ => (true, false, true)

/-- 0x1C1 ATT_PIN (R153). -/
def opAttPin : OpSpec where
  opcode := 0x1C1
  descs := fun x => [tmDesc x 1]
  check := checkList
  reads := fun x => [x.region 1]
  pages := pageList

/-! ## KV_WRITE -/

/-- Fields of KV_WRITE (R159). -/
def kwTok (c : Cmd) : Nat := bits c.eng 63 56
def kwHead (c : Cmd) : Nat := bits c.eng 55 51
def kwSatOff (c : Cmd) : Bool := bit c.eng 50

/-- A page entry as the target of writes (R159): the HBM frame of a tier-0 page; no place while the entry is free. -/
def pageTarget (x : Ctx) (idx i : Nat) : Region :=
  let e := x.dev.kv x.die i
  let w := bits (descLen (x.cmd.desc idx)) 63 0
  if e.tier = 0 ∧ e.state ≠ kvFree then { frameRegion x.dev x.die e.frame with idx := idx, len := w }
  else kvRegion x.dev x.die idx i w

/-- The entry a page descriptor names (R36). -/
def pageOf (x : Ctx) (idx : Nat) : Nat := bits (descBase (x.cmd.desc idx)) 14 0

/-- K of a token, converted along the head dimension (R159). -/
def kwKeys (x : Ctx) (r : Region) (base i : Nat) : Eng Unit := do
  let c := x.cmd
  let f := c.fmtB
  let t := kwTok c + i
  let vs ← getRow x (x.region 0) c.fmtA (i * c.n) c.n
  if isLong f then
    let bs ← lift (vs.mapM (fun v => do
      noteWritten 1
      return longBytes f (← convertCode (encOf f) (kwSatOff c) v)))
    putBytes x r (base + t * c.n * longSize f) bs.flatten
  else (pieces c.n 32).forM (fun p => do
    let b ← lift (do
      noteWritten p.2
      quantBlock f (kwSatOff c) false 0 ((vs.drop p.1).take p.2))
    putBlock x { r with base := r.base + base, len := r.len - base, room := r.room - base } { r with base := r.base + base, len := r.len - base, room := r.room - base } f
      (slotElems f c.n) (t * (c.n / 32) + p.1 / 32) b)

/-- V of one element of the head dimension, converted along the token axis (R159). -/
def kwValues (x : Ctx) (r : Region) (base n : Nat) : Eng Unit := do
  let c := x.cmd
  let f := c.fmtB
  let vb := base + slotElems f c.n + slotScales f c.n
  let src := fun (i cnt : Nat) => (List.range cnt).map (fun q => longAt x (x.region 1) c.fmtA ((i + q) * c.n + n))
  if isLong f then
    let bs ← lift ((src 0 c.m).mapM (fun v => do
      noteWritten 1
      return longBytes f (← convertCode (encOf f) (kwSatOff c) v)))
    putBytes x r (vb + (n * 256 + kwTok c) * longSize f) bs.flatten
  else (pieces c.m 32).forM (fun p => do
    let b ← lift (do
      noteWritten p.2
      quantBlock f (kwSatOff c) false 0 (src p.1 p.2))
    putBlock x { r with base := r.base + vb, len := r.len - vb, room := r.room - vb } { r with base := r.base + vb, len := r.len - vb, room := r.room - vb } f
      (slotElems f c.n) (n * 8 + (kwTok c + p.1) / 32) b)

/-- The parts of a page that KV_WRITE writes (R141, R159): keys and their scales, the values of each n and theirs. -/
def kwPlaces (x : Ctx) : List (Nat × Nat) :=
  let c := x.cmd
  let f := c.fmtB
  let base := kwHead c * slotSize f c.n
  let v := base + slotElems f c.n + slotScales f c.n
  let row := fun (n : Nat) =>
    if isLong f then [(v + (n * 256 + kwTok c) * longSize f, c.m * longSize f)]
    else [(v + (n * 8 + kwTok c / 32) * blockBytes f, cdiv c.m 32 * blockBytes f), (v + slotElems f c.n + n * 8 + kwTok c / 32, cdiv c.m 32)]
  [(base + kwTok c * c.n * fmtBits f / 8, c.m * c.n * fmtBits f / 8),
   (base + slotElems f c.n + kwTok c * (slotScales f c.n / 256), c.m * (slotScales f c.n / 256))] ++ (List.range c.n).flatMap row

/-- A command writes the page of a free entry: its next holders' page is unpredictable (R158). -/
def noteWild (x : Ctx) (i : Nat) : Eng Unit :=
  if (x.dev.kv x.die i).state = kvFree then modify (fun f => { f with wild := i :: f.wild }) else pure ()

/-- The work of KV_WRITE: the slot within the page, the tokens within 256, then K by tokens and V. A page with several
references is unpredictable afterwards (R158). -/
def kwWork (x : Ctx) : Eng Unit := do
  let c := x.cmd
  let f := c.fmtB
  let r := pageTarget x 3 (pageOf x 3)
  let base := kwHead c * slotSize f c.n
  noteWild x (pageOf x 3)
  access r base (slotSize f c.n)
  if 256 < kwTok c + c.m then
    stop { code := cRegion, desc := 3, info1 := (base + slotElems f c.n) / 64 % 2 ^ 32, core := true }
  upTo c.m (fun i => kwKeys x r base i)
  upTo c.m (fun i => touch x (x.region 1) (i * c.n * longSize c.fmtA) (c.n * longSize c.fmtA))
  upTo c.n (fun n => kwValues x r base n)
  if 1 < (x.dev.kv x.die (pageOf x 3)).refcnt then loosen x r 0 (kvPageSize x.dev x.die)
  takes (32 + cdiv c.m 32 * cdiv c.n 32 * 4)

/-- A tier-0 page that was written returns to tier 1 at commit (R159). -/
def toTierOne (d : Dev) (die i : Nat) : Dev :=
  let e := d.kv die i
  if e.tier = 0 ∧ e.state ≠ kvFree then d.setKv die i { e with tier := 1, addr := e.frame } else d

/-- 0x1C2 KV_WRITE. -/
def opKvWrite : OpSpec where
  opcode := 0x1C2
  fmts := fun c => [c.fmtA, c.fmtB]
  pair := fun c => isLong c.fmtA && pageFmt c.fmtB
  descs := fun x => [tmDesc x 0, tmDesc x 1, (3, x.cmd.desc 3, [5])]
  check := fun x => require (decide (x.cmd.n ≤ 256) && (isLong x.cmd.fmtB || (x.cmd.n % 32 == 0 && kwTok x.cmd % 32 == 0)))
  mask := fun _ => 0b001000
  reads := fun x => [x.region 0, x.region 1]
  writes := fun x => [pageTarget x 3 (pageOf x 3)]
  pages := fun x => [pageOf x 3]
  moves := fun x => [pageMove x 3 (pageTarget x 3 (pageOf x 3)) (kwPlaces x) false]
  work := kwWork
  atCommit := fun x _ d => spillNext (toTierOne d x.die (pageOf x 3)) x.die
  units := fun _ => (false, false, true)

/-! ## KV_COPY -/

/-- KV_COPY's list_slot. -/
def kcSlot (c : Cmd) : Nat := bits c.eng 63 59

/-- The destination is in state copying for this very command (R160). -/
def copiesInto (x : Ctx) : Bool :=
  let e := x.dev.kv x.die (pageOf x 2)
  e.state == kvCopying && e.copier == some (x.slot, x.core)

/-- 0x1C3 KV_COPY (R160): a destination in a wrong state, or a source whose data is unpredictable, leaves the copy unpredictable. -/
def opKvCopy : OpSpec where
  opcode := 0x1C3
  descs := fun x => [(0, x.cmd.desc 0, [5]), tmDesc x 1, (2, x.cmd.desc 2, [5])]
  mask := fun _ => 0b000110
  reads := fun x => [x.region 0]
  writes := fun x => [x.region 1, pageTarget x 2 (pageOf x 2)]
  pages := fun x => [pageOf x 0, pageOf x 2]
  moves := fun x =>
    let whole := [(0, kvPageSize x.dev x.die)]
    [pageMove x 0 (x.region 0) whole true, pageMove x 2 (pageTarget x 2 (pageOf x 2)) whole false]
  partDoubt := true
  atIssue := fun x d =>
    let i := pageOf x 2
    let e := d.kv x.die i
    if e.state = kvValid ∧ e.refcnt = 1 then
      (d.setKv x.die i { e with state := kvCopying, copier := some (x.slot, x.core) }, false)
    else (d.inc (R.KVT_OP_REJ x.die) 1, false)
  work := fun x => do
    let n := kvPageSize x.dev x.die
    let bs ← getBytes x (x.region 0) 0 n
    putBytes x (pageTarget x 2 (pageOf x 2)) 0 bs
    noteWild x (pageOf x 2)
    if !copiesInto x || (← get).doubt then loosen x (pageTarget x 2 (pageOf x 2)) 0 n
    putBytes x (x.region 1) (2 * kcSlot x.cmd) (leBytes 2 (pageOf x 2))
    takes 32
  atCommit := fun x _ d =>
    let i := pageOf x 2
    let e := d.kv x.die i
    spillNext (toTierOne (if copiesInto { x with dev := d } then d.setKv x.die i { e with state := kvValid, copier := none } else d) x.die i) x.die

/-- ATT_PART (R144). -/
def execAttPart (k : CoreIx) (u : Upset) (s : State) : Host.Outcome State Fault Refusal :=
  .next { s with dev := issueRow opAttPart k u s.dev }

/-- ATT_PIN (R153). -/
def execAttPin (k : CoreIx) (u : Upset) (s : State) : Host.Outcome State Fault Refusal :=
  .next { s with dev := issueRow opAttPin k u s.dev }

/-- KV_WRITE (R159). -/
def execKvWrite (k : CoreIx) (u : Upset) (s : State) : Host.Outcome State Fault Refusal :=
  .next { s with dev := issueRow opKvWrite k u s.dev }

/-- KV_COPY (R160). -/
def execKvCopy (k : CoreIx) (u : Upset) (s : State) : Host.Outcome State Fault Refusal :=
  .next { s with dev := issueRow opKvCopy k u s.dev }

end Sys2Proof.Machine
end

