-- ==== Sys2Proof/Machine/Codec.lean ====
section
/-! DEFINITION. The codec side of a die: its slots and stream registers (R179, R379), the picture its encoder codes (R360,
R365, R366), the sharing of the codec cores (R368), and the handover of an output slot. -/

namespace Sys2Proof.Machine
open Sys2Proof

def Dev.vc (d : Dev) (die : Nat) : Codec := look {} d.codec die
def Dev.setVc (d : Dev) (die : Nat) (v : Codec) : Dev := { d with codec := put d.codec die v }

/-- The state of an input and of an output slot. -/
def inSlot (d : Dev) (die s : Nat) : SlotSt := look .free (d.vc die).inSlots s
def outSlot (d : Dev) (die s : Nat) : SlotSt := look .free (d.vc die).outSlots s

def decStatus (d : Dev) (die : Nat) : Nat := d.fld (R.VC_DEC_STAT die) 11 8
def encStatus (d : Dev) (die : Nat) : Nat := d.fld (R.VC_ENC_STAT die) 11 8
def setDec (d : Dev) (die v : Nat) : Dev := d.setFld (R.VC_DEC_STAT die) 11 8 v
def setEnc (d : Dev) (die v : Nat) : Dev := d.setFld (R.VC_ENC_STAT die) 11 8 v

/-- A stream that neither is detached nor was refused. -/
def streamOn (status : Nat) : Bool := status == 1 || status == 2 || status == 6 || status == 7

/-- Bytes of the bitstream ring, and how many of them wait (R362). -/
def bsSize (d : Dev) (die : Nat) : Nat := d.rd (R.VC_DEC_BS_SIZE die)
def bsWaiting (d : Dev) (die : Nat) : Nat :=
  (d.rd (R.VC_DEC_BS_WP die) + bsSize d die - d.rd (R.VC_DEC_BS_RP die) % max (bsSize d die) 1) % max (bsSize d die) 1

/-- Fields of VC_ENC_CFG (R379). -/
def encLive (d : Dev) (die : Nat) : Bool := d.fld (R.VC_ENC_CFG die) 31 31 == 1
def encE1 (d : Dev) (die : Nat) : Bool := d.fld (R.VC_ENC_CFG die) 30 30 == 1
def encOut (d : Dev) (die : Nat) : Nat := let o := d.fld (R.VC_ENC_CFG die) 25 24; if o = 3 then 0 else o
def encAv1 (d : Dev) (die : Nat) : Bool := d.fld (R.VC_ENC_CFG die) 23 23 == 1
def encDual (d : Dev) (die : Nat) : Bool := d.fld (R.VC_ENC_CFG die) 22 22 == 1
def encRate (d : Dev) (die : Nat) : Nat := d.fld (R.VC_ENC_CFG die) 21 18
def encSlices (d : Dev) (die : Nat) : Nat := d.fld (R.VC_ENC_CFG die) 17 12 + 1

/-- The picture an encoder codes (R366): its size after scaling and rotation. -/
def encSize (d : Dev) (die : Nat) : Nat × Nat :=
  let r := outRing d die
  let ow := d.fld (R.VC_ENC_SCALE die) 15 0
  let oh := d.fld (R.VC_ENC_SCALE die) 31 16
  let turned := let t := d.fld (R.VC_ENC_CFG die) 29 28; t == 1 || t == 3
  if !encE1 d die || encOut d die == 2 then (r.w, r.h) else if turned then (oh, ow) else (ow, oh)

/-- The quality map of a slot's picture (R365): where it lies, and its bytes, one a 64 × 64 unit of the encoded picture. -/
def qualityMap (d : Dev) (die s : Nat) : Nat × List Byte :=
  let base := d.rd64 (R.VC_ENC_ROI_BASE_LO die)
  let wh := encSize d die
  let n := cdiv wh.1 64 * cdiv wh.2 64
  let a := hbmBase die + (base + s * alignUp n 4096)
  if base = 0 ∨ encOut d die = 2 then (0, []) else (a, d.mem.bytes .hbm a (dieSpan die (base + s * alignUp n 4096) n).len)

/-- R and D of a frame-rate code (R354). -/
def frameRate : Nat → Option (Nat × Nat)
  | 0 => some (24000, 1001) | 1 => some (24, 1) | 2 => some (25, 1) | 3 => some (30000, 1001) | 4 => some (30, 1)
  | 5 => some (48, 1) | 6 => some (50, 1) | 7 => some (60000, 1001) | 8 => some (60, 1) | _ => none

/-! ## The order of coding -/

/-- The kind of picture i of a stream (R364): 0 I, 1 P, 2 B. An I picture comes every gop_len pictures, the first alone where
gop_len is 0. -/
def pictureKind (d : Dev) (die i : Nat) : Nat :=
  let g := d.fld (R.VC_ENC_GOP die) 15 0
  let k := if g = 0 then i else i % g
  if k = 0 then 0 else if k % (d.fld (R.VC_ENC_CFG die) 11 10 + 1) = 0 then 1 else 2

/-- The I or P pictures around B picture i (R364): there are at most 3 B pictures between two. -/
def anchors (d : Dev) (die i : Nat) : Nat × Nat :=
  let whole := fun (k : Nat) => pictureKind d die k != 2
  ((((List.range 4).map (fun j => i - 1 - j)).find? whole).getD 0, (((List.range 4).map (fun j => i + 1 + j)).find? whole).getD (i + 1))

/-- The level of picture i in the hierarchy (R364): I and P pictures 0, the B picture half way between two of them 1, the others 2.
DESIGN CHOICE: which of two B pictures is half way (log 152). -/
def pictureLevel (d : Dev) (die i : Nat) : Nat :=
  if pictureKind d die i ≠ 2 then 0 else if i = ((anchors d die i).1 + (anchors d die i).2) / 2 then 1 else 2

/-- The picture the encoder codes next (R364): the oldest handed over, but for a B picture, before which come its later anchor and
then the B picture half way; until that anchor is handed over there is none. A sender of whole frames takes them in order (R376),
and so, after a forbidden write, does an encoder whose pictures are open (R380). -/
def nextToCode (d : Dev) (die : Nat) : Option OutPic :=
  let v := d.vc die
  match v.encQueue with
  | [] => none
  | q :: _ =>
    if v.encLoose || encOut d die == 2 || pictureKind d die q.number != 2 then some q
    else
      let a := (anchors d die q.number).2
      match v.encQueue.find? (fun e => e.number == a) with
      | some e => some e
      | none =>
        if v.handed ≤ a then none
        else some ((v.encQueue.find? (fun e => decide (e.number < a) && pictureLevel d die e.number == 1)).getD q)

/-! ## Cores -/

/-- Units of a picture (R360), and of the largest of n slices, the last (R361). -/
def unitsOf (w h : Nat) : Nat := cdiv w 64 * cdiv h 64
def largestSlice (c n : Nat) : Nat := c / n + c % n

/-- Codec cores that pictures of c units at a frame rate need, one core doing `rate` units a second (R360). -/
def coresFor (c : Nat) (f : Nat × Nat) (rate : Nat) : Nat := max 1 (cdiv (c * f.1) (f.2 * rate))

/-- Codec cores no live stream has (R367), and those of them that code no picture. -/
def freeCores (d : Dev) : List Nat :=
  let taken := d.codec.flatMap (fun e => e.2.reserved)
  (List.range 16).filter (fun i => !taken.contains i)
def restingCores (d : Dev) : List Nat :=
  let busy := d.codec.flatMap (fun e => e.2.decCores ++ e.2.encCores)
  (freeCores d).filter (fun i => !busy.contains i)

/-- k cores of a list, which ones being open (R367, R368). -/
def takeCores (d : Dev) : Nat → List Nat → List Nat × Dev
  | 0, _ => ([], d)
  | k + 1, l =>
    match pickFree d l with
    | (none, d1) => ([], d1)
    | (some c, d1) =>
      let r := takeCores d1 k (l.erase c)
      (c :: r.1, r.2)

/-- Cores the pictures of an encode stream need (R360). -/
def encNeed (d : Dev) (die : Nat) : Nat :=
  let wh := encSize d die
  coresFor (unitsOf wh.1 wh.2) ((frameRate (encRate d die)).getD (1, 1)) (if encE1 d die then 61200 else 122400)

/-- Cores the next picture of a stream takes when it may start, none when it has them or there is none (R368): a decode
stream's picture at the stream's own rate, on one core where the bitstream does not divide it (R361), while bytes and a slot
wait for it; an encode stream's, of a slot handed over. Streams are counted die by die, the decode stream first. -/
def streamNeed (d : Dev) (i : Nat) : Option Nat :=
  let die := i / 2
  let v := d.vc die
  if i % 2 = 0 then
    let r := inRing d die
    if decStatus d die ≠ 2 ∨ v.decCores ≠ [] ∨ bsWaiting d die = 0 ∨ inSlot d die (v.decNext % r.count) ≠ .free then none
    else
      let need := if Config.streamDivided die (d.rd (R.VC_DEC_PIC die)) then coresFor (unitsOf r.w r.h) (Config.streamRate die) 244800 else 1
      some (min need (d.fld (R.VC_DEC_CFG die) 3 0 + 1))
  else if !streamOn (encStatus d die) || encOut d die == 2 || encLive d die || (nextToCode d die).isNone || v.encCores != [] then none
  else some (min (encNeed d die) (d.fld (R.VC_ENC_CFG die) 9 6 + 1))

/-- Stream i starts a picture on n of the idle cores; the next stream's turn follows. -/
def startPicture (d : Dev) (i n : Nat) : Dev :=
  let q := takeCores d n (restingCores d)
  let v := q.2.vc (i / 2)
  { q.2.setVc (i / 2) (if i % 2 = 0 then { v with decCores := q.1 } else { v with encCores := q.1 }) with codecTurn := (i + 1) % 32 }

/-- The unreserved cores go round the streams that are not live, one picture at a time (R368). DESIGN CHOICE: the stream whose
turn it is waits for all the cores its picture takes, of which it takes no more than are unreserved, before another has its
turn (log 103). -/
def shareFrom : Nat → Nat → Dev → Dev
  | 0, _, d => d
  | f + 1, i, d =>
    match streamNeed d (i % 32) with
    | none => shareFrom f (i + 1) d
    | some need =>
      let n := min need (freeCores d).length
      if n = 0 ∨ (restingCores d).length < n then d else shareFrom f (i + 1) (startPicture d (i % 32) n)
def shareCores (d : Dev) : Dev := shareFrom 32 d.codecTurn d

/-! ## The handover to the encoder -/

/-- An output slot is handed to the encoder (R179, R365): its map is read; a live stream whose cores still code a picture lets
it wait (R371). DEVTIME is the die's copy. -/
def handOverSlot (d : Dev) (die s : Nat) : Dev :=
  let v := d.vc die
  let q := qualityMap d die s
  shareCores <| d.setVc die { v with outSlots := put v.outSlots s .withEncoder, handed := v.handed + 1, encQueue := v.encQueue ++
    [{ slot := s, at' := copyTime d (sourceCopy die), waited := encLive d die && !v.encQueue.isEmpty, mapAt := q.1, map := q.2, number := v.handed }] }

end Sys2Proof.Machine
end

