-- ==== Sys2Proof/Machine/Convolution.lean ====
section
/-! DEFINITION. Convolution and the pixel engine (R165 to R181): CONV, PXE_IN, PXE_OUT, COMA_LOAD. -/

namespace Sys2Proof.Machine
open Sys2Proof

/-! ## Gathering a tile -/

/-- The coma entry a tile names. -/
def comaOf (x : Ctx) (t : Tile) : Coma := comaEntry x.dev x.die x.core x.slot t.coma

/-- The tap of reduction index k of output m (R172). -/
def tapOf (t : Tile) (co : Coma) (m k : Nat) : Tap :=
  let s := co.split (k / t.cin)
  t.tap co m s.1 s.2.1 s.2.2

/-- MX block j of the reduction of output m (R169, R172): a tap outside the input frame is a block of +0. -/
def gatherBlock (x : Ctx) (r : Region) (t : Tile) (co : Coma) (f m j : Nat) : Nat × Nat :=
  match tapOf t co m (32 * j) with
  | .at px py pt _ =>
    let per := t.cin / 32
    let i := (t.index px py pt).toNat * per + 32 * j % t.cin / 32
    (rawNum x r (scaleOff f (t.bw * t.bh * t.bt * per) + i) 1, rawNum x r (i * blockBytes f) (blockBytes f))
  | .zero => (0x7F, 0)

/-- Long element k of the reduction of output m as F19. -/
def gatherVal (x : Ctx) (r : Region) (t : Tile) (co : Coma) (f m k : Nat) : Val :=
  match tapOf t co m k with
  | .at px py pt _ => f19At x r f ((t.index px py pt).toNat * t.cin + k % t.cin)
  | .zero => zeroV

/-- The accesses of output m to reduction indices k … k + cnt − 1, all of one K block (R170). -/
def touchGather (x : Ctx) (r : Region) (t : Tile) (co : Coma) (f m k cnt : Nat) : Eng Unit :=
  if !t.inside m then pure ()
  else if isLong f then upTo cnt (fun i =>
    match tapOf t co m (k + i) with
    | .zero => pure ()
    | .at px py pt held => do
      let ix := t.index px py pt
      if !held then stop (tapStop r.idx (ix * t.cin * longSize f))
      touch x r ((ix.toNat * t.cin + (k + i) % t.cin) * longSize f) (longSize f))
  else match tapOf t co m k with
    | .zero => pure ()
    | .at px py pt held => do
      let ix := t.index px py pt
      let per := t.cin / 32
      if !held then stop (tapStop r.idx (ix * per * blockBytes f))
      touchBlock x r f (t.bw * t.bh * t.bt * per) (ix.toNat * per + k % t.cin / 32) cnt

/-! ## CONV -/

/-- The product of a CONV command (R172). -/
def convProduct (x : Ctx) (t : Tile) : Product :=
  let c := x.cmd
  let co := comaOf x t
  { k := c.k, fa := c.fmtA, fb := c.fmtB, mx := isShort c.fmtA
    blkA := gatherBlock x (x.region 0) t co c.fmtA
    blkB := mxAt x (x.region 1) c.fmtB c.n (cdiv c.k 32)
    valA := gatherVal x (x.region 0) t co c.fmtA
    valB := fun i n => f19At x (x.region 1) c.fmtB (n * c.k + i)
    start := fun m n => if mmAcc c then longVal c.fmtOut (rawNum x (x.region 4) ((m * c.n + n) * longSize c.fmtOut) (longSize c.fmtOut)) else zeroV }

/-- The accesses of a CONV command, in the order of R88. -/
def convTouches (x : Ctx) (t : Tile) : Touches :=
  let c := x.cmd
  let co := comaOf x t
  { b := touchB x (x.region 1) c.fmtB c.n c.k
    c := fun cols rows => if mmAcc c then touchTile x (x.region 4) c.fmtOut c.n cols rows else pure ()
    a := fun rows deep => (pieces deep.2 32).forM (fun p => upTo rows.2 (fun i =>
      touchGather x (x.region 0) t co c.fmtA (rows.1 + i) (deep.1 + p.1) p.2))
    out := fun cols => accessTile (x.region 2) c.fmtOut c.n cols (0, c.m) }

/-- CCLK cycles of CONV (R173). -/
def convCycles (c : Cmd) (cin : Nat) : Nat :=
  let kpc := kPerCycle c.fmtA c.fmtB
  let stream := cdiv c.m 32 * cdiv c.n 64 * (cdiv c.k 32 * (32 / kpc))
  32 + productCycles c.m c.n c.k kpc c.fmtB c.fmtOut (mmDb c) 0 (fun _ => 0) +
    (if cin * fmtBits c.fmtA % 512 = 0 then 0 else stream)

/-- The work of CONV. -/
def convWork (x : Ctx) : Eng Unit := do
  let c := x.cmd
  let t := tileAt x (x.region 3)
  (convTouches x t).walk c.m c.n c.k c.fmtB
  upTo c.m (fun m => upTo c.n (fun n => do
    if t.inside m then (convProduct x t).store x (x.region 2) c.fmtOut c.n m n (mmSatOff c)
    else putBytes x (x.region 2) ((m * c.n + n) * longSize c.fmtOut) (← lift (outBytes c.fmtOut (mmSatOff c) zeroV))))
  takes (convCycles c t.cin)

/-- 0x200 CONV. -/
def opConv : OpSpec where
  opcode := 0x200
  fmts := fun c => [c.fmtA, c.fmtB, c.fmtOut]
  pair := fun c => kPerCycle c.fmtA c.fmtB != 0
  out := fun c => isLong c.fmtOut
  descs := fun x => [tmDesc x 0, tmDesc x 1, tmDesc x 2, tmDesc x 3] ++ (if mmAcc x.cmd then [tmDesc x 4] else [])
  check := fun x => do
    checkTile x (x.region 3)
    let t := tileAt x (x.region 3)
    require (x.cmd.k == (comaOf x t).taps * t.cin && (isLong x.cmd.fmtA || t.cin % 32 == 0))
  slots := accSlots
  mask := fun _ => 0b000100
  reads := fun x => [x.region 0, x.region 1, x.region 3] ++ (if mmAcc x.cmd then [x.region 4] else [])
  writes := fun x => [x.region 2]
  work := convWork
  units := fun _ => (true, false, false)
  cols := Cmd.n

/-! ## The pixel engine -/

/-- Fields of the PXE opcodes (R176). -/
def pxMode (c : Cmd) : Nat := bits c.eng 63 61
def pxSlot (c : Cmd) : Nat := bits c.eng 60 56
def pxLast (c : Cmd) : Bool := bit c.eng 55

/-- The pixel-side frame and channel count of a mode (R175). -/
def pxFold (mode : Nat) : Nat := if mode = 0 then 1 else 2
def pxChannels (mode : Nat) : Nat := match mode with | 0 => 3 | 1 => 12 | _ => 6

/-- Where channel c of pixel-side position (x, y) stands in a frame: byte offset, size, lowest bit (R175, R180). -/
def pxPlace (r : Ring) (mode c x y : Nat) : Nat × Nat × Nat :=
  match mode with
  | 0 => (y * r.pitch + 4 * x, 4, 10 * c)
  | 1 => ((2 * y + c / 3 / 2) * r.pitch + 4 * (2 * x + c / 3 % 2), 4, 10 * (c % 3))
  | _ =>
    if c < 4 then ((2 * y + c / 2) * r.pitch + 2 * (2 * x + c % 2), 2, 0)
    else (r.pitch * r.h + y * r.pitch + 4 * x + 2 * (c - 4), 2, 0)

/-- Whether a pixel-side position is the half one that an odd width or height leaves at the end: it holds the frame's last column
or row, which is unpredictable (R180). -/
def pxOdd (r : Ring) (mode : Nat) (px py : Int) : Bool :=
  (r.yuv || mode == 1) &&
    ((r.w % 2 == 1 && decide (px = (r.w / 2 : Nat))) || (r.h % 2 == 1 && decide (py = (r.h / 2 : Nat))))

/-- Whether channel c of a folded position stands in its right column, in its lower row (R175). -/
def pxHalf (mode c : Nat) : Bool × Bool :=
  if mode = 1 then (c / 3 % 2 == 1, c / 3 / 2 == 1) else (decide (c < 4) && c % 2 == 1, decide (c < 4) && c / 2 == 1)

/-- The words of the frame's last column and row beside pixel-side position (px, py), where an odd width or height leaves them to no
whole position (R180): offset and size. -/
def pxEdge (r : Ring) (mode px py : Nat) : List (Nat × Nat) :=
  let right := (r.yuv || mode == 1) && r.w % 2 == 1 && px + 1 == r.w / 2
  let below := (r.yuv || mode == 1) && r.h % 2 == 1 && py + 1 == r.h / 2
  let words := fun (on : Bool) (x y : Nat) (keep : Bool × Bool → Bool) =>
    if on then ((List.range (pxChannels mode)).filter (fun c => keep (pxHalf mode c))).map (fun c => ((pxPlace r mode c x y).1, (pxPlace r mode c x y).2.1))
    else []
  (words right (px + 1) py (fun h => !h.1) ++ words below px (py + 1) (fun h => !h.2) ++
    words (right && below) (px + 1) (py + 1) (fun h => !h.1 && !h.2)).eraseDups

/-- The tile of a PXE command with the pixel-side frame in place (R177, R178). -/
def pxTile (x : Ctx) (r : Ring) (input : Bool) : Tile :=
  let t := tileAt x (x.region 3)
  let k := pxFold (pxMode x.cmd)
  if input then { t with iw := r.w / k, ih := r.h / k, cin := pxChannels (pxMode x.cmd) }
  else { t with fw := r.w / k, fh := r.h / k }

/-- Frame position and ring slot offset of tap j of output m (R167 to R170). -/
def tapFrame (t : Tile) (co : Coma) (m j : Nat) : Int × Int :=
  let s := co.split j
  let p := t.pos m
  ((p.1 * co.sx + s.1 : Nat) - (co.lox : Int), (p.2.1 * co.sy + s.2.1 : Nat) - (co.loy : Int))

/-- Offset and scale of a channel, and where the filter starts in D1 (R177). -/
def pxOffset (x : Ctx) (c : Nat) : Val := v32 (rawNum x (x.region 1) (4 * c) 4)
def pxScale (x : Ctx) (c : Nat) : Val := v32 (rawNum x (x.region 1) (4 * (pxChannels (pxMode x.cmd) + c)) 4)
def pxFilter : Nat := 128

/-- Ring slot i after the first (R177). -/
def pxRingSlot (x : Ctx) (r : Ring) (i : Nat) : Nat := (pxSlot x.cmd + i) % r.count

/-- Element (m, k) of PXE_IN's reduction: the code shifted and scaled, rounded to F19 (R177). -/
def pxInVal (x : Ctx) (r : Ring) (t : Tile) (co : Coma) (m k : Nat) : Val :=
  match tapOf t co m k with
  | .zero => zeroV
  | .at px py pt _ =>
    let c := k % t.cin
    let pl := pxPlace r (pxMode x.cmd) c (px + t.bx0).toNat (py + t.by0).toNat
    let v := rawNum x (r.region x.die (pxRingSlot x r pt.toNat)) pl.1 pl.2.1 / 2 ^ pl.2.2 % 1024
    let e : Num Val := do
      toF19Near (← mulVal (← addVal 0 (natV v) (negVal (pxOffset x c))) (pxScale x c))
    (e.run {}).1

/-- The accesses of output m of PXE_IN to the ring. -/
def touchPxIn (x : Ctx) (r : Ring) (t : Tile) (co : Coma) (m : Nat) : Eng Unit :=
  if !t.inside m then pure ()
  else upTo (co.taps * t.cin) (fun k =>
    match tapOf t co m k with
    | .zero => pure ()
    | .at px py pt held => do
      if !held then stop { code := cRegion, info1 := Config.pxeTapUnit px py pt % 2 ^ 32, core := true }
      let pl := pxPlace r (pxMode x.cmd) (k % t.cin) (px + t.bx0).toNat (py + t.by0).toNat
      touch x (r.region x.die (pxRingSlot x r pt.toNat)) pl.1 pl.2.1)

/-- The filter as the valB of a product: layout of R172. -/
def pxWeight (x : Ctx) (depth : Nat) (k j : Nat) : Val :=
  toF19 x.cmd.fmtB x.cmd.f32Conv (rawNum x (x.region 1) (pxFilter + (j * depth + k) * longSize x.cmd.fmtB) (longSize x.cmd.fmtB))

def touchFilter (x : Ctx) (k n : Nat) : Eng Unit := do
  touch x (x.region 1) 0 (8 * pxChannels (pxMode x.cmd))
  touch x (x.region 1) pxFilter (k * n * longSize x.cmd.fmtB)

/-- Frame pixels a command covers, and its cycles (R181). -/
def pxPixels (c : Cmd) : Nat := if pxMode c = 0 then c.m else 4 * c.m
def pxCycles (c : Cmd) (cin taps n : Nat) : Nat := 32 + max (cdiv (3 * pxPixels c) 5) (cdiv (c.m * cin * taps * n) 18432)

/-- The ring slots of a PXE command. -/
def pxInSlots (x : Ctx) : List Nat :=
  let r := inRing x.dev x.die
  ((List.range (pxTile x r true).bt).map (pxRingSlot x r)).eraseDups
def pxOutSlots (x : Ctx) : List Nat :=
  let r := outRing x.dev x.die
  ((List.range (pxTile x r false).ot).map (pxRingSlot x r)).eraseDups

/-- Output m of PXE_IN depends on data that is unpredictable (R179, R180): a slot not handed over, the last column or row of
an odd frame. -/
def pxInOpen (x : Ctx) (r : Ring) (t : Tile) (co : Coma) (m : Nat) : Bool :=
  t.inside m && (List.range co.taps).any (fun j =>
    (let q := tapFrame t co m j; pxOdd r (pxMode x.cmd) q.1 q.2) ||
    (match tapOf t co m (j * t.cin) with
     | .at _ _ pt _ => inSlot x.dev x.die (pxRingSlot x r pt.toNat) != .withPxe
     | .zero => false))

/-- The ring bytes PXE_IN reads (R177). -/
def pxInSpans (x : Ctx) : List Span :=
  let r := inRing x.dev x.die
  let t := pxTile x r true
  let co := comaOf x t
  (List.range x.cmd.m).flatMap (fun m => if !t.inside m then [] else (List.range (co.taps * t.cin)).filterMap (fun k =>
    match tapOf t co m k with
    | .at px py pt _ =>
      let pl := pxPlace r (pxMode x.cmd) (k % t.cin) (px + t.bx0).toNat (py + t.by0).toNat
      let g := r.region x.die (pxRingSlot x r pt.toNat)
      if pl.1 + pl.2.1 ≤ g.bound then some ⟨.hbm, g.base + pl.1, pl.2.1⟩ else none
    | .zero => none))

/-- The ring slots PXE_IN reads that have been handed to it: of one that has not, only the outputs that read it are open (R179). -/
def pxInRegions (x : Ctx) : List Region :=
  let r := inRing x.dev x.die
  let read := pxInSpans x
  ((pxInSlots x).filter (fun s => inSlot x.dev x.die s == .withPxe &&
    read.any (fun p => decide ((r.region x.die s).base ≤ p.base) && decide (p.base < (r.region x.die s).base + r.slot)))).map (r.region x.die)

/-- The decode conditions both PXE opcodes share (R174, R176). -/
def pxCheck (x : Ctx) (r : Ring) : Eng Unit := do
  let c := x.cmd
  require (x.dev.fld (R.PXE_CFG x.die) 5 0 == x.core)
  require (decide (pxMode c ≤ 2) && (pxMode c == 2) == r.yuv && decide (pxSlot c < r.count))
  checkTile x (x.region 3)

/-- The work of PXE_IN (R177). DESIGN CHOICE: PXE_IN has no sat_off field (R176); its output is narrowed with sat_off = 0
(log 102). -/
def pxInWork (x : Ctx) : Eng Unit := do
  let c := x.cmd
  let r := inRing x.dev x.die
  let t := pxTile x r true
  let co := comaOf x t
  let k := co.taps * t.cin
  touchFilter x k c.n
  let p : Product := { k := k, fa := 3, fb := c.fmtB, mx := false, valA := pxInVal x r t co, valB := pxWeight x k }
  upTo c.m (fun m => do
    touchPxIn x r t co m
    if pxInOpen x r t co m then loosen x (x.region 2) (m * c.n * longSize c.fmtOut) (c.n * longSize c.fmtOut)
    upTo c.n (fun n => do
      if t.inside m then p.store x (x.region 2) c.fmtOut c.n m n false
      else putBytes x (x.region 2) ((m * c.n + n) * longSize c.fmtOut) (← lift (outBytes c.fmtOut false zeroV))))
  takes (pxCycles c t.cin co.taps c.n)
  modify (fun f => { f with pixels := pxPixels c })

/-- 0x201 PXE_IN. -/
def opPxeIn : OpSpec where
  opcode := 0x201
  fmts := fun c => [c.fmtB, c.fmtOut]
  pair := fun c => isLong c.fmtB && isLong c.fmtOut
  descs := fun x => [tmDesc x 1, tmDesc x 2, tmDesc x 3]
  check := fun x => do
    require (decide (x.cmd.n ≤ 128))
    pxCheck x (inRing x.dev x.die)
  mask := fun _ => 0b000100
  reads := fun x => [x.region 1, x.region 3] ++ pxInRegions x
  writes := fun x => [x.region 2]
  moves := fun x => [{ xfer := 0x3FFE, spans := pxInSpans x }]
  work := pxInWork
  atCommit := fun x f d =>
    let d1 := d.inc64 (R.PXE_PIX_LO x.die) f.pixels
    if pxLast x.cmd then
      let v := d1.vc x.die
      d1.setVc x.die { v with inSlots := (pxInSlots x).foldl (fun l s => put l s .free) v.inSlots }
    else d1

/-- The code of a result of PXE_OUT (R178): whether it was clamped comes with it. -/
def pxCode (y scale off : Val) : Num (Nat × Bool) := do
  match ← fmaVal 0 y scale off with
  | .nan _ => do
    noteNan
    return (0, false)
  | .inf s => do
    noteSat
    return (if s then 0 else 1023, true)
  | .num s m e =>
    let r := (roundAt 0 s m e 0).1
    if s && r != 0 then
      noteSat
      return (0, true)
    else if 1023 < r then
      noteSat
      return (1023, true)
    else return (r, false)

/-- The codes of output m, by channel. -/
def pxOutCodes (x : Ctx) (p : Product) (m : Nat) : Num (List (Nat × Bool)) :=
  (List.range (pxChannels (pxMode x.cmd))).mapM (fun c => do
    pxCode (← p.acc m c) (pxScale x c) (pxOffset x c))

/-- The ring bytes of the codes of pixel-side position (px, py): offset, size, number (R180). -/
def pxWords (r : Ring) (mode px py : Nat) (codes : List Nat) : List (Nat × Nat × Nat) :=
  (codes.zipIdx).foldl (fun l e =>
    let pl := pxPlace r mode e.2 px py
    match l.find? (fun w => w.1 == pl.1) with
    | some w => l.map (fun v => if v.1 == pl.1 then (w.1, w.2.1, w.2.2 + e.1 * 2 ^ pl.2.2) else v)
    | none => l ++ [(pl.1, pl.2.1, e.1 * 2 ^ pl.2.2)]) []

/-- The words of the frame that output m of PXE_OUT writes, each a region of its ring slot. -/
def pxOutPlaces (x : Ctx) (m : Nat) : List Region :=
  let r := outRing x.dev x.die
  let t := pxTile x r false
  if !t.inside m then []
  else
    let pos := t.pos m
    let g := r.region x.die (pxRingSlot x r (pos.2.2 - t.t0))
    ((List.range (pxChannels (pxMode x.cmd))).map (fun c => pxPlace r (pxMode x.cmd) c pos.1 pos.2.1)).eraseDups.map (fun pl =>
      { g with base := g.base + pl.1, len := min pl.2.1 (g.bound - pl.1), room := g.room - pl.1 })
/-- Spans of the frame's last column and row that output m leaves open (R180). -/
def pxEdgeSpans (x : Ctx) (m : Nat) : List Span :=
  let r := outRing x.dev x.die
  let t := pxTile x r false
  let pos := t.pos m
  let g := r.region x.die (pxRingSlot x r (pos.2.2 - t.t0))
  (pxEdge r (pxMode x.cmd) pos.1 pos.2.1).flatMap (fun w =>
    Region.spans x.dev { g with base := g.base + w.1, len := min w.2 (g.bound - w.1), room := g.room - w.1 })

def pxOutRegions (x : Ctx) : List Region := (List.range x.cmd.m).flatMap (pxOutPlaces x)

/-- The work of PXE_OUT (R178). DESIGN CHOICE: the ring has no place for an output outside the pixel-side frame, to which R170
gives +0: nothing is written there (log 102). Words that go to a slot the encoder holds, or to the last column or row of an odd
frame, are unpredictable (R179, R180). -/
def pxOutWork (x : Ctx) : Eng Unit := do
  let c := x.cmd
  let r := outRing x.dev x.die
  let t := pxTile x r false
  let co := comaOf x t
  let k := co.taps * t.cin
  let n := pxChannels (pxMode c)
  touchFilter x k n
  let p : Product := { k := k, fa := c.fmtA, fb := c.fmtB, mx := false, valA := gatherVal x (x.region 0) t co c.fmtA, valB := pxWeight x k }
  upTo c.m (fun m => do
    if t.inside m then
      touchGather x (x.region 0) t co c.fmtA m 0 k
      let codes ← lift (do
        noteWritten n
        pxOutCodes x p m)
      let pos := t.pos m
      (pxWords r (pxMode c) pos.1 pos.2.1 (codes.map (·.1))).forM (fun w =>
        putBytes x (r.region x.die (pxRingSlot x r (pos.2.2 - t.t0))) w.1 (leBytes w.2.1 w.2.2))
      let held := outSlot x.dev x.die (pxRingSlot x r (pos.2.2 - t.t0)) == .withEncoder
      modify (fun f => { f with clamped := f.clamped + (codes.filter (·.2)).length,
                                loose := f.loose ++ pxEdgeSpans x m ++ (if held then (pxOutPlaces x m).flatMap (Region.spans x.dev) else []) }))
  takes (pxCycles c t.cin co.taps n)
  modify (fun f => { f with pixels := pxPixels c })

/-- 0x202 PXE_OUT. -/
def opPxeOut : OpSpec where
  opcode := 0x202
  fmts := fun c => [c.fmtA, c.fmtB]
  pair := fun c => isLong c.fmtA && isLong c.fmtB
  descs := fun x => [tmDesc x 0, tmDesc x 1, tmDesc x 3]
  check := fun x => do
    pxCheck x (outRing x.dev x.die)
    require (decide ((tileAt x (x.region 3)).cin ≤ 128))
  reads := fun x => [x.region 0, x.region 1, x.region 3]
  writes := pxOutRegions
  moves := fun x => [{ xfer := 0x3FFE, spans := (pxOutRegions x).flatMap (Region.spans x.dev) }]
  work := pxOutWork
  atCommit := fun x f d =>
    let d1 := (d.inc64 (R.PXE_PIX_LO x.die) f.pixels).inc (R.PXE_CLAMP_CNT x.die) f.clamped
    if pxLast x.cmd then
      (pxOutSlots x).foldl (fun (y : Dev) s => handOverSlot y x.die s) d1
    else d1

/-! ## COMA_LOAD -/

/-- The coma table as the region the load writes. -/
def comaRegion (x : Ctx) : Region := ⟨9, .coma, comaBase x.die x.core x.slot, 256, 256, x.n⟩

/-- 0x203 COMA_LOAD (R167). -/
def opComaLoad : OpSpec where
  opcode := 0x203
  descs := fun x => [tmDesc x 0]
  reads := fun x => [x.region 0]
  writes := fun x => [comaRegion x]
  work := fun x => do
    let bs ← getBytes x (x.region 0) 0 256
    putBytes x (comaRegion x) 0 bs
  atCommit := fun x _ d =>
    let k := (x.die, x.core, x.slot)
    if k ∈ d.comaValid then d else { d with comaValid := k :: d.comaValid }

/-- CONV (R172). -/
def execConv (k : CoreIx) (u : Upset) (s : State) : Host.Outcome State Fault Refusal :=
  .next { s with dev := issueRow opConv k u s.dev }

/-- PXE_IN (R177). -/
def execPxeIn (k : CoreIx) (u : Upset) (s : State) : Host.Outcome State Fault Refusal :=
  .next { s with dev := issueRow opPxeIn k u s.dev }

/-- PXE_OUT (R178). -/
def execPxeOut (k : CoreIx) (u : Upset) (s : State) : Host.Outcome State Fault Refusal :=
  .next { s with dev := issueRow opPxeOut k u s.dev }

/-- COMA_LOAD (R167). -/
def execComaLoad (k : CoreIx) (u : Upset) (s : State) : Host.Outcome State Fault Refusal :=
  .next { s with dev := issueRow opComaLoad k u s.dev }

end Sys2Proof.Machine
end

