-- ==== Sys2Proof/Machine/Stream.lean ====
section
/-! DEFINITION. The stream engine's commands (R226 to R228): SE_COPY, SE_PUT, and the peer's semaphore release. -/

namespace Sys2Proof.Machine
open Sys2Proof

/-- Fields of the engine bits (R226). -/
def seXfer (c : Cmd) : Nat := bits c.eng 63 50
def sePeer (c : Cmd) : Nat := bits c.eng 49 46

/-- The stride record in D1: row strides in bytes, the peer semaphore and its enable. -/
def seSrcStride (x : Ctx) : Nat := 64 * rawNum x (x.region 1) 0 4
def seDstStride (x : Ctx) : Nat := 64 * rawNum x (x.region 1) 4 4
def seSem (x : Ctx) : Nat := rawNum x (x.region 1) 8 2
def seRelease (x : Ctx) : Bool := bit (rawNum x (x.region 1) 10 1) 0

/-- Bytes of a row: K units of 64. -/
def seRow (c : Cmd) : Nat := 64 * c.k

/-- The spans of every row of a side. -/
def seSpans (x : Ctx) (r : Region) (stride : Nat) : List Span :=
  (List.range x.cmd.m).flatMap (fun i => (r.pieces x.dev (i * stride) (seRow x.cmd)).map (fun q => ⟨r.space, q.1, q.2⟩))

/-- Whether a descriptor is in the host tier. -/
def isHost (w : Nat) : Bool := descSpace w == 4

/-- A host-tier side moves whole aligned bursts (R224, R227). -/
def seHostOk (x : Ctx) (i stride : Nat) : Bool :=
  !isHost (x.cmd.desc i) || (descBase (x.cmd.desc i) % 64 == 0 && stride % 4096 == 0 && x.cmd.k % 64 == 0)

/-- The source moves in the slots of xfer: HBM channels, and router ports from another core's tile memory (R227). -/
def seSource (x : Ctx) : Move where
  xfer := seXfer x.cmd
  spans := seSpans x (x.region 0) (seSrcStride x)
  window := x.cmd.cls == 0
  ports := readPorts x.die x.core (x.region 0)

/-! ## SE_COPY -/

/-- The rows copied one after another. -/
def copyWork (x : Ctx) : Eng Unit := do
  touch x (x.region 1) 0 16
  upTo x.cmd.m (fun i => do
    let bs ← getBytes x (x.region 0) (i * seSrcStride x) (seRow x.cmd)
    putBytes x (x.region 2) (i * seDstStride x) bs)
  takes 32

/-- What an attempt writes to the host tier is there at once (R227), unpredictable where the windows were changed at a wrong time
(R292). -/
def hostSends (x : Ctx) (f : Flight) (d : Dev) : Dev :=
  let early := f.writes.filter (fun w => w.space == .host)
  let places := early.map (fun w => (⟨w.space, w.addr, w.data.length⟩ : Span))
  let d1 : Dev := { d with mem := early.foldr (fun w m => m.write w.space w.addr w.data) d.mem }
  let d2 := if x.p.hostLoose then scramble d1 places else d1
  d2.setCs x.die x.core { d2.cs x.die x.core with flight := some { f with writes := f.writes.filter (fun w => w.space != .host), sent := places } }

/-- 0x180 SE_COPY: what goes to the host tier is there before the commit (R227). -/
def opSeCopy : OpSpec where
  opcode := 0x180
  descs := fun x => [(0, x.cmd.desc 0, [1, 2, 3, 4]), (1, x.cmd.desc 1, [1]), (2, x.cmd.desc 2, [1, 2, 3, 4])]
  check := fun x => do
    require (!(isHost (x.cmd.desc 0) && isHost (x.cmd.desc 2)))
    require (seHostOk x 0 (seSrcStride x) && seHostOk x 2 (seDstStride x))
    require (!seRelease x || decide (seSem x < 4096))
  mask := fun _ => 0b000100
  reads := fun x => [x.region 0, x.region 1]
  writes := fun x => [x.region 2]
  moves := fun x => [seSource x,
    { xfer := seXfer x.cmd, spans := seSpans x (x.region 2) (seDstStride x), ports := writePorts x.die x.core (x.region 2) }]
  work := copyWork
  sends := hostSends
  atCommit := fun x _ d0 =>
    let n := x.cmd.m * seRow x.cmd
    let d := carryMarks d0 (seSpans x (x.region 0) (seSrcStride x)) (seSpans x (x.region 2) (seDstStride x))
    let d1 := if isHost (x.cmd.desc 0) then d.inc64 (R.HOST_RD_LO x.die 0) n else d
    if isHost (x.cmd.desc 2) then d1.inc64 (R.HOST_WR_LO x.die 0) n else d1

/-! ## SE_PUT -/

/-- The peer die and the destination region on it: D2 as the same core of the peer would read it. -/
def putPeer (x : Ctx) : Nat := baseDie x.p + sePeer x.cmd
def putDst (x : Ctx) : Region := regionOf x.dev x.n x.slot (putPeer x) x.core 2 (x.cmd.desc 2)

/-- The accesses of a put; its data leaves in flits. -/
def putWork (x : Ctx) : Eng Unit := do
  touch x (x.region 1) 0 16
  upTo x.cmd.m (fun i => do
    touch x (x.region 0) (i * seSrcStride x) (seRow x.cmd)
    access (putDst x) (i * seDstStride x) (seRow x.cmd))
  takes 32

/-- The flits of a put (R256, R259): each row in payloads of 256 bytes. -/
def putFlits (x : Ctx) : List Flit :=
  let r := putDst x
  (List.range x.cmd.m).flatMap (fun i =>
    (payloads ((x.region 0).bytes x.dev (i * seSrcStride x) (seRow x.cmd))).map (fun q =>
      let off := i * seDstStride x + q.1
      { vc := if x.cmd.cls = 0 then 0 else 2, xfer := seXfer x.cmd, seq := 0, tag := 0, offset := off / 64,
        payload := q.2, dest := putPeer x, space := r.space, addr := r.base + off, sender := (x.die, x.core) }))

/-- Where a put's data goes: on the peer, HBM channels, or the router port into the destination core (R227). DESIGN CHOICE: R227
does not say where a link's flits enter the peer's routers; the port into the core is the one that counts (log 145). -/
def putMove (x : Ctx) : Move where
  xfer := seXfer x.cmd
  spans := seSpans x (putDst x) (seDstStride x)
  ports := match (putDst x).core with
    | some b => [(putPeer x, b, 4)]
    | none => []

/-- 0x181 SE_PUT. -/
def opSePut : OpSpec where
  opcode := 0x181
  descs := fun x => [(0, x.cmd.desc 0, [1, 2, 3]), (1, x.cmd.desc 1, [1]), (2, x.cmd.desc 2, [2, 3])]
  check := fun x => do
    require (decide (sePeer x.cmd < (partDies x.p).length) && putPeer x != x.die)
    require (!seRelease x || decide (seSem x < 4096))
  mask := fun _ => 0b000100
  reads := fun x => [x.region 0, x.region 1]
  writes := fun x => [putDst x]
  moves := fun x => [seSource x, putMove x]
  work := putWork
  sends := fun x f d =>
    let fs := putFlits x
    sendFlits (d.setCs x.die x.core { d.cs x.die x.core with flight := some { f with unacked := fs.length, sent := (putMove x).spans } }) x.die (putPeer x) fs
  atCommit := fun x _ d0 =>
    let d := carryMarks d0 (seSpans x (x.region 0) (seSrcStride x)) (putMove x).spans
    if seRelease x then { d with peerRel := d.peerRel ++ [(x.die, putPeer x, x.slot, seSem x)] } else d

/-- The oldest release on its way to a die that VC3 can carry takes effect (R228, R260); a poisoned semaphore faults the job
(R389). -/
def peerRelease (die : Nat) (d : Dev) : Dev :=
  match d.peerRel.find? (fun e => e.2.1 == die && tokenRoute d (rowsAround d die) e.1 die) with
  | none => d
  | some e =>
    let d1 := controlToken { d with peerRel := d.peerRel.erase e } (rowsAround d die) e.1 die
    match semBad d1 die e.2.2.1 e.2.2.2, ownerOf d1 die with
    | true, some n => faultRun (postFault d1 (.sem die) 0x0501 0 0) n 0x0501 false
    | _, _ => unhold (semRelease d1 die e.2.2.1 e.2.2.2 1) die e.2.2.2

/-- SE_COPY (R226, R227). -/
def execSeCopy (k : CoreIx) (u : Upset) (s : State) : Host.Outcome State Fault Refusal :=
  .next { s with dev := issueRow opSeCopy k u s.dev }

/-- SE_PUT (R226 to R228). -/
def execSePut (k : CoreIx) (u : Upset) (s : State) : Host.Outcome State Fault Refusal :=
  .next { s with dev := issueRow opSePut k u s.dev }

/-- PEER_SEM_RELEASE (R228). -/
def execPeerSemRelease (die : Fin 16) (s : State) : Host.Outcome State Fault Refusal :=
  .next { s with dev := peerRelease die.val s.dev }

end Sys2Proof.Machine
end

