-- ==== Sys2Proof/Machine/Tcu.lean ====
section
/-! DEFINITION. The TCU commands (R244, R248 to R251): TCU_TBL_LOAD, TCU_PACK, TCU_UNPACK. -/

namespace Sys2Proof.Machine
open Sys2Proof

/-! ## TCU_TBL_LOAD -/

/-- Fields (R248). -/
def tlFirst (c : Cmd) : Nat := bits c.eng 63 56
def tlCount (c : Cmd) : Nat := bits c.eng 55 48 + 1

/-- The lengths that 128 bytes give. -/
def lensOf (bs : List Byte) : List Nat := bs.flatMap (fun b => [b.toNat % 16, b.toNat / 16])

/-- The checks of R244 on one table. -/
def tableOk (six : Bool) (bs : List Byte) : Bool :=
  let lens := lensOf bs
  decide (kraft lens ≤ 2 ^ 15) && (!six || (lens.drop 64).all (· == 0))

/-- The tables of a load and the ids they go to. The spec states no id for a table past 255 (Config.tableWraps). -/
def tlIds (c : Cmd) : List (Nat × Nat) :=
  (List.range (tlCount c)).filterMap (fun i =>
    if tlFirst c + i < 256 then some (i, tlFirst c + i)
    else if Config.tableWraps then some (i, (tlFirst c + i) % 256) else none)

/-- The store of table id as a region the load writes. -/
def tableRegion (x : Ctx) (id : Nat) : Region := ⟨9, .tcu, tblBase x.die id, 128, 128, x.n⟩

/-- Tables are loaded: commands between issue and commit that name one have unpredictable outputs (R245). What a command names
is known once its work has begun; one whose work has not is told what was loaded. -/
def namersTaint (d : Dev) (die : Nat) (ids : List Nat) : Dev :=
  let d1 := taintFlights d (fun k f => k.1 == die && f.worked && spansMeet (f.ins.filter (fun s => s.space == .tcu)) (ids.map (tableSpan die)))
  { d1 with cores := d1.cores.map (fun (e : (Nat × Nat) × CoreSt) =>
      (e.1, { e.2 with flight := e.2.flight.map (fun f => if e.1.1 = die then { f with tblLoads := f.tblLoads ++ ids } else f) })) }

/-- 0x2C0 TCU_TBL_LOAD. What it loads meets the commands that name it, from its acquire to its commit (R245). DESIGN CHOICE: R249
names the spaces of the tile-memory side for PACK and UNPACK only; D0 may name 0b001 and 0b010 here too, and any other space faults
with 0x0104 (log 146). -/
def opTcuTblLoad : OpSpec where
  opcode := 0x2C0
  fmts := fun c => [c.fmtA]
  descs := fun x => [tmDesc x 0]
  reads := fun x => [x.region 0]
  writes := fun x => (tlIds x.cmd).map (fun e => tableRegion x e.2)
  atStart := fun x d =>
    let ids := (tlIds x.cmd).map (·.2)
    namersTaint (nameTables d x.die x.slot ids) x.die ids
  work := fun x => do
    let bs ← getBytes x (x.region 0) 0 (128 * tlCount x.cmd)
    if (tlIds x.cmd).any (fun e => tableShared x.dev x.die x.slot e.2) then taint
    let tables := (List.range (tlCount x.cmd)).map (fun i => (bs.drop (128 * i)).take 128)
    if !tables.all (tableOk (sixBit x.cmd.fmtA)) then stop { code := 0x010D, keep := true }
    (tlIds x.cmd).forM (fun e => putBytes x (tableRegion x e.2) 0 (tables.getD e.1 []))
  atCommit := fun x _ d =>
    let ids := (tlIds x.cmd).map (·.2)
    { namersTaint d x.die ids with tblValid := ids.foldl (fun l i => insertNew (x.die, i) l) d.tblValid }

/-! ## TCU_PACK and TCU_UNPACK -/

/-- The record in D1 (R249). -/
def tcuTable (x : Ctx) : Nat := rawNum x (x.region 1) 2 1
def tcuComp (x : Ctx) : Bool := bit (rawNum x (x.region 1) 3 1) 0

/-- An address of an HBM region in its die. -/
def hbmAddr (r : Region) (die off : Nat) : Nat := r.base - hbmBase die + off

/-- The blocks of a TCU_PACK, all raw when a page they go to is protected (R251), which the second part tells. -/
def packBlocks (x : Ctx) : (List (Nat × Block) × Nat) × Bool :=
  let c := x.cmd
  let s := rawTensor x (x.region 0) c.fmtA c.m c.k
  let want := layBlocks (encodeTensor x.dev x.die (tcuTable x) c.fmtA (tcuComp x) s.1 s.2)
  if rangeProtected x.dev x.die (hbmAddr (x.region 2) x.die 0) want.2 then
    (layBlocks (encodeTensor x.dev x.die (tcuTable x) c.fmtA false s.1 s.2), true)
  else (want, false)

/-- The stored bytes, n from the region's base, move in the slots of the record's xfer (R249, R250); reads of class 0 use
class-0 windows too (R222). -/
def storedMove (x : Ctx) (r : Region) (n : Nat) (read : Bool) : Move where
  xfer := rawNum x (x.region 1) 0 2 % 2 ^ 14
  spans := (r.pieces x.dev 0 (min n r.bound)).map (fun q => ⟨r.space, q.1, q.2⟩)
  window := read && x.cmd.cls == 0

/-- The work of TCU_PACK: the blocks, then the stored length (R249). DESIGN CHOICE: the bytes between a block's end and the next
64-byte boundary keep what they held (log 147). -/
def packWork (x : Ctx) : Eng Unit := do
  let c := x.cmd
  touch x (x.region 1) 0 16
  let (e, s) ← getTensor x (x.region 0) c.fmtA c.m c.k
  let r := x.region 2
  let (bs, prot) := packBlocks x
  let raws := cut4096 e ++ cut4096 s
  (bs.1.zip raws).forM (fun b => do
    putBytes x r b.1.1 b.1.2.bytes
    noteEncoded (hbmAddr r x.die b.1.1) prot b.2.length b.1.2)
  putBytes x (x.region 3) 0 (leBytes 8 bs.2)
  takes 32

/-- 0x2C1 TCU_PACK. -/
def opTcuPack : OpSpec where
  opcode := 0x2C1
  fmts := fun c => [c.fmtA]
  descs := fun x => [tmDesc x 0, (1, x.cmd.desc 1, [1]), (2, x.cmd.desc 2, [3]), tmDesc x 3]
  mask := fun _ => 0b001100
  reads := fun x => [x.region 0, x.region 1]
  tables := fun x => if tcuComp x then [tcuTable x] else []
  writes := fun x => [x.region 2, x.region 3]
  moves := fun x => [storedMove x (x.region 2) (packBlocks x).1.2 false]
  work := packWork
  atCommit := fun x f d => commitTcu d x.die f

/-- The codes of the table a block header names; none when it is not valid on the die. -/
def validCodes (d : Dev) (die id : Nat) : Option (List (Nat × Nat × Nat)) :=
  if (die, id) ∈ d.tblValid then some (codesOf (tableLens d die id)) else none

/-- Blocks of declared sizes read one after another from a region, each found by the header before it. -/
def readBlocks (x : Ctx) (r : Region) (f : Nat) : List Nat → Nat → Eng (List Byte)
  | [], _ => pure []
  | n :: t, off => do
    let hdr ← getNum x r off 8
    let len := bits hdr 28 16
    let payload ← getBytes x r (off + 8) len
    let out := decodeBlock (validCodes x.dev x.die (bits hdr 15 8)) (sixBit f) hdr n payload
    noteDecoded (hbmAddr r x.die off) (8 + len) out
    let rest ← readBlocks x r f t (alignUp (off + 8 + len) 64)
    return out.data ++ rest

/-- The declared sizes of a tensor's blocks (R239). -/
def declared (e s : Nat) : List Nat := (pieces e 4096).map (·.2) ++ (pieces s 4096).map (·.2)

/-- The tables that the stored blocks of a TCU_UNPACK name, and their length (R239, R245). -/
def storedBlocks (x : Ctx) : List Nat × Nat :=
  let c := x.cmd
  walkBlocks (fun off => rawNum x (x.region 0) off 8) (tensorBlocks (tensorElems c.fmtA c.m c.k) (tensorScales c.fmtA c.m c.k)) 0

/-- 0x2C2 TCU_UNPACK. -/
def opTcuUnpack : OpSpec where
  opcode := 0x2C2
  fmts := fun c => [c.fmtA]
  descs := fun x => [(0, x.cmd.desc 0, [3]), (1, x.cmd.desc 1, [1]), tmDesc x 2]
  mask := fun _ => 0b000100
  reads := fun x => [x.region 0, x.region 1]
  tables := fun x => (storedBlocks x).1
  writes := fun x => [x.region 2]
  moves := fun x => [storedMove x (x.region 0) (storedBlocks x).2 true]
  work := fun x => do
    let c := x.cmd
    touch x (x.region 1) 0 16
    let e := tensorElems c.fmtA c.m c.k
    let all ← readBlocks x (x.region 0) c.fmtA (declared e (tensorScales c.fmtA c.m c.k)) 0
    putTensor x (x.region 2) (all.take e) (all.drop e)
    takes 32
  atCommit := fun x f d => commitTcu d x.die f

/-- TCU_TBL_LOAD (R244). -/
def execTcuTblLoad (k : CoreIx) (u : Upset) (s : State) : Host.Outcome State Fault Refusal :=
  .next { s with dev := issueRow opTcuTblLoad k u s.dev }

/-- TCU_PACK (R249). -/
def execTcuPack (k : CoreIx) (u : Upset) (s : State) : Host.Outcome State Fault Refusal :=
  .next { s with dev := issueRow opTcuPack k u s.dev }

/-- TCU_UNPACK (R249). -/
def execTcuUnpack (k : CoreIx) (u : Upset) (s : State) : Host.Outcome State Fault Refusal :=
  .next { s with dev := issueRow opTcuUnpack k u s.dev }

end Sys2Proof.Machine
end

