-- ==== Sys2Proof/Machine/Training.lean ====
section
/-! DEFINITION. Training (R184 to R211): BW_MM, BW_ADAPT, BW_ATT, BW_NORM, BW_SOFTMAX, the activation stack's
AST_PUSH and AST_POP, and UPDATE. -/

namespace Sys2Proof.Machine
open Sys2Proof

/-! ## BW_MM -/

/-- K per cycle of a backward pair; 0 marks an illegal one (R187). -/
def bwPerCycle (fa fb : Nat) : Nat :=
  if isLong fa then (if isLong fb || fb == 5 then 4 else 0)
  else if fa = 5 then (if isLong fb then 4 else if decide (4 ≤ fb) && decide (fb ≤ 9) && fb != 5 then 16 else 0)
  else if fa = 4 then (if fb == 4 || fb == 5 then 16 else 0)
  else 0

/-- mask of BW_MM (R190). -/
def bwMask (c : Cmd) : Bool := bit c.eng 50

/-- The bit of the block mask for output (m, n) (R191). -/
def maskBit (c : Cmd) (m n : Nat) : Nat := m / 32 * cdiv c.n 32 + n / 32

/-- Whether an output element is computed and written (R191). -/
def bwLive (x : Ctx) (m n : Nat) : Bool :=
  !bwMask x.cmd || (let b := maskBit x.cmd m n; bit (rawNum x (x.region 4) (b / 8) 1) (b % 8))

/-- An operand element as F19, long or MX expanded (R188): A at (row, k), B at (k, n). -/
def bwValA (x : Ctx) (m i : Nat) : Val :=
  let c := x.cmd
  if isLong c.fmtA then f19At x (x.region 0) c.fmtA (m * c.k + i)
  else
    let b := mxAt x (x.region 0) c.fmtA c.m (cdiv c.k 32) m (i / 32)
    expandF19 c.fmtA b.1 (codeAt c.fmtA b.2 (i % 32))
def bwValB (x : Ctx) (i n : Nat) : Val :=
  let c := x.cmd
  if isLong c.fmtB then f19At x (x.region 1) c.fmtB (n * c.k + i)
  else
    let b := mxAt x (x.region 1) c.fmtB c.n (cdiv c.k 32) n (i / 32)
    expandF19 c.fmtB b.1 (codeAt c.fmtB b.2 (i % 32))

/-- The product of BW_MM (R188, R190). -/
def bwProduct (x : Ctx) : Product :=
  let c := x.cmd
  { k := c.k, fa := c.fmtA, fb := c.fmtB, mx := isShort c.fmtA && isShort c.fmtB
    blkA := mxAt x (x.region 0) c.fmtA c.m (cdiv c.k 32)
    blkB := mxAt x (x.region 1) c.fmtB c.n (cdiv c.k 32)
    valA := bwValA x
    valB := bwValB x
    start := fun m n => if mmAcc c then longVal c.fmtOut (rawNum x (x.region 3) ((m * c.n + n) * longSize c.fmtOut) (longSize c.fmtOut)) else zeroV
    first := fun m n => if mmLr c then lowRank x m n else [] }

/-- The accesses of BW_MM: those of MM, the mask's with the companion path's. DESIGN CHOICE: of a block the mask leaves out only the
accesses to D2 fall away; R191 keeps its engines from issuing and does not speak of its operands (log 153). -/
def bwTouches (x : Ctx) : Touches :=
  let c := x.cmd
  { side := fun cols => do
      if bwMask c then
        (pieces c.m 32).forM (fun r => (pieces cols.2 32).forM (fun p =>
          touch x (x.region 4) (maskBit c r.1 (cols.1 + p.1) / 8) 1))
      if mmLr c then touchLowRank x cols
    b := touchB x (x.region 1) c.fmtB c.n c.k
    c := fun cols rows => if mmAcc c then touchTile x (x.region 3) c.fmtOut c.n cols rows else pure ()
    a := touchRows x (x.region 0) c.fmtA c.m c.k
    out := fun cols => upTo c.m (fun m => (pieces cols.2 32).forM (fun p =>
      if bwLive x m (cols.1 + p.1) then accessTile (x.region 2) c.fmtOut c.n (cols.1 + p.1, p.2) (m, 1) else pure ())) }

/-- The work of BW_MM. -/
def bwMmWork (x : Ctx) : Eng Unit := do
  let c := x.cmd
  (bwTouches x).walk c.m c.n c.k c.fmtB
  if countedTwice x (mmAcc c) (x.region 3) then taint
  upTo c.m (fun m => upTo c.n (fun n =>
    if bwLive x m n then (bwProduct x).store x (x.region 2) c.fmtOut c.n m n (mmSatOff c) else pure ()))
  takes (productCycles c.m c.n c.k (bwPerCycle c.fmtA c.fmtB) c.fmtB c.fmtOut (mmDb c) (if mmLr c then mmRank c else 0) (fun _ => 0))

/-- The parts of D2 a masked BW_MM writes (R191). -/
def bwWrites (x : Ctx) : List Region :=
  let c := x.cmd
  let r := x.region 2
  if !bwMask c then [r]
  else (List.range c.m).flatMap (fun m => (pieces c.n 32).filterMap (fun p =>
    let off := (m * c.n + p.1) * longSize c.fmtOut
    if bwLive x m p.1 then some { r with base := r.base + off, len := min (p.2 * longSize c.fmtOut) (r.len - off), room := r.room - off }
    else none))

/-- 0x240 BW_MM. -/
def opBwMm : OpSpec where
  opcode := 0x240
  fmts := fun c => [c.fmtA, c.fmtB, c.fmtOut]
  pair := fun c => bwPerCycle c.fmtA c.fmtB != 0
  out := fun c => isLong c.fmtOut
  descs := fun x => [tmDesc x 0, tmDesc x 1, tmDesc x 2] ++ (if mmAcc x.cmd then [tmDesc x 3] else []) ++
    (if mmLr x.cmd || bwMask x.cmd then [tmDesc x 4] else []) ++ (if mmLr x.cmd then [tmDesc x 5] else [])
  check := fun x => require (!(bwMask x.cmd && mmLr x.cmd))
  slots := accSlots
  mask := fun _ => 0b000100
  reads := fun x => mmReads x ++ (if bwMask x.cmd then [x.region 4] else [])
  writes := bwWrites
  work := bwMmWork
  atCommit := fun x _ d => noteCounted x (mmAcc x.cmd) (x.region 3) (x.region 2) d
  units := fun c => (true, mmLr c, false)
  cols := Cmd.n
  layer := mmLayer

/-! ## BW_ADAPT -/

/-- Fields (R197). -/
def adKind (c : Cmd) : Nat := bits c.eng 63 62
def adAcc (c : Cmd) : Bool := bit c.eng 61

/-- The elements of D0 and D1 that output (m, n) takes at k. -/
def adIndex (c : Cmd) (m n k : Nat) : Nat × Nat :=
  if adKind c = 1 then (m * c.k + k, n * c.k + k) else (k * c.m + m, k * c.n + n)

/-- The work of BW_ADAPT (R197). -/
def adaptWork (x : Ctx) : Eng Unit := do
  let c := x.cmd
  touch x (x.region 0) 0 (c.m * c.k * longSize c.fmtA)
  touch x (x.region 1) 0 (c.n * c.k * longSize c.fmtB)
  if adAcc c then touch x (x.region 3) 0 (c.m * c.n * longSize c.fmtOut)
  let p : Product :=
    { k := c.k, fa := c.fmtA, fb := c.fmtB, mx := false
      valA := fun m _ => longVal c.fmtOut m
      start := fun m n => if adAcc c then longVal c.fmtOut (rawNum x (x.region 3) ((m * c.n + n) * longSize c.fmtOut) (longSize c.fmtOut)) else zeroV
      first := fun m n => (List.range c.k).map (fun k =>
        let i := adIndex c m n k
        (f19At x (x.region 0) c.fmtA i.1, f19At x (x.region 1) c.fmtB i.2)) }
  upTo c.m (fun m => upTo c.n (fun n => { p with k := 0 }.store x (x.region 2) c.fmtOut c.n m n false))
  takes (32 + cdiv (c.m * c.n * c.k) 1024)

/-- 0x241 BW_ADAPT. DESIGN CHOICE: no field gives it a sat_off; its output is converted with sat_off = 0 (R69, log 102). -/
def opBwAdapt : OpSpec where
  opcode := 0x241
  fmts := fun c => [c.fmtA, c.fmtB, c.fmtOut]
  pair := fun c => isLong c.fmtA && isLong c.fmtB
  out := fun c => isLong c.fmtOut
  descs := fun x => [tmDesc x 0, tmDesc x 1, tmDesc x 2] ++ (if adAcc x.cmd then [tmDesc x 3] else [])
  check := fun x => require (adKind x.cmd != 3 && decide ((if adKind x.cmd = 0 then x.cmd.m else x.cmd.n) ≤ 16))
  mask := fun _ => 0b000100
  reads := fun x => [x.region 0, x.region 1] ++ (if adAcc x.cmd then [x.region 3] else [])
  writes := fun x => [x.region 2]
  work := adaptWork
  units := fun _ => (false, true, false)

/-! ## BW_ATT -/

/-- Where dO starts in D0 (R194). -/
def doOff (c : Cmd) : Nat := alignUp (alignUp (tensorElems c.fmtA c.m c.n) 64 + tensorScales c.fmtA c.m c.n) 64

/-- Element (m, n) of Q, or of dO, as F19. -/
def attOperand (x : Ctx) (off m n : Nat) : Val :=
  let c := x.cmd
  let r := x.region 0
  let s : Region := { r with base := r.base + off }
  if isLong c.fmtA then f19At x s c.fmtA (m * c.n + n)
  else
    let b := mxAt x s c.fmtA c.m (c.n / 32) m (n / 32)
    expandF19 c.fmtA b.1 (codeAt c.fmtA b.2 (n % 32))

/-- A dot product of F19 values, rounded to binary32 (R79, R80, R195). -/
def dotRound (l : List (Val × Val)) : Num Val := do roundAcc (← accProds zeroV l)

/-- lse and δ of a row (R194). -/
def attStats (x : Ctx) (m : Nat) : Val × Val :=
  (v32 (rawNum x (x.region 4) (8 * m) 4), v32 (rawNum x (x.region 4) (8 * m + 4) 4))

/-- A value held as F19 under the overflow rule of R69 with sat_off = 0 (log 102). -/
def heldF19 (v : Val) : Num Val := do
  return decodeVal e19 (← convertCode e19 false v)

/-- p and ds of row m and key t of a page (R195), as F19. -/
def bwProb (x : Ctx) (c0 : Val) (p : KvPage) (m t : Nat) : Num (Val × Val) := do
  let n := x.cmd.n
  let st := attStats x m
  let s ← dotRound ((List.range n).map (fun i => (attOperand x 0 m i, keyF19 x p t i)))
  let z ← mul32 s c0
  let pr ← heldF19 (← sfuExp2 false (← sub32 z st.1))
  let dp ← dotRound ((List.range n).map (fun i => (attOperand x (doOff x.cmd) m i, valueF19 x p i t)))
  let ds ← heldF19 (← mul32 (← mul32 pr (← sub32 dp st.2)) (attScale x.cmd))
  return (pr, ds)

/-- The (row, token, p, ds) of a page's visible pairs, rows with an EMPTY log-sum-exp left out. -/
def bwPage (x : Ctx) (a : AttRec) (c0 : Val) (p : KvPage) : Num (List (Nat × Nat × Val × Val)) :=
  ((List.range x.cmd.m).filter (fun m => decide ((attStats x m).1 ≠ emptyV))).foldlM (fun acc m => do
    let l ← ((List.range 256).filter (fun t => visible x a m (256 * p.j + t))).mapM (fun t => do
      let q ← bwProb x c0 p m t
      return (m, t, q.1, q.2))
    return acc ++ l) []

/-- The work of BW_ATT (R195, R196). -/
def bwAttWork (x : Ctx) : Eng Unit := do
  let c := x.cmd
  let a := attRec x
  let pages := kvPages x a
  touchAttention x a pages
  upTo c.m (fun m => touchRows x { x.region 0 with base := (x.region 0).base + doOff c, len := (x.region 0).len - doOff c, room := (x.region 0).room - doOff c }
    c.fmtA c.m c.n (m, 1) (0, c.n))
  touch x (x.region 4) 0 (8 * c.m)
  let c0 ← lift (mul32 (attScale c) log2eV)
  let work ← pages.mapM (fun p => do return (p, ← lift (bwPage x a c0 p)))
  upTo c.m (fun m => upTo c.n (fun n => do
    let terms := work.flatMap (fun w => (w.2.filter (fun e => e.1 == m)).map (fun e => (e.2.2.2, keyF19 x w.1 e.2.1 n)))
    putBytes x (x.region 2) (4 * (m * c.n + n)) (← lift (do outBytes 0 false (← accProds zeroV terms)))))
  upTo (cdiv c.k 256) (fun j => do
    let mine := (work.filter (fun w => w.1.j == j)).flatMap (·.2)
    upTo 256 (fun t => upTo c.n (fun n => do
      let es := mine.filter (fun e => e.2.1 == t)
      let dk ← lift (do outBytes 0 false (← accProds zeroV (es.map (fun e => (e.2.2.2, attOperand x 0 e.1 n)))))
      putBytes x (x.region 5) (j * 2048 * c.n + 4 * (t * c.n + n)) dk))
    upTo 256 (fun t => upTo c.n (fun n => do
      let es := mine.filter (fun e => e.2.1 == t)
      let dv ← lift (do outBytes 0 false (← accProds zeroV (es.map (fun e => (e.2.2.1, attOperand x (doOff c) e.1 n)))))
      putBytes x (x.region 5) (j * 2048 * c.n + 1024 * c.n + 4 * (t * c.n + n)) dv)))
  takes (32 + 64 * (cdiv pages.length 16 - 1) + cdiv c.m 32 * (max (5 * c.n) 128 + 16) * pages.length +
    cdiv (4 * c.m * c.n) 2048 + c.n * cdiv c.k 256)

/-- 0x242 BW_ATT. DESIGN CHOICE: no field gives it a sat_off; what it narrows is converted with sat_off = 0 (R69, log 102). -/
def opBwAtt : OpSpec where
  opcode := 0x242
  fmts := fun c => [c.fmtA, c.fmtB, c.fmtOut]
  pair := fun c => pageFmt c.fmtB && kPerCycle c.fmtA c.fmtB != 0
  out := fun c => c.fmtOut == binary32
  descs := fun x => (List.range 6).map (tmDesc x)
  check := fun x => do
    require (attShape x.cmd)
    checkList x
  mask := fun _ => 0b100100
  reads := fun x => [x.region 0, x.region 1, x.region 3, x.region 4] ++ listRegions x
  writes := fun x => [x.region 2, x.region 5]
  pages := pageList
  moves := attMoves
  work := bwAttWork
  units := fun _ => (true, false, true)

/-! ## BW_NORM and BW_SOFTMAX -/

/-- dx of a group's elements and the terms of dγ (R192): the steps on x, γ and dy. -/
def bwNormPart (rms : Bool) (eps : Val) (xs gs dys : List Val) : Num (List Val × Val × List Val) := do
  let st ← normStats rms eps xs
  let n := natV xs.length
  let hs ← xs.mapM (normHat st)
  let g ← (dys.zip gs).mapM (fun e => mul32 e.1 e.2)
  let b ← div32 (← laneSum (← (g.zip hs).mapM (fun e => mul32 e.1 e.2))) n
  let ts ← if rms then (hs.zip g).mapM (fun e => fma32 (negVal e.1) b e.2)
    else do
      let a ← div32 (← laneSum g) n
      (hs.zip g).mapM (fun e => do fma32 (negVal e.1) b (← sub32 e.2 a))
  return (ts, st.2, ← (dys.zip hs).mapM (fun e => mul32 e.1 e.2))

/-- Running sums by element, from the first row on. -/
def addRows (acc : Option (List Val)) (vs : List Val) : Num (Option (List Val)) := do
  match acc with
  | none => return some vs
  | some a => return some (← (a.zip vs).mapM (fun e => add32 e.1 e.2))

/-- The work of BW_NORM (R192). -/
def bwNormWork (x : Ctx) : Eng Unit := do
  let c := x.cmd
  let rms := normKind c == 1
  let size := c.k / normGroups c
  if c.k % normGroups c ≠ 0 then taint
  let sums ← (List.range c.m).foldlM (fun (acc : Option (List Val) × Option (List Val)) m => do
    let xs ← getRow x (x.region 0) c.fmtA (m * c.k) c.k
    let gs ← getRow x (x.region 1) c.fmtB 0 c.k
    let dys ← getRow x (x.region 3) c.fmtA (m * c.k) c.k
    let parts ← lift ((pieces (size * normGroups c) size).mapM (fun p => do
      let cut := fun (l : List Val) => (l.drop p.1).take p.2
      bwNormPart rms (normEps c) (cut xs) (cut gs) (cut dys)))
    let outs ← lift (parts.mapM (fun p => p.1.mapM (fun t => do ieeeBytes c.fmtOut 0 (← mulVal t p.2.1))))
    putBytes x (x.region 2) (m * c.k * longSize c.fmtOut) (outs.flatten).flatten
    let dg ← lift (addRows acc.1 (parts.flatMap (fun p => p.2.2)))
    let db ← lift (addRows acc.2 (if rms then dys.map (fun _ => zeroV) else dys))
    return (dg, db)) (none, none)
  putRow x (x.region 4) binary32 0 0 (sums.1.getD [])
  putRow x (x.region 4) binary32 0 c.k (sums.2.getD [])
  takes (32 + c.m * (3 * cdiv c.k 256 + 40))

/-- 0x243 BW_NORM. -/
def opBwNorm : OpSpec where
  opcode := 0x243
  fmts := fun c => [c.fmtA, c.fmtB, c.fmtOut]
  pair := fun c => isLong c.fmtA && isLong c.fmtB
  out := fun c => isLong c.fmtOut
  descs := fun x => [tmDesc x 0, tmDesc x 1, tmDesc x 2, tmDesc x 3, tmDesc x 4]
  check := fun x => require (normKind x.cmd != 3)
  mask := fun _ => 0b010100
  reads := fun x => [x.region 0, x.region 1, x.region 3]
  writes := fun x => [x.region 2, x.region 4]
  work := bwNormWork
  units := fun _ => (false, false, true)

/-- dx of a softmax row (R193). -/
def bwSoftmaxRow (scale : Val) (es dys : List Val) (r : Val) : Num (List Val) := do
  let ys ← es.mapM (fun e => mul32 e r)
  let d ← laneSum (← (dys.zip ys).mapM (fun e => mul32 e.1 e.2))
  (dys.zip ys).mapM (fun e => do mul32 scale (← mul32 e.2 (← sub32 e.1 d)))

/-- 0x244 BW_SOFTMAX. -/
def opBwSoftmax : OpSpec where
  opcode := 0x244
  fmts := fun c => [c.fmtA, c.fmtOut]
  pair := fun c => isLong c.fmtA
  out := fun c => isLong c.fmtOut
  descs := fun x => [tmDesc x 0, tmDesc x 1, tmDesc x 2]
  mask := fun _ => 0b000100
  reads := fun x => [x.region 0, x.region 1]
  writes := fun x => [x.region 2]
  work := fun x => do
    let c := x.cmd
    upTo c.m (fun m => do
      let xs ← getRow x (x.region 0) c.fmtA (m * c.k) c.k
      let dys ← getRow x (x.region 1) c.fmtA (m * c.k) c.k
      match ← lift (softmaxRow (smScale c) xs) with
      | none => putRow x (x.region 2) c.fmtOut 0 (m * c.k) (List.replicate c.k zeroV)
      | some (es, r, _, _) =>
        let dx ← lift (bwSoftmaxRow (smScale c) es dys r)
        putRow x (x.region 2) c.fmtOut 0 (m * c.k) dx)
    takes (32 + c.m * (3 * cdiv c.k 256 + cdiv c.k 64 + 24))
  units := fun _ => (false, false, true)

/-! ## The activation stack -/

/-- The stack set of the running plan on the die. -/
def Ctx.ast (x : Ctx) : AstSet := x.dev.astSet x.die x.slot

/-- The stack's HBM range as a region (R200), named by its descriptor. -/
def astRegion (a : AstSet) (die idx : Nat) : Region :=
  ⟨idx, .hbm, hbmBase die + a.base, a.hbmSize, hbmSize - a.base, 0⟩

/-- Stack bytes read. -/
def astGet (x : Ctx) (idx v n : Nat) : Eng (List Byte) := do
  let r := astRegion x.ast x.die idx
  let l ← (astPieces x.ast.hbmSize n v n).mapM (fun p => getBytes x r p.1 p.2)
  return l.flatten

/-- Stack bytes without checks. -/
def astRaw (d : Dev) (die : Nat) (a : AstSet) (v n : Nat) : List Byte :=
  (astPieces a.hbmSize n v n).flatMap (fun p => (astRegion a die 0).bytes d p.1 p.2)

/-- The spill mark once a push has written from the top: what it writes below the mark makes stale (R205). -/
def pushSpill (a : AstSet) : Nat := min a.spill a.sp

/-- Stack bytes written from the top on: as they land the marks follow them (R205); past AST_LIMIT the command faults (R202). -/
def astPut (x : Ctx) (v : Nat) (bs : List Byte) : Eng Unit := do
  let a := x.ast
  let fit := min bs.length (a.limit - v)
  let r := astRegion a x.die 2
  let _ ← (astPieces a.hbmSize fit v fit).foldlM (fun (rest : List Byte) p => do
    putBytes x r p.1 (rest.take p.2)
    return rest.drop p.2) bs
  if fit ≠ 0 then modify (fun f => { f with astMarks := some (max a.res (v + fit - a.hbmSize), pushSpill a) })
  if fit < bs.length then stop { code := 0x0109, desc := 2, core := true }

/-- Fields of AST_PUSH (R202) and AST_POP (R203). -/
def pushTable (c : Cmd) : Nat := bits c.eng 63 56
def pushComp (c : Cmd) : Bool := bit c.eng 55
def popReblock (c : Cmd) : Bool := bit c.eng 63
def popSatOff (c : Cmd) : Bool := bit c.eng 62

/-- Whether the HBM pages of n stack bytes from the top are protected (R251). -/
def pushProtected (x : Ctx) (n : Nat) : Bool :=
  (astPieces x.ast.hbmSize n x.ast.sp n).any (fun p => rangeProtected x.dev x.die (x.ast.base + p.1) p.2)

/-- The blocks of a push (R201, R251), and whether protection forced them raw. -/
def pushBlocks (x : Ctx) : (List (Nat × Block) × Nat) × Bool :=
  let c := x.cmd
  let s := rawTensor x (x.region 0) c.fmtA c.m c.n
  let want := layBlocks (encodeTensor x.dev x.die (pushTable c) c.fmtA (pushComp c) s.1 s.2)
  if pushProtected x (want.2 + 64) then (layBlocks (encodeTensor x.dev x.die (pushTable c) c.fmtA false s.1 s.2), true)
  else (want, false)

/-- The trailer of a record (R201). -/
def trailer (c : Cmd) (raw stored : Nat) : List Byte :=
  leBytes 8 raw ++ leBytes 8 stored ++
    [BitVec.ofNat 8 c.fmtA, BitVec.ofNat 8 (pushTable c), BitVec.ofNat 8 (b2n (pushComp c)), 0] ++
    leBytes 4 c.m ++ leBytes 4 c.n ++ List.replicate 36 0

/-- The stack bytes that n bytes from offset v take, as regions (R200). -/
def stackRegions (x : Ctx) (idx v n : Nat) : List Region :=
  let r := astRegion x.ast x.die idx
  (astPieces x.ast.hbmSize n v n).map (fun p => { r with base := r.base + p.1, len := p.2, room := r.room - p.1 })

/-- Whether a push must wait: before it meets AST_LIMIT, it would overwrite an offset at or above the spill mark
(R202, R205). -/
def pushWaits (x : Ctx) : Bool :=
  let total := (pushBlocks x).1.2 + 64
  decide (x.ast.hbmSize + pushSpill x.ast < min (x.ast.sp + total) x.ast.limit)

/-- The work of AST_PUSH (R201, R202, R205). One that stops leaves what it has not written as it was. -/
def pushWork (x : Ctx) : Eng Unit := do
  let c := x.cmd
  let a := x.ast
  let outs := (← get).outs
  modify (fun f => { f with outs := [] })
  let (e, s) ← getTensor x (x.region 0) c.fmtA c.m c.n
  let (bs, prot) := pushBlocks x
  (bs.1.zip (cut4096 e ++ cut4096 s)).forM (fun b => do
    astPut x (a.sp + b.1.1) b.1.2.bytes
    noteEncoded (a.base + (a.sp + b.1.1) % a.hbmSize) prot b.2.length b.1.2)
  let raw := e.length + s.length
  astPut x (a.sp + bs.2) (trailer c raw bs.2)
  let top := a.sp + bs.2 + 64
  modify (fun f => { f with astSp := some top, astRaw := raw, astStored := bs.2, outs := outs })

/-- The core that may drive the stack (R206). -/
def astDriver (x : Ctx) : Eng Unit := require (x.ast.core == x.core)

/-- 0x245 AST_PUSH. -/
def opAstPush : OpSpec where
  opcode := 0x245
  fmts := fun c => [c.fmtA]
  descs := fun x => [tmDesc x 0, (2, x.cmd.desc 2, [6])]
  check := astDriver
  mask := fun _ => 0b000100
  reads := fun x => [x.region 0]
  tables := fun x => if pushComp x.cmd then [pushTable x.cmd] else []
  writes := fun x => stackRegions x 2 x.ast.sp (min ((pushBlocks x).1.2 + 64) (x.ast.limit - x.ast.sp))
  waits := pushWaits
  opens := fun x => (stackRegions x 2 x.ast.sp (min ((pushBlocks x).1.2 + 64) (x.ast.limit - x.ast.sp))).flatMap (Region.spans x.dev)
  work := pushWork
  atCommit := fun x f d =>
    let a := d.astSet x.die x.slot
    let sp := f.astSp.getD a.sp
    let d1 := d.countAst x.die x.slot { a with
      sp := sp, peak := max a.peak sp
      raw := min (a.raw + f.astRaw) (2 ^ 64 - 1), stored := min (a.stored + f.astStored) (2 ^ 64 - 1) }
    commitTcu d1 x.die f

/-- The trailer's fields of the record that ends at the top (R201). -/
structure AstRec where
  raw : Nat
  stored : Nat
  fmt : Nat
  rows : Nat
  cols : Nat

def astRecOf (bs : List Byte) : AstRec :=
  let n := fun (off len : Nat) => ofLe ((bs.drop off).take len)
  ⟨n 0 8, n 8 8, n 16 1, n 20 4, n 24 4⟩

/-- The record at the top, without checks. -/
def topRecord (d : Dev) (die : Nat) (a : AstSet) : AstRec := astRecOf (astRaw d die a (a.sp - 64) 64)

/-- The lowest offset the pop of the top record reads: its trailer's while that is not resident (R205). -/
def popNeeds (d : Dev) (die : Nat) (a : AstSet) : Nat :=
  if a.sp - 64 < a.res then a.sp - 64 else a.sp - 64 - (topRecord d die a).stored

/-- Whether a pop must wait (R205). -/
def popWaits (x : Ctx) : Bool := x.ast.sp != 0 && decide (popNeeds x.dev x.die x.ast < x.ast.res)

/-- Blocks of declared sizes read one after another from the stack. -/
def astBlocks (x : Ctx) (f : Nat) : List Nat → Nat → Eng (List Byte)
  | [], _ => pure []
  | n :: t, v => do
    let hdr := ofLe (← astGet x 0 v 8)
    let len := bits hdr 28 16
    let payload ← astGet x 0 (v + 8) len
    let out := decodeBlock (validCodes x.dev x.die (bits hdr 15 8)) (sixBit f) hdr n payload
    noteDecoded (x.ast.base + v % x.ast.hbmSize) (8 + len) out
    let rest ← astBlocks x f t (alignUp (v + 8 + len) 64)
    return out.data ++ rest

/-- Element (r, k) of a tensor held as its two parts, MX elements expanded (R203, R188). -/
def partVal (f cols : Nat) (e s : List Byte) (r k : Nat) : Val :=
  if isLong f then longVal f (ofLe ((e.drop ((r * cols + k) * longSize f)).take (longSize f)))
  else
    let i := r * cdiv cols 32 + k / 32
    expandF19 f ((s.getD i 0).toNat) (codeAt f (ofLe ((e.drop (i * blockBytes f)).take (blockBytes f))) (k % 32))

/-- The transpose of a record written to D2 in fmt_out (R203). -/
def putTranspose (x : Ctx) (q : AstRec) (e s : List Byte) : Eng Unit := do
  let fo := x.cmd.fmtOut
  let at' := fun (n m : Nat) => partVal q.fmt q.cols e s m n
  if isLong fo then
    upTo q.cols (fun n => do
      let bs ← lift ((List.range q.rows).mapM (fun m => do
        noteWritten 1
        return longBytes fo (← convertCode (encOf fo) (popSatOff x.cmd) (at' n m))))
      putBytes x (x.region 2) (n * q.rows * longSize fo) bs.flatten)
  else
    let nbk := cdiv q.rows 32
    upTo q.cols (fun n => (pieces q.rows 32).forM (fun p => do
      let b ← lift (do
        noteWritten p.2
        quantBlock fo (popSatOff x.cmd) false (Config.popThreshold % 256) ((List.range p.2).map (fun i => at' n (p.1 + i))))
      putBlock x (x.region 2) (x.region 2) fo (scaleOff fo (q.cols * nbk)) (n * nbk + p.1 / 32) b))

/-- The work of AST_POP (R203). -/
def popWork (x : Ctx) : Eng Unit := do
  let a := x.ast
  if a.sp = 0 then stop { code := 0x010A }
  let q := astRecOf (← astGet x 0 (a.sp - 64) 64)
  let start := a.sp - 64 - q.stored
  let ne := tensorElems q.fmt q.rows q.cols
  let all ← astBlocks x q.fmt (declared ne (tensorScales q.fmt q.rows q.cols)) start
  let e := all.take ne
  let s := all.drop ne
  if popReblock x.cmd then putTranspose x q e s else putTensor x (x.region 2) e s
  modify (fun f => { f with astSp := some start })

/-- The tables that the blocks of the top record name, once its record is there to read (R201, R245). -/
def popTables (x : Ctx) : List Nat :=
  let a := x.ast
  if a.sp = 0 || popWaits x then []
  else
    let q := topRecord x.dev x.die a
    (walkBlocks (fun v => ofLe (astRaw x.dev x.die a v 8)) (tensorBlocks (tensorElems q.fmt q.rows q.cols)
      (tensorScales q.fmt q.rows q.cols)) (a.sp - 64 - q.stored)).1

/-- 0x246 AST_POP. -/
def opAstPop : OpSpec where
  opcode := 0x246
  fmts := fun c => if popReblock c then [c.fmtOut] else []
  descs := fun x => [(0, x.cmd.desc 0, [6]), tmDesc x 2]
  check := astDriver
  mask := fun _ => 0b000100
  reads := fun x => if popWaits x then [] else
    stackRegions x 0 (x.ast.sp - 64 - (topRecord x.dev x.die x.ast).stored) ((topRecord x.dev x.die x.ast).stored + 64)
  tables := popTables
  writes := fun x => [x.region 2]
  waits := popWaits
  opens := fun x => (stackRegions x 0 (x.ast.sp - 64 - (topRecord x.dev x.die x.ast).stored) ((topRecord x.dev x.die x.ast).stored + 64)).flatMap (Region.spans x.dev)
  work := popWork
  atCommit := fun x f d =>
    let a := d.astSet x.die x.slot
    commitTcu (d.setAst x.die x.slot { a with sp := f.astSp.getD a.sp }) x.die f

/-! ## UPDATE -/

/-- Fields (R209). -/
def upKind (c : Cmd) : Nat := bits c.eng 63 62
def upSkip (c : Cmd) : Bool := bit c.eng 61
def upSatOff (c : Cmd) : Bool := bit c.eng 60
def upQf (c : Cmd) : Bool := bit c.eng 59
def upQt (c : Cmd) : Bool := bit c.eng 58
def upThr (c : Cmd) : Nat := bits c.eng 57 50

/-- Number i of the record (R209). -/
def upRec (x : Ctx) (i : Nat) : Val := v32 (rawNum x (x.region 3) (4 * i) 4)

/-- The new w, m and v of an element (R210). -/
def upElement (kind : Nat) (skip : Bool) (r : Nat → Val) (w m v grad : Val) : Num (Val × Val × Val) := do
  let g ← mul32 grad (r 9)
  if skip && (g.isNan || g.isInf) then return (w, m, v)
  else if kind = 0 then
    let m1 ← fma32 (r 2) g (← mul32 (r 1) m)
    let v1 ← fma32 (r 4) (← mul32 g g) (← mul32 (r 3) v)
    let u ← div32 (← mul32 m1 (r 5)) (← add32 (← sqrt32 (← mul32 v1 (r 6))) (r 7))
    let w1 ← sub32 w (← mul32 (r 0) (← fma32 (r 8) w u))
    return (w1, m1, v1)
  else
    let m1 ← fma32 (r 1) m g
    let w1 ← sub32 w (← mul32 (r 0) (← fma32 (r 8) w m1))
    return (w1, m1, v)

/-- The code of a binary32 value that is one already. -/
def code32 (v : Val) : Num Nat :=
  match v with
  | .num s m e => pure (signed e32 s (roundMag e32 0 s m e).1)
  | .inf s => pure (infCode e32 s)
  | .nan s => pure (nanOf e32 s)

/-- Where element (k, n) of the tile stands in the planes, in the long layout of R86 for B (R207), and in m and v, which
are updated at the planes' element positions (R208, DEDUCED). -/
def upAt (c : Cmd) (k n : Nat) : Nat := n * c.k + k

/-- Where its gradient stands (DEDUCED): row-major over the tile, as BW_MM and BW_ADAPT write one (R86, R197). -/
def upGradAt (c : Cmd) (k n : Nat) : Nat := k * c.n + n

/-- The element (k, n): the values of its planes, moments and gradient. -/
def upOld (x : Ctx) (k n : Nat) : Val × Val × Val × Val :=
  let c := x.cmd
  let i := upAt c k n
  let mAt := 64 + 4 * i
  let vAt := 64 + 4 * (c.k * c.n) + 4 * i
  (v32 (rawNum x (x.region 1) (2 * i) 2 + 65536 * rawNum x (x.region 0) (2 * i) 2),
   v32 (rawNum x (x.region 3) mAt 4), v32 (rawNum x (x.region 3) vAt 4), longAt x (x.region 2) c.fmtA (upGradAt c k n))

/-- An element's update: its w code, and m and v codes where the command writes them. A skipped element keeps its bits. -/
def upNew (x : Ctx) (k n : Nat) : Num (Nat × Nat × Nat) := do
  let c := x.cmd
  let o := upOld x k n
  let i := upAt c k n
  let raw := (rawNum x (x.region 1) (2 * i) 2 + 65536 * rawNum x (x.region 0) (2 * i) 2,
    rawNum x (x.region 3) (64 + 4 * i) 4, rawNum x (x.region 3) (64 + 4 * (c.k * c.n) + 4 * i) 4)
  let g ← mul32 o.2.2.2 (upRec x 9)
  if upSkip c && (g.isNan || g.isInf) then return raw
  else
    let n ← upElement (upKind c) (upSkip c) (upRec x) o.1 o.2.1 o.2.2.1 o.2.2.2
    let w ← code32 n.1
    let m ← code32 n.2.1
    let v ← if upKind c = 0 then code32 n.2.2 else pure raw.2.2
    return (w, m, v)

/-- The accesses of UPDATE to element (k, n) of the tile. -/
def upTouch (x : Ctx) (k n : Nat) : Eng Unit := do
  let c := x.cmd
  let i := upAt c k n
  touch x (x.region 0) (2 * i) 2
  touch x (x.region 1) (2 * i) 2
  touch x (x.region 2) (upGradAt c k n * longSize c.fmtA) (longSize c.fmtA)
  touch x (x.region 3) (64 + 4 * i) 4
  if upKind c = 0 then touch x (x.region 3) (64 + 4 * (c.k * c.n) + 4 * i) 4

/-- The work of UPDATE (R208 to R211). -/
def updateWork (x : Ctx) : Eng Unit := do
  let c := x.cmd
  touch x (x.region 3) 0 64
  let ws ← (List.range c.n).mapM (fun n =>
    (List.range c.k).mapM (fun k => do
      upTouch x k n
      let i := upAt c k n
      let r ← lift (upNew x k n)
      putBytes x (x.region 0) (2 * i) (leBytes 2 (r.1 / 65536))
      putBytes x (x.region 1) (2 * i) (leBytes 2 r.1)
      putBytes x (x.region 3) (64 + 4 * i) (leBytes 4 r.2.1)
      if upKind c = 0 then putBytes x (x.region 3) (64 + 4 * (c.k * c.n) + 4 * i) (leBytes 4 r.2.2)
      return v32 r.1))
  let w := fun (k n : Nat) => (ws.getD n []).getD k zeroV
  let quant := fun (vs : List Val) => do
    noteWritten 32
    quantBlock c.fmtOut (upSatOff c) false (upThr c) vs
  if upQf c then
    upTo c.n (fun n => upTo (c.k / 32) (fun j => do
      let b ← lift (quant ((List.range 32).map (fun i => w (32 * j + i) n)))
      putBlock x (x.region 4) (x.region 4) c.fmtOut (scaleOff c.fmtOut (c.n * (c.k / 32))) (n * (c.k / 32) + j) b))
  if upQt c then
    upTo c.k (fun k => upTo (c.n / 32) (fun j => do
      let b ← lift (quant ((List.range 32).map (fun i => w k (32 * j + i))))
      putBlock x (x.region 5) (x.region 5) c.fmtOut (scaleOff c.fmtOut (c.k * (c.n / 32))) (k * (c.n / 32) + j) b))
  takes (32 + cdiv (c.k * c.n) 256 * ((if upKind c = 0 then 24 else 6) + b2n (upQf c) + b2n (upQt c)))

/-- 0x247 UPDATE. -/
def opUpdate : OpSpec where
  opcode := 0x247
  fmts := fun c => [c.fmtA] ++ (if upQf c || upQt c then [c.fmtOut] else [])
  pair := fun c => isLong c.fmtA
  out := fun c => !(upQf c || upQt c) || isShort c.fmtOut
  descs := fun x => [tmDesc x 0, tmDesc x 1, tmDesc x 2, tmDesc x 3] ++ (if upQf x.cmd then [tmDesc x 4] else []) ++
    (if upQt x.cmd then [tmDesc x 5] else [])
  check := fun x => require (x.cmd.m == 1 && x.cmd.k % 32 == 0 && x.cmd.n % 32 == 0 && decide (upKind x.cmd ≤ 1))
  mask := fun _ => 0b111011
  reads := fun x => [x.region 0, x.region 1, x.region 2, x.region 3]
  writes := fun x => [x.region 0, x.region 1, x.region 3] ++ (if upQf x.cmd then [x.region 4] else []) ++
    (if upQt x.cmd then [x.region 5] else [])
  inPlace := [(0, 0), (1, 1), (3, 3)]
  work := updateWork
  units := fun _ => (false, false, true)
  alwaysNk := true

/-- BW_MM (R190). -/
def execBwMm (k : CoreIx) (u : Upset) (s : State) : Host.Outcome State Fault Refusal :=
  .next { s with dev := issueRow opBwMm k u s.dev }

/-- BW_ADAPT (R197). -/
def execBwAdapt (k : CoreIx) (u : Upset) (s : State) : Host.Outcome State Fault Refusal :=
  .next { s with dev := issueRow opBwAdapt k u s.dev }

/-- BW_ATT (R194). -/
def execBwAtt (k : CoreIx) (u : Upset) (s : State) : Host.Outcome State Fault Refusal :=
  .next { s with dev := issueRow opBwAtt k u s.dev }

/-- BW_NORM (R192). -/
def execBwNorm (k : CoreIx) (u : Upset) (s : State) : Host.Outcome State Fault Refusal :=
  .next { s with dev := issueRow opBwNorm k u s.dev }

/-- BW_SOFTMAX (R193). -/
def execBwSoftmax (k : CoreIx) (u : Upset) (s : State) : Host.Outcome State Fault Refusal :=
  .next { s with dev := issueRow opBwSoftmax k u s.dev }

/-- AST_PUSH (R202). -/
def execAstPush (k : CoreIx) (u : Upset) (s : State) : Host.Outcome State Fault Refusal :=
  .next { s with dev := issueRow opAstPush k u s.dev }

/-- AST_POP (R203). -/
def execAstPop (k : CoreIx) (u : Upset) (s : State) : Host.Outcome State Fault Refusal :=
  .next { s with dev := issueRow opAstPop k u s.dev }

/-- UPDATE (R208). -/
def execUpdate (k : CoreIx) (u : Upset) (s : State) : Host.Outcome State Fault Refusal :=
  .next { s with dev := issueRow opUpdate k u s.dev }

end Sys2Proof.Machine
end

