-- ==== Sys2Proof/Machine/Collective.lean ====
section
/-! DEFINITION. Collective steps (R266 to R277): the step record and its checks, CL_RS, CL_AG, MM_RS, AG_MM. -/

namespace Sys2Proof.Machine
open Sys2Proof

/-! ## The step record -/

/-- The step record (R267); residual descriptors are raw words. -/
structure StepRec where
  id : Nat
  axisY : Bool
  minus : Bool
  p : Nat
  step : Nat
  op : Nat
  final : Bool
  ef : Bool
  efInit : Bool
  size : Nat
  xfer : Nat
  wd : Nat
  resIn : Nat
  resOut : Nat
  cores : Nat
  deriving DecidableEq, Repr

def stepRec (x : Ctx) : StepRec :=
  let g := rawNum x (x.region 5)
  { id := g 0 2, axisY := bit (g 2 1) 0, minus := bit (g 2 1) 1, p := g 3 1, step := g 4 1, op := g 5 1
    final := bit (g 6 1) 0, ef := bit (g 6 1) 1, efInit := bit (g 6 1) 2, size := g 8 4, xfer := bits (g 12 2) 13 0
    wd := g 14 2, resIn := g 16 8, resOut := g 24 8, cores := g 32 8 }

/-- The residual regions, numbered 6 and 7 (R40). -/
def resRegion (x : Ctx) (idx w : Nat) : Region := regionOf x.dev x.n x.slot x.die x.core idx w

/-- Rows of the partition. -/
def stepRows (x : Ctx) : Nat := (rowList x.p.rows).length

/-- The conditions of R268 that every step shares; reduce: CL_RS or MM_RS; sent: the index of the sent region. -/
def stepOk (x : Ctx) (reduce : Bool) (sent : Nat) : Bool :=
  let s := stepRec x
  let ag := x.cmd.opcode == 0x281
  !x.cmd.nk && (if s.axisY then s.p == stepRows x && decide (1 < stepRows x) else s.p == 4) &&
    decide (s.step + b2n ag < s.p) && s.final == (s.step + 1 == s.p) && !(ag && s.final) &&
    decide (s.op ≤ 3) && !(reduce && s.op == 3) && !(ag && s.op != 3) &&
    !(s.ef && x.cmd.opcode != 0x280) &&
    (s.final || s.size == descLen (x.cmd.desc sent)) && bit s.cores x.core

/-- The die a member die distance places along the record's direction (R267). -/
def ringDie (p : Port) (s : StepRec) (die k : Nat) : Nat :=
  let b := baseDie p
  let r := die - b
  let j := if s.minus then s.p * 4 - k % s.p else k
  if s.axisY then b + r % 4 + 4 * ((r / 4 + j) % s.p) else b + 4 * (r / 4) + (r + j) % 4

/-- A number's low 16 bits rotated left by 5. -/
def rotl16 (v : Nat) : Nat := bits (32 * v + v % 65536 / 2048) 15 0

/-- The tag of a step (R273). -/
def stepTag (s : StepRec) (fmt : Nat) : Nat :=
  (s.id ^^^ bits s.size 31 16 ^^^ rotl16 (bits s.size 15 0) ^^^ bits (s.op * 2 ^ 12) 15 0 ^^^ bits (fmt * 2 ^ 8) 15 0)

/-- The step as its command carries it. -/
def stepFlight (x : Ctx) (fmt : Nat) : CollFlight :=
  let s := stepRec x
  { id := s.id, step := s.step, p := s.p, axisY := s.axisY, minus := s.minus, size := s.size, tag := stepTag s fmt
    wd := s.wd, cores := s.cores, xfer := s.xfer
    sendsTo := if s.final then none else some (ringDie x.p s x.die 1)
    hearsFrom := if s.final then none else some (ringDie x.p s x.die (s.p - 1))
    received := 0, unsent := 0, decided := false }

/-- No member issues a later step of a collective before the present one has committed everywhere (R276). -/
def stepHolds (x : Ctx) : Bool :=
  let s := stepRec x
  let dies := partDies x.p
  x.dev.cores.any (fun e => inDies dies e.1 && (match e.2.flight with
    | some f => match f.coll with
      | some cf => cf.id == s.id && cf.step != s.step
      | none => false
    | none => false))

/-- Spaces of sent and received regions (R268). -/
def ringDesc (x : Ctx) (i : Nat) : Nat × Nat × List Nat := (i, x.cmd.desc i, [1, 2, 3])

/-- The record's own descriptor. -/
def recDesc (x : Ctx) : Nat × Nat × List Nat := (5, x.cmd.desc 5, [1])

/-- Where a step's data moves: the regions it reads and those it writes, in the slots of its identifier (R267, R268); class-0
reads use windows too (R222). -/
def stepMoves (x : Ctx) (ins outs : List Region) : List Move :=
  let s := stepRec x
  [{ xfer := s.xfer, spans := ins.flatMap (Region.spans x.dev), window := x.cmd.cls == 0, ports := ins.flatMap (readPorts x.die x.core) },
    { xfer := s.xfer, spans := outs.flatMap (Region.spans x.dev), ports := outs.flatMap (writePorts x.die x.core) }]

/-- A region only a step that is not its collective's last has. -/
def unlessFinal (x : Ctx) (r : Region) : List Region := if (stepRec x).final then [] else [r]

/-- The whole sent region leaves for the member downstream, as it stands after the attempt's writes (R272). -/
def stepSends (sent : Nat) (x : Ctx) (f : Flight) (d : Dev) : Dev :=
  match f.coll.bind (·.sendsTo) with
  | none => d
  | some peer =>
    let s := stepRec x
    let after := { x.dev with mem := f.writes.foldr (fun w m => m.write w.space w.addr w.data) x.dev.mem }
    let fs := (payloads ((x.region sent).bytes after 0 s.size)).map (fun q =>
      ({ vc := 1, xfer := s.xfer, seq := 0, tag := (f.coll.map (·.tag)).getD 0, offset := q.1 / 64, payload := q.2,
         dest := peer, space := .tm, addr := 0, sender := (x.die, x.core) } : Flit))
    let f1 := { f with coll := f.coll.map (fun cf => { cf with unsent := fs.length }) }
    sendFlits (d.setCs x.die x.core { d.cs x.die x.core with flight := some f1 }) x.die peer fs

/-- Zero bytes after a tensor up to the end of the sent region (R459). -/
def padRegion (x : Ctx) (i used : Nat) : Eng Unit :=
  if (stepRec x).final then pure ()
  else putBytes x (x.region i) used (List.replicate ((x.region i).len - used) 0)

/-! ## CL_RS -/

/-- Ring formats (R269). -/
def ringFmt (f : Nat) : Bool := isLong f || f == 4 || f == 5

/-- Elements p.1 … of row m of a tensor in the A layout (R459): access and values. -/
def getPiece (x : Ctx) (r : Region) (f rows k m : Nat) (p : Nat × Nat) : Eng (List Val) := do
  let nbk := cdiv k 32
  if isLong f then getRow x r f (m * k + p.1) p.2
  else do
    let i := m * nbk + p.1 / 32
    touchBlock x r f (rows * nbk) i p.2
    let b := mxAt x r f rows nbk m (p.1 / 32)
    return (List.range p.2).map (fun j => elemScaled f b.1 (codeAt f b.2 j))

/-- One element of a reduction (R271 step 2): received, then own. -/
def ringOp (op : Nat) (received own : Val) : Num Val :=
  match op with
  | 1 => maxVal received own
  | 2 => minVal received own
  | _ => add32 received own

/-- The target format of a CL_RS step, and whether it works on the residual (R271 step 5): an MX target only. -/
def rsTarget (x : Ctx) : Nat := if (stepRec x).final then x.cmd.fmtOut else x.cmd.fmtB
def rsEf (x : Ctx) : Bool := (stepRec x).ef && !isLong (rsTarget x)

/-- Values stored in the target format (R271 steps 3 to 5). -/
def putPiece (x : Ctx) (s : StepRec) (f m : Nat) (p : Nat × Nat) (vs : List Val) : Eng Unit := do
  let c := x.cmd
  let nbk := cdiv c.k 32
  if isLong f then
    let bs ← lift (vs.mapM (fun v => do
      noteWritten 1
      if f = 0 then
        if v.isNan then noteNan
        return longBytes 0 (← code32 v)
      else return longBytes f (← convertCode (encOf f) false v)))
    putBytes x (x.region 2) ((m * c.k + p.1) * longSize f) bs.flatten
  else do
    let b ← lift (do
      noteWritten p.2
      quantBlock f false false 0 vs)
    putBlock x (x.region 2) (x.region 2) f (scaleOff f (c.m * nbk)) (m * nbk + p.1 / 32) b
    if rsEf x then
      let out ← lift ((vs.zip b.2).mapM (fun q => efResidual f b.1 q.2 q.1))
      putBytes x (resRegion x 7 s.resOut) (4 * (m * c.k + p.1)) out.flatten


/-- The work of CL_RS (R271, R459). -/
def rsWork (x : Ctx) : Eng Unit := do
  let c := x.cmd
  touch x (x.region 5) 0 64
  let s := stepRec x
  let f := rsTarget x
  upTo c.m (fun m => (pieces c.k 32).forM (fun p => do
    let own ← getRow x (x.region 0) c.fmtA (m * c.k + p.1) p.2
    let got ← if s.step = 0 then pure own else getPiece x (x.region 1) c.fmtB c.m c.k m p
    let vs ← if s.step = 0 then pure own else lift ((got.zip own).mapM (fun q => ringOp s.op q.1 q.2))
    let ws ← if rsEf x then do
        let rs ← if s.efInit then pure (List.replicate p.2 zeroV) else getRow x (resRegion x 6 s.resIn) 3 (m * c.k + p.1) p.2
        lift ((vs.zip rs).mapM (fun q => add32 q.1 q.2))
      else pure vs
    putPiece x s f m p ws))
  padRegion x 2 (if isLong f then c.m * c.k * longSize f else scaleOff f (c.m * cdiv c.k 32) + c.m * cdiv c.k 32)
  takes (32 + cdiv (c.m * c.k) 256 * (1 + b2n (rsEf x)))

/-- The regions CL_RS reads, its record apart, and those it writes. -/
def rsReads (x : Ctx) : List Region :=
  let s := stepRec x
  [x.region 0] ++ (if s.step = 0 then [] else [x.region 1]) ++ (if rsEf x && !s.efInit then [resRegion x 6 s.resIn] else [])
def rsWrites (x : Ctx) : List Region :=
  let s := stepRec x
  [x.region 2] ++ unlessFinal x (x.region 3) ++ (if rsEf x then [resRegion x 7 s.resOut] else [])

/-- 0x280 CL_RS. -/
def opClRs : OpSpec where
  opcode := 0x280
  fmts := fun c => [c.fmtA, c.fmtB]
  recFmts := fun x => if (stepRec x).final then [x.cmd.fmtOut] else []
  pair := fun c => isLong c.fmtA && ringFmt c.fmtB
  recOut := fun x => !(stepRec x).final || ringFmt x.cmd.fmtOut
  descs := fun x =>
    let s := stepRec x
    [ringDesc x 0] ++ (if s.step = 0 then [] else [ringDesc x 1]) ++ [ringDesc x 2] ++
      (if s.final then [] else [ringDesc x 3]) ++ [recDesc x] ++
      (if rsEf x then (if s.efInit then [] else [(6, s.resIn, [1, 2, 3])]) ++ [(7, s.resOut, [1, 2, 3])] else [])
  check := fun x => require (stepOk x true 2 && !((stepRec x).op != 0 && !isLong x.cmd.fmtB) && !((stepRec x).ef && isLong x.cmd.fmtB))
  mask := fun x => if (stepRec x).final then 0b000100 else 0b001100
  reads := fun x => rsReads x ++ [x.region 5]
  writes := rsWrites
  coll := fun x => some (stepFlight x x.cmd.fmtB)
  holds := stepHolds
  moves := fun x => stepMoves x (rsReads x ++ unlessFinal x (x.region 2)) (rsWrites x)
  work := rsWork
  sends := stepSends 2
  units := fun _ => (false, false, true)

/-! ## CL_AG -/

/-- 0x281 CL_AG. -/
def opClAg : OpSpec where
  opcode := 0x281
  descs := fun x => [ringDesc x 1, ringDesc x 3, recDesc x]
  check := fun x => require (stepOk x false 1)
  mask := fun _ => 0b001000
  reads := fun x => [x.region 1, x.region 5]
  writes := fun x => [x.region 3]
  coll := fun x => some (stepFlight x 0)
  holds := stepHolds
  moves := fun x => stepMoves x [x.region 1] [x.region 3]
  work := fun x => do
    touch x (x.region 5) 0 64
    touch x (x.region 1) 0 (stepRec x).size
    takes 32
  sends := stepSends 1

/-! ## MM_RS and AG_MM -/

/-- The cycles of the product of a step (R83). -/
def stepCycles (x : Ctx) (side : SideList) : Nat :=
  let c := x.cmd
  32 + productCycles c.m c.n c.k (kPerCycle c.fmtA c.fmtB) c.fmtB c.fmtOut (mmDb c) 0
    (fun n0 => if mmOutl c then ((side.ofBlock c.n (cdiv c.k 32) n0).filter (·.2)).length else 0)

/-- The product of a step: MM with C from region ci when start holds (R269, R89 step 1). -/
def stepProduct (x : Ctx) (start : Bool) (ci : Nat) : Eng Unit := do
  let c := x.cmd
  let nbk := cdiv c.k 32
  let side := readSide x (x.region 1) (sideOff c.fmtB c.n nbk)
  let elem := fun m n => longVal c.fmtOut (rawNum x (x.region ci) ((m * c.n + n) * longSize c.fmtOut) (longSize c.fmtOut))
  let t : Touches := { mmTouches x side with
    c := fun cols rows => if start then touchTile x (x.region ci) c.fmtOut c.n cols rows else pure () }
  let p : Product := { mmProduct x side with start := fun m n => if start then elem m n else zeroV }
  t.walk c.m c.n c.k c.fmtB
  if c.opcode = 0x283 ∧ countedTwice x start (x.region ci) = true then taint
  if mmOutl c then
    if !ascending (side.ents.map (·.block)) then taint
    lift (noteOvf (side.overs c.n nbk))
  upTo c.m (fun m => upTo c.n (fun n => p.store x (x.region 2) c.fmtOut c.n m n (mmSatOff c)))
  takes (stepCycles x side)

/-- 0x282 MM_RS. -/
def opMmRs : OpSpec where
  opcode := 0x282
  fmts := fun c => [c.fmtA, c.fmtB, c.fmtOut]
  pair := fun c => kPerCycle c.fmtA c.fmtB != 0
  out := fun c => isLong c.fmtOut
  descs := fun x =>
    let s := stepRec x
    [tmDesc x 0, tmDesc x 1, ringDesc x 2] ++ (if s.step = 0 then [] else [ringDesc x 3]) ++
      (if s.final then [] else [ringDesc x 4]) ++ [recDesc x]
  check := fun x => require (stepOk x true 2 && !mmLr x.cmd)
  slots := accSlots
  mask := fun x => if (stepRec x).final then 0b000100 else 0b010100
  reads := fun x => [x.region 0, x.region 1] ++ (if (stepRec x).step = 0 then [] else [x.region 3]) ++ [x.region 5]
  writes := fun x => [x.region 2] ++ (if (stepRec x).final then [] else [x.region 4])
  coll := fun x => some (stepFlight x x.cmd.fmtOut)
  holds := stepHolds
  moves := fun x => stepMoves x ((if (stepRec x).step = 0 then [] else [x.region 3]) ++ unlessFinal x (x.region 2))
    ([x.region 2] ++ unlessFinal x (x.region 4))
  work := fun x => do
    touch x (x.region 5) 0 64
    stepProduct x ((stepRec x).step != 0) 3
    padRegion x 2 (x.cmd.m * x.cmd.n * longSize x.cmd.fmtOut)
  sends := stepSends 2
  units := fun c => (true, mmOutl c, false)
  cols := Cmd.n
  layer := mmLayer

/-- 0x283 AG_MM. -/
def opAgMm : OpSpec where
  opcode := 0x283
  fmts := fun c => [c.fmtA, c.fmtB, c.fmtOut]
  pair := fun c => kPerCycle c.fmtA c.fmtB != 0
  out := fun c => isLong c.fmtOut
  descs := fun x =>
    let s := stepRec x
    [tmDesc x 0, ringDesc x 1, tmDesc x 2] ++ (if s.final then [] else [ringDesc x 3]) ++
      (if mmAcc x.cmd then [tmDesc x 4] else []) ++ [recDesc x]
  check := fun x => require (stepOk x false 1 && !mmLr x.cmd)
  slots := accSlots
  mask := fun x => if (stepRec x).final then 0b000100 else 0b001100
  reads := fun x => [x.region 0, x.region 1] ++ (if mmAcc x.cmd then [x.region 4] else []) ++ [x.region 5]
  writes := fun x => [x.region 2] ++ (if (stepRec x).final then [] else [x.region 3])
  coll := fun x => some (stepFlight x x.cmd.fmtB)
  holds := stepHolds
  moves := fun x => stepMoves x [x.region 1] (unlessFinal x (x.region 3))
  work := fun x => do
    touch x (x.region 5) 0 64
    if !(stepRec x).final then touch x (x.region 1) 0 (stepRec x).size
    stepProduct x (mmAcc x.cmd) 4
  sends := stepSends 1
  atCommit := fun x _ d => noteCounted x (mmAcc x.cmd) (x.region 4) (x.region 2) d
  units := fun c => (true, mmOutl c, false)
  cols := Cmd.n
  layer := mmLayer

/-- CL_RS (R266, R271). -/
def execClRs (k : CoreIx) (u : Upset) (s : State) : Host.Outcome State Fault Refusal :=
  .next { s with dev := issueRow opClRs k u s.dev }

/-- CL_AG (R266). -/
def execClAg (k : CoreIx) (u : Upset) (s : State) : Host.Outcome State Fault Refusal :=
  .next { s with dev := issueRow opClAg k u s.dev }

/-- MM_RS (R266). -/
def execMmRs (k : CoreIx) (u : Upset) (s : State) : Host.Outcome State Fault Refusal :=
  .next { s with dev := issueRow opMmRs k u s.dev }

/-- AG_MM (R266). -/
def execAgMm (k : CoreIx) (u : Upset) (s : State) : Host.Outcome State Fault Refusal :=
  .next { s with dev := issueRow opAgMm k u s.dev }

end Sys2Proof.Machine
end

