-- ==== Sys2Proof/Machine/Links.lean ====
section
/-! DEFINITION. Events of the Jalsil links and of collective steps (R256 to R264, R273 to R279): a flit received, a
margin probe, preparing a step, its DONE, NOGO and FAULT tokens, its watchdog, link training. -/

namespace Sys2Proof.Machine
open Sys2Proof

/-! ## Flits -/

/-- The region a step command receives into (R266). -/
def rxIndex (c : Cmd) : Nat := if c.opcode = 0x282 then 4 else 3
def rxRegion (d : Dev) (h : Here) (die c : Nat) (cmd : Cmd) : Region :=
  regionOf d h.n h.job.slot die c (rxIndex cmd) (cmd.desc (rxIndex cmd))

/-- Whether a die can take a flit now. Step data waits until the core's step hears from its sender (R274), and behind a NOGO
on its way (R277); once all of a step's bytes are in, what comes with another tag is a later step's. -/
def canTake (d : Dev) (die : Nat) (f : Flit) : Bool :=
  f.dest != die || f.vc != 1 ||
    (match (d.cs die f.sender.2).flight.bind (·.coll) with
     | some cf => cf.hearsFrom == some f.sender.1 && (d.coll die cf.id).nogoDue.isEmpty && (cf.received != cf.size || f.tag == cf.tag)
     | none => false)

/-- Step data reaches its region, after the checks of R274 and R40. -/
def takeStep (d : Dev) (die : Nat) (f : Flit) : Dev :=
  let c := f.sender.2
  match here d die c with
  | none => d
  | some h =>
    match h.cs.flight with
    | none => d
    | some g =>
      match g.coll with
      | none => d
      | some cf =>
        let r := rxRegion d h die c g.cmd
        let off := 64 * f.offset
        if f.tag ≠ cf.tag then cmdStop d h die c { code := 0x0301, die := f.sender.1, info1 := 2 ^ 16 * f.tag + cf.tag }
        else if cf.size < cf.received + f.payload.length then cmdStop d h die c { code := 0x0103, desc := rxIndex g.cmd, core := true }
        else if r.bound < off + f.payload.length then
          cmdStop d h die c { code := cRegion, desc := rxIndex g.cmd, info1 := failUnit r.bound off, core := true }
        else
          let d1 := dropMarks { d with mem := d.mem.write r.space (r.base + off) f.payload } [⟨r.space, r.base + off, f.payload.length⟩]
          payloadWritten (d1.setCs die c { h.cs with flight := some { g with coll := some { cf with received := cf.received + f.payload.length } } }) f

/-- An intact flit at a die: passed on, or written (R256, R263). -/
def deliver (d : Dev) (die : Nat) (f : Flit) : Dev :=
  if f.dest ≠ die then sendFlits d die f.dest [f]
  else if f.vc = 1 then takeStep d die f
  else payloadWritten (dropMarks { d with mem := d.mem.write f.space f.addr f.payload } [⟨f.space, f.addr, f.payload.length⟩]) f

/-- A link direction goes down (R258): its fault, the same code for the step commands that wait on it, whose members each send
FAULT once (R277), and every job of its partition. DESIGN CHOICE: FAULT_INFO1 gives the sending end's port on the cores of both
ends (log 150). -/
def linkDown (d : Dev) (src p : Nat) : Dev :=
  let k := (src, p)
  let d1 := (d.setFld (R.JLINK_STAT src p) 0 0 0).setFld (R.JLINK_STAT src p) 4 4 1
  let d2 := postFault d1 (.jlink src p) 0x0601 0 p
  let dst := neighbour src p
  let waits := d2.cores.filterMap (fun e => match e.2.flight.bind (·.coll) with
    | some cf => if (e.1.1 == src && cf.sendsTo == some dst) || (e.1.1 == dst && cf.hearsFrom == some src) then some (e.1, cf) else none
    | none => none)
  let own := fun (c : Nat × Nat) => waits.any (fun e => e.1 == c)
  let d3 := waits.foldl (fun x e => postFault x (.core e.1.1 e.1.2) 0x0601 0 p) d2
  let members := waits.foldl (fun (l : List ((Nat × Nat) × CollFlight)) e =>
    if l.any (fun m => m.1 == (e.1.1, e.2.id)) then l else l ++ [((e.1.1, e.2.id), e.2)]) []
  let d4 := members.foldl (fun x m => match ownerOf x m.1.1 with
    | some n => collFault x (x.port n) m.1.1 own m.2 none
    | none => x) d3
  let d5 := d4.setLink k {}
  match ownerOf d5 src, ownerOf d5 dst with
  | some n, some m => if n = m then faultAll d5 n 0x0601 else d5
  | _, _ => d5

/-- A flit that arrives bad is discarded and asked for again (R257): the flits from its number on are sent once more. Sixteen
naks in a row of one number end the direction (R258). -/
def nakFlit (d : Dev) (die p : Nat) (k : Nat × Nat) (seq : Nat) : Dev :=
  let l := d.link k
  let n := if l.nakSeq = seq ∧ l.naks ≠ 0 then l.naks + 1 else 1
  let again := (l.seq + 4096 - seq) % 4096
  let d1 := ((d.inc (R.JLINK_CRC_CNT die p) 1).inc (R.JLINK_RETRY_CNT k.1 k.2) 1).setLink k { l with nakSeq := seq, naks := n }
  if 16 ≤ n then linkDown d1 k.1 k.2 else d1.inc64 (R.JLINK_TX_FLITS_LO k.1 k.2) again

/-- The bytes of a flit with the one at a position changed. -/
def flipByte (bs : List Byte) (e : Nat × Byte) : List Byte :=
  bs.zipIdx.map (fun b => if b.2 = e.1 then b.1 ^^^ e.2 else b.1)

/-- Whether what arrives passes the CRC (R256): the CRC of the sent bytes follows them. -/
def intact (f : Flit) (err : Option (Nat × Byte)) : Bool :=
  match err with
  | none => true
  | some e =>
    let sent := flitBytes f ++ leBytes 4 (crcEther (flitBytes f))
    let got := flipByte sent e
    crcEther (got.take 268) == ofLe (got.drop 268)

/-- The first flit of a link comes in intact, in the order of the numbers, and joins its channel's queue (R256, R263). -/
def arrived (l : Link) : Link :=
  match l.queue with
  | [] => l
  | f :: t => { l with queue := t, held := l.held ++ [f], naks := 0, last := some f.seq }

/-- The first of the flits that have come in which the die at the link's end can take, and the link without it. -/
def nextFlit (d : Dev) (die : Nat) (k : Nat × Nat) : Option (Flit × Link) :=
  let l := arrived (d.link k)
  match l.held.find? (canTake d die) with
  | none => none
  | some f => some (f, { l with held := l.held.erase f })

/-- What comes next over a link: the first flit on its way, else the idle flit of an empty slot; its sequence number, that of the
flit to come where it is idle. -/
def comingFlit (d : Dev) (k : Nat × Nat) : Flit × Nat :=
  match (d.link k).queue with
  | [] => (idleFlit d k, (d.link k).seq)
  | f :: _ => (f, f.seq)

/-- A flit arrives at port p of a die (R256 to R258, R263). A bad one stays for its replay, and all after it with it; after an
intact one the die takes the first flit it can of those that are in. -/
def flitRx (die p : Nat) (err : Option (Nat × Byte)) (d : Dev) : Dev :=
  let k := (neighbour die p, opposite p)
  if !linkUp d k then d
  else if !intact (comingFlit d k).1 err then nakFlit d die p k (comingFlit d k).2
  else match nextFlit d die k with
    | none => if (d.link k).queue.isEmpty then d else pumpLink (d.setLink k (arrived (d.link k))) (reverse k)
    | some (f, l) => pumpLink (pumpLink (deliver (d.setLink k l) die f) k) (reverse k)

/-- The margin probe of a port (R261). -/
def marginProbe (die p margin : Nat) (d : Dev) : Dev :=
  if !linkUp d (die, p) then d
  else
    let d1 := d.setFld (R.JLINK_MARGIN die p) 31 16 margin
    let thr := d.rd (R.JLINK_MARGIN_THR die p)
    let d2 := if margin < bits thr 15 0 then postReg d1 sevEvent (R.JLINK_MARGIN die p) 0 else d1
    if margin < bits thr 31 16 then flagBit d2 sevAlarm (R.JLINK_STAT die p) 2 else d2

/-! ## Two-phase commit -/

/-- The step commands of a die in a collective, undecided. -/
def stepCores (d : Dev) (die id : Nat) : List (Nat × Flight × CollFlight) :=
  (collCores d die id).filterMap (fun e => e.2.coll.bind (fun cf => if cf.decided then none else some (e.1, e.2, cf)))

/-- Whether a core of a member has done its part (R275). -/
def coreReady (d : Dev) (die : Nat) (e : Nat × Flight × CollFlight) : Bool :=
  (d.cs die e.1).phase == .worked && e.2.2.unsent == 0 && (e.2.2.hearsFrom.isNone || e.2.2.received == e.2.2.size)

/-- The partition of a die, as its port. -/
def portOf (d : Dev) (die : Nat) : Port := d.port ((ownerOf d die).getD 0)

/-- A member with its step prepared and DONE from every other member commits it in its cores' slots (R276), and
records the laggard (R278). -/
def decideStep (d : Dev) (die id : Nat) : Dev :=
  let k := d.coll die id
  match k.prepared, stepCores d die id with
  | some t, e :: rest =>
    let cf := e.2.2
    if k.done.length + 1 < cf.p then d
    else
      let p := portOf d die
      let times := (die, t) :: k.done
      let latest := times.foldl (fun m x => max m x.2) 0
      let earliest := times.foldl (fun m x => min m x.2) latest
      let slow := ((times.filter (fun x => x.2 == latest)).map (fun x => relDie p x.1)).foldl min 15
      let d1 := (e :: rest).foldl (fun (x : Dev) (m : Nat × Flight × CollFlight) =>
        x.setCs die m.1 { x.cs die m.1 with flight := some { m.2.1 with coll := some { m.2.2 with decided := true } } }) d
      let d2 := (d1.setColl die id { k with prepared := none, done := [] }).inc (R.COLL_STEPS die 0) 1
      let d3 := (d2.wr (R.COLL_LAGGARD die 0) (2 ^ 8 * min (latest - earliest) (2 ^ 24 - 1) + slow)).wr
        (R.COLL_LAG_STEP die 0) (2 ^ 16 * id + cf.step % 256)
      d3.inc (R.COLL_LAGGARD_CNT die 0 slow) 1
  | _, _ => d

/-- A member prepares its step and sends DONE to the others (R275). -/
def prepare (die id : Nat) (d : Dev) : Dev :=
  match stepCores d die id with
  | [] => d
  | e :: rest =>
    let all := e :: rest
    let named := (List.range 64).filter (fun c => bit e.2.2.cores c)
    if (d.coll die id).prepared.isSome || !named.all (fun c => all.any (fun m => m.1 == c && coreReady d die m)) then d
    else
      let t := sourceNs d die
      let d1 := d.setColl die id { d.coll die id with prepared := some t }
      let others := (collMembers (portOf d die) die e.2.2).filter (· != die)
      let d2 := others.foldl (fun x m => x.setColl m id { x.coll m id with due := (x.coll m id).due ++ [(die, t)] }) d1
      decideStep d2 die id

/-- A DONE token arrives (R276). Tokens of a sender keep their order: a NOGO on its way arrives first. -/
def doneToken (die id sender : Nat) (d : Dev) : Dev :=
  let k := d.coll die id
  match k.due.find? (fun t => t.1 == sender) with
  | none => d
  | some t =>
    if k.nogoDue.contains sender || !tokenRoute d (rowsAround d die) sender die then d
    else
      let d1 := controlToken d (rowsAround d die) sender die
      decideStep (d1.setColl die id { k with due := k.due.erase t, done := k.done ++ [t] }) die id

/-- A NOGO token whose route VC3 serves arrives (R259, R260): the member's step command is killed (R277). -/
def nogoToken (die id : Nat) (d : Dev) : Dev :=
  let k := d.coll die id
  match k.nogoDue.find? (fun s => tokenRoute d (rowsAround d die) s die) with
  | none => d
  | some s =>
    let d1 := (controlToken d (rowsAround d die) s die).setColl die id { k with nogoDue := k.nogoDue.erase s }
    match stepCores d1 die id, ownerOf d1 die with
    | _ :: _, some n => killMember d1 (((d1.port n).run.map (·.slot)).getD 0) die id false
    | _, _ => d1

/-- A FAULT token arrives: the participating cores of the die end with COLL_PEER_FAULT (R277). -/
def faultToken (die id sender : Nat) (d : Dev) : Dev :=
  let k := d.coll die id
  match k.faultDue.find? (fun t => t.1 == sender) with
  | none => d
  | some t =>
    if !tokenRoute d (rowsAround d die) sender die then d
    else
    let d0 := controlToken d (rowsAround d die) sender die
    let d1 := t.2.foldl (fun x c => postFault x (.core die c) 0x0302 (2 ^ 24 * sender) 0) d0
    d1.setColl die id { d1.coll die id with faultDue := k.faultDue.erase t }

/-- The silent die (R279): the upstream member whose flits are incomplete, else the nearest upstream whose DONE is
missing; none when nothing is awaited from others, as of a step that is decided. -/
def silentDie (d : Dev) (die id : Nat) (es : List (Nat × Flight × CollFlight)) : Option Nat :=
  match es.find? (fun e => e.2.2.hearsFrom.isSome && e.2.2.received != e.2.2.size) with
  | some e => e.2.2.hearsFrom
  | none =>
    match es with
    | [] => none
    | e :: _ =>
      let cf := e.2.2
      let ms := collMembers (portOf d die) die cf
      let at' := (ms.findIdx? (· == die)).getD 0
      let up := (List.range (cf.p - 1)).map (fun i =>
        ms.getD ((if cf.minus && cf.p != 2 then at' + i + 1 else at' + (cf.p - 1 - i)) % cf.p) die)
      if es.any (fun q => q.2.2.decided) then none
      else up.find? (fun m => !((d.coll die id).done.any (fun t => t.1 == m)))

/-- Every step command of a die in a collective, decided or not. -/
def uncommitted (d : Dev) (die id : Nat) : List (Nat × Flight × CollFlight) :=
  (collCores d die id).filterMap (fun e => e.2.coll.map (fun cf => (e.1, e.2, cf)))

/-- The step watchdog expires before the step has committed (R279): the step faults, its peers with it. DESIGN CHOICE: where
every flit and token is there, R279 names no silent die and the field is open (log 100). -/
def collTimeout (die id : Nat) (late : Bool) (d : Dev) : Dev :=
  match uncommitted d die id with
  | [] => d
  | e :: rest =>
    match here d die e.1 with
    | none => d
    | some h =>
      let q : Nat × Dev := match silentDie d die id (e :: rest) with
        | some q => (q, d)
        | none => (Config.freeNat d.fresh % 16, { d with fresh := d.fresh + 1 })
      cmdStop q.2 h die e.1 { code := 0x0902, die := q.1, info1 := if late then 2 ^ 31 else 0 }

/-! ## The rows -/

/-- LINK_FLIT_RX (R256 to R258, R263, R274). -/
def execLinkFlitRx (die : Fin 16) (p : Fin 4) (err : Option (Nat × Byte)) (s : State) : Host.Outcome State Fault Refusal :=
  .next { s with dev := flitRx die.val p.val err s.dev }

/-- MARGIN_PROBE (R261). -/
def execMarginProbe (die : Fin 16) (p : Fin 4) (margin : Nat) (s : State) : Host.Outcome State Fault Refusal :=
  .next { s with dev := marginProbe die.val p.val margin s.dev }

/-- COLL_PREPARE (R275). -/
def execCollPrepare (die : Fin 16) (id : Nat) (s : State) : Host.Outcome State Fault Refusal :=
  .next { s with dev := prepare die.val id s.dev }

/-- COLL_DONE_TOKEN (R276, R278). -/
def execCollDoneToken (die : Fin 16) (id : Nat) (sender : Fin 16) (s : State) : Host.Outcome State Fault Refusal :=
  .next { s with dev := doneToken die.val id sender.val s.dev }

/-- COLL_NOGO (R277). -/
def execCollNogo (die : Fin 16) (id : Nat) (s : State) : Host.Outcome State Fault Refusal :=
  .next { s with dev := nogoToken die.val id s.dev }

/-- COLL_FAULT_TOKEN (R277). -/
def execCollFaultToken (die : Fin 16) (id : Nat) (sender : Fin 16) (s : State) : Host.Outcome State Fault Refusal :=
  .next { s with dev := faultToken die.val id sender.val s.dev }

/-- COLL_TIMEOUT (R279). -/
def execCollTimeout (die : Fin 16) (id : Nat) (late : Bool) (s : State) : Host.Outcome State Fault Refusal :=
  .next { s with dev := collTimeout die.val id late s.dev }

end Sys2Proof.Machine
end

