-- ==== Sys2Proof/Machine/Sequencer.lean ====
section
/-! DEFINITION. The sequencer's own opcodes (R34): NOP, the layer marker (R456), CTR_FETCH (R49), STEP_END. -/

namespace Sys2Proof.Machine
open Sys2Proof

/-- The layer of a marker: engine bits [63:56] (R34). -/
def markerLayer (c : Cmd) : Nat := bits c.eng 63 56

/-- 0x000 NOP without a layer. -/
def opNop : OpSpec := { opcode := 0x000, mine := fun c => markerLayer c == 0 }

/-- The active variant's part of section 0 for a core: segment record and command count (R456). -/
def markerSegment (x : Ctx) : Nat × Nat :=
  let ps := x.p.slot x.slot
  match recipeEntry x.dev x.p ps (markerLayer x.cmd) with
  | none => (0, 0)
  | some e =>
    let sg := segRecord x.dev x.p ps e
    (sg, (dirEntry x.dev x.p ps (segPart x.dev x.p ps sg 0).1 (relCore x.p x.die x.core)).2)

/-- 0x000 NOP with a layer: the layer marker. A layer without an entry faults at decode; at its commit the core
goes on with the active variant's commands. The variant's slot tables take over once the first core of the die has issued
it (R456). DESIGN CHOICE: where the marker of a layer stands several times in the streams, the first core to issue it for the n-th
time is the first of that issue (log 144). -/
def opMarker : OpSpec where
  opcode := 0x000
  mine := fun c => markerLayer c != 0
  layer := markerLayer
  check := fun x => require (recipeEntry x.dev x.p (x.p.slot x.slot) (markerLayer x.cmd)).isSome
  atIssue := fun x d =>
    let ps := x.p.slot x.slot
    let sg := (markerSegment x).1
    let layer := markerLayer x.cmd
    let cs := d.cs x.die x.core
    let times := look 0 cs.marks layer + 1
    let first := d.cores.all (fun e => decide (e.1.1 ≠ x.die) || decide (look 0 e.2.marks layer < times))
    let d1 := d.setCs x.die x.core { cs with marks := put cs.marks layer times }
    (if first then pumpDie ((List.range 3).foldl (fun (y : Dev) i =>
      if (segPart x.dev x.p ps sg (i + 1)).2 = 0 then y else { y with tabs := put y.tabs (x.die, i) sg }) d1) x.die else d1, false)
  next := fun x _ s =>
    let seg := markerSegment x
    ({ s with segOff := seg.1, segPos := 0, segLeft := seg.2 + 1 }).advance

/-- CTR_FETCH: counter in engine bits [63:58], amount in [57:42] (R49). -/
def fetchCtr (c : Cmd) : Nat := bits c.eng 63 58
def fetchAmount (c : Cmd) : Nat := bits c.eng 57 42

/-- The value CTR_FETCH writes and the counter after it: exhausted leaves the counter and sets bit 31 (R49). -/
def fetchResult (v lim amount : Nat) : Nat × Nat :=
  if lim < v + amount then (2 ^ 31 + v % 2 ^ 31, v) else (v, v + amount)

/-- 0x001 CTR_FETCH: read, increment and commit are one event. -/
def opCtrFetch : OpSpec where
  opcode := 0x001
  descs := fun x => [tmDesc x 2]
  check := fun x => require (fetchAmount x.cmd != 0)
  mask := fun _ => 0b000100
  writes := fun x => [x.region 2]
  work := fun x => access (x.region 2) 0 4
  fill := fun x f d =>
    let r := fetchResult (ctrVal d x.die x.slot (fetchCtr x.cmd)) (ctrLim d x.die x.slot (fetchCtr x.cmd)) (fetchAmount x.cmd)
    ({ f with writes := (x.region 2).writes d 0 (leBytes 4 r.1) },
     setCtr d x.die x.slot (fetchCtr x.cmd) r.2)

/-- 0x002 STEP_END: the core has ended the step; with the last core of the die its base tables return (R456). -/
def opStepEnd : OpSpec where
  opcode := 0x002
  atCommit := fun x _ d0 =>
    let d := idle d0 (.core x.die x.core)
    if (List.range 64).all (fun c => c == x.core || (d.cs x.die c).phase == .ended) then
      pumpDie { d with tabs := without (fun k => k.1 == x.die) d.tabs } x.die
    else d
  next := fun _ _ s => { s.advance with phase := .ended }

/-- NOP (R34). -/
def execNop (k : CoreIx) (u : Upset) (s : State) : Host.Outcome State Fault Refusal :=
  .next { s with dev := issueRow opNop k u s.dev }

/-- LAYER_MARKER (R456). -/
def execLayerMarker (k : CoreIx) (u : Upset) (s : State) : Host.Outcome State Fault Refusal :=
  .next { s with dev := issueRow opMarker k u s.dev }

/-- CTR_FETCH (R49). -/
def execCtrFetch (k : CoreIx) (u : Upset) (s : State) : Host.Outcome State Fault Refusal :=
  .next { s with dev := issueRow opCtrFetch k u s.dev }

/-- STEP_END (R34). -/
def execStepEnd (k : CoreIx) (u : Upset) (s : State) : Host.Outcome State Fault Refusal :=
  .next { s with dev := issueRow opStepEnd k u s.dev }

end Sys2Proof.Machine
end

