-- ==== Sys2Proof/Machine/Progress.lean ====
section
/-! DEFINITION. What moves commands on after their issue: acquires (R50, R53), commits (R41), the die controller's
transfers (R153, R154, R205, R230), failed host-tier reads (R225), the issue ramp (R101, R102). -/

namespace Sys2Proof.Machine
open Sys2Proof

/-- Every opcode of the device. -/
def specs : List OpSpec :=
  [opNop, opMarker, opCtrFetch, opStepEnd, opMm, opVeEw, opVeRed, opVeNorm, opVeSoftmax, opVeCombine, opVeQuant,
   opVeQuantEf, opVeDwconv, opVeSfu, opVeSfuLoad, opAttPart, opAttPin, opKvWrite, opKvCopy, opConv, opPxeIn, opPxeOut,
   opComaLoad, opBwMm, opBwAdapt, opBwAtt, opBwNorm, opBwSoftmax, opAstPush, opAstPop, opUpdate, opSeCopy, opSePut,
   opTcuTblLoad, opTcuPack, opTcuUnpack, opClRs, opClAg, opMmRs, opAgMm]

/-- The particulars of a command. -/
def specOf (c : Cmd) : Option OpSpec := specs.find? (fun o => o.opcode == c.opcode && o.mine c)

/-- A core whose command is in flight in some phase, with the command's particulars. -/
def inFlight (d : Dev) (die c : Nat) (ph : Phase) : Option (Here × Flight × OpSpec) :=
  match here d die c with
  | none => none
  | some h =>
    match h.cs.flight with
    | none => none
    | some f => if h.cs.phase = ph then (specOf f.cmd).map (fun o => (h, f, o)) else none

/-! ## Acquire and commit -/

/-- A slot of a waiting core (R50): the acquire completes, or the wait goes on past it (R232). A poisoned semaphore faults (R389).
DESIGN CHOICE: an acquire of 0, which R43 leaves out, completes at its core's first slot (log 151). -/
def acquireSlot (k : CoreIx) (u : Upset) (d : Dev) : Dev :=
  let die := k.die.val
  let c := k.core.val
  match inFlight d die c .waitAcq with
  | none => d
  | some (h, f, op) =>
    let e := tailAt d h.p h.ps f.cmd.tailIndex
    let have' := semCount d die h.job.slot e.target
    if !ownsSlot d die h.job.slot c then d
    else if semBad d die h.job.slot e.target then cmdStop d h die c { code := 0x0501 }
    else if e.value ≤ have' then
      startWork op h die c u { f with acquired := some (e.target, e.value) } (setSem d die h.job.slot e.target (have' - e.value))
    else if tidePending h die e.target && !f.flags.tideMiss then
      (d.setCs die c { h.cs with flight := some { f with flags := { f.flags with tideMiss := true } } }).inc (R.TIDE_MISS_CNT die 0) 1
    else d

/-- An acquire's timeout expires (R53, R348, R349); late: a release came inside the window, and stays in the count. The timer
starts at a slot of the core, so a core without one never sees it expire. -/
def acquireTimeout (k : CoreIx) (late : Bool) (d : Dev) : Dev :=
  let die := k.die.val
  let c := k.core.val
  match inFlight d die c .waitAcq with
  | none => d
  | some (h, f, _) =>
    let e := tailAt d h.p h.ps f.cmd.tailIndex
    if !ownsSlot d die h.job.slot c ∨ bits e.operand 15 0 = 0 ∨ (late = true ∧ semCount d die h.job.slot e.target < e.value) then d
    else
      let d1 := d.inc (R.SEM_TIMEOUT_CNT die) 1
      let d2 := if late then d1.inc (R.SEM_LATE_CNT die) 1 else d1
      if bit e.operand 31 && f.cmd.opcode == 0 then
        d2.setCs die c { h.cs with phase := .worked, flight := some { f with flags := { f.flags with timeout := true, late := late } } }
      else cmdStop d2 h die c { code := 0x0901 }

/-- Whether a command's tail would read a poisoned semaphore or KVT entry (R389). -/
def tailPoisoned (d : Dev) (h : Here) (die : Nat) (f : Flight) : Bool :=
  !f.flags.timeout && (tailOf d h.p h.ps f.cmd).any (fun t =>
    (t.ty == 2 && semBad d die h.job.slot t.target) || (t.ty == 7 && d.kvtPoison.contains (die, bits t.operand 30 16)))

/-- A commit slot of a core: its command commits when it is done (R41, R42), or pins on when it is stalled (R152). -/
def commitSlot (k : CoreIx) (d : Dev) : Dev :=
  let die := k.die.val
  let c := k.core.val
  match inFlight d die c .worked, inFlight d die c .stalled with
  | some (h, f, op), _ => if !mayCommit d h die c f then d
      else if tailPoisoned d h die f then cmdStop d h die c { code := 0x0501 } else commitCmd op h die c f d
  | none, some (h, f, op) => if ownsSlot d die h.job.slot c then stalledSlot op h die c f d else d
  | none, none => d

/-- Every stalled core of a die whose wait is over goes on (R153, R205). -/
def proceedAll (d : Dev) (die : Nat) : Dev :=
  (List.range 64).foldl (fun x c => match inFlight x die c .stalled with
    | some (h, f, op) => proceed op h die c f.upset x
    | none => x) d

/-! ## Transfers of the die controller -/

/-- How a transfer ends: a fault for the partition's job on some page, or the device after it. -/
inductive Moved where
  | fault (pg : Page) (code info1 : Nat)
  | done (d : Dev)

/-- n bytes from one region to another, bounds and poison first (R40, R389, R224). The readers of what it writes get
unpredictable outputs; where a command is writing what it reads or writes, both its bytes and the command's outputs are
unpredictable (R44, R232), and so is what it moves to or from windows changed at a wrong time (R292). -/
def moveBytes (d : Dev) (die : Nat) (pg : Page) (src dst : Region) (n : Nat) : Moved :=
  if src.bound < n then .fault pg cRegion (failUnit src.bound 0)
  else if dst.bound < n then .fault pg cRegion (failUnit dst.bound 0)
  else if src.poisoned d 0 n then .fault pg (poisonCode src.space) 0
  else
    let span := fun (r : Region) => (r.pieces d 0 n).map (fun q => (⟨r.space, q.1, q.2⟩ : Span))
    let d1 := { d with mem := (dst.writes d 0 (src.bytes d 0 n)).foldl (fun m w => m.write w.space w.addr w.data) d.mem }
    let open' := [src, dst].any (fun r => r.space == .host && (d.port r.port).hostLoose)
    let d2 := if open' || beingWritten d 16 64 (span src ++ span dst) then scramble d1 (span dst) else carryMarks d1 (span src) (span dst)
    let hit := fun (_ : Nat × Nat) (f : Flight) => f.worked && spansMeet f.outs (span src ++ span dst)
    let d3 := countOpens (taintFlights (taintReaders d2 16 64 (span dst)) hit) (span src ++ span dst)
    let d4 := if src.space = .host then d3.inc64 (R.HOST_RD_LO die 0) n else d3
    .done (if dst.space = .host then d4.inc64 (R.HOST_WR_LO die 0) n else d4)

/-- What a transfer's end does to its partition. -/
def Moved.run (m : Moved) (d : Dev) (n : Nat) (k : Dev → Dev) : Dev :=
  match m with
  | .fault pg code info1 => faultRun (postFault d pg code 0 info1) n code false
  | .done d1 => k d1

/-- Slots for the die controller's own transfers (R221). -/
def dcServed (d : Dev) (r : Region) (n : Nat) : Bool :=
  ({ xfer := 0x3FFD, spans := [⟨r.space, r.base, n⟩] } : Move).served d

/-- A transfer of the die controller or of the tide reads a poisoned word of a table (R389). -/
def tableFault (pg : Page) (die : Nat) (d : Dev) : Dev := (Moved.fault pg 0x0501 0).run d ((ownerOf d die).getD 0) id

/-- The end of the frame after a spill copy (R154, R156). -/
def spillSwitch (die i : Nat) (d : Dev) : Dev :=
  let e := d.kv die i
  if e.state ≠ kvSpilling then d
  else if d.kvtPoison.contains (die, i) then tableFault (.kvt die) die d
  else if e.pinnedInSpill || e.pins != 0 then
    spillNext ((d.setKv die i { e with state := kvValid, pinnedInSpill := false }).inc (R.KVT_SPILL_ABORT die) 1) die
  else
    let f := frameRegion d die e.frame
    let n := kvPageSize d die
    if !dcServed d f n then d
    else (moveBytes d die (.kvt die) f (kvHome d die i) n).run d f.port (fun d1 =>
      let d2 := { d1 with taken := d1.taken.filter (· != (die, e.frame)) }
      spillNext ((d2.setKv die i { e with state := kvValid, tier := 2, addr := 0, frame := 0 }).inc (R.KVT_SPILL_CNT die) 1) die)

/-- A demand fetch ends (R153): the page is in a free frame; without one it waits. -/
def fetchDone (die i : Nat) (d : Dev) : Dev :=
  let e := d.kv die i
  if !d.fetching.contains (die, i) then d
  else if d.kvtPoison.contains (die, i) then tableFault (.kvt die) die { d with fetching := d.fetching.filter (· != (die, i)) }
  else
    let d0 := { d with fetching := d.fetching.filter (· != (die, i)) }
    if e.tier ≠ 2 ∨ e.state = kvFree then d0
    else match pickFree d0 (freeFrames d0 die) with
      | (none, _) => d
      | (some fr, d1) =>
        let f := frameRegion d1 die fr
        let n := kvPageSize d die
        if !dcServed d f n then d
        else (moveBytes d1 die (.kvt die) (kvHome d1 die i) f n).run d1 f.port (fun d2 =>
          let d3 := { d2 with taken := (die, fr) :: d2.taken }.setKv die i { e with tier := 1, addr := fr, frame := fr }
          proceedAll d3 die)

/-! ## The stack's transfers -/

/-- Slots for stack offsets lo … hi on the channels they lie in. -/
def astServed (d : Dev) (a : AstSet) (die xfer lo hi : Nat) : Bool :=
  ({ xfer := xfer, spans := astSpans a die lo hi } : Move).served d

/-- Stack bytes lo … hi copied between HBM and their host homes. -/
def astMove (d : Dev) (die : Nat) (a : AstSet) (n lo hi : Nat) (out : Bool) : Moved :=
  ((astPieces a.hbmSize (hi - lo) lo (hi - lo)).foldl (fun (acc : Moved × Nat) q => match acc.1 with
    | .fault pg c i => (.fault pg c i, acc.2)
    | .done x =>
      let hbm := astAt a die acc.2 q.2 n
      let host := astHome x a n acc.2 q.2
      (if out then moveBytes x die (.ast die) hbm host q.2 else moveBytes x die (.ast die) host hbm q.2, acc.2 + q.2))
    (.done d, lo)).1

/-- A spill up to offset hi and a fetch down to offset lo, with their marks (R205). -/
def astSpill (d : Dev) (die slot n hi : Nat) (k : Dev → Dev) : Dev :=
  let a := d.astSet die slot
  if hi ≤ a.spill then k d
  else (astMove d die a n a.spill hi true).run d n (fun d1 => k (d1.setAst die slot { d1.astSet die slot with spill := hi }))
def astFetch (d : Dev) (die slot n lo : Nat) (k : Dev → Dev) : Dev :=
  let a := d.astSet die slot
  if a.res ≤ lo then k d
  else (astMove d die a n lo a.res false).run d n (fun d1 => k (d1.setAst die slot { d1.astSet die slot with res := lo }))

/-- A demand transfer of the stack ends (R205, R221): at least what the waiting push or pop needs has moved, and how much
more is open. -/
def astTransfer (k : CoreIx) (u : Upset) (d : Dev) : Dev :=
  let die := k.die.val
  let c := k.core.val
  match inFlight d die c .stalled with
  | none => d
  | some (h, f, op) =>
    let slot := h.job.slot
    let x : Ctx := ⟨d, h.n, slot, die, c, f.cmd⟩
    let a := d.astSet die slot
    let push := f.cmd.opcode == 0x245
    let need := if push then a.sp + (pushBlocks x).1.2 + 64 - a.hbmSize else popNeeds d die a
    let served := fun (v : Nat) => if push then astServed d a die 0x3FFD a.spill v else astServed d a die 0x3FFD v a.res
    if !op.waits x || !served need then d
    else
      let (extra, d1) := d.draw
      let go := fun (y : Dev) => proceed op h die c u y
      if push then
        let more := min a.sp (need + 64 * (extra % ((a.sp - need) / 64 + 1)))
        astSpill d1 die slot h.n (if served more then more else need) go
      else
        let more := max (need - 64 * (extra % (need / 64 + 1))) (a.sp - a.hbmSize)
        astFetch d1 die slot h.n (if served more then more else need) go

/-! ## The tide completes -/

/-- A prefetched page arrives at its tier (R155): into tier 1 in a free frame; into tier 0 at the address of dst, its
HBM frame kept. A page that comes from its host home takes a frame at either tier. A page that is free-pending meanwhile stays
so (R157); one that is neither is left alone. -/
def prefetchDone (d : Dev) (die n i : Nat) (t : TideEnt) (k : Dev → Dev) : Dev :=
  let e := d.kv die i
  let sz := kvPageSize d die
  let state := if e.state = kvFreePending then kvFreePending else kvValid
  let raise := fun (x : Dev) (fr : Nat) =>
    if bits t.arg 16 15 = 1 then k (x.setKv die i { x.kv die i with state := state, tier := 1, addr := fr, frame := fr })
    else
      let addr := prefetchAddr t
      let dst : Region := ⟨1, .tm, tmBase die (bits addr 29 24) + 64 * bits addr 17 0, sz, min sz (tmSize - 64 * bits addr 17 0), n⟩
      (moveBytes x die (.kvt die) (frameRegion x die fr) dst sz).run x n (fun y =>
        k (y.setKv die i { y.kv die i with state := state, tier := 0, addr := addr, frame := fr }))
  let served := fun (x : Dev) (fr : Nat) => ({ xfer := t.xfer, spans := [⟨.hbm, (frameRegion x die fr).base, sz⟩] } : Move).served x
  if e.state ≠ kvPrefetch ∧ e.state ≠ kvFreePending then k d
  else if e.tier = 1 then (if served d e.frame then raise d e.frame else d)
  else match pickFree d (freeFrames d die) with
    | (none, _) => d
    | (some fr, d1) =>
      if !served d fr then d
      else (moveBytes d1 die (.kvt die) (kvHome d1 die i) (frameRegion d1 die fr) sz).run d1 n (fun d2 =>
        raise { d2 with taken := (die, fr) :: d2.taken } fr)

/-- Router ports a copy between two regions of a die crosses: between the tile memories of two cores only. -/
def copyPorts (die : Nat) (src dst : Region) : List (Nat × Nat × Nat) :=
  match src.core, dst.core with
  | some a, some b => netPorts die a b
  | _, _ => []

/-- Whether an entry's identifier owns the slots its move needs (R54). -/
def tideServed (d : Dev) (n : Nat) (p : Port) (slot : Nat) (t : TideEnt) : Bool :=
  let die := baseDie p + t.die
  let a := d.astSet die slot
  match t.kind with
  | 0 =>
    let src := tideRegion d n slot p t 0 t.src
    let dst := tideRegion d n slot p t 2 t.dst
    ({ xfer := t.xfer, spans := src.spans d ++ dst.spans d, ports := copyPorts die src dst } : Move).served d
  | 2 => astServed d a die t.xfer a.spill (spillTo a t)
  | 3 => astServed d a die t.xfer (fetchTo a t) a.res
  | _ => true

/-- A fired entry completes at the end of a frame (R230 to R232, R155, R205). The transfers of one identifier on a die complete
in the order they started (R56); a kill broadcast leaves none in flight (R233). -/
def tideComplete (n i : Nat) (d : Dev) : Dev :=
  let p := d.port n
  match p.tides[i]? with
  | some t =>
    let die := baseDie p + t.ent.die
    let slot := t.slot
    if p.mode = .draining ∨ p.mode = .saving ∨ (t.ent.kind < 4 ∧ turnTaken d die 64 t.ent.xfer t.order) then d
    else if !tideServed d n p slot t.ent then d
    else if t.ent.semEn && semBad d die slot t.ent.sem || t.ent.kind == 1 && d.kvtPoison.contains (die, bits t.ent.arg 14 0) then
      tableFault (.hbmc die 0) die d
    else
      let met := (tideSpans d n t).2
      let overs := fun (x0 : Dev) =>
        let x := if t.hazard then scramble x0 (if t.ent.kind = 1 then kvPlaces x0 die (bits t.ent.arg 14 0) else met) else x0
        let y := (x.setPort n { x.port n with tides := (x.port n).tides.eraseIdx i }).inc (R.TIDE_DONE die 0) 1
        spillNext (proceedAll (if t.ent.semEn then unhold (semRelease y die slot t.ent.sem 1) die t.ent.sem else y) die) die
      match t.ent.kind with
      | 0 =>
        let src := tideRegion d n slot p t.ent 0 t.ent.src
        (moveBytes d die (.hbmc die 0) src (tideRegion d n slot p t.ent 2 t.ent.dst) src.len).run d n overs
      | 1 => prefetchDone d die n (bits t.ent.arg 14 0) t.ent overs
      | 2 => astSpill d die slot n (spillTo (d.astSet die slot) t.ent) overs
      | 3 => astFetch d die slot n (fetchTo (d.astSet die slot) t.ent) overs
      | _ => overs d
  | none => d

/-! ## Failed host-tier reads -/

/-- Whether a command in flight is reading the host tier. -/
def readsHost (d : Dev) (h : Here) (die : Nat) (f : Flight) (op : OpSpec) : Bool :=
  match h.cs.phase with
  | .worked => f.cmd.opcode == 0x180 && isHost f.cmd.d0
  | .stalled => f.missing.any (fun i => d.fetching.contains (die, i)) ||
      (f.cmd.opcode == 0x246 && op.waits ⟨d, h.n, h.job.slot, die, 0, f.cmd⟩)
  | _ => false

/-- Whether a tide entry reads the host tier. -/
def tideReadsHost (d : Dev) (die : Nat) (t : TideEnt) : Bool :=
  match t.kind with
  | 0 => isHost t.src
  | 1 => (d.kv die (bits t.arg 14 0)).tier == 2
  | 3 => true
  | _ => false

/-- A host-tier read fails (R225, R349): the fault of the command or entry that issued it. -/
def hostTierFail (r : HostReader) (f : HostFail) (d : Dev) : Dev :=
  let late := f == .timedOut true
  let info := if late then 2 ^ 31 else 0
  let d1 := if late then d.inc R.TIME_LATE_CNT 1 else d
  match r with
  | .core k =>
    match here d k.die.val k.core.val with
    | none => d
    | some h =>
      match h.cs.flight with
      | none => d
      | some g =>
        match specOf g.cmd with
        | none => d
        | some op => if readsHost d h k.die.val g op then cmdStop d1 h k.die.val k.core.val { code := 0x0510, info1 := info } else d
  | .tide n i =>
    let p := d.port n.val
    match p.tides[i]? with
    | some t =>
      let die := baseDie p + t.ent.die
      if p.mode != .draining && p.mode != .saving && tideReadsHost d die t.ent then
        faultRun (postFault d1 (.hbmc die 0) 0x0510 0 info) n.val 0x0510 false
      else d
    | none => d

/-! ## The issue ramp -/

/-- A core's prologue cap at a window boundary (R102): it starts, or rises at every period-th boundary after. DESIGN CHOICE: with
a period of 0, which the table leaves out, it never rises (log 95). -/
def capStep (k : Nat × Nat × Nat) : Nat × Nat × Nat :=
  if k.2.2 = 0 then (k.1, k.2.1, 1)
  else (if k.2.2 % k.2.1 = 0 then min 16 (k.1 + 1) else k.1, k.2.1, k.2.2 + 1)

/-- Per-die power state. -/
def Dev.dp (d : Dev) (die : Nat) : DiePw := look {} d.dpw die
def Dev.setDp (d : Dev) (die : Nat) (q : DiePw) : Dev := { d with dpw := put d.dpw die q }

/-- The cap of the droop response (R332). -/
def cutCap (q : DiePw) : Nat := if q.cut || q.droop then 8 else 16

/-- Held cycles of a window whose grant is the least cap (R103): all of them while the droop cut stood as it stands, those
measured where it began or ended in the window. -/
def grantHeld (q : DiePw) (grant ramp held throttled : Nat) : Nat :=
  if 16 ≤ grant ∨ ramp < grant then 0
  else if grant ≤ 8 then held
  else if q.cutTurned then min throttled held
  else if cutCap q < grant then 0 else held

/-- The cap of the droop response over a whole window: 16 where it began or ended in the window. -/
def standingCut (q : DiePw) : Nat := if q.cutTurned then 16 else cutCap q

/-- A 250 ns window begins (R101 to R103, R324): the grant that arrived applies, the caps follow, held cycles of the
window before are counted. Engines issue below the caps in force alone, and so does the fraction measured stay. -/
def rampWindow (die frac0 held throttled : Nat) (d : Dev) : Dev :=
  let q := d.dp die
  let d1 := match q.pendingGrant with
    | some g => d.setFld (R.PWR_GRANT die) 4 0 g
    | none => d
  let grant := d1.fld (R.PWR_GRANT die) 4 0
  let before := min 16 (q.frac + 1)
  let oldGrant := d.fld (R.PWR_GRANT die) 4 0
  let frac := min frac0 (min (min before oldGrant) (standingCut q))
  let ramp := min 16 (frac + 1)
  let d2 := (d1.setDp die { q with frac := frac, pendingGrant := none, cutTurned := false }).setFld (R.CORE_RAMP_LVL die) 4 0 (min ramp grant)
  let d3 := d2.inc64 (R.CORE_RAMP_STALL_LO die) held
  let d4 := d3.inc64 (R.PWR_THROT_LO die) (grantHeld q oldGrant before held throttled)
  { d4 with cores := d4.cores.map (fun (e : (Nat × Nat) × CoreSt) =>
      if e.1.1 = die then (e.1, { e.2 with cap := e.2.cap.map capStep }) else e) }

/-! ## The rows -/

/-- SEM_ACQUIRE (R50). -/
def execSemAcquire (k : CoreIx) (u : Upset) (s : State) : Host.Outcome State Fault Refusal :=
  .next { s with dev := acquireSlot k u s.dev }

/-- SEM_TIMEOUT (R53). -/
def execSemTimeout (k : CoreIx) (late : Bool) (s : State) : Host.Outcome State Fault Refusal :=
  .next { s with dev := acquireTimeout k late s.dev }

/-- COMMIT (R41). -/
def execCommit (k : CoreIx) (s : State) : Host.Outcome State Fault Refusal :=
  .next { s with dev := commitSlot k s.dev }

/-- KV_SPILL_SWITCH (R154). -/
def execKvSpillSwitch (die : Fin 16) (i : Fin 32768) (s : State) : Host.Outcome State Fault Refusal :=
  .next { s with dev := spillSwitch die.val i.val s.dev }

/-- KV_DEMAND_FETCH_DONE (R153). -/
def execKvDemandFetchDone (die : Fin 16) (i : Fin 32768) (s : State) : Host.Outcome State Fault Refusal :=
  .next { s with dev := fetchDone die.val i.val s.dev }

/-- AST_DEMAND_TRANSFER_DONE (R205). -/
def execAstDemandTransferDone (k : CoreIx) (u : Upset) (s : State) : Host.Outcome State Fault Refusal :=
  .next { s with dev := astTransfer k u s.dev }

/-- TIDE_COMPLETE (R230). -/
def execTideComplete (n : Fin 4) (i : Nat) (s : State) : Host.Outcome State Fault Refusal :=
  .next { s with dev := tideComplete n.val i s.dev }

/-- HOST_TIER_TIMEOUT (R225). -/
def execHostTierTimeout (r : HostReader) (f : HostFail) (s : State) : Host.Outcome State Fault Refusal :=
  .next { s with dev := hostTierFail r f s.dev }

/-- RAMP_WINDOW (R101). -/
def execRampWindow (die : Fin 16) (frac : Fin 17) (held throttled : Nat) (s : State) : Host.Outcome State Fault Refusal :=
  .next { s with dev := rampWindow die.val frac.val held throttled s.dev }

end Sys2Proof.Machine
end

