-- ==== Sys2Proof/Machine/Queue.lean ====
section
/-! DEFINITION. The queue processor of a host (R293 to R318): doorbells, entries, yields (R303), eclipses (R304 to
R310), step boundaries and switches (R299, R235), the step watchdog (R315), the completion ring's head (R297). -/

namespace Sys2Proof.Machine
open Sys2Proof

/-! ## Entries -/

/-- Entries of a queue's ring; queue 0 has 63 (R293). -/
def queueSize (u : Queue) (q : Nat) : Nat := if q = 0 then 63 else u.sizeM1 + 1

/-- Entry j of the inline page (R293, R317). -/
def inlineEntry (d : Dev) (n j : Nat) : QEntry :=
  let w := fun (i : Nat) => d.rd ⟨.hq1 n, 0x40 + 64 * j + 4 * i⟩
  ⟨bits (w 0) 7 0, bits (w 0) 15 8, bits (w 0) 23 16, w 1, w 2 + 2 ^ 32 * w 3, w 4 + 2 ^ 32 * w 5, w 6 + 2 ^ 32 * w 7⟩

/-- Offsets of the words of entry j of the inline page. -/
def inlineWords (j : Nat) : List Nat := (List.range 16).map (fun i => 0x40 + 64 * j + 4 * i)

/-- An entry whose contents are unpredictable (R294, R317, R318). -/
def freeEntry (c : Nat) : QEntry :=
  let w := fun (i n : Nat) => Config.freeNat (c + i) % 2 ^ n
  ⟨w 0 8, w 1 8, w 2 8, w 3 32, w 4 64, w 5 64, w 6 64⟩

/-- k entries of the inline page, from place i on: one that was not completely written since the head last passed it is
unpredictable (R317). -/
def inlineEntries (d : Dev) (n i k : Nat) : List QEntry :=
  (List.range k).map (fun x =>
    let j := (i + x) % 63
    if (inlineWords j).all (fun o => (d.port n).inl.contains o) then inlineEntry d n j else freeEntry (d.fresh + 7 * x))

/-- k entries read by the QP: those given, then unpredictable ones. -/
def takeEntries (d : Dev) : Nat → List QEntry → List QEntry × Dev
  | 0, _ => ([], d)
  | k + 1, e :: t => let r := takeEntries d k t; (e :: r.1, r.2)
  | k + 1, [] =>
    let r := takeEntries { d with fresh := d.fresh + 7 } k []
    (freeEntry d.fresh :: r.1, r.2)

/-! ## The eclipse begins -/

/-- Whether a kill lets a core's command run to its commit (R305, R46). -/
def outlives (d : Dev) (p : Port) (rs : List LiveRange) (die c : Nat) (f : Flight) : Bool :=
  f.cmd.nk || (specOf f.cmd).any (·.alwaysNk) || inHold rs (relCore p die c) (d.cs die c).boundary

/-- The kill broadcast (R304, R305, R277, R233). -/
def killBroadcast (d : Dev) (n : Nat) : Dev :=
  let p := d.port n
  match p.run with
  | none => d
  | some j =>
    let rs := liveRanges d p (p.slot j.slot)
    let inFl := fun (x : Dev) => ((coresOf (partDies p)).filter (fun k => (x.cs k.1 k.2).flight.isSome)).length
    let d1 := (coresOf (partDies p)).foldl (fun (x : Dev) k =>
      match (x.cs k.1 k.2).flight with
      | none => x
      | some f => if outlives x p rs k.1 k.2 f then x else killAt x n j.slot k.1 k.2 false) d
    let d2 := d1.setPort n { d1.port n with mode := .draining, yieldPoint := none }
    (d2.inc (R.HQ_ECLIPSE_CNT n) 1).inc (R.HQ_KILL_CNT n) (inFl d - inFl d1)

/-- A class-0 doorbell with a valid step (R304, R310): nothing while a class-0 step runs, is pending or waits in the queue from an
earlier bell; else its time is noted, a running step of another class is eclipsed, and a restore is abandoned. -/
def classZeroBell (d : Dev) (n : Nat) (earlier : Bool) : Dev :=
  let p := d.port n
  if earlier || p.jobs.any (fun j => j.cls == 0) || p.run.any (fun j => j.cls == 0) then d
  else
    let d1 := d.setPort n { p with dbTime := some (elapsedNs d) }
    match p.mode with
    | .running | .yielding => killBroadcast d1 n
    | .switching =>
      let d2 := switchOver d1 n
      (d2.setPort n { d2.port n with mode := .idle, run := none, resuming := false, ranOnce := false }).inc (R.HQ_ECLIPSE_CNT n) 1
    | _ => d1

/-- SQ_DOORBELL: a tail index written to HQ_DB_q (R293, R294); it wakes the partition (R337). -/
def doorbell (n q tail : Nat) (given : List QEntry) (d0 : Dev) : Dev :=
  let d := if (d0.port n).valid then wake d0 n else d0
  let p := d.port n
  let u := p.queue q
  if !p.up || !p.valid || !u.en then d
  else if queueSize u q ≤ tail then countEvent d (R.HQ_REJ_CNT n)
  else
    let size := queueSize u q
    let total := (tail + size - u.head % size) % size
    let old := u.entries.take total
    let k := total - old.length
    let (new, d1) := if q = 0 ∧ !u.loose then (inlineEntries d n (u.head + old.length) k, { d with fresh := d.fresh + 7 * k })
      else takeEntries d k (if u.loose then [] else given)
    let d2 := d1.setPort n (p.setQueue q { u with tail := tail, entries := old ++ new })
    let steps := new.filter (fun e => e.op == 1 && !entryBad d2 (d2.port n) q e)
    if q = 0 then (if steps.isEmpty then d2 else classZeroBell d2 n (c0Waiting d (p.setQueue q { u with entries := old })))
    else considerYield d2 n (pendingSteps p ++ steps.map (fun e => (queueCls u q, entrySlot u q e)))

/-! ## The entries' rows -/

/-- The QP reads the entry at a queue's head when its op is the row's, or reserved: HQ_HEAD passes it; one of R296 is
rejected. A rejected class-0 entry leaves the QP nothing to wait for. -/
def readEntry (op n q : Nat) (k : Dev → Queue → QEntry → Nat → Dev) (d : Dev) : Dev :=
  let p := d.port n
  let u := p.queue q
  if !p.valid || !u.en then d
  else match u.entries with
    | [] => d
    | e :: t =>
      if e.op ≠ op ∧ 1 ≤ e.op ∧ e.op ≤ 5 then d
      else
        let bad := entryBad d p q e
        let ix := u.head
        let v := { u with head := (u.head + 1) % queueSize u q, entries := t }
        let gone := if q = 0 then inlineWords ix else []
        let d1 := idle (d.setPort n { p.setQueue q v with inl := p.inl.filter (fun o => !gone.contains o) }) (.hq0 n)
        if bad then schedule (bellSpent (entryDone (d1.inc (R.HQ_REJ_CNT n) 1) n q ix 0x010E e.tag (bit e.flags 0) false) n) n
        else k d1 v e ix

/-- An accepted entry is outstanding until it completes. -/
def outstanding (d : Dev) (n q ix : Nat) : Dev :=
  let p := d.port n
  let u := p.queue q
  d.setPort n (p.setQueue q { u with outstanding := u.outstanding ++ [ix] })

/-- RUN_STEP (R295, R299). -/
def runStepEntry (n q : Nat) (d : Dev) (u : Queue) (e : QEntry) (ix : Nat) : Dev :=
  let d1 := outstanding d n q ix
  let p := d1.port n
  let j : Job := ⟨q, ix, queueCls u q, entrySlot u q e, max 1 e.count, bit e.flags 0, e.tag⟩
  let d2 := schedule (d1.setPort n { p with jobs := p.jobs ++ [j] }) n
  considerYield d2 n (pendingSteps (d2.port n))

/-- LOAD_PLAN (R295): it loads when no plan of the partition runs. -/
def loadEntry (n q : Nat) (d : Dev) (u : Queue) (e : QEntry) (ix : Nat) : Dev :=
  let d1 := outstanding d n q ix
  let p := d1.port n
  schedule (d1.setPort n { p with loads := p.loads ++ [⟨q, ix, entrySlot u q e, e.arg0, e.arg1, bit e.flags 0, e.tag⟩] }) n

/-- A plan that has gone shares no KVT entry and no code table any more (R158, R245). -/
def leavePages (d : Dev) (dies : List Nat) (slot : Nat) : Dev :=
  { d with kvt := d.kvt.map (fun (e : (Nat × Nat) × KvtEnt) =>
      if dies.contains e.1.1 then (e.1, { e.2 with users := e.2.users.filter (· != slot) }) else e)
           tblUsers := d.tblUsers.map (fun (e : (Nat × Nat) × List Nat) =>
      if dies.contains e.1.1 then (e.1, e.2.filter (· != slot)) else e) }

/-- UNLOAD_PLAN (R295): the slot is empty. -/
def unloadEntry (n q : Nat) (d : Dev) (u : Queue) (e : QEntry) (ix : Nat) : Dev :=
  let slot := entrySlot u q e
  let p := d.port n
  let p1 := { p with slots := without (· == slot) p.slots, ranOnce := p.ranOnce && p.lastSlot != slot }
  let d1 := leavePages (d.setPort n p1) (partDies p) slot
  let d2 := if (p.slot slot).loaded && !holdsPlan p1 then idlePlans d1 (partDies p) else d1
  entryDone d2 n q ix 0 e.tag (bit e.flags 0) false

/-- SET_RECIPE (R295): it waits for the plan's next step boundary, where an idle partition stands, once its dies are in Full
(R337). -/
def recipeEntryIn (n q : Nat) (d : Dev) (u : Queue) (e : QEntry) (ix : Nat) : Dev :=
  let d1 := outstanding d n q ix
  let p := d1.port n
  let r : RecipeReq := ⟨q, ix, entrySlot u q e, bits e.arg0 7 0, bits e.arg0 9 8, bit e.flags 0, e.tag⟩
  schedule (d1.setPort n { p with recipes := p.recipes ++ [r] }) n

/-- FENCE (R295): it completes when every earlier entry of its queue has. -/
def fenceEntry (n q : Nat) (d : Dev) (u : Queue) (e : QEntry) (ix : Nat) : Dev :=
  if u.outstanding.isEmpty then entryDone d n q ix 0 e.tag (bit e.flags 0) false
  else d.setPort n ((d.port n).setQueue q { u with fences := u.fences ++ [(ix, bit e.flags 0, e.tag, u.outstanding)] })

/-! ## Steps -/

/-- Every core of a partition has committed STEP_END. -/
def allEnded (d : Dev) (p : Port) : Bool := (coresOf (partDies p)).all (fun k => (d.cs k.1 k.2).phase == .ended)

/-- A step is on the dies. -/
def onDies (p : Port) : Bool := p.run.isSome && (p.mode == .running || p.mode == .yielding || p.mode == .draining)

/-- STEP_BOUNDARY (R298, R299): the epoch moves on, the job is over or queued again, recipes are written, and the QP goes on. -/
def boundaryReached (n : Nat) (d : Dev) : Dev :=
  let p := d.port n
  match p.run with
  | none => d
  | some j =>
    if !onDies p || !allEnded d p then d
    else
      let d1 := epochOn d n
      let d2 := if 1 < j.left then d1.setPort n { p with jobs := p.jobs ++ [{ j with left := j.left - 1 }] }
        else jobOver d1 n j 0 false
      stepOver d2 n

/-- YIELD_SUSPENDED (R303): every core has stopped at its boundary or finished. -/
def yieldReached (n : Nat) (d : Dev) : Dev :=
  let p := d.port n
  match p.run with
  | none => d
  | some j =>
    let s := p.slot j.slot
    let stood := fun (k : Nat × Nat) =>
      let c := d.cs k.1 k.2
      c.phase == .ended || (c.phase == .ready && yieldStands d p s (relCore p k.1 k.2) c.boundary)
    if p.mode ≠ .yielding ∨ allEnded d p ∨ !(coresOf (partDies p)).all stood then d
    else
      let d1 := suspendStep d n
      schedule (d1.setPort n { d1.port n with mode := .idle, yieldPoint := none }) n

/-- ECLIPSE_DRAIN_END (R304, R305): no command is in flight and no core in a hold range goes on. -/
def drainEnd (n : Nat) (d : Dev) : Dev :=
  let p := d.port n
  match p.run with
  | none => d
  | some j =>
    let busy := (coresOf (partDies p)).any (fun k =>
      let c := d.cs k.1 k.2
      c.flight.isSome || mayIssue d ⟨n, p, j, p.slot j.slot, c⟩ k.1 k.2)
    if p.mode ≠ .draining ∨ allEnded d p ∨ busy then d else d.setPort n { p with mode := .saving }

/-- ECLIPSE_SAVE_DONE (R304, R307): the step is suspended, the class-0 plan comes in. -/
def saveDone (n : Nat) (d : Dev) : Dev :=
  if (d.port n).mode ≠ .saving then d
  else
    let d1 := suspendStep d n
    let d2 := schedule (d1.setPort n { d1.port n with mode := .idle }) n
    if switchOn (d2.port n) then d2 else idleHbmc d2 n

/-- A restore ends (R235, R301, R304, R308): the live set is back and the step begins; one that reads poisoned data faults the job
(R389). -/
def restoreDone (n : Nat) (m : Mode) (resuming : Bool) (d : Dev) : Dev :=
  let p := d.port n
  if p.mode ≠ m ∨ p.resuming ≠ resuming then d
  else match restoreTarget d n with
    | .ok d1 => beginStep d1 n
    | .error code => failIncoming d n code

/-- STEP_WATCHDOG (R315, R349), timed from the first command a core issues; late: STEP_END committed on every core inside the
window of R348. -/
def watchdog (n : Nat) (late : Bool) (d : Dev) : Dev :=
  let p := d.port n
  if !onDies p || !(coresOf (partDies p)).any (fun k => hasIssued (d.cs k.1 k.2)) || d.fld (R.HQ_STEP_WD n) 15 0 == 0 || (late && !allEnded d p) then d
  else
    let d1 := postFault d (.hq0 n) 0x0903 0 0
    faultRun (if late then d1.inc (R.HQ_WD_LATE_CNT n) 1 else d1) n 0x0903 late

/-- HQ_CQ_HEAD: the host frees ring entries; records that waited go out (R297). -/
def cqHead (n head : Nat) (d : Dev) : Dev :=
  let d1 := d.wr (R.HQ_CQ_HEAD n) (bits head 15 0)
  cqDrain d1 n (d1.port n).cqWait

/-! ## The rows -/

/-- SQ_DOORBELL (R293, R294). -/
def execSqDoorbell (n : Fin 4) (q : Fin 8) (tail : Nat) (entries : List QEntry) (s : State) : Host.Outcome State Fault Refusal :=
  .next { s with dev := doorbell n.val q.val (bits tail 15 0) entries s.dev }

/-- RUN_STEP (R295). -/
def execRunStep (n : Fin 4) (q : Fin 8) (s : State) : Host.Outcome State Fault Refusal :=
  .next { s with dev := readEntry 1 n.val q.val (runStepEntry n.val q.val) s.dev }

/-- LOAD_PLAN (R295). -/
def execLoadPlan (n : Fin 4) (q : Fin 8) (s : State) : Host.Outcome State Fault Refusal :=
  .next { s with dev := readEntry 2 n.val q.val (loadEntry n.val q.val) s.dev }

/-- UNLOAD_PLAN (R295). -/
def execUnloadPlan (n : Fin 4) (q : Fin 8) (s : State) : Host.Outcome State Fault Refusal :=
  .next { s with dev := readEntry 3 n.val q.val (unloadEntry n.val q.val) s.dev }

/-- SET_RECIPE (R295). -/
def execSetRecipe (n : Fin 4) (q : Fin 8) (s : State) : Host.Outcome State Fault Refusal :=
  .next { s with dev := readEntry 4 n.val q.val (recipeEntryIn n.val q.val) s.dev }

/-- FENCE (R295). -/
def execFence (n : Fin 4) (q : Fin 8) (s : State) : Host.Outcome State Fault Refusal :=
  .next { s with dev := readEntry 5 n.val q.val (fenceEntry n.val q.val) s.dev }

/-- HQ_CQ_HEAD (R297). -/
def execHqCqHead (n : Fin 4) (head : Nat) (s : State) : Host.Outcome State Fault Refusal :=
  .next { s with dev := cqHead n.val head s.dev }

/-- STEP_BOUNDARY (R299). -/
def execStepBoundary (n : Fin 4) (s : State) : Host.Outcome State Fault Refusal :=
  .next { s with dev := boundaryReached n.val s.dev }

/-- YIELD_SUSPENDED (R303). -/
def execYieldSuspended (n : Fin 4) (s : State) : Host.Outcome State Fault Refusal :=
  .next { s with dev := yieldReached n.val s.dev }

/-- ECLIPSE_DRAIN_END (R304). -/
def execEclipseDrainEnd (n : Fin 4) (s : State) : Host.Outcome State Fault Refusal :=
  .next { s with dev := drainEnd n.val s.dev }

/-- ECLIPSE_SAVE_DONE (R304). -/
def execEclipseSaveDone (n : Fin 4) (s : State) : Host.Outcome State Fault Refusal :=
  .next { s with dev := saveDone n.val s.dev }

/-- ECLIPSE_RESTORE_DONE (R304). -/
def execEclipseRestoreDone (n : Fin 4) (s : State) : Host.Outcome State Fault Refusal :=
  .next { s with dev := restoreDone n.val .restoring false s.dev }

/-- RESUME_SUSPENDED (R308). -/
def execResumeSuspended (n : Fin 4) (s : State) : Host.Outcome State Fault Refusal :=
  .next { s with dev := restoreDone n.val .switching true s.dev }

/-- PLAN_SWITCH_RESTORE_DONE (R235). -/
def execPlanSwitchRestoreDone (n : Fin 4) (s : State) : Host.Outcome State Fault Refusal :=
  .next { s with dev := restoreDone n.val .switching false s.dev }

/-- STEP_WATCHDOG (R315). -/
def execStepWatchdog (n : Fin 4) (late : Bool) (s : State) : Host.Outcome State Fault Refusal :=
  .next { s with dev := watchdog n.val late s.dev }

end Sys2Proof.Machine
end

