-- ==== Sys2Proof/Machine/Bar.lean ====
section
/-! DEFINITION. BAR2: the host's window into the HBM of its partition (R285, R286, R337). -/

namespace Sys2Proof.Machine
open Sys2Proof

def BarReq.addr : BarReq → Nat
  | .read a _ => a
  | .write a _ => a

def BarReq.len : BarReq → Nat
  | .read _ n => n
  | .write _ bs => bs.length

/-- The relative die and HBM address a BAR2 offset names (R285). -/
def barPlace (a : Nat) : Nat × Nat := (a / hbmStride, a % hbmStride)

/-- Whether every byte of a request lies in HBM of the partition (R285). -/
def barOk (p : Port) (r : BarReq) : Bool :=
  let q := barPlace r.addr
  decide (q.1 < (partDies p).length) && decide (q.2 + r.len ≤ hbmSize)

/-- The HBM bytes a request names. -/
def barSpan (p : Port) (r : BarReq) : Span :=
  let q := barPlace r.addr
  ⟨.hbm, hbmBase (baseDie p + q.1) + q.2, r.len⟩

/-- Whether a command between its issue and its commit reads or writes bytes of a span (R286). -/
def Flight.uses (f : Flight) (s : Span) : Bool := spansMeet f.outs [s] || spansMeet f.ins [s]

/-- Every store a command in flight reads or writes: BAR2 accesses to it are unpredictable (R286). -/
def inUse (d : Dev) (s : Span) : Bool :=
  staleAside d [s] || d.cores.any (fun (e : (Nat × Nat) × CoreSt) =>
    spansMeet e.2.stale [s] ||
    match e.2.flight with
    | none => false
    | some f => f.uses s)

/-- Whether a plan's base streams have the marker of a layer (R456): its steps use the layer. -/
def usesLayer (d : Dev) (p : Port) (s : PlanSlot) (layer : Nat) : Bool :=
  let sec0 := (planSection d p s 0).1
  (List.range (64 * (partDies p).length)).any (fun core =>
    let e := dirEntry d p s sec0 core
    (List.range e.2).any (fun i =>
      let c := readCmd d.mem (bar2Base p + s.offset + sec0 + e.1 + 64 * i)
      c.opcode == 0 && markerLayer c == layer))

/-- The recipe entries of a plan that bytes of a span belong to, of layers its steps use, by image offset (R97). -/
def entriesMet (d : Dev) (p : Port) (s : PlanSlot) (w : Span) : List Nat :=
  let sec := planSection d p s 7
  if sec.2 = 0 then []
  else ((List.range (imgNum d p s sec.1 2)).map (fun i => sec.1 + 8 + 32 * i)).filter (fun e =>
    w.meets ⟨.hbm, bar2Base p + s.offset + e, 32⟩ && usesLayer d p s (imgNum d p s e 1))

/-- Plan slots with a step in progress: running, or suspended. -/
def stepSlots (p : Port) : List Nat :=
  (List.range 8).filter (fun i => (stepOn p && p.run.any (fun j => j.slot == i)) || (p.slot i).susp.isSome)

/-- Recipe entries were written during a step that uses their layers (R98): the variants it takes and its outputs are
unpredictable. -/
def looseRecipe (n slot : Nat) (ents : List Nat) (d : Dev) : Dev :=
  let p := d.port n
  let s := p.slot slot
  let d1 := d.setPort n (p.setSlot slot { s with loose := true, looseEnts := ents ++ s.looseEnts })
  if stepOn p && p.run.any (fun j => j.slot == slot) then taintFlights d1 (fun k _ => inDies (partDies p) k) else d1

/-- What a write of a span in HBM does to the steps in progress (R98). -/
def recipesMet (n : Nat) (w : Span) (before d : Dev) : Dev :=
  let p := before.port n
  (stepSlots p).foldl (fun x i =>
    let ents := entriesMet before p (p.slot i) w
    if ents.isEmpty then x else looseRecipe n i ents x) d

/-- A request that reaches HBM: a read answers the bytes, poisoned data marked so (R389); a write stores them. Its pieces open
rows (R218). What it shares with a command in flight is unpredictable, and so is that command's output (R286). -/
def barServe (n : Nat) (d : Dev) (r : BarReq) : Dev :=
  let s := barSpan (d.port n) r
  let bad := inUse d s
  let d0 := countOpens (if bad then taintFlights d (fun _ f => f.uses s) else d) [s]
  match r with
  | .read _ len =>
    if bad then ({ d0 with fresh := d0.fresh + 1 }).emit (.tlp n (freeBytes d0.fresh len) (d0.mem.poisoned .hbm s.base len))
    else d0.emit (.tlp n (d0.mem.bytes .hbm s.base len) (d0.mem.poisoned .hbm s.base len))
  | .write _ bs =>
    let d1 := dropMarks { d0 with mem := d0.mem.write .hbm s.base bs } [s]
    recipesMet n s d (if bad then scramble d1 [s] else d1)

/-- Requests are served in order, until one finds no edge slots on a channel it needs: it stalls while the plan runs, and those
after it wait (R221). -/
def barGo (n : Nat) : List BarReq → Dev → Dev
  | [], d => d
  | r :: t, d =>
    if spanServed d 0x3FFE false (barSpan (d.port n) r) then barGo n t (barServe n d r)
    else d.setPort n { d.port n with bar := r :: t }

/-- Requests that waited go on (R221, R337). -/
def barRelease (n : Nat) (d : Dev) : Dev := barGo n (d.port n).bar (d.setPort n { d.port n with bar := [] })

/-- A request joins those that wait. -/
def barJoin (n : Nat) (r : BarReq) (d : Dev) : Dev := d.setPort n { d.port n with bar := (d.port n).bar ++ [r] }

/-- A BAR2 request (R285, R337): refused outside the partition's HBM and to a die in New, held while its die leaves
another moon state. -/
def barRequest (n : Nat) (r : BarReq) (d : Dev) : Dev :=
  let p := d.port n
  if !p.up then d
  else if !p.valid || !barOk p r then d.emit (.unsupportedRequest n)
  else
    let die := baseDie p + (barPlace r.addr).1
    if !rowUp d (die / 4) then d.emit (.unsupportedRequest n)
    else if moonState d die = 4 then ((wake d n).inc (R.PWR_MOON_UR die) 1).emit (.unsupportedRequest n)
    else if awake d n then barRelease n (barJoin n r d)
    else if moonState d die = 0 ∧ p.bar = [] then barRelease n (barJoin n r (wake d n))
    else barJoin n r (wake d n)

/-- BAR2_READ (R285). -/
def execBar2Read (n : Fin 4) (addr len : Nat) (s : State) : Host.Outcome State Fault Refusal :=
  .next { s with dev := barRequest n.val (.read addr len) s.dev }

/-- BAR2_WRITE (R285). -/
def execBar2Write (n : Fin 4) (addr : Nat) (data : List Byte) (s : State) : Host.Outcome State Fault Refusal :=
  .next { s with dev := barRequest n.val (.write addr data) s.dev }

end Sys2Proof.Machine
end

