-- ==== Sys2Proof/Machine/Power.lean ====
section
/-! DEFINITION. Power of the running device: the arbiter's grants (R324, R325), the energy bucket (R326), calibration
(R328), thermal caps (R329), V/f points (R330, R331), droops (R332, R333), energy (R334), moon states (R335 to R338). -/

namespace Sys2Proof.Machine
open Sys2Proof

/-- THERM_ALERT_N is low while a die is at 100 °C or a coolant condition is present (R445); registers that reset meanwhile
change neither. -/
def thermLow (d : Dev) : Bool := !d.pw.hot.isEmpty || d.pw.cool != 0

/-- The pin follows a change of its conditions. -/
def thermPin (before d : Dev) : Dev :=
  if thermLow before == thermLow d then d else d.emit (.pin "THERM_ALERT_N" (!thermLow d))

/-! ## Grants -/

/-- The plan whose tables set a partition's reserves (R325): the one on the dies, or that ran last, else the lowest
loaded slot. -/
def reservePlan (p : Port) : Option PlanSlot :=
  if p.ranOnce && (p.slot p.lastSlot).loaded then some (p.slot p.lastSlot)
  else ((List.range 8).find? (fun i => (p.slot i).loaded)).map p.slot

/-- Tables of a kind a die's reserves count (R325); none for the default tables. -/
def reserveTable (d : Dev) (die kind : Nat) : Option (Port × PlanSlot × Nat) :=
  if (planOn d die).isSome then slotTableAt d die kind
  else match ownerOf d die with
    | none => none
    | some n =>
      let p := d.port n
      match reservePlan p with
      | none => none
      | some s =>
        let sec := planSection d p s (kind + 2)
        if sec.2 = 0 then none else some (p, s, sec.1)

/-- Owned positions of a link direction, VC3 positions among them (R54, R260): those of the default table where it leaves the
partition (R262). -/
def linkOwnedPort (d : Dev) (die p : Nat) : Nat :=
  match (if linkInside d (die, p) then reserveTable d die 1 else none) with
  | none => 4
  | some t => ((List.range 64).filter (fun i =>
      let e := tableEntry d t ((relDie t.1 die * 4 + p) * 128 + 2 * i)
      e.2 != 0x3FFF || e.1 == 3)).length
def linkOwned (d : Dev) (die : Nat) : Nat := (List.range 4).foldl (fun x p => x + linkOwnedPort d die p) 0

/-- Owned HBM positions of a die, refresh apart (R220, R223). -/
def hbmOwned (d : Dev) (die : Nat) : Nat :=
  match reserveTable d die 2 with
  | none => 64 * 126
  | some t => ((List.range 8192).filter (fun i =>
      i % 64 != 0 && (tableEntry d t (relDie t.1 die * 16384 + 2 * i)).2 != 0x3FFF)).length

/-- s + l + h of a die, in mW (R325). -/
def reserveOf (d : Dev) (die : Nat) : Nat :=
  Config.staticPower die (d.fld (R.PWR_DIE_PT die) 18 16) (d.fld (R.PWR_TEMP die) 15 0) +
    Config.linkSlotPower * linkOwned d die + Config.hbmSlotPower * hbmOwned d die

/-- A partition that holds a plan of class 0 (R325). -/
def classZero (d : Dev) (p : Port) : Bool :=
  (List.range 8).any (fun i => (p.slot i).loaded && imgNum d p (p.slot i) 7 1 == 0)

/-- A die in the grant procedure: its grant, what it may come to, the power of a sixteenth, its class-0 floor. -/
structure Lane where
  die : Nat
  g : Nat
  want : Nat
  q : Nat
  c0 : Bool
  deriving DecidableEq, Repr

/-- One pass that grants a sixteenth to each die in need that fits (R325). -/
def grantPass : Int → List Lane → Int × List Lane × Bool
  | c, [] => (c, [], false)
  | c, l :: t =>
    if l.g < l.want ∧ (l.q : Int) ≤ c then
      let r := grantPass (c - l.q) t
      (r.1, { l with g := l.g + 1 } :: r.2.1, true)
    else
      let r := grantPass c t
      (r.1, l :: r.2.1, r.2.2)

/-- Passes until one grants nothing. -/
def grantAll : Nat → Int → List Lane → List Lane
  | 0, _, ls => ls
  | f + 1, c, ls =>
    let r := grantPass c ls
    if r.2.2 then grantAll f r.1 r.2.1 else r.2.1

/-- One pass that lowers floors, class-0 floors apart, while they do not fit. -/
def lowerPass : Int → List Lane → Int × List Lane × Bool
  | c, [] => (c, [], false)
  | c, l :: t =>
    if c < 0 ∧ l.c0 = false ∧ 0 < l.g then
      let r := lowerPass (c + l.q) t
      (r.1, { l with g := l.g - 1 } :: r.2.1, true)
    else
      let r := lowerPass c t
      (r.1, l :: r.2.1, r.2.2)

/-- Floors lowered until they fit or none is left; what is left for grants. -/
def lowerAll : Nat → Int → List Lane → Int × List Lane
  | 0, c, ls => (c, ls)
  | f + 1, c, ls =>
    let r := lowerPass c ls
    if r.2.2 then lowerAll f r.1 r.2.1 else (r.1, r.2.1)

/-- Dies in ascending order rotated to start at s. -/
def rotateTo (s : Nat) (ls : List Lane) : List Lane :=
  ls.filter (fun l => decide (s ≤ l.die)) ++ ls.filter (fun l => decide (l.die < s))

/-- The grants of a cycle (R325), powers in mW × 2^18: budget before the reserves and floors, start of the rotation,
whether grants stay at the floors (R326), lanes in ascending order. Answers the lanes, the floors in force and whether the
arbiter overcommits. -/
def grantCycle (avail : Int) (start : Nat) (cut : Bool) (ls : List Lane) : List Lane × List Lane × Bool :=
  let c := ls.foldl (fun (x : Int) l => x - l.g * l.q) avail
  let low := lowerAll 257 c ls.reverse
  let floors := low.2.reverse
  if low.1 < 0 then
    let least := floors.map (fun l => if l.c0 then l else { l with g := 0 })
    (least, least, true)
  else if cut then (floors, floors, false)
  else (grantAll 257 low.1 (rotateTo start floors), floors, false)

/-- The thermal cap of a die after a cycle (R329). -/
def thermStep (cap temp : Nat) : Nat :=
  if 1600 ≤ temp then cap - 1 else if temp < 1568 then min 16 (cap + 1) else cap

/-- The margin in force, tenths of a percent (R328); 6 % while step 6 of start-up runs the full-load pattern (R439). -/
def marginNow (d : Dev) : Nat :=
  if d.fld R.PWR_STAT 4 4 == 1 && d.fld R.PWR_STAT 7 7 == 0 && d.fld R.DIE_BOOT_STAT 3 0 != 5 then 15 else 60

/-- PARB_CYCLE (R324, R325, R329): issue fractions of the last cycle in sixteenths, junction temperatures in 1/16 °C. -/
def arbCycle (fracs temps : List Nat) (d : Dev) : Dev :=
  if !d.time.started || d.pw.brownout then d
  else
    let d1 := (List.range 16).foldl (fun (x : Dev) i =>
      let t := temps[i]?.getD 0
      (x.setFld (R.PWR_TEMP i) 15 0 t).setFld (R.PWR_GRANT i) 20 16 (thermStep (x.fld (R.PWR_GRANT i) 20 16) t)) d
    let k := d1.fld R.PWR_CAL 31 16
    let live := (List.range 16).filter (fun i => rowUp d1 (i / 4))
    let avail : Int := live.foldl (fun (x : Int) i => x - (16 * k * reserveOf d1 i : Nat))
      (((d1.fld R.PWR_BUDGET 15 0 * (1000 - marginNow d1) : Nat) - (Config.iodPower : Int)) * 2 ^ 18)
    let lanes := live.map (fun i =>
      let p := (ownerOf d1 i).map d1.port
      let therm := d1.fld (R.PWR_GRANT i) 20 16
      let demand := if moonState d1 i = 0 then min 16 (fracs[i]?.getD 0 + 2) else 0
      let floor := match ownerOf d1 i with
        | some n => d1.fld (R.PWR_FLOOR n) 4 0
        | none => 0
      ({ die := i, g := min floor therm, want := min demand therm, q := k * Config.fullIssuePower i (d1.fld (R.PWR_DIE_PT i) 18 16),
         c0 := (p.map (classZero d1)).getD false } : Lane))
    let out := grantCycle avail (d1.pw.cycle % 16) (d1.fld R.PWR_STAT 5 5 == 1) lanes
    let d2 := out.1.foldl (fun (x : Dev) l =>
      (x.setDp l.die { x.dp l.die with pendingGrant := some l.g }).setFld (R.PWR_GRANT l.die) 12 8
        (((out.2.1.find? (fun o => o.die == l.die)).map (·.g)).getD 0)) d1
    let d3 := if out.2.2 && d2.fld R.PWR_STAT 6 6 == 0 then flagBit d2 sevAlarm R.PWR_STAT 6 else d2
    let d4 := d3.setFld R.PWR_STAT 6 6 (b2n out.2.2)
    thermPin d { d4 with pw := { d4.pw with cycle := d4.pw.cycle + 1, cutRan := d4.fld R.PWR_STAT 5 5 == 1,
                                            hot := (List.range 16).filter (fun i => decide (1600 ≤ temps[i]?.getD 0)) } }

/-- A sample of the bucket (R326), unit 10 nJ: the content after it. -/
def bucketStep (content sust mw : Nat) : Nat := min 1000000000 (content + 1000 * sust - mw)

/-- BUCKET_SAMPLE (R326). A cut begins when the bucket is empty or the mean above the peak, once for a sample in which both
hold on from the sample before and P_in is below sust; it ends with P_in below sust, once a cycle has run at the floors. -/
def bucketSample (mw : Nat) (d : Dev) : Dev :=
  if !d.time.started || d.pw.brownout then d
  else
    let sust := d.fld R.PWR_BUDGET 15 0
    let peak := d.fld R.PWR_BUDGET 31 16
    let samples := (mw :: d.pw.samples).take 10
    let b := bucketStep d.pw.bucket sust mw
    let overs := b == 0 || (samples.length == 10 && decide (10000 * peak < samples.foldl (· + ·) 0))
    let below := decide (mw < 1000 * sust)
    let d1 := (({ d with pw := { d.pw with bucket := b, samples := samples, over' := overs } }).wr R.PWR_BUCKET (b / 100000))
    if d1.fld R.PWR_STAT 5 5 = 1 then (if below && d1.pw.cutRan then d1.setFld R.PWR_STAT 5 5 0 else d1)
    else if overs && !(below && d.pw.over') then
      flagBit ({ d1 with pw := { d1.pw with cutRan := false } }.inc R.PWR_CUT_CNT 1) sevAlarm R.PWR_STAT 5
    else d1

/-! ## Calibration -/

/-- k after an update (R328), 14 fraction bits, before rounding: numerator and denominator. -/
def calRatio (k measured modelled : Nat) : Nat × Nat := (k * modelled + 2 ^ 14 * measured, 2 * modelled)

/-- k clipped to 0.75 … 1.50. -/
def calClip (k : Nat) : Nat := max 0x3000 (min 0x6000 k)

/-- CAL_UPDATE (R328): the mean of the input power and the modelled die power of the millisecond, in mW. How the last
bit of k is rounded is open. -/
def calUpdate (meanInput modelled : Nat) (d : Dev) : Dev :=
  if !d.pw.calRunning || d.pw.brownout || decide (modelled < 200000) then d
  else
    let old := d.fld R.PWR_CAL 31 16
    let r := calRatio old (meanInput - Config.iodPower) modelled
    let (up, d0) := d.draw
    let k := calClip (r.1 / r.2 + if r.1 % r.2 = 0 then 0 else up % 2)
    let ch := (k - old) + (old - k)
    let steady := if 200 * ch < old then d0.pw.steady + 1 else 0
    let conv := if old ≤ 50 * ch then 0 else if 3 ≤ steady then 1 else d0.fld R.PWR_STAT 4 4
    let lim := k == 0x3000 || k == 0x6000
    let d1 := ({ d0 with pw := { d0.pw with steady := steady } }).setFld R.PWR_STAT 4 4 conv
    let d2 := if lim && d1.fld R.PWR_STAT 7 7 == 0 then flagBit d1 sevAlarm R.PWR_STAT 7 else d1
    let d3 := (d2.setFld R.PWR_STAT 7 7 (b2n lim)).setFld R.PWR_CAL 31 16 k
    d3.setFld R.PWR_CAL 7 0 (marginNow d3)

/-- converged is cleared and the margin is 6 % again (R328, R338). -/
def unconverge (d : Dev) : Dev :=
  let d1 := { d with pw := { d.pw with steady := 0 } }.setFld R.PWR_STAT 4 4 0
  d1.setFld R.PWR_CAL 7 0 60

/-! ## Energy -/

/-- A counter's LO word: 9p + s for partition p and slot s, 36 for PWR_E_UNATTR (R339). -/
def energyReg (key : Nat) : Reg := ⟨.pwrG, 0x100 + 8 * key⟩

/-- Energy added to a counter, in units of 2^-14 µJ; the part below a millijoule is carried (R334). -/
def addEnergy (d : Dev) (key e : Nat) : Dev :=
  let mj := 1000 * 2 ^ 14
  let t := look 0 d.pw.carry key + e
  { d.inc64 (energyReg key) (t / mj) with pw := { d.pw with carry := put d.pw.carry key (t % mj) } }

/-- The counter a part of a die's energy goes to (R334): the slot whose step ran, the outgoing slot of a save, the incoming one
of a restore; slot 8 takes all other. -/
def energyKey (d : Dev) (die : Nat) (w : DieWork) : Nat :=
  match ownerOf d die, w with
  | none, _ => 36
  | some n, .step s => 9 * n + s.val
  | some n, .save s => 9 * n + s.val
  | some n, .restore s => 9 * n + s.val
  | some n, .other => 9 * n + 8

/-- ENERGY_UPDATE (R334): the millisecond's input energy and each die's modelled energy by what the die did, in µJ. -/
def energyUpdate (input : Nat) (dies : List (List (DieWork × Nat))) (d : Dev) : Dev :=
  if !d.time.started || d.pw.brownout then d
  else
    let k := d.fld R.PWR_CAL 31 16
    let es := (List.range 16).flatMap (fun i => (dies[i]?.getD []).map (fun e => (energyKey d i e.1, k * e.2)))
    let total : Nat := es.foldl (fun x e => x + e.2) 0
    let owned := (es.filter (fun e => e.1 != 36)).foldl (fun x e => x + e.2) 0
    let d1 := es.foldl (fun (x : Dev) e => addEnergy x e.1 e.2) d
    let io : Int := ((input * 2 ^ 14 : Nat) : Int) - total + d.pw.ioCarry
    if io ≤ 0 then { d1 with pw := { d1.pw with ioCarry := io } }
    else if owned = 0 then { addEnergy d1 36 io.toNat with pw := { (addEnergy d1 36 io.toNat).pw with ioCarry := 0 } }
    else
      let shares := (es.filter (fun e => e.1 != 36)).map (fun e => (e.1, io.toNat * e.2 / owned))
      let d2 := shares.foldl (fun (x : Dev) e => addEnergy x e.1 e.2) d1
      { d2 with pw := { d2.pw with ioCarry := io - ((shares.foldl (fun (x : Nat) e => x + e.2) 0 : Nat) : Int) } }

/-! ## Points and droops -/

/-- Point in force, requested point (R340). -/
def curPoint (d : Dev) (die : Nat) : Nat := d.fld (R.PWR_DIE_PT die) 18 16
def askedPoint (d : Dev) (die : Nat) : Nat := d.fld (R.PWR_DIE_PT die) 2 0

/-- A change to a point begins (R331). -/
def beginChange (d : Dev) (die pt : Nat) : Dev :=
  if curPoint d die = pt then d
  else (d.setDp die { d.dp die with changing := true, handed := false, target := pt }).setFld (R.PWR_DIE_PT die) 8 8 1

/-- A point asked for (R330): at once, after the change in progress, or at the exit from Half and deeper states. -/
def askPoint (d : Dev) (die pt : Nat) : Dev :=
  let d1 := d.setFld (R.PWR_DIE_PT die) 2 0 pt
  let q := d1.dp die
  if q.changing then d1.setDp die { q with nextPoint := some pt }
  else if 2 ≤ moonState d1 die then d1
  else beginChange d1 die pt

/-- PWR_DIE_PT written by the owning host (R330). -/
def hostPoint (n die pt : Nat) (d : Dev) : Dev := if ownerOf d die = some n then askPoint d die pt else d

/-- CLOCK_HANDOVER (R331 step 4, R333): it waits while the clock is stretched. -/
def handover (die : Nat) (d : Dev) : Dev :=
  let q := d.dp die
  if q.changing && !q.handed && !q.droop then d.setDp die { q with handed := true } else d

/-- VF_CHANGE_DONE (R331 steps 5 and 6, R333): a downward slew pauses while the rail is stretched. -/
def changeDone (die : Nat) (d : Dev) : Dev :=
  let q := d.dp die
  if !q.changing || !q.handed || (q.droop && decide (q.target < curPoint d die)) then d
  else
    let d1 := ((d.setFld (R.PWR_DIE_PT die) 18 16 q.target).setFld (R.PWR_DIE_PT die) 8 8 0).setDp die
      { q with changing := false, handed := false, nextPoint := none }
    match q.nextPoint with
    | some pt => let d2 := beginChange d1 die pt; if (d2.dp die).changing then d2 else idle d2 (.pwrD die)
    | none => idle d1 (.pwrD die)

/-- The effective cap follows a change of the droop cut (R101). -/
def DiePw.cutNow (q : DiePw) (on : Bool) : DiePw := { q with cut := on, cutTurned := true }

/-- DROOP_DETECT (R332, R333). -/
def droopDetect (die : Nat) (d : Dev) : Dev :=
  let q := d.dp die
  if q.droop || decide (3 ≤ moonState d die) || !rowUp d (die / 4) then d
  else
    let d1 := (d.setDp die { q.cutNow true with droop := true }).inc (R.PWR_DROOP_CNT die) 1
    if q.changing && !q.handed then d1.inc (R.PWR_DROOP_DEFER die) 1 else d1

/-- DROOP_RECOVER (R332): the stretch ends; one longer than 1 µs posts an alarm. -/
def droopRecover (die : Nat) (long : Bool) (d : Dev) : Dev :=
  let q := d.dp die
  if !q.droop then d
  else
    let d1 := d.setDp die { q with droop := false }
    if long then postReg d1 sevAlarm (R.PWR_DROOP_CNT die) 0 else d1

/-- ISSUE_CUT_END (R332): 256 cycles after the last stretched one. -/
def cutEnd (die : Nat) (d : Dev) : Dev :=
  let q := d.dp die
  if q.droop then d else d.setDp die (q.cutNow false)

/-! ## Moon states -/

/-- Exit latency of a moon state in µs (R335). -/
def exitLatency : Nat → Nat
  | 0 => 0 | 1 => 2 | 2 => 50 | 3 => 2000 | _ => 40000

/-- A partition's latency tolerance (R336). -/
def tolerance (d : Dev) (p : Port) : Nat :=
  (partDies p).foldl (fun m die => min m (d.fld (R.PWR_LAT_TOL die) 23 0)) (2 ^ 24)

/-- A die's rings serve a codec stream (R336): either stream reads neither detached nor refused. -/
def codecServes (d : Dev) (die : Nat) : Bool :=
  let on := fun (s : Nat) => s == 1 || s == 2 || s == 6 || s == 7
  on (d.fld (R.VC_DEC_STAT die) 11 8) || on (d.fld (R.VC_ENC_STAT die) 11 8)

/-- A die is idle (R336). -/
def dieIdle (d : Dev) (n die : Nat) : Bool :=
  let p := d.port n
  p.mode == .idle && p.jobs.isEmpty && p.loads.isEmpty && p.tides.isEmpty && p.bar.isEmpty && !p.waking &&
    !d.fetching.any (fun e => e.1 == die) && !d.spillRun.contains die

/-- Whether an idle die may go one state deeper (R335, R336, R338). -/
def mayDescend (d : Dev) (die : Nat) : Bool :=
  let s := moonState d die + 1
  rowUp d (die / 4) &&
  match ownerOf d die with
  | none => decide (s ≤ 2) && !(List.range 4).any (fun n => bit (d.port n).clearing (die / 4))
  | some n =>
    let p := d.port n
    dieIdle d n die && decide (s ≤ 4) && decide (exitLatency s ≤ tolerance d p) &&
      (decide (s ≤ 2) || !codecServes d die) &&
      (decide (s ≤ 3) || (d.rd64 (R.PWR_NEW_BASE_LO die) != 0 && (List.range 8).all (fun i => (p.slot i).susp.isNone)))

/-- Both stacks of a die in self-refresh or out of it (R236, R335). -/
def selfRefresh (d : Dev) (die v : Nat) : Dev := (d.setFld (R.HBMC_STAT die 0) 2 2 v).setFld (R.HBMC_STAT die 1) 2 2 v

/-- Entry to New (R338): the live set goes to its save area with the first die of the partition that enters, the
die-state area is written in a layout of the controller's own, tile memory loses its power. -/
def enterNew (d : Dev) (n die : Nat) : Dev :=
  let first := (partDies (d.port n)).all (fun x => moonState d x != 4)
  let d1 := if first then saveOutgoing d n else d
  let d2 := scramble d1 [dieSpan die (d1.rd64 (R.PWR_NEW_BASE_LO die)) 0x20_0000]
  let all : Span := ⟨.tm, tmBase die 0, tmBase (die + 1) 0 - tmBase die 0⟩
  dropMarks { d2 with mem := { d2.mem with tm := clearCells d2.mem.tm (tmBase die 0) (tmBase (die + 1) 0) }.clearPoison [all] } [all]

/-- Half takes the die to point 0 (R335). DEDUCED: a change of point in progress ends there, and the exit takes up the point asked
for (log 109). -/
def haltChange (d : Dev) (die : Nat) : Dev :=
  let q := d.dp die
  if q.changing then
    (d.setDp die { q with changing := false, handed := false, nextPoint := none }).setFld (R.PWR_DIE_PT die) 8 8 0
  else d

/-- MOON_ENTER (R335, R336, R338): one state deeper. -/
def moonEnter (die : Nat) (d : Dev) : Dev :=
  if !mayDescend d die then d
  else
    let s := moonState d die + 1
    let d1 := match s, ownerOf d die with
      | 4, some n => enterNew d n die
      | _, _ => d
    let d2 := idle (d1.setFld (R.PWR_MOON die) 2 0 s) (.pwrD die)
    if s = 2 then haltChange (d2.setFld (R.PWR_DIE_PT die) 18 16 0) die
    else if s = 3 then (selfRefresh d2 die 1).setDp die { d2.dp die with droop := false, cut := false } else d2

/-- The writable and counting bits of a page's registers take open values: nothing says what power-up leaves. -/
def freePage (d : Dev) (pg : Page) : Dev :=
  (rowsOf pg).foldl (fun (x : Dev) r =>
    (List.range r.cnt).foldl (fun (y : Dev) i =>
      let reg : Reg := ⟨pg, r.off + r.stride * i⟩
      let m := r.rw ||| r.w1c ||| (if r.ctr = 0 then 0 else 0xFFFFFFFF)
      if m = 0 then y
      else
        let (v, z) := y.draw
        z.wr reg ((z.rd reg &&& (0xFFFFFFFF - m)) ||| (v &&& m))) x) d

/-- A TCU's valid bits and counters cleared (R253). -/
def clearTcu (d : Dev) (die : Nat) : Dev :=
  let d1 := { d with tblValid := d.tblValid.filter (fun e => e.1 != die) }
  (List.range 2).foldl (fun (x : Dev) t =>
    (rowsOf (.tcu die t)).foldl (fun (y : Dev) r =>
      if r.ctr = 0 then y
      else
        let z := y.wr ⟨.tcu die t, r.off⟩ 0
        if r.ctr = 2 then z.wr ⟨.tcu die t, r.off + 4⟩ 0 else z) x) d1

/-- Open values under a list of keys. -/
def freeKeys {κ : Type} (d : Dev) (ks : List κ) (m : Nat) : List (κ × Nat) × Dev :=
  (ks.zipIdx.map (fun e => (e.1, Config.freeNat (d.fresh + e.2) % m)), { d with fresh := d.fresh + ks.length })

/-- Keys of a die's per-plan sets of n. -/
def setKeys (die n : Nat) : List (Nat × Nat × Nat) :=
  (List.range 8).flatMap (fun s => (List.range n).map (fun i => (die, s, i)))

/-- A die's semaphores, work counters and commit slot tables are unpredictable (R59). -/
def freeSem (d : Dev) (die : Nat) : Dev :=
  let on := fun (k : Nat × Nat × Nat) => k.1 == die
  let (s, d1) := freeKeys d (setKeys die 4096) 65536
  let (a, d2) := freeKeys d1 (setKeys die 4096) 2
  let (c, d3) := freeKeys d2 (setKeys die 64) (2 ^ 32)
  let (t, d4) := freeKeys d3 (setKeys die 64) 256
  { d4 with sem := s ++ without on d4.sem, ctr := c ++ without on d4.ctr, slotTab := t ++ without on d4.slotTab
            semSat := (a.filter (fun e => e.2 == 1)).map (·.1) ++ d4.semSat.filter (fun k => !on k) }

/-- A die's KVT entries are unpredictable. -/
def freeEntries (d : Dev) (die : Nat) : Dev :=
  let ks := (List.range 32768).map (fun i => (die, i))
  let (w0, d1) := freeKeys d ks (2 ^ 64)
  let (w1, d2) := freeKeys d1 ks (2 ^ 64)
  { d2 with kvt := (w0.zip w1).map (fun e => (e.1.1, KvtEnt.ofWords e.1.2 e.2.2)) ++ without (fun (k : Nat × Nat) => k.1 == die) d2.kvt }

/-- A die's KVT entries and page data are unpredictable (R162). -/
def freeKvt (d : Dev) (die : Nat) : Dev := freeEntries (scramble d (kvSpans d die)) die

/-- A die's work-counter limits are unpredictable (R338, R341). -/
def freeLim (d : Dev) (die : Nat) : Dev :=
  let (v, d1) := freeKeys d (setKeys die 64) (2 ^ 32)
  { d1 with lim := v ++ without (fun (k : Nat × Nat × Nat) => k.1 == die) d1.lim }

/-- A die's AST registers, of every plan slot, are unpredictable (R338, R341). -/
def freeSets (d : Dev) (die : Nat) : Dev :=
  (List.range 8).foldl (fun (x : Dev) slot =>
    let (v, y) := freeKeys x (List.range 12) (2 ^ 64)
    let w := fun (i : Nat) => look 0 v i
    let page := fun (i : Nat) => w i / 4096 * 4096
    y.setAst die slot { core := w 0 % 64, base := page 1, hbmSize := page 2, limit := w 3, hostBase := page 4, sp := w 5,
                        spill := w 6, res := w 7, peak := w 8, miss := w 9 % 2 ^ 32, raw := w 10, stored := w 11 }) d

/-- A die's activation stacks and their pointers are unpredictable (R213). -/
def freeAst (d : Dev) (die : Nat) : Dev :=
  (List.range 8).foldl (fun (x : Dev) slot =>
    let a := x.astSet die slot
    let y := scramble x [dieSpan die a.base a.hbmSize]
    let (v, z) := freeKeys y [0, 1, 2, 3] (2 ^ 64)
    z.setAst die slot { a with sp := look 0 v 0, spill := look 0 v 1, res := look 0 v 2, peak := look 0 v 3 }) d

/-- A die's SFU user tables and coma tables are unpredictable (R341). -/
def freeTables (d : Dev) (die : Nat) : Dev :=
  let (s, d1) := freeKeys d (setKeys die 512) 2
  let (c, d2) := freeKeys d1 (setKeys die 64) 2
  let d3 := scramble d2 [⟨.sfu, sfuBase die 0 0 0, 64 * 64 * 256⟩, ⟨.coma, comaBase die 0 0, 64 * 8 * 256⟩]
  { d3 with
    sfuValid := ((s.filter (fun e => e.2 == 1)).map (fun e => (die, e.1.2.2 / 8, e.1.2.1, e.1.2.2 % 8))) ++ d3.sfuValid.filter (fun k => k.1 != die)
    comaValid := ((c.filter (fun e => e.2 == 1)).map (fun e => (die, e.1.2.2, e.1.2.1))) ++ d3.comaValid.filter (fun k => k.1 != die) }

/-- A die's share of the live set saved at the entry to New is back in its tile memory (R338); without a saved set, or with a
poisoned one (R389), the plan's next step restores none. -/
def restoreDie (d : Dev) (n die : Nat) : Dev :=
  let p := d.port n
  let slot := p.lastSlot
  let lost := d.setPort n { p with ranOnce := false }
  match (p.slot slot).saved with
  | none => lost
  | some l =>
    let at' := fun (core : Nat) => look 0 l (baseDie p + core / 64, core % 64)
    match savePlan (liveRanges d p (p.slot slot)) (saveArea p slot).2 at' with
    | none => lost
    | some pl =>
      let mine := pl.filter (fun e => e.1.core / 64 == relDie p die)
      if !p.ranOnce then d
      else match livePoison d p slot mine false with
        | none => copyLive d p slot mine false
        | some code => postFault (lost.setPort n ((lost.port n).setSlot slot { p.slot slot with saved := none })) (.hq0 n) code 0 0

/-- What a die-state area holds is unpredictable (R338, R341): semaphores, work counters and their limits, commit slot tables,
AST and KVT registers and entries, SFU user slots and coma tables. -/
def freeArea (d : Dev) (die : Nat) : Dev :=
  let d1 := freePage (freeTables (freeSets (freeEntries (freeLim (freeSem d die) die) die) die) die) (.kvt die)
  let (x, d2) := d1.draw
  d2.wr (R.KVT_EPOCH die) (x % 2 ^ 32)

/-- Exit from New (R338, R405, R430): what the die-state area holds is back, TCU tables and counters are cleared; the
registers of the pages it does not hold are open. -/
def leaveNew (d : Dev) (n die : Nat) : Dev :=
  let d1 := clearTcu { d with sec := { d.sec with keys := if die ∈ d.sec.keys then d.sec.keys else die :: d.sec.keys } } die
  let d0 := if (d.dp die).newLoose then freeArea d1 die else d1
  let pages : List Page := [.coreDie die, .pxe die, .hbmc die 0, .hbmc die 1] ++ (List.range 64).map (Page.core die)
  let d2 := pages.foldl freePage (d0.setDp die { d0.dp die with newLoose := false })
  let d3 := { d2 with lflag := without (fun (k : Nat × Nat) => k.1 == die) d2.lflag }
  let d4 := (List.range 256).foldl (fun (x : Dev) l =>
    let (v, y) := x.draw
    { y with lflag := put y.lflag (die, l) (v % 2 ^ 64) }) d3
  restoreDie (reloadCopy die d4) n die

/-- PWR_MOON.wake written by the owning host (R337). -/
def moonWake (die : Nat) (d : Dev) : Dev :=
  match ownerOf d die with
  | none => d
  | some n => wake d n

/-- A die comes back to Full (R335, R337). -/
def leaveMoon (n : Nat) (d : Dev) (die : Nat) : Dev :=
  let s := moonState d die
  let d1 := if s = 4 then leaveNew d n die else d
  let d2 := if 3 ≤ s then unconverge (selfRefresh d1 die 0) else d1
  let d3 := d2.setFld (R.PWR_MOON die) 2 0 0
  let d3 := if s = 0 then d3 else idle d3 (.pwrD die)
  if 2 ≤ s then d3.setFld (R.PWR_DIE_PT die) 18 16 (askedPoint d3 die) else d3

/-- MOON_EXIT_DONE (R337): every die of the partition is in Full; held BAR2 requests and waiting work go on. -/
def moonExit (n : Nat) (d : Dev) : Dev :=
  let p := d.port n
  if !p.valid || !p.waking then d
  else
    let d1 := (partDies p).foldl (leaveMoon n) d
    let d2 := barRelease n (d1.setPort n { d1.port n with waking := false })
    schedule d2 n

/-! ## The rows -/

/-- PARB_CYCLE (R325). -/
def execParbCycle (fracs temps : List Nat) (s : State) : Host.Outcome State Fault Refusal :=
  .next { s with dev := arbCycle fracs temps s.dev }

/-- BUCKET_SAMPLE (R326). -/
def execBucketSample (milliwatts : Nat) (s : State) : Host.Outcome State Fault Refusal :=
  .next { s with dev := bucketSample milliwatts s.dev }

/-- CAL_UPDATE (R328). -/
def execCalUpdate (meanInput modelled : Nat) (s : State) : Host.Outcome State Fault Refusal :=
  .next { s with dev := calUpdate meanInput modelled s.dev }

/-- ENERGY_UPDATE (R334). -/
def execEnergyUpdate (inputMicrojoule : Nat) (dieMicrojoule : List (List (DieWork × Nat))) (s : State) : Host.Outcome State Fault Refusal :=
  .next { s with dev := energyUpdate inputMicrojoule dieMicrojoule s.dev }

/-- PWR_DIE_PT (R330). -/
def execPwrDiePt (n : Fin 4) (die : Fin 16) (point : Fin 8) (s : State) : Host.Outcome State Fault Refusal :=
  .next { s with dev := hostPoint n.val die.val point.val s.dev }

/-- CLOCK_HANDOVER (R331). -/
def execClockHandover (die : Fin 16) (s : State) : Host.Outcome State Fault Refusal :=
  .next { s with dev := handover die.val s.dev }

/-- VF_CHANGE_DONE (R331). -/
def execVfChangeDone (die : Fin 16) (s : State) : Host.Outcome State Fault Refusal :=
  .next { s with dev := changeDone die.val s.dev }

/-- DROOP_DETECT (R332). -/
def execDroopDetect (die : Fin 16) (s : State) : Host.Outcome State Fault Refusal :=
  .next { s with dev := droopDetect die.val s.dev }

/-- DROOP_RECOVER (R332). -/
def execDroopRecover (die : Fin 16) (overOneMicrosecond : Bool) (s : State) : Host.Outcome State Fault Refusal :=
  .next { s with dev := droopRecover die.val overOneMicrosecond s.dev }

/-- ISSUE_CUT_END (R332). -/
def execIssueCutEnd (die : Fin 16) (s : State) : Host.Outcome State Fault Refusal :=
  .next { s with dev := cutEnd die.val s.dev }

/-- MOON_ENTER (R335). -/
def execMoonEnter (die : Fin 16) (s : State) : Host.Outcome State Fault Refusal :=
  .next { s with dev := moonEnter die.val s.dev }

/-- PWR_MOON_WAKE (R337). -/
def execPwrMoonWake (die : Fin 16) (s : State) : Host.Outcome State Fault Refusal :=
  .next { s with dev := moonWake die.val s.dev }

/-- MOON_EXIT_DONE (R337). -/
def execMoonExitDone (n : Fin 4) (s : State) : Host.Outcome State Fault Refusal :=
  .next { s with dev := moonExit n.val s.dev }

end Sys2Proof.Machine
end

