-- ==== Sys2Proof/Machine/Time.lean ====
section
/-! DEFINITION. The timebase and time reference: DEVTIME's advance (R345, R346), the servo (R343), time-of-day sets
(R352), the output pulses (R353, R354), PTP (R350, R351, R356). -/

namespace Sys2Proof.Machine
open Sys2Proof

/-! ## DEVTIME -/

/-- One second and one TCLK period in units of 2^-32 ns. -/
def oneSecond : Nat := 1000000000 * 2 ^ 32
def tclk : Nat := 4 * 2 ^ 32

/-- The largest correction of one TCLK period: 1 ppm (R343). -/
def maxCorr : Int := 17179

/-- What DEVTIME gains at a TCLK edge (R345). -/
def increment (t : TimeSt) : Nat := ((tclk : Int) + t.corr).toNat

/-- DEVTIME is an 80-bit value, held with 32 fraction bits (R345). -/
def timeSize : Nat := 2 ^ 96
def wrapTime (v : Nat) : Nat := v % timeSize

/-- The number of the last frame boundary at or before a time, when the pulse runs at all: TIME_FP_CFG in force. -/
def frameIndex (fp now : Nat) : Option Nat :=
  if !bit fp 7 then none
  else (frameRate (bits fp 3 0)).map (fun r => now * r.1 / (r.2 * oneSecond))

/-- A step leaves DEVTIME exactly on a frame boundary. -/
def onFrame (fp now : Nat) : Bool :=
  bit fp 7 && (match frameRate (bits fp 3 0) with
    | some r => now * r.1 % (r.2 * oneSecond) == 0
    | none => false)

/-- An image handover freezes the servo (R356). -/
def inHandover (d : Dev) : Bool := d.fld R.TIME_STAT 8 8 == 1

/-- A period of the 10 MHz output, whose rising edges lie on whole multiples of it, one on every second (R353). -/
def tenMHz : Nat := 100 * 2 ^ 32

/-- A TCLK edge (R345): DEVTIME and the elapsed time advance, the copies by the forwarded TCLK (R347); the 10 MHz output
rises at its edges (R353); a second of elapsed time renews the Delay_Req capacity (R350, R346). -/
def tick (d : Dev) : Dev :=
  let t := d.time
  if !t.started then d
  else
    let now := wrapTime (t.now + increment t)
    let el := t.elapsed + increment t
    let d1 := { d with time := { t with
      now := now, elapsed := el
      copies := t.copies.map (fun c => (c.1, wrapTime (c.2 + tclk)))
      dreqUsed := if el / oneSecond = t.elapsed / oneSecond then t.dreqUsed else [] } }
    if now / tenMHz = t.now / tenMHz then d1 else d1.emit (.pin "10MHZ_OUT" true)

/-- TIME_UTC and TIME_FP_CFG take effect at a whole second (R358); a new frame rate starts with the boundary that second may
be. -/
def secondBegins (d : Dev) : Dev :=
  let fp := d.rd R.TIME_FP_CFG
  let t := d.time
  let start := t.now / oneSecond * oneSecond
  let last := if fp = t.fp then t.lastFp else (frameIndex fp (start - 1)).getD 0
  { d with time := { t with utc := d.rd R.TIME_UTC, fp := fp, lastFp := last, loose := false } }

/-- The 1PPS output rises. -/
def ppsRise (d : Dev) : Dev := ({ d with time := { d.time with ppsHigh := true } }).emit (.pin "1PPS_OUT" true)

/-- The frame-pulse output rises. -/
def frameRise (d : Dev) : Dev := ({ d with time := { d.time with fpHigh := true } }).emit (.pin "FRAME_PULSE" true)

/-- DEVTIME takes a value by a step (R353): boundaries passed over get no edge, one it lands on does; every telemetry
path marks the time (R393). -/
def stepTo (d : Dev) (now : Nat) : Dev :=
  let d1 := { d with time := { d.time with now := now, lastPps := now / oneSecond } }
  let d2 := if now % oneSecond = 0 then ppsRise (secondBegins d1) else d1
  let d3 := { d2 with time := { d2.time with lastFp := (frameIndex d2.time.fp now).getD 0 } }
  let d4 := if onFrame d3.time.fp now then frameRise d3 else d3
  markAll (if now % tenMHz = 0 then d4.emit (.pin "10MHZ_OUT" true) else d4)

/-- What DEVTIME takes by a time-of-day set (R352). DESIGN CHOICE: a count of nanoseconds beyond 64 bits gives an open value (log
155). -/
def todValue (d : Dev) (sec : Nat) : Nat × Dev :=
  if sec * oneSecond < timeSize then (sec * oneSecond, d) else (wrapTime (Config.freeNat d.fresh), { d with fresh := d.fresh + 1 })

/-- An armed time-of-day set takes effect (R352): DEVTIME is the armed second. -/
def todApply (d : Dev) : Dev :=
  match d.time.armed with
  | none => d
  | some sec =>
    let v := todValue d sec
    let d1 := stepTo (({ v.2 with time := { v.2.time with armed := none } }).setFld R.TIME_STAT 6 6 1) v.1
    if inHandover d1 then d1 else idle d1 .timeG

/-! ## The servo -/

/-- A PTP port's state (R351): 0 MASTER, 1 SLAVE, 2 PASSIVE. -/
def ptpState (d : Dev) (p : Nat) : Nat := look 0 d.time.ptp p

/-- The servo follows a foreign master (R351). -/
def slaved (d : Dev) : Bool := ptpState d 0 == 1 || ptpState d 1 == 1

/-- The reference source in force: 0 none, 1 1PPS and 10 MHz, 2 1PPS only (R357). -/
def refSrc (d : Dev) : Nat := let s := d.fld R.TIME_CFG 1 0; if s = 3 then 0 else s

/-- A reference is there: a servo outside LOCKED enters LOCKING (R343). good: the edge lies within ±50 ns. -/
def servoEdge (t : TimeSt) (need : Nat) (good : Bool) : TimeSt :=
  match t.servo with
  | .locked => t
  | .locking =>
    let e := if good then t.edges + 1 else 0
    if need ≤ e then { t with servo := .locked, edges := 0 } else { t with edges := e }
  | s => { t with servo := .locking, before := s, edges := b2n good }

/-- The reference is lost (R343): HOLDOVER from LOCKED, the state before from LOCKING. -/
def servoLoss (t : TimeSt) : TimeSt :=
  match t.servo with
  | .locked => { t with servo := .holdover, lossAt := t.elapsed, edges := 0 }
  | .locking => { t with servo := t.before, edges := 0 }
  | _ => t

/-- A correction kept within 1 ppm (R343). -/
def clipCorr (c : Int) : Int := max (-maxCorr) (min maxCorr c)

/-- A phase error at a reference edge (R343): slewed, or stepped above 1 ms with an event that carries the step's size. A
handover holds the correction, so that nothing is slewed or stepped (R356); a set applied at the edge gives DEVTIME its
value in place of a step (DESIGN CHOICE, log entry 84). -/
def servoPhase (d : Dev) (phase : Int) : Dev :=
  let d1 := (d.wr R.TIME_PHASE_ERR (phase % 2 ^ 32).toNat)
  if inHandover d then d1
  else
    let d2 := { d1 with time := { d1.time with corr := clipCorr (Config.servoGain d1.time.corr phase) } }
    if phase.natAbs ≤ 1000000 ∨ (d2.time.armed.isSome ∧ slaved d = false) then d2
    else
      let d3 := postRecord (d2.inc R.TIME_STEP_CNT 1) sevEvent (pageSource .timeG) (eventCode R.TIME_STEP_CNT)
        (Config.stepField phase % 65536)
      stepTo d3 (((d3.time.now : Int) - phase * 2 ^ 32) % (timeSize : Int)).toNat

/-- A reference edge drives the servo (R343): 60 good edges lock it, 300 on 1PPS alone (R352). A foreign master's time makes
DEVTIME valid (R345); a 1PPS edge applies an armed set (R352). -/
def servoTakes (phase : Int) (d : Dev) : Dev :=
  let need := if refSrc d = 2 ∧ slaved d = false then 300 else 60
  let d1 := servoPhase { d with time := servoEdge d.time need (decide (phase.natAbs ≤ 50)) } phase
  if slaved d && !inHandover d then d1.setFld R.TIME_STAT 6 6 1 else d1

/-- The reference is in use: a foreign master, or the inputs TIME_CFG names (R351, R352). -/
def refUsed (d : Dev) (ref10 : Bool) : Bool := slaved d || refSrc d == 2 || (refSrc d == 1 && ref10)

/-- An edge of the 1PPS input that is in its place (R352): the inputs are present, the servo takes the edge unless it follows a
foreign master, and an armed set takes effect. -/
def ppsEdge (phase : Int) (ref10 : Bool) (d : Dev) : Dev :=
  let d1 := (d.setFld R.TIME_STAT 5 5 1).setFld R.TIME_STAT 4 4 (b2n ref10)
  let d2 := if !slaved d && refUsed d ref10 then servoTakes phase d1 else d1
  if refSrc d ≠ 0 then todApply d2 else d2

/-- REF_EDGE (R343, R352): an edge of the 1PPS input out of place is discarded; in step-down mode the foreign master's time drives
the servo (R351), and without a foreign master in use such messages are ignored. -/
def refEdge (src : RefSource) (phase : Int) (ref10 : Bool) (d : Dev) : Dev :=
  if !d.time.started then d
  else match src with
    | .master => if slaved d then servoTakes phase (d.setFld R.TIME_STAT 4 4 (b2n ref10)) else d
    | .pps true => ppsEdge phase ref10 d
    | .pps false => d.inc R.TIME_EDGE_REJ 1

/-- REF_LOSS (R343, R349): 1.5 s without an edge of the 1PPS input; a late edge is the first of LOCKING, and the next one an armed
set waits for (R352). ref10: the 10 MHz input is still present. -/
def refLoss (late ref10 : Bool) (d : Dev) : Dev :=
  if !d.time.started then d
  else
    let d0 := d.setFld R.TIME_STAT 4 4 (b2n ref10)
    if d.fld R.TIME_STAT 5 5 = 0 then d0
    else
      let uses := refSrc d != 0 && !slaved d
      let d1 := if uses then { d0 with time := servoLoss d0.time } else d0
      if late then
        let d2 := d1.inc R.TIME_LATE_CNT 1
        let d3 := if uses then { d2 with time := servoEdge d2.time 60 true } else d2
        if refSrc d ≠ 0 then todApply d3 else d3
      else d1.setFld R.TIME_STAT 5 5 0

/-- HOLDOVER_EXPIRY (R343): 4 h from the loss, also while the servo tries to lock again. -/
def holdoverEnds (d : Dev) : Dev :=
  let t := d.time
  match t.servo, t.before with
  | .holdover, _ => { d with time := { t with servo := .holdoverExp } }
  | .locking, .holdover => { d with time := { t with before := .holdoverExp } }
  | _, _ => d

/-! ## Time of day -/

/-- A write the integrator had to leave (R358): DEVTIME, and the fields of PTP messages until the next whole second, are open. The
outputs go on from the second and the frame DEVTIME then stands in. -/
def timeLoose (d : Dev) : Dev :=
  let (x, d1) := d.draw
  let now := wrapTime x
  { d1 with time := { d1.time with now := now, loose := true, lastPps := now / oneSecond, lastFp := (frameIndex d1.time.fp now).getD 0 } }

/-- TOD_ARM (R352); during a handover the write is a forbidden one (R358). -/
def todArm (d : Dev) : Dev :=
  if !d.time.started then d
  else
    let d1 := { d with time := { d.time with armed := some (d.rd64 R.TIME_TOD_SEC_LO) } }
    if inHandover d then timeLoose d1 else d1

/-- What passes while no command waits: one TCLK edge (R345), at which an armed set of a free-running clock takes effect
(R352), each telemetry path moves one record out (R394), and BAR2 requests that stalled look for their slots again (R221). -/
def clockEdge (d : Dev) : Dev :=
  let d1 := tick d
  let d2 := allPaths.foldl drainPath (if d1.time.started && refSrc d1 == 0 then todApply d1 else d1)
  (List.range 4).foldl (fun (x : Dev) n => if (x.port n).bar.isEmpty || !awake x n then x else barRelease n x) d2

/-! ## Pulses -/

/-- PPS_OUT (R353): DEVTIME has reached a whole second since the last pulse. -/
def ppsOut (d : Dev) : Dev :=
  let s := d.time.now / oneSecond
  if !d.time.started || s == d.time.lastPps then d
  else ppsRise (secondBegins { d with time := { d.time with lastPps := s } })

/-- FRAME_PULSE (R353, R354). -/
def framePulse (d : Dev) : Dev :=
  match frameIndex d.time.fp d.time.now with
  | none => d
  | some i =>
    if !d.time.started || i == d.time.lastFp then d
    else frameRise { d with time := { d.time with lastFp := i } }

/-- PULSE_END (R353). -/
def pulseEnd (frame : Bool) (d : Dev) : Dev :=
  if frame then
    (if d.time.fpHigh then ({ d with time := { d.time with fpHigh := false } }).emit (.pin "FRAME_PULSE" false) else d)
  else if d.time.ppsHigh then ({ d with time := { d.time with ppsHigh := false } }).emit (.pin "1PPS_OUT" false) else d

/-- DEVTIME_RELOAD (R347): copy 0 to 15 of the compute dies, 16 of IOD-N. -/
def reload (copy : Nat) (d : Dev) : Dev := if d.time.started then reloadCopy copy d else d

/-! ## PTP -/

def netUp (d : Dev) (p : Nat) : Bool := d.fld (R.NET_STAT p) 0 0 == 1

/-- A port that serves PTP: its link is up, it has an address, without which there is no IP traffic (R382), and PTP is enabled
on it (R357). -/
def ptpPort (d : Dev) (p : Nat) : Bool := netUp d p && d.rd (R.NET_IP p) != 0 && bit (d.fld R.TIME_PTP_CFG 1 0) p

/-- A port that may transmit PTP messages (R350, R355). -/
def ptpOn (d : Dev) (p : Nat) : Bool := d.fld R.TIME_STAT 6 6 == 1 && ptpPort d p

/-- clockClass, clockAccuracy and timeSource of a servo state (R343). -/
def announced : Servo → Nat × Nat × Nat
  | .locked => (6, 0x21, 0x20)
  | .holdover => (7, 0x23, 0x20)
  | .holdoverExp => (52, 0xFE, 0xA0)
  | _ => (248, 0xFE, 0xA0)

/-- The values announced now: LOCKING from a holdover announces as the table's LOCKING row. -/
def ownData (d : Dev) : Announce :=
  let a := announced (if slaved d then .freerun else d.time.servo)
  { domain := d.fld R.TIME_PTP_CFG 31 24, sender := Config.clockIdentity, identity := Config.clockIdentity, priority1 := d.fld R.TIME_PTP_PRIO 15 8,
    clockClass := a.1, accuracy := a.2.1, variance := Config.clockVariance, priority2 := d.fld R.TIME_PTP_PRIO 7 0,
    steps := 0, timeSource := a.2.2 }

/-- The order of IEEE 1588's data set comparison: lower is better, of one grandmaster's the fewer steps, then the lower sender
(R351). -/
def annKey (a : Announce) : List Nat :=
  [a.priority1, a.clockClass, a.accuracy, a.variance, a.priority2, a.identity, a.steps, a.sender]

/-- Lexicographic order. -/
def lexLt : List Nat → List Nat → Bool
  | [], _ => false
  | _ :: _, [] => false
  | a :: s, b :: t => decide (a < b) || (a == b && lexLt s t)

/-- The best qualified foreign master: two announces qualify it (R349, R351). -/
def bestForeign (fs : List Foreign) : Option Foreign :=
  (fs.filter (fun f => decide (2 ≤ f.count))).foldl (fun b f => match b with
    | none => some f
    | some g => if lexLt (annKey f.ann) (annKey g.ann) then some f else some g) none

/-- A foreign master better than this clock's own data (R351). -/
def betterForeign (d : Dev) (fs : List Foreign) : Option Foreign :=
  (bestForeign fs).filter (fun f => lexLt (annKey f.ann) (annKey (ownData d)))

/-- The state decision of R351: the port with the best master is SLAVE, the other PASSIVE when it sees the same grandmaster
(DEDUCED: IEEE 1588 compares by topology, log 84);
the servo takes or loses its reference. By IEEE 1588's decision a clock whose own clockClass is 1 to 127 is never a slave:
each of its ports that hears a better clock is PASSIVE. -/
def decidePtp (d : Dev) : Dev :=
  let was := slaved d
  let own := (ownData d).clockClass
  let keeps := decide (1 ≤ own) && decide (own ≤ 127)
  let pick := if d.fld R.TIME_CFG 3 3 == 1 then betterForeign d d.time.foreign else none
  match (if keeps then none else pick) with
  | none =>
    let hears := fun (p : Nat) => (betterForeign d (d.time.foreign.filter (fun f => f.port == p))).isSome
    let t := { d.time with ptp := if pick.isSome then [(0, if hears 0 then 2 else 0), (1, if hears 1 then 2 else 0)] else [],
                           stepsRemoved := 0 }
    { d with time := if was then servoLoss t else t }
  | some f =>
    let other := 1 - f.port
    let sees := d.time.foreign.any (fun g => g.port == other && g.ann.identity == f.ann.identity)
    let t := { d.time with ptp := [(f.port, 1), (other, if sees then 2 else 0)], stepsRemoved := f.ann.steps + 1 }
    { d with time := if was then t else servoEdge { t with edges := 0 } 60 false }

/-- A foreign master's record: one for each clock heard on a port (R351). -/
def noteForeign (fs : List Foreign) (p : Nat) (a : Announce) : List Foreign :=
  if fs.any (fun f => f.port == p && f.ann.sender == a.sender) then
    fs.map (fun f => if f.port == p && f.ann.sender == a.sender then { f with ann := a, count := f.count + 1 } else f)
  else fs ++ [⟨p, a, 1⟩]

/-- PTP_ANNOUNCE_RX (R351, R356): counted; told of once a minute; in step-down mode the decision runs. -/
def announceRx (p : Nat) (a : Announce) (d : Dev) : Dev :=
  if !d.time.started || !ptpPort d p || a.domain != d.fld R.TIME_PTP_CFG 31 24 || a.sender == Config.clockIdentity then d
  else
    let d1 := (d.inc (R.TIME_STRANGER_CNT p) 1).setFld R.TIME_STAT 9 9 1
    let quiet := match d1.time.told.find? (fun e => e.1 == a.sender) with
      | some e => decide (d1.time.elapsed - e.2 < 60 * oneSecond)
      | none => false
    let d2 := if quiet then d1
      else postReg { d1 with time := { d1.time with told := put d1.time.told a.sender d1.time.elapsed } } sevEvent R.TIME_STAT 9
    if inHandover d2 then
      (if d2.time.held.length < 64 then { d2 with time := { d2.time with held := d2.time.held ++ [(p, a)] } } else d2)
    else if d2.fld R.TIME_CFG 3 3 == 0 then d2
    else decidePtp { d2 with time := { d2.time with foreign := noteForeign d2.time.foreign p a } }

/-- ANNOUNCE_TIMEOUT (R349, R351): the port's foreign masters are dropped. A late announce comes as the next one does. -/
def announceTimeout (p : Nat) (late : Bool) (d : Dev) : Dev :=
  if inHandover d || !d.time.foreign.any (fun f => f.port == p) then d
  else
    let d1 := d.inc R.TIME_ANN_TO_CNT 1
    let d2 := if late then d1.inc R.TIME_LATE_CNT 1 else d1
    decidePtp { d2 with time := { d2.time with foreign := d2.time.foreign.filter (fun f => f.port != p) } }

/-- A PTP message leaves a port; its fields are open after a forbidden configuration write (R358). -/
def ptpSend (d : Dev) (p kind : Nat) (body : List Nat) : Dev :=
  let d1 := d.inc (R.NET_TX_PKT p) 1
  let ptpOut (x : Dev) (b : List Nat) := x.emit (.ptp p kind (d.rd (R.NET_VLAN p)) (d.rd (R.NET_IP p)) (d.fld (R.NET_PTP_DSCP p) 5 0) b)
  if d.time.loose then
    let (v, d2) := freeKeys d1 body (2 ^ 64)
    ptpOut d2 (v.map (·.2))
  else ptpOut d1 body

/-- DELAY_REQ_RX (R350): answered in the same addressing, 8,192 a second. -/
def delayReq (p : Nat) (unicast : Bool) (seq : Nat) (d : Dev) : Dev :=
  if !ptpOn d p || ptpState d p != 0 then d
  else
    let used := look 0 d.time.dreqUsed p
    if 8192 ≤ used then d.inc (R.TIME_DREQ_DROP p) 1
    else ptpSend { d with time := { d.time with dreqUsed := put d.time.dreqUsed p (used + 1) } } p 3
      [d.fld R.TIME_PTP_CFG 31 24, seq, b2n unicast, devNs d]

/-- SYNC_TX (R350): Sync, and Follow_Up in two steps. -/
def syncTx (p : Nat) (d : Dev) : Dev :=
  if !ptpOn d p || ptpState d p != 0 then d
  else
    let dom := d.fld R.TIME_PTP_CFG 31 24
    if d.fld R.TIME_CFG 4 4 == 1 then ptpSend d p 0 [dom, devNs d]
    else ptpSend (ptpSend d p 0 [dom, 0]) p 1 [dom, devNs d]

/-- ANNOUNCE_TX (R350, R351, R343). -/
def announceTx (p : Nat) (d : Dev) : Dev :=
  if !ptpOn d p || ptpState d p != 0 then d
  else
    let a := match slaved d, bestForeign d.time.foreign with
      | true, some f => { f.ann with sender := Config.clockIdentity, steps := d.time.stepsRemoved, domain := d.fld R.TIME_PTP_CFG 31 24 }
      | _, _ => ownData d
    ptpSend d p 2 [a.domain, a.identity, a.priority1, a.clockClass, a.accuracy, a.variance, a.priority2, a.steps,
      a.timeSource, bits d.time.utc 15 0, bits d.time.utc 18 16]

/-- METADATA_TLV_TX (R350): frame-pulse rate and UTC fields. -/
def metadataTx (p : Nat) (d : Dev) : Dev :=
  if !ptpOn d p || ptpState d p != 0 then d
  else ptpSend d p 4 [bits d.time.fp 3 0, bits d.time.utc 15 0, bits d.time.utc 18 16]

/-- A handover ends: the image in force takes the announces that were queued (R356). -/
def endHandover (d : Dev) : Dev :=
  if !inHandover d then d
  else
    let d0 := ({ d with time := { d.time with held := [] } }).setFld R.TIME_STAT 8 8 0
    let d1 := if d0.time.armed.isSome then d0 else idle d0 .timeG
    if d1.fld R.TIME_CFG 3 3 == 0 then d1
    else d.time.held.foldl (fun (x : Dev) e =>
      decidePtp { x with time := { x.time with foreign := noteForeign x.time.foreign e.1 e.2 } }) d1

/-- A handover of the TP image begins (R356). -/
def beginHandover (d : Dev) : Dev := if d.time.started then d.setFld R.TIME_STAT 8 8 1 else d

/-- A processor that may hand over (R412): a die controller's row is up. -/
def procUp (d : Dev) : Proc → Bool
  | .dc die => rowUp d (die.val / 4)
  | _ => true

/-- The processors still to hand over, those of rows that have gone down left out (R412). -/
def leftToHand (d : Dev) : List Proc := d.sec.todo.filter (procUp d)

/-- The TP's image is the next to hand over (R412). -/
def tpNext (d : Dev) : Bool := d.sec.activating.isSome && (leftToHand d).head? == some .tp

/-- TP_HANDOVER (R356): it begins when the TP's image is the next to hand over, and ends once that image has handed over
(IMAGE_HANDOVER) or, on a fall-back, back. -/
def tpHandover (done : Bool) (d : Dev) : Dev :=
  if done then (if tpNext d then d else endHandover d)
  else if tpNext d then beginHandover d else d

/-! ## The rows -/

/-- REF_EDGE (R343). -/
def execRefEdge (src : RefSource) (phase : Int) (ref10 : Bool) (s : State) : Host.Outcome State Fault Refusal :=
  .next { s with dev := refEdge src phase ref10 s.dev }

/-- REF_LOSS (R349). -/
def execRefLoss (l : RefLost) (s : State) : Host.Outcome State Fault Refusal :=
  .next { s with dev := refLoss l.late l.ref10 s.dev }

/-- HOLDOVER_EXPIRY (R343). -/
def execHoldoverExpiry (s : State) : Host.Outcome State Fault Refusal :=
  .next { s with dev := holdoverEnds s.dev }

/-- DEVTIME_RELOAD (R347). -/
def execDevtimeReload (copy : Fin 17) (s : State) : Host.Outcome State Fault Refusal :=
  .next { s with dev := reload copy.val s.dev }

/-- TOD_ARM (R352). -/
def execTodArm (s : State) : Host.Outcome State Fault Refusal :=
  .next { s with dev := todArm s.dev }

/-- TOD_APPLY (R352). -/
def execTodApply (s : State) : Host.Outcome State Fault Refusal :=
  .next { s with dev := todApply s.dev }

/-- PPS_OUT (R353). -/
def execPpsOut (s : State) : Host.Outcome State Fault Refusal :=
  .next { s with dev := ppsOut s.dev }

/-- FRAME_PULSE (R353). -/
def execFramePulse (s : State) : Host.Outcome State Fault Refusal :=
  .next { s with dev := framePulse s.dev }

/-- PULSE_END (R353). -/
def execPulseEnd (frame : Bool) (s : State) : Host.Outcome State Fault Refusal :=
  .next { s with dev := pulseEnd frame s.dev }

/-- PTP_ANNOUNCE_RX (R351). -/
def execPtpAnnounceRx (p : Fin 2) (a : Announce) (s : State) : Host.Outcome State Fault Refusal :=
  .next { s with dev := announceRx p.val a s.dev }

/-- ANNOUNCE_TIMEOUT (R349). -/
def execAnnounceTimeout (p : Fin 2) (late : Bool) (s : State) : Host.Outcome State Fault Refusal :=
  .next { s with dev := announceTimeout p.val late s.dev }

/-- DELAY_REQ_RX (R350). -/
def execDelayReqRx (p : Fin 2) (unicast : Bool) (seq : Nat) (s : State) : Host.Outcome State Fault Refusal :=
  .next { s with dev := delayReq p.val unicast seq s.dev }

/-- SYNC_TX (R350). -/
def execSyncTx (p : Fin 2) (s : State) : Host.Outcome State Fault Refusal :=
  .next { s with dev := syncTx p.val s.dev }

/-- ANNOUNCE_TX (R350). -/
def execAnnounceTx (p : Fin 2) (s : State) : Host.Outcome State Fault Refusal :=
  .next { s with dev := announceTx p.val s.dev }

/-- METADATA_TLV_TX (R350). -/
def execMetadataTlvTx (p : Fin 2) (s : State) : Host.Outcome State Fault Refusal :=
  .next { s with dev := metadataTx p.val s.dev }

/-- TP_HANDOVER (R356). -/
def execTpHandover (done : Bool) (s : State) : Host.Outcome State Fault Refusal :=
  .next { s with dev := tpHandover done s.dev }

end Sys2Proof.Machine
end

