-- ==== Sys2Proof/Machine/Media.lean ====
section
/-! DEFINITION. Codec streams and the media network (R359 to R382): attaching and detaching, pictures through the
frame rings, RTP and ST 2110-20 sending, multicast listens and collisions, received frames. -/

namespace Sys2Proof.Machine
open Sys2Proof

/-! ## Rings and registers -/

/-- A ring semaphore's release (R179): in the set of the plan that runs, or last ran, on the die. -/
def ringSem (d : Dev) (die : Nat) (ctrl : Reg) : Dev :=
  match ownerOf d die with
  | none => d
  | some n =>
    let p := d.port n
    semRelease d die ((p.run.map (·.slot)).getD p.lastSlot) (d.fld ctrl 27 16) 1

/-- The whole slot as a span. -/
def slotSpan (r : Ring) (die s : Nat) : Span :=
  let g := r.region die s
  ⟨.hbm, g.base, g.bound⟩

/-- A picture size of R359. -/
def sizeOk (w h : Nat) : Bool :=
  decide (128 ≤ w) && decide (w ≤ 8192) && decide (128 ≤ h) && decide (h ≤ 4320) && w % 2 == 0 && h % 2 == 0

/-! ## Paths -/

/-- State of a path (0 A on NET0, 1 B on NET1): 0 off, 1 listening, 2 may transmit, 3 held; whether this listen saw a
foreign source (R378). -/
def pathOf (d : Dev) (die i : Nat) : Nat × Bool := look (0, false) (d.vc die).paths i
def setPathSt (d : Dev) (die i : Nat) (v : Nat × Bool) : Dev :=
  d.setVc die { d.vc die with paths := put (d.vc die).paths i v }

/-- The paths a stream enables (R374, R376, R377). -/
def pathsOn (d : Dev) (die : Nat) : List Nat := if encOut d die = 0 then [] else if encDual d die then [0, 1] else [0]

/-- The group of a path. -/
def pathGroup (d : Dev) (die i : Nat) : Nat := d.rd (if i = 0 then R.VC_ENC_DST_A die else R.VC_ENC_DST_B die)

/-- A path joins its group with an IGMP report, which NET_TX_PKT counts, and listens (R378); not without a link and an
address (R382). -/
def listen (d : Dev) (die i : Nat) : Dev :=
  if netUp d i && d.rd (R.NET_IP i) != 0 then ((setPathSt d die i (1, false)).inc (R.NET_TX_PKT i) 1).emit (.igmp i (d.rd (R.NET_VLAN i)) (d.rd (R.NET_IP i)) (pathGroup d die i))
  else setPathSt d die i (0, false)

/-- The status of an attached stream that follows its paths (R370). -/
def pathStatus (d : Dev) (die : Nat) : Nat :=
  let ps := (pathsOn d die).map (fun i => (pathOf d die i).1)
  if ps.isEmpty || ps.any (· == 2) then 2 else if ps.all (· == 3) then 6 else 1

/-- The status follows the paths, but for a stream that stops. -/
def followPaths (d : Dev) (die : Nat) : Dev :=
  let s := encStatus d die
  if s = 1 ∨ s = 2 ∨ s = 6 then setEnc d die (pathStatus d die) else d

/-- Every path of a port listens anew (R378, R382). -/
def relisten (d : Dev) (i : Nat) : Dev :=
  (List.range 16).foldl (fun (x : Dev) die =>
    if streamOn (encStatus x die) && (pathsOn x die).contains i then followPaths (listen x die i) die else x) d

/-! ## Attaching -/

/-- VC_DEC_ATTACH (R370). The decoder looks for a picture to start at (R362). -/
def decAttach (die : Nat) (d : Dev) : Dev :=
  match ownerOf d die with
  | none => d
  | some n =>
    if streamOn (decStatus d die) then d
    else
      let r := inRing d die
      if !r.yuv || r.pitch % 64 != 0 || decide (r.pitch < 2 * r.w) then setDec d die 4
      else if !sizeOk r.w r.h then setDec d die 5
      else wake (shareCores (setDec (d.setVc die { d.vc die with decLoose := false, decWait := true, decTaint := 0 }) die 2)) n

/-- VC_DEC_DETACH (R371): the picture in progress is discarded. -/
def decDetach (die : Nat) (d : Dev) : Dev :=
  if (ownerOf d die).isNone then d
  else
    let d1 := shareCores (setDec (d.setVc die { d.vc die with decCores := [] }) die 0)
    if streamOn (decStatus d die) && !streamOn (encStatus d die) then idle d1 (.vcD die) else d1

/-- Pictures beyond level 5.2, which need more than one core (R359). PRESUMED: the level limits of H.265 and AV1 (log 105). -/
def beyondLevel52 (w h : Nat) (f : Nat × Nat) : Bool :=
  decide (8912896 < w * h) || decide (1069547520 * f.2 < w * h * f.1)

/-- The configuration of an encode stream is one R359, R366 and R367 allow. -/
def encConfigOk (d : Dev) (die : Nat) (r : Ring) : Bool :=
  let ow := d.fld (R.VC_ENC_SCALE die) 15 0
  let oh := d.fld (R.VC_ENC_SCALE die) 31 16
  let scaled := ow % 2 == 0 && oh % 2 == 0 && decide (r.w ≤ 4 * ow) && decide (ow ≤ 4 * r.w) && decide (r.h ≤ 4 * oh) && decide (oh ≤ 4 * r.h)
  let wh := encSize d die
  let level := match frameRate (encRate d die) with
    | none => false
    | some f => encOut d die == 2 || encLive d die || !beyondLevel52 wh.1 wh.2 f || decide (0 < d.fld (R.VC_ENC_CFG die) 9 6)
  sizeOk wh.1 wh.2 && (!encE1 d die || encOut d die == 2 || scaled) && !(encOut d die == 1 && encAv1 d die) && level &&
    (!encLive d die || (d.fld (R.VC_ENC_CFG die) 11 10 == 0 && !encE1 d die && decide (r.w ≤ 3840) && decide (r.h ≤ 2160) &&
      decide (encSlices d die ≤ 8)))

/-- VC_ENC_ATTACH (R370, R367, R378). -/
def encAttach (die : Nat) (d : Dev) : Dev :=
  match ownerOf d die with
  | none => d
  | some n =>
    if streamOn (encStatus d die) then d
    else
      let r := outRing d die
      let need := if encLive d die then encSlices d die else 0
      if (!r.yuv && encOut d die != 2) || r.pitch % 64 != 0 || decide (r.pitch < (if r.yuv then 2 else 4) * r.w) then setEnc d die 4
      else if !encConfigOk d die r then setEnc d die 5
      else if (freeCores d).length < need then setEnc d die 3
      else
        let (cores, d1) := takeCores d need (freeCores d)
        let v := d1.vc die
        let d2 := d1.setVc die { v with reserved := cores, encCores := [], pics := 0, sent := 0, octets := 0, paths := [], encLoose := false,
                                        encQueue := v.encQueue.zipIdx.map (fun e => { e.1 with number := e.2 }), handed := v.encQueue.length }
        let d3 := (pathsOn d2 die).foldl (fun (x : Dev) i => listen x die i) d2
        wake (shareCores (setEnc d3 die (pathStatus d3 die))) n

/-- The encoder returns a slot (R179), and the cores that coded it are free (R368). -/
def releaseSlot (d : Dev) (die s : Nat) : Dev :=
  let v := d.vc die
  ringSem (d.setVc die { v with outSlots := put v.outSlots s .free, encQueue := v.encQueue.filter (fun q => q.slot != s), encCores := [] }) die (R.PXE_OUT_CTRL die)

/-- The encoder returns every slot it was handed (R371). -/
def releaseAll (d : Dev) (die : Nat) : Dev := (d.vc die).encQueue.foldl (fun (x : Dev) q => releaseSlot x die q.slot) d

/-- An encode stream ends: its cores are free, its paths off. -/
def encOver (d : Dev) (die : Nat) : Dev :=
  let d1 := setEnc (d.setVc die { d.vc die with reserved := [], encCores := [], paths := [] }) die 0
  if streamOn (decStatus d die) then d1 else idle d1 (.vcD die)

/-- VC_ENC_DETACH (R371): a picture in progress is finished first; where none can be coded, what waits is released unencoded. -/
def encDetach (die : Nat) (d : Dev) : Dev :=
  if (ownerOf d die).isNone || !streamOn (encStatus d die) then d
  else if (nextToCode d die).isNone then encOver (releaseAll d die) die else setEnc d die 7

/-! ## Decoding -/

/-- Ring bytes of a picture's samples (R180, R363): w × h luma, then Cb and Cr in turn; rows at the ring's pitch. -/
def pictureWrites (r : Ring) (die s : Nat) (code : List Nat) : List Wr :=
  let g := r.region die s
  (List.range (r.h + r.h / 2)).map (fun y =>
    let row := (code.drop (y * r.w)).take r.w
    ⟨.hbm, g.base + y * r.pitch, row.flatMap (fun c => leBytes 2 (c % 1024))⟩)

/-- The samples a decoded picture puts into the ring (R359, R363): film grain added in AV1, 8-bit codes times 4, the chroma of a
monochrome picture 512. -/
def pictureSamples (p : DecPicture) : List Nat :=
  let grained := match p.film with
    | some g => if p.av1 then (List.range p.code.length).map (Config.grainAt g p.code) else p.code
    | none => p.code
  let wide := grained.map (fun c => if p.depth = 8 then c * 4 else c)
  if p.mono then wide.take (p.w * p.h) ++ List.replicate (p.w * (p.h / 2)) 512 else wide

/-- A picture the decoder supports (R359): the stream's format, a profile and depth of it, a level on the cores that decode it.
DESIGN CHOICE: any other counts as an error (log 104). -/
def decodes (d : Dev) (die : Nat) (p : DecPicture) : Bool :=
  p.av1 == (d.fld (R.VC_DEC_CFG die) 4 4 == 1) && (if p.av1 then p.profile == 0 else (p.profile == 1 && p.depth == 8) || p.profile == 2) &&
    (p.depth == 8 || p.depth == 10) && (p.av1 || !p.mono) && (decide (p.level ≤ 52) || (decide (p.level ≤ 61) && decide (1 < (d.vc die).decCores.length)))

/-- Where n bytes from a place of a bitstream ring lie (R362): HBM offsets of the die, and lengths. -/
def bsPieces (base rp size n : Nat) : List (Nat × Nat) :=
  if rp + n ≤ size then [(base + rp, n)] else [(base + rp, size - rp), (base, n - (size - rp))]
def bsSpans (die : Nat) (ps : List (Nat × Nat)) : List Span := ps.map (fun q => dieSpan die q.1 q.2)

/-- The decoder's bitstream ring, n bytes from VC_DEC_BS_RP, and the encoder's, n bytes from VC_ENC_BS_WP. -/
def decPieces (d : Dev) (die n : Nat) : List (Nat × Nat) := bsPieces (d.rd64 (R.VC_DEC_BS_BASE_LO die)) (d.rd (R.VC_DEC_BS_RP die)) (bsSize d die) n
def encPieces (d : Dev) (die n : Nat) : List (Nat × Nat) :=
  bsPieces (d.rd64 (R.VC_ENC_BS_BASE_LO die)) (d.rd (R.VC_ENC_BS_WP die)) (d.rd (R.VC_ENC_BS_SIZE die)) n

/-- Edge transfers that a codec core makes at once: every channel they use gives slots of 0x3FFE (R221). -/
def edgeServed (d : Dev) (ss : List Span) : Bool := ss.all (spanServed d 0x3FFE false)

/-- Bytes of the bitstream the next picture takes. -/
def outcomeUsed : DecOutcome → Nat
  | .picture p => p.used
  | .error u => u
  | .poisoned u => u

/-- Bytes leave the bitstream ring (R362), and the cores are free. -/
def consume (d : Dev) (die used : Nat) : Dev :=
  let v := d.vc die
  (d.wr (R.VC_DEC_BS_RP die) ((d.rd (R.VC_DEC_BS_RP die) + used) % max (bsSize d die) 1)).setVc die
    { v with decCores := [], decTaint := v.decTaint - used }

/-- A picture that is not written (R363): VC_DEC_ERR counts it, with an event of its codec core, and the decoder looks for a
picture to start at. -/
def decFailed (d : Dev) (die source : Nat) : Dev :=
  postRegFrom ((d.setVc die { d.vc die with decWait := true }).inc (R.VC_DEC_ERR die) 1) source sevEvent (R.VC_DEC_ERR die) 0

/-- A picture written into a slot and handed over (R363). -/
def decHandOver (d : Dev) (die slot : Nat) (loose : Bool) (p : DecPicture) : Dev :=
  let r := inRing d die
  let d1 := dropMarks { d with mem := (pictureWrites r die slot (pictureSamples p)).foldl (fun m x => m.write x.space x.addr x.data) d.mem } [slotSpan r die slot]
  let d2 := countOpens d1 [slotSpan r die slot]
  let d3 := taintReaders (if loose then scramble d2 [slotSpan r die slot] else d2) 16 64 [slotSpan r die slot]
  let v := d3.vc die
  let d4 := d3.setVc die { v with inSlots := put v.inSlots slot .withPxe, decNext := (slot + 1) % r.count, decWait := false }
  ringSem (d4.inc (R.VC_DEC_PIC die) 1) die (R.PXE_IN_CTRL die)

/-- What becomes of the picture at the front of a bitstream (R362, R363, R389): pictures before the first to start at are passed
over; a picture of bytes that were overwritten, or of a stream whose registers were written, is unpredictable. -/
def decOutcome (d : Dev) (die slot : Nat) (dirty : Bool) (o : DecOutcome) : Dev :=
  let v := d.vc die
  let source := codecSource die v.decCores
  let d1 := consume d die (outcomeUsed o)
  if dirty then decFailed d1 die source
  else match o with
    | .picture p =>
      if !decodes d die p then decFailed d1 die source
      else if v.decWait && !p.random then d1
      else if p.w ≠ (inRing d die).w ∨ p.h ≠ (inRing d die).h then decFailed d1 die source
      else decHandOver d1 die slot (v.decLoose || v.decTaint != 0) p
    | _ => decFailed d1 die source

/-- DECODE_PICTURE (R363, R368, R389): the codec cores' picture goes into the next input slot and is handed over. -/
def decodePicture (die : Nat) (o : DecOutcome) (d0 : Dev) : Dev :=
  let d := shareCores d0
  let r := inRing d die
  let v := d.vc die
  let slot := v.decNext % r.count
  let pieces := bsSpans die (decPieces d die (outcomeUsed o))
  if decStatus d die ≠ 2 ∨ v.decCores = [] ∨ outcomeUsed o = 0 ∨ bsWaiting d die < outcomeUsed o ∨ inSlot d die slot ≠ .free ∨
      !edgeServed d (slotSpan r die slot :: pieces) ∨ 3 ≤ moonState d die then d0
  else shareCores (decOutcome (countOpens d pieces) die slot (pieces.any (fun q => d.mem.poisoned .hbm q.base q.len)) o)

/-! ## Encoding -/

/-- The bitstream ring's room, one byte less than its size (R364). -/
def encRoom (d : Dev) (die : Nat) : Nat :=
  let size := d.rd (R.VC_ENC_BS_SIZE die)
  (d.rd (R.VC_ENC_BS_RP die) + 2 * size - 1 - d.rd (R.VC_ENC_BS_WP die) % max size 1) % max size 1

/-- An access unit written to the bitstream ring, as far as the die's HBM goes. After a forbidden write its bytes, and which of the
ring's they are, are open (R380). -/
def ringAppend (d : Dev) (die : Nat) (bs : List Byte) : Dev :=
  let size := d.rd (R.VC_ENC_BS_SIZE die)
  let wp := d.rd (R.VC_ENC_BS_WP die)
  if (d.vc die).encLoose then
    let (x, d1) := (scramble d [dieSpan die (d.rd64 (R.VC_ENC_BS_BASE_LO die)) size]).draw
    d1.wr (R.VC_ENC_BS_WP die) (x % max size 1)
  else
    let ps := encPieces d die bs.length
    let m := ps.foldl (fun (acc : Mems × List Byte) q =>
      (acc.1.write .hbm (dieSpan die q.1 q.2).base (acc.2.take (dieSpan die q.1 q.2).len), acc.2.drop q.2)) (d.mem, bs)
    (countOpens (dropMarks { d with mem := m.1 } (bsSpans die ps)) (bsSpans die ps)).wr (R.VC_ENC_BS_WP die) ((wp + bs.length) % max size 1)

/-! ## The E1 scaler -/

/-- The four taps of a phase, which sum to 256 (R366). -/
def e1Taps (phase : Nat) : List Int :=
  let t := fun i => (Config.e1Tap phase i).bmod 16384
  [t 0, t 1, t 2, 256 - (t 0 + t 1 + t 2)]

/-- Sample x of a line of n samples scaled to `out` (R366): the taps lie on the sample before the source position, that sample
and the two after it. DESIGN CHOICE: which four samples they are, and that the edge samples repeat outside the line (log 106). -/
def polyphase (n out : Nat) (src : Nat → Nat) (x : Nat) : Nat :=
  let pos := x * n * 64 / out
  let s := (e1Taps (pos % 64)).zipIdx.foldl (fun (a : Int) e => a + e.1 * (src (min (n - 1) (pos / 64 + e.2 - 1)) : Int)) 0
  (min 1023 (max 0 ((s + 128) / 256))).toNat

/-- A plane of w × h samples scaled, horizontally and then vertically. -/
def scaledPlane (w h ow oh : Nat) (p : Nat → Nat → Nat) (x y : Nat) : Nat :=
  polyphase h oh (fun v => polyphase w ow (fun u => p u v) x) y

/-- A plane of w × h samples turned by rot quarters (R366). DESIGN CHOICE: clockwise (log 106). -/
def turnedPlane (rot w h : Nat) (p : Nat → Nat → Nat) (x y : Nat) : Nat :=
  match rot with
  | 1 => p y (h - 1 - x)
  | 2 => p (w - 1 - x) (h - 1 - y)
  | 3 => p (w - 1 - y) x
  | _ => p x y

/-- Sample (x, y) of plane c of a ring slot, luma 0, Cb 1, Cr 2 (R180). A place past the die's HBM holds an open value. -/
def slotSample (d : Dev) (r : Ring) (die s c x y : Nat) : Nat :=
  let g := r.region die s
  let off := if c = 0 then y * r.pitch + 2 * x else (r.h + y) * r.pitch + 4 * x + 2 * (c - 1)
  if off + 2 ≤ g.bound then d.mem.num .hbm (g.base + off) 2 % 1024 else Config.freeNat d.fresh % 1024

/-- Sample (x, y) of plane c of the picture that is encoded (R366). -/
def encSample (d : Dev) (die s c x y : Nat) : Nat :=
  let r := outRing d die
  let k := if c = 0 then 1 else 2
  let ow := d.fld (R.VC_ENC_SCALE die) 15 0 / k
  let oh := d.fld (R.VC_ENC_SCALE die) 31 16 / k
  let p := slotSample d r die s c
  if encE1 d die then turnedPlane (d.fld (R.VC_ENC_CFG die) 29 28) ow oh (scaledPlane (r.w / k) (r.h / k) ow oh p) x y else p x y

/-- The samples of the picture that is encoded: luma, then Cb and Cr in turn. -/
def encSamples (d : Dev) (die s : Nat) : List Nat :=
  let wh := encSize d die
  (List.range wh.2).flatMap (fun y => (List.range wh.1).map (fun x => encSample d die s 0 x y)) ++
    (List.range (wh.2 / 2)).flatMap (fun y => (List.range wh.1).map (fun x => encSample d die s (1 + x % 2) (x / 2) y))

/-! ## Coding a picture -/

/-- Rate control (R364, R379): 0 CQP, 1 CBR, 2 VBR; 3 acts as 0. -/
def rateControl (d : Dev) (die : Nat) : Nat := d.fld (R.VC_ENC_CFG die) 27 26 % 3

/-- A unit's quantiser of a base and its map offset (R365): an HEVC QP of Main 10, in which the encoder codes 10-bit rings, or an
AV1 qindex. -/
def quantiser (av1 : Bool) (base off : Int) : Int :=
  if av1 then min 255 (max 1 (4 * (base + off))) else min 51 (max (-12) (base + off))

/-- The quantisers of a picture's units (R364, R365): the base is base_q in CQP, and what rate control chose otherwise, which is
open; where a later command wrote the map the offsets are open. -/
def quantisers (d : Dev) (die : Nat) (q : OutPic) : List Int :=
  let wh := encSize d die
  let base := if rateControl d die = 0 then d.fld (R.VC_ENC_CFG die) 5 0 else Config.freeNat (d.fresh + 1) % 64
  (List.range (unitsOf wh.1 wh.2)).map (fun u =>
    quantiser (encAv1 d die) base (if q.mapLoose then Config.freeByte (d.fresh + 2) u else q.map[u]?.getD 0).toInt)

/-- Unit counts of n equal parts of c units, the remainder in the last (R361). -/
def partUnits (c n : Nat) : List Nat := List.replicate (n - 1) (c / n) ++ [largestSlice c n]

/-- What the encoder codes a slot's picture from. -/
def encJob (d : Dev) (die : Nat) (q : OutPic) : Config.EncJob :=
  let wh := encSize d die
  let i := q.number
  let grid := encSlices d die = 1 && !encLive d die
  let columns := if grid then encNeed d die else if encAv1 d die && decide (4096 < wh.1) then 2 else 1
  { die := die, number := i, draw := d.fresh, av1 := encAv1 d die, w := wh.1, h := wh.2, kind := pictureKind d die i, level := pictureLevel d die i,
    quant := quantisers d die q, parts := partUnits (unitsOf wh.1 wh.2) (if grid then columns else encSlices d die),
    columns := columns, bitRate := if rateControl d die = 0 then 0 else 1000 * d.rd (R.VC_ENC_RATE die), samples := encSamples d die q.slot }

/-- The NAL units or OBUs of a picture (R364, R374): parameter sets before every I picture. -/
def codedUnits (j : Config.EncJob) : List (List Byte) :=
  (if j.kind = 0 then Config.paramSets j else []) ++ Config.codedPicture j

/-- The access unit as the bitstream ring holds it (R359): an Annex B byte stream, or a low-overhead OBU stream. -/
def accessUnit (j : Config.EncJob) : List Byte :=
  (codedUnits j).flatMap (fun u => if j.av1 then u else [0, 0, 0, 1] ++ u)

/-! ## Sending -/

/-- A latency beyond the bound of R369. -/
def beyondBound (u latencyNs : Nat) : Bool := decide (u * 1000000000 + 500000 * 122400 < latencyNs * 122400)

/-- The RTP timestamp of a picture handed over at DEVTIME t (R375). -/
def rtpStamp (rate t : Nat) : Nat :=
  match frameRate rate with
  | none => 0
  | some (r, q) => (t * r / (q * oneSecond)) * q * 90000 / r % 2 ^ 32

/-- The payloads of a NAL unit (R374, RFC 7798): whole up to 1,400 B, else fragmentation units. -/
def fragments (size : Nat) : Nat → List Byte → List (List Byte)
  | 0, _ => []
  | f + 1, bs => if bs.length ≤ size then [bs] else bs.take size :: fragments size f (bs.drop size)
def nalPayloads (nal : List Byte) : List (List Byte) :=
  if nal.length ≤ 1400 then [nal]
  else
    let h0 := (nal[0]?.getD 0).toNat
    let h1 := nal[1]?.getD 0
    let body := nal.drop 2
    let fs := fragments (1 + Config.fuBytes % 1397) body.length body
    fs.zipIdx.map (fun e =>
      let s := b2n (e.2 == 0)
      let t := b2n (e.2 + 1 == fs.length)
      BitVec.ofNat 8 (h0 / 128 * 128 + 49 * 2 + h0 % 2) :: h1 :: BitVec.ofNat 8 (128 * s + 64 * t + h0 / 2 % 64) :: e.1)

/-- A stream's packet head on path i (R374, R382). -/
def netHead (d : Dev) (die i : Nat) : NetHead where
  vlan := d.rd (R.NET_VLAN i)
  src := d.rd (R.NET_IP i)
  dst := pathGroup d die i
  udp := d.fld (R.VC_ENC_UDP die) 31 16
  dscp := d.fld (R.VC_ENC_UDP die) 5 0
  pt := d.fld (R.VC_ENC_UDP die) 14 8

/-- What the stream's own registers put on a packet, open: destination, port, DSCP and payload type. -/
def openHead (k : Nat) (h : NetHead) : NetHead :=
  { h with dst := Config.freeNat k % 2 ^ 32, udp := Config.freeNat (k + 1) % 2 ^ 16, dscp := Config.freeNat (k + 2) % 64,
           pt := Config.freeNat (k + 3) % 128 }

/-- A packet of a stream whose configuration was written out of its time (R380): what its registers settle is open, drawn from
k on. -/
def openPacket (k : Nat) : Out → Out
  | .rtp die i h _ _ ts m p => .rtp die i (openHead k h) (Config.freeNat (k + 4) % 2 ^ 32) (Config.freeNat (k + 5) % 2 ^ 16) ts m (freeBytes (k + 6) p.length)
  | .st2110 die i h _ _ ts m p => .st2110 die i (openHead k h) (Config.freeNat (k + 4) % 2 ^ 32) (Config.freeNat (k + 5) % 2 ^ 16) ts m
      (freeBytes (k + 6) p.length)
  | .rtcp die i h _ ntp ts _ _ => .rtcp die i (openHead k h) (Config.freeNat (k + 4) % 2 ^ 32) ntp ts (Config.freeNat (k + 5) % 2 ^ 32)
      (Config.freeNat (k + 6) % 2 ^ 32)
  | o => o

/-- A packet leaves on a path; open after a forbidden configuration write (R380). -/
def emitPacket (d : Dev) (die : Nat) (o : Out) : Dev :=
  if (d.vc die).encLoose then { d with fresh := d.fresh + 7 }.emit (openPacket d.fresh o) else d.emit o

/-- One packet sent on a stream's paths (R374, R377, R371): a path whose link is down counts it as dropped, a path that
listens or is held sends nothing. -/
def sendPacket (d : Dev) (die : Nat) (mk : Nat → Out) : Dev :=
  (pathsOn d die).foldl (fun (x : Dev) i =>
    if !netUp x i then x.inc (R.NET_TX_DROP i) 1
    else if (pathOf x die i).1 = 2 then emitPacket (x.inc (R.NET_TX_PKT i) 1) die (mk i) else x) d

/-- A path of the stream transmits now (R378). -/
def transmits (d : Dev) (die : Nat) : Bool := (pathsOn d die).any (fun i => netUp d i && (pathOf d die i).1 == 2)

/-- A packet's payload counts, and the sequence number moves on, when some path sent it (R374). DESIGN CHOICE: of a packet that no
path sends neither does (log 107). -/
def notePacket (d : Dev) (die n : Nat) : Dev :=
  let v := d.vc die
  if transmits d die then d.setVc die { v with sent := v.sent + 1, octets := v.octets + n } else d

/-- RTP_SEND (R374): the access unit's packets, marker on the last. -/
def rtpSend (d : Dev) (die ts : Nat) (nals : List (List Byte)) : Dev :=
  let ps := nals.flatMap nalPayloads
  ps.zipIdx.foldl (fun (x : Dev) e =>
    let ssrc := x.rd (R.VC_ENC_SSRC die)
    notePacket (sendPacket x die (fun i =>
      .rtp die i (netHead x die i) ssrc ((ssrc + (x.vc die).sent) % 65536) ts (e.2 + 1 == ps.length) e.1)) die e.1.length) d

/-- A stopping stream whose picture is finished: the slots that wait are released unencoded (R371). -/
def stopIfAsked (d : Dev) (die : Nat) : Dev :=
  if encStatus d die ≠ 7 then d
  else encOver (releaseAll d die) die

/-- The access unit goes to the bitstream ring, if there is one; a live stream drops it there for want of room (R364). -/
def ringStore (d : Dev) (die : Nat) (au : List Byte) : Dev :=
  if d.rd64 (R.VC_ENC_BS_BASE_LO die) = 0 then d
  else if au.length ≤ encRoom d die then ringAppend d die au else d.inc (R.VC_ENC_BS_DROP die) 1

/-- The latency of a live picture that went out on the network (R369): not of one whose slot waited (R371), nor while a path is
down, listens or is held. -/
def noteLatency (d : Dev) (die : Nat) (q : OutPic) (latencyNs : Nat) : Dev :=
  let out := encLive d die && encOut d die == 1 && !q.waited && (pathsOn d die).all (fun i => netUp d i && (pathOf d die i).1 == 2)
  if !out then d
  else
    let r := outRing d die
    let x := d.wr (R.VC_ENC_LAT_MAX die) (max (d.rd (R.VC_ENC_LAT_MAX die)) (min latencyNs 0xFFFFFFFF))
    if beyondBound (largestSlice (unitsOf r.w r.h) (encSlices d die)) latencyNs then x.inc (R.VC_ENC_LATE_CNT die) 1 else x

/-- The groups of rows a sender or encoder reads of a ring slot, each before the next (R180, R376): a row of RGB10, in YUV420 two
luma rows and their chroma row; of a row its W pixels, as far as the die's HBM goes. -/
def frameGroups (r : Ring) (die s : Nat) : List (List Span) :=
  let g := r.region die s
  let row := fun (i w : Nat) => (⟨.hbm, g.base + i * r.pitch, min w (g.bound - i * r.pitch)⟩ : Span)
  if r.yuv then (List.range (r.h / 2)).map (fun i => [row (2 * i) (2 * r.w), row (2 * i + 1) (2 * r.w), row (r.h + i) (2 * r.w)])
  else (List.range r.h).map (fun i => [row i (4 * r.w)])

/-- Whether a read of spans meets poison (R389). -/
def spansPoisoned (d : Dev) (ss : List Span) : Bool := ss.any (fun s => d.mem.poisoned s.space s.base s.len)

/-- Whether the encoder can write an access unit to the bitstream ring now: a stream that is not live waits for room (R364), and every
stream for edge slots (R221). -/
def ringReady (d : Dev) (die n : Nat) : Bool :=
  d.rd64 (R.VC_ENC_BS_BASE_LO die) == 0 ||
    (if n ≤ encRoom d die then edgeServed d (bsSpans die (encPieces d die n)) else encLive d die)

/-- ENCODE_PICTURE (R364, R368, R369, R371, R389): the next picture to code of the slots handed over is encoded, stored and sent,
and its slot released. -/
def encodePicture (die latencyNs : Nat) (d0 : Dev) : Dev :=
  let d := shareCores d0
  match (if streamOn (encStatus d die) then nextToCode d die else (d.vc die).encQueue.head?) with
  | none => d0
  | some q =>
    let s := q.slot
    let slot := slotSpan (outRing d die) die s
    if !streamOn (encStatus d die) then releaseSlot d die s
    else if encOut d die = 2 ∨ (!encLive d die ∧ (d.vc die).encCores = []) ∨ !spanServed d 0x3FFE false slot ∨ 3 ≤ moonState d die then d0
    else if spansPoisoned d (frameGroups (outRing d die) die s).flatten then
      shareCores (stopIfAsked (releaseSlot ((countOpens d [slot]).inc (R.VC_ENC_BS_DROP die) 1) die s) die)
    else
      let v := d.vc die
      let j := encJob d die q
      let au := accessUnit j
      if !ringReady d die au.length then d0
      else
        let d1 := ringStore (countOpens { d with fresh := d.fresh + 3 } [slot]) die au
        let d2 := (d1.setVc die { d1.vc die with pics := v.pics + 1 }).inc (R.VC_ENC_PIC die) 1
        let d3 := if encOut d2 die = 1 then
            let (x, d3) := d2.draw
            rtpSend d3 die (if v.encLoose then x % 2 ^ 32 else rtpStamp (encRate d3 die) q.at') (codedUnits j)
          else d2
        shareCores (stopIfAsked (releaseSlot (noteLatency d3 die q latencyNs) die s) die)

/-- The groups of rows before the first with a poisoned sector (R376), and the bytes of groups. -/
def cleanGroups (d : Dev) (gs : List (List Span)) : List (List Span) := gs.takeWhile (fun g => !spansPoisoned d g)
def groupBytes (d : Dev) (gs : List (List Span)) : List Byte := gs.flatten.flatMap (fun s => d.mem.bytes .hbm s.base s.len)

/-- The packets a frame's bytes make (R376): the payloads of the general packing mode, none above 1,428 B. -/
def packets2110 (r : Ring) (frame : List Byte) : List (List Byte) :=
  (Config.pack2110 r.yuv r.w r.h frame).flatMap (fun p => fragments 1428 p.length p)

/-- One picture's ST 2110-20 packets, the marker on the last of a whole picture (R376). DESIGN CHOICE: sequence numbers run from
SSRC[15:0] as R374 has them (log 107). -/
def send2110 (d : Dev) (die ts : Nat) (whole : Bool) (ps : List (List Byte)) : Dev :=
  ps.zipIdx.foldl (fun (x : Dev) e =>
    let ssrc := x.rd (R.VC_ENC_SSRC die)
    notePacket (sendPacket x die (fun i =>
      .st2110 die i (netHead x die i) ssrc ((ssrc + (x.vc die).sent) % 65536) ts (whole && e.2 + 1 == ps.length) e.1)) die e.1.length) d

/-- ST2110_PICTURE (R376): the slot goes out; a poisoned sector ends its picture, how far ahead of its packets the sender reads
being open. -/
def st2110Picture (die : Nat) (d : Dev) : Dev :=
  match (d.vc die).encQueue with
  | [] => d
  | q :: _ =>
    let r := outRing d die
    let sp := slotSpan r die q.slot
    if !streamOn (encStatus d die) ∨ encOut d die ≠ 2 ∨ !spanServed d 0x3FFE false sp ∨ 3 ≤ moonState d die then d
    else
      let gs := frameGroups r die q.slot
      let good := cleanGroups d gs
      let bad := decide (good.length < gs.length)
      let v := d.vc die
      let ps := packets2110 r (groupBytes d good)
      let ts := if v.encLoose then Config.freeNat d.fresh % 2 ^ 32 else rtpStamp (encRate d die) q.at'
      let sent := if bad then ps.take (Config.freeNat (d.fresh + 1) % (ps.length + 1)) else ps
      let d1 := send2110 (countOpens { d with fresh := d.fresh + 2 } [sp]) die ts (!bad) sent
      let d2 := d1.setVc die { d1.vc die with pics := v.pics + 1 }
      let d3 := if bad then postRecord (d2.inc (R.VC_ENC_BS_DROP die) 1) sevAlarm die 0x0502 0
        else d2.inc (R.VC_ENC_PIC die) 1
      shareCores (stopIfAsked (releaseSlot d3 die q.slot) die)

/-- RTCP_SENDER_REPORT (R374): to the destination UDP port + 1. -/
def rtcpReport (die : Nat) (d : Dev) : Dev :=
  if encOut d die ≠ 1 ∨ !streamOn (encStatus d die) then d
  else
    let v := d.vc die
    sendPacket d die (fun i => .rtcp die i { netHead d die i with udp := ((netHead d die i).udp + 1) % 65536 } (d.rd (R.VC_ENC_SSRC die)) (Config.ntpTime die d.time.now)
      (d.time.now * 90000 / oneSecond % 2 ^ 32) v.sent v.octets)

/-! ## Listens, frames and links -/

/-- MCAST_LISTEN_END (R378): two seconds of listening are over; a path that saw a foreign source is held and listens
again. -/
def listenEnd (die i : Nat) (d : Dev) : Dev :=
  let p := pathOf d die i
  if !streamOn (encStatus d die) ∨ (p.1 ≠ 1 ∧ p.1 ≠ 3) then d
  else followPaths (setPathSt d die i (if p.2 then 3 else 2, false)) die

/-- A packet from a foreign source to a path's group (R378). -/
def collision (d : Dev) (die i : Nat) : Dev :=
  let p := pathOf d die i
  let b := 12 + i
  let v := d.vc die
  let d1 := postRegFrom ((d.setFld (R.VC_ENC_STAT die) b b 1).inc (R.VC_MCAST_COLL_CNT die) 1) (codecSource die (v.reserved ++ v.encCores)) sevEvent (R.VC_ENC_STAT die) b
  setPathSt d1 die i (p.1, p.2 || p.1 == 1 || p.1 == 3)

/-- Dies whose stream listens to, or sends to, a group on a port. -/
def joined (d : Dev) (i : Nat) : List Nat :=
  (List.range 16).filter (fun die => streamOn (encStatus d die) && (pathsOn d die).contains i && (pathOf d die i).1 != 0)

/-- An answer of port i to a frame (R372): from its addresses, tagged as NET_VLAN_i says, a packet sent (R382). -/
def netReply (d : Dev) (i : Nat) (f : NetFrame) : Dev :=
  (d.inc (R.NET_TX_PKT i) 1).emit (.netReply i (d.rd (R.NET_VLAN i)) (d.rd (R.NET_IP i)) (Config.mac i) f)

/-- NET_FRAME_RX (R372, R373, R378). A query is answered in its version. A packet to a group the port listens on is accepted
whatever its UDP port, and carries nothing the device uses. -/
def frameRx (i : Nat) (f : NetFrame) (full : Bool) (d : Dev) : Dev :=
  let ip := d.rd (R.NET_IP i)
  let discard := d.inc (R.NET_RX_DISC i) 1
  if !netUp d i || f == .pause then d
  else if full && f != .ptpMessage true then d.inc (R.NET_RX_OVF i) 1
  else match f with
    | .ptpMessage _ | .pause => d
    | .arp target _ _ => if ip ≠ 0 ∧ target = ip then netReply d i f else discard
    | .igmpQuery _ => if ip = 0 then discard else if (joined d i).isEmpty then d else netReply d i f
    | .icmpEcho _ dst _ => if ip ≠ 0 ∧ dst = ip then netReply d i f else discard
    | .group g udp src =>
      let heard := (joined d i).filter (fun die => pathGroup d die i == g)
      if heard.isEmpty then discard
      else if src = ip then d
      else (heard.filter (fun die => d.fld (R.VC_ENC_UDP die) 31 16 == udp)).foldl (fun (x : Dev) die => collision x die i) d
    | .other => discard

/-- NET_LINK_CHANGE (R371, R378, R355). A link comes up while the 50 V stages run. -/
def linkChange (i : Nat) (up : Bool) (d : Dev) : Dev :=
  if up then
    (if d.boot.row == 0 || netUp d i then d else relisten (d.setFld (R.NET_STAT i) 0 0 1) i)
  else d.setFld (R.NET_STAT i) 0 0 0

/-- A die's streams end with its partition (R371). -/
def dropStreams (d : Dev) (die : Nat) : Dev :=
  { d with codec := without (· == die) d.codec }.resetPages (fun g => decide (g = Page.vcD die))

/-! ## The rows -/

/-- DECODE_PICTURE (R363). -/
def execDecodePicture (die : Fin 16) (o : DecOutcome) (s : State) : Host.Outcome State Fault Refusal :=
  .next { s with dev := decodePicture die.val o s.dev }

/-- ENCODE_PICTURE (R364). -/
def execEncodePicture (die : Fin 16) (latencyNs : Nat) (s : State) : Host.Outcome State Fault Refusal :=
  .next { s with dev := encodePicture die.val latencyNs s.dev }

/-- ST2110_PICTURE (R376). -/
def execSt2110Picture (die : Fin 16) (s : State) : Host.Outcome State Fault Refusal :=
  .next { s with dev := st2110Picture die.val s.dev }

/-- RTCP_SENDER_REPORT (R374). -/
def execRtcpSenderReport (die : Fin 16) (s : State) : Host.Outcome State Fault Refusal :=
  .next { s with dev := rtcpReport die.val s.dev }

/-- MCAST_LISTEN_END (R378). -/
def execMcastListenEnd (die : Fin 16) (pathB : Bool) (s : State) : Host.Outcome State Fault Refusal :=
  .next { s with dev := listenEnd die.val (b2n pathB) s.dev }

/-- NET_FRAME_RX (R373). -/
def execNetFrameRx (p : Fin 2) (f : NetFrame) (buffersFull : Bool) (s : State) : Host.Outcome State Fault Refusal :=
  .next { s with dev := frameRx p.val f buffersFull s.dev }

/-- NET_LINK_CHANGE (R371). -/
def execNetLinkChange (p : Fin 2) (up : Bool) (s : State) : Host.Outcome State Fault Refusal :=
  .next { s with dev := linkChange p.val up s.dev }

end Sys2Proof.Machine
end

