-- ==== Sys2Proof/Machine/Telemetry.lean ====
section
/-! DEFINITION. The patrol scrubbers (R387, R388) and what the telemetry paths do by themselves: the end of a burst (R396), held
alarms (R395), time marks (R393). -/

namespace Sys2Proof.Machine
open Sys2Proof

/-- A scrubber's find in one unit (R386, R388): hbm tells the memory, addr its byte address there. -/
def scrubFind (d : Dev) (die : Nat) (hbm : Bool) (base size : Nat) : ScrubFind → Dev
  | .good => d
  | .corrected => countEvent d (if hbm then R.RAS_HBM_CE die else R.RAS_SRAM_CE die)
  | .uncorrected a =>
    let r := if hbm then R.RAS_HBM_UE die else R.RAS_SRAM_UE die
    let d1 := { d with mem := d.mem.poison (if hbm then .hbm else .tm) (base + a % size) }
    postReg (d1.inc r 1) sevAlarm r 0

/-- Scrubbers run down to Half (R387), on dies that are up. -/
def scrubs (d : Dev) (die : Nat) : Bool := decide (moonState d die ≤ 2) && rowUp d (die / 4)

/-- SCRUB_SRAM (R387). -/
def scrubSram (die c : Nat) (pass : Bool) (f : ScrubFind) (d : Dev) : Dev :=
  if !scrubs d die then d
  else
    let d1 := scrubFind d die false (tmBase die c) tmSize f
    if pass then d1.inc (R.RAS_SCRUB_SRAM die) 1 else d1

/-- SCRUB_HBM (R387). -/
def scrubHbm (die : Nat) (pass : Bool) (f : ScrubFind) (d : Dev) : Dev :=
  if !scrubs d die then d
  else
    let d1 := scrubFind d die true (hbmBase die) hbmSize f
    if pass then d1.inc (R.RAS_SCRUB_HBM die) 1 else d1

/-- The records of a key at the end of a burst (R396): those held, then the summary of those counted. -/
def keyEnd (p : TlmPath) (d : Dev) (k : BurstKey) : Dev :=
  let d1 := k.held.foldl (fun x r => pathEnter x p r) d
  let d2 := pathEnter d1 p (stamped (mkRecord (pathNs d p) k.sev k.source 1 k.code (min k.counted 0xFFFF)) k.stamp)
  d2.inc64 (tlmCoal p) k.counted

/-- TLM_BURST_END (R396): the general queue has fallen below a quarter. -/
def burstEnd (p : TlmPath) (d : Dev) : Dev :=
  let q := d.path p
  if !q.burst || decide (generalCap d p ≤ 4 * generalLevel d p) then d
  else
    let d1 := (d.setPath p { q with burst := false, keys := [] }).setFld (tlmStat p) 2 2 0
    timeMark (dropSummary (q.keys.foldl (keyEnd p) d1) p) p

/-- Whether a path's alarm queue has room. -/
def alarmRoom (d : Dev) (p : TlmPath) : Bool :=
  match p with
  | .host n => ringOn d n.val && decide (1 ≤ ringFree d n.val)
  | _ => decide ((d.path p).alarm.length < 256)

/-- TLM_ALARM_RELEASE (R395): the oldest held alarm is sent, with its own time. -/
def alarmRelease (p : TlmPath) (d : Dev) : Dev :=
  let q := d.path p
  match q.waiting with
  | [] => d
  | r :: t =>
    if !alarmRoom d p then d
    else
      let d1 := match p with
        | .host n => ringWrite (d.setPath p { q with waiting := t }) n.val r
        | _ =>
          let x := d.setPath p { q with waiting := t, alarm := q.alarm ++ [r] }
          if recSev r == sevAlarm then x.emit (.sideband p) else x
      if t.isEmpty then d1.setFld (tlmStat p) 1 1 0 else d1

/-- SCRUB_SRAM (R387). -/
def execScrubSram (k : CoreIx) (pass : Bool) (f : ScrubFind) (s : State) : Host.Outcome State Fault Refusal :=
  .next { s with dev := scrubSram k.die.val k.core.val pass f s.dev }

/-- SCRUB_HBM (R387). -/
def execScrubHbm (die : Fin 16) (pass : Bool) (f : ScrubFind) (s : State) : Host.Outcome State Fault Refusal :=
  .next { s with dev := scrubHbm die.val pass f s.dev }

/-- TLM_BURST_END (R396). -/
def execTlmBurstEnd (p : TlmPath) (s : State) : Host.Outcome State Fault Refusal :=
  .next { s with dev := burstEnd p s.dev }

/-- TLM_ALARM_RELEASE (R395). -/
def execTlmAlarmRelease (p : TlmPath) (s : State) : Host.Outcome State Fault Refusal :=
  .next { s with dev := alarmRelease p s.dev }

/-- A path that works marks a wrap of DEVTIME ns [31:0], once (R393). -/
def wrapMark (p : TlmPath) (d : Dev) : Dev :=
  if pathRuns d p && pathWraps d p != (d.path p).marked then timeMark d p else d

/-- TLM_TIME_MARK (R393). -/
def execTlmTimeMark (p : TlmPath) (s : State) : Host.Outcome State Fault Refusal :=
  .next { s with dev := wrapMark p s.dev }

end Sys2Proof.Machine
end

