-- ==== Sys2Proof/Machine/Security.lean ====
section
/-! DEFINITION. Security and firmware update: bundles and their checks (R400, R401, R411), measurements (R403), attestation
(R404), protected memory (R408), debug (R409), update sessions and activation (R410 to R415). -/

namespace Sys2Proof.Machine
open Sys2Proof

/-! ## Bundles -/

/-- Where a slot lies in the flash (R400). -/
def slotBase (b : Bool) : Nat := if b then 0x400_0000 else 0

/-- A number of a slot's bundle. -/
def bundleNum (d : Dev) (b : Bool) (off n : Nat) : Nat := d.mem.num .flash (slotBase b + off) n

/-- Image entry i of a bundle: type, offset, length, digest (R400). -/
def imageEntry (d : Dev) (b : Bool) (i : Nat) : Nat × Nat × Nat × Nat :=
  let e := 0x40 + 64 * i
  (bundleNum d b e 1, bundleNum d b (e + 4) 4, bundleNum d b (e + 8) 4, bundleNum d b (e + 16) 48)

/-- Header format, signature and image digests (R400, R411). -/
def bundleOk (d : Dev) (b : Bool) : Bool :=
  let len := bundleNum d b 0xC 4
  let es := (List.range 5).map (imageEntry d b)
  bundleNum d b 0 4 == 0x42584446 && bundleNum d b 0xA 1 == 5 && decide (4096 ≤ len) && decide (len ≤ 67104768) &&
    [1, 2, 3, 4, 5].all (fun t => (es.filter (fun e => e.1 == t)).length == 1) &&
    es.all (fun e => e.2.1 % 4096 == 0 && decide (e.2.1 + e.2.2.1 ≤ len)) &&
    Config.sigOk (Config.sha384 (d.mem.bytes .flash (slotBase b) 0x180)) (bundleNum d b 0x180 96) &&
    es.all (fun e => Config.sha384 (d.mem.bytes .flash (slotBase b + e.2.1) e.2.2.1) == e.2.2.2)

def bundleSvn (d : Dev) (b : Bool) : Nat := bundleNum d b 8 2
def bundleVer (d : Dev) (b : Bool) : Nat := bundleNum d b 4 4

def SecSt.slot (s : SecSt) (b : Bool) : FwSlot := if b then s.slotB else s.slotA
def SecSt.setSlot (s : SecSt) (b : Bool) (v : FwSlot) : SecSt := if b then { s with slotB := v } else { s with slotA := v }

/-- A slot that may boot (R401, R414). -/
def slotBoots (d : Dev) (b : Bool) : Bool :=
  let s := d.sec.slot b
  !s.invalid && !s.holes && bundleOk d b && decide (d.sec.blown ≤ bundleSvn d b)

/-- Image type numbers (R400). -/
def imageType : Image → Nat
  | .mp => 1 | .tp => 2 | .stp => 3 | .qp => 4 | .dc => 5

/-- The digest of an image in a slot's bundle. -/
def imageDigest (d : Dev) (b : Bool) (i : Image) : Nat :=
  (((List.range 5).map (imageEntry d b)).find? (fun e => e.1 == imageType i)).map (·.2.2.2) |>.getD 0

/-- The slot running (R416). -/
def runSlot (d : Dev) : Bool := d.fld R.SEC_STAT 5 5 == 1

/-- What running a slot's bundle shows (R416): svn in force, bundle version, running and boot slot. -/
def runBundle (d : Dev) (b : Bool) : Dev :=
  let d1 := (d.setFld R.SEC_FUSE 31 16 (bundleSvn d b)).wr R.SEC_BUNDLE_VER (bundleVer d b)
  (d1.setFld R.SEC_STAT 5 5 (b2n b)).setFld R.SEC_STAT 4 4 (b2n b)

/-! ## Measurements and attestation -/

/-- In recovery no bundle runs (R402). -/
def inRecovery (d : Dev) : Bool := d.fld R.SEC_STAT 7 7 == 1

/-- The protected ranges a die asks for (R408): first page and count. -/
def protRanges (d : Dev) (die : Nat) : List (Nat × Nat) :=
  (List.range 16).map (fun i => (d.fld (R.SEC_PROT die i) 15 0, d.fld (R.SEC_PROT die i) 31 16))

/-- A measurement (R403): a SHA-384 digest. DESIGN CHOICE: that of index 9 is of the one byte R403 gives (log 117). -/
def measurement (d : Dev) (n i : Nat) : List Nat :=
  let b := runSlot d
  match i with
  | 1 => [Config.romMeasurement]
  | 2 => [if inRecovery d then 0 else Config.sha384 (d.mem.bytes .flash (slotBase b) 0x1E0)]
  | 3 => [imageDigest d b .mp]
  | 4 => [imageDigest d b .tp]
  | 5 => [imageDigest d b .stp]
  | 6 => [imageDigest d b .qp]
  | 7 => [imageDigest d b .dc]
  | 8 => [Config.measure 8 [d.sec.blown, d.fld R.SEC_FUSE 31 16]]
  | 9 => [Config.sha384 [BitVec.ofNat 8 (b2n d.sec.unlocked)]]
  | 10 => [Config.measure 10 ((d.port n).rows :: (partDies (d.port n)).flatMap (fun die => (protRanges d die).flatMap (fun r => [r.1, r.2])))]
  | _ => []

/-- The SP has booted and the port's mailbox is reachable. -/
def spdmOn (d : Dev) (n : Nat) : Bool := (d.port n).up

/-- Response codes of SPDM 1.3. -/
def spdmError : Nat := 0x7F

/-- An answer on a port's mailbox, counted (R404, R416). -/
def spdmAnswer (d : Dev) (n code : Nat) (body : List Nat) : Dev := (d.inc (R.SEC_SPDM_CNT n) 1).emit (.spdm n code body)

/-- A request of a port's responder (R404): it comes in the specification's order, stage by stage, or is answered with
an error. before: the least stage it needs; after: the stage it leads to. What the answer holds beyond R403 and R404 is the
SPDM specification's. -/
def spdmRequest (n before after code : Nat) (body : Dev → List Nat) (d : Dev) : Dev :=
  if !spdmOn d n then d
  else
    let p := d.port n
    if p.spdm < before then spdmAnswer d n spdmError [0x04]
    else
      let d1 := d.setPort n { p with spdm := after }
      spdmAnswer { d1 with fresh := d1.fresh + 1 } n code (body d ++ Config.spdmBody n code d.fresh)

/-- A certificate slot other than 0 (R404). -/
def spdmSlot (n slot : Nat) (k : Dev → Dev) (d : Dev) : Dev :=
  if !spdmOn d n then d else if slot ≠ 0 then spdmAnswer d n spdmError [0x01] else k d

/-- Measurements asked for: 0 how many, 0xFF all of them, else one. DESIGN CHOICE: of an index that R403 does not list no
measurement (log 134). -/
def measured (d : Dev) (n i : Nat) : List Nat :=
  if i = 0 then [10]
  else if i = 0xFF then (List.range 10).flatMap (fun j => (j + 1) :: measurement d n (j + 1))
  else i :: measurement d n i

/-! ## Debug -/

/-- A fresh nonce of debug (R409). -/
def freshNonce (d : Dev) : Dev :=
  let (x, d1) := d.draw
  (d1.wr R.SEC_DBG_NONCE_LO (x % 2 ^ 32)).wr R.SEC_DBG_NONCE_HI (x / 2 ^ 32 % 2 ^ 32)

/-- The signature in SEC_DBG_TOKEN_i. -/
def tokenBytes (d : Dev) : List Byte := (List.range 24).flatMap (fun i => leBytes 4 (d.rd (R.SEC_DBG_TOKEN i)))

/-- DEBUG_UNLOCK (R409): the token signs the nonce the management path has read, which its HI word's read replaced. -/
def debugUnlock (d : Dev) : Dev :=
  if !d.time.started then d
  else
    let signed := match d.sec.nonce with
      | some k => Config.sigOk (Config.sha384 (leBytes 8 Config.serial ++ leBytes 8 k)) (ofLe (tokenBytes d))
      | none => false
    let free := (List.range 4).all (fun n => !(d.port n).valid)
    idle (if free && signed then
        { d with sec := { d.sec with unlocked := true } }.setFld R.SEC_STAT 6 6 1
      else postFault d .secG 0x0802 0 0) .secG

/-- DEBUG_LOCK (R409). -/
def debugLock (d : Dev) : Dev := { d with sec := { d.sec with unlocked := false } }.setFld R.SEC_STAT 6 6 0

/-- A request from outside the partition reaches a protected page of a die's HBM (R407, R419). -/
def refuseOutside (die pg : Nat) (d : Dev) : Dev := postFault (d.inc R.SEC_KEY_CNT 1) .secG 0x0801 (2 ^ 24 * die + pg % 2 ^ 16) 0

/-- A locked JTAG instruction is replaced by BYPASS (R409). -/
def debugDeny (d : Dev) : Dev := (postRecord (d.inc R.SEC_DBG_DENY_CNT 1) sevAlarm (pageSource .secG) 0x0802 0).emit (.jtag 0)

/-- JTAG_INSTRUCTION (R409): while debug is locked anything but IDCODE and BYPASS is replaced by BYPASS; what an unlocked
debug unit answers is open, but for a protected page (R407): such a read answers 0 and such a write is dropped. A write to
another page leaves that page's bytes open (log 77). -/
def jtagRun (op : JtagOp) (d : Dev) : Dev :=
  match op with
  | .idcode => d.emit (.jtag Config.idcode)
  | .bypass => d.emit (.jtag 0)
  | .memory write die page =>
    if !d.sec.unlocked then debugDeny d
    else if pageProtected d die.val page then (refuseOutside die.val page d).emit (.jtag 0)
    else
      let (x, d1) := d.draw
      (if write then scramble d1 [dieSpan die.val (page * 0x20_0000) 0x20_0000] else d1).emit (.jtag x)
  | .other _ =>
    if d.sec.unlocked then
      let (x, d1) := d.draw
      d1.emit (.jtag x)
    else debugDeny d

/-! ## Protected memory -/

/-- Whether ranges cover a 2 MiB page (R408). -/
def covered (rs : List (Nat × Nat)) (pg : Nat) : Bool :=
  decide (pg ≤ 49151) && rs.any (fun r => decide (r.1 ≤ pg) && decide (pg < r.1 + r.2))

/-- The SP draws a 512-bit key for a partition and loads it into its dies (R405). -/
def drawKey (d : Dev) (dies : List Nat) : Dev :=
  let (k, d1) := d.draw
  { d1 with sec := { d1.sec with keys := dies ++ d1.sec.keys,
                                 xts := dies.map (fun die => (die, k % 2 ^ 512)) ++ without (fun die => dies.contains die) d1.sec.xts } }

/-- PROT_APPLY (R408): refused while a plan runs or is suspended, a codec stream is attached, or debug is unlocked. While one is
under way the write is a forbidden one (R427): which pages are protected is open, in the page's registers and in the end. -/
def protApply (n die : Nat) (d : Dev) : Dev :=
  if ownerOf d die ≠ some n then d
  else if d.fld (R.SEC_PROT_STAT die) 1 0 = 1 then
    let d1 := freePage d (.secD die)
    { d1 with sec := { d1.sec with applying := put d1.sec.applying die (protRanges d1 die) } }
  else
    let p := d.port n
    let busy := p.run.isSome || (List.range 8).any (fun i => (p.slot i).susp.isSome) || (partDies p).any (codecServes d) || d.sec.unlocked
    if busy then d.setFld (R.SEC_PROT_STAT die) 1 0 3
    else ({ d with sec := { d.sec with applying := put d.sec.applying die (protRanges d die) } }).setFld (R.SEC_PROT_STAT die) 1 0 1

/-- PROT_APPLY_DONE (R408): pages whose marking changed hold zeros, the new marking is in force. -/
def protDone (die : Nat) (d : Dev) : Dev :=
  if d.fld (R.SEC_PROT_STAT die) 1 0 ≠ 1 then d
  else
    let new := look [] d.sec.applying die
    let old := look [] d.sec.inForce die
    let flips := fun (pg : Nat) => covered new pg != covered old pg
    let lo := hbmBase die
    let hbm := d.mem.hbm.filter (fun c => !(decide (lo ≤ c.1) && decide (c.1 < lo + hbmSize) && flips ((c.1 - lo) / 0x20_0000)))
    let poison := d.mem.hbmPoison.filter (fun w => !(decide (lo ≤ 64 * w) && decide (64 * w < lo + hbmSize) && flips ((64 * w - lo) / 0x20_0000)))
    let d1 := { d with
      mem := { d.mem with hbm := hbm, hbmPoison := poison }
      sec := { d.sec with inForce := put d.sec.inForce die new, applying := without (· == die) d.sec.applying } }
    idle ((d1.setFld (R.SEC_PROT_PAGES die) 15 0 ((List.range 49152).filter (covered new)).length).setFld (R.SEC_PROT_STAT die) 1 0 2) (.secD die)

/-! ## Update sessions -/

/-- Status and error of a host's FWU page, the device's state beside them (R418). -/
def fwuSay (d : Dev) (n status err : Nat) : Dev :=
  (d.wr (R.FWU_STATUS n) (256 * err + status)).setFld R.FWU_STATE 3 0 status

/-- An operation's error: status as it was. -/
def fwuErr (d : Dev) (n err : Nat) : Dev := d.setFld (R.FWU_STATUS n) 15 8 err

/-- The slot that is not running. -/
def idleSlot (d : Dev) : Bool := !runSlot d

def setSession (d : Dev) (s : Option Session) : Dev :=
  let d1 := { d with sec := { d.sec with session := s } }
  match s with
  | some v => (d1.setFld R.FWU_STATE 6 6 1).setFld R.FWU_STATE 5 4 v.owner
  | none => d1.setFld R.FWU_STATE 6 4 0

/-- An operation of the session's owner, no other one being under way. -/
def withSession (d : Dev) (n : Nat) (k : Session → Dev) : Dev :=
  if !(d.port n).reached then d
  else match d.sec.session with
    | none => d
    | some s =>
      if s.owner ≠ n then fwuErr d n 0x10
      else if s.erasing || s.programming.isSome || d.sec.activating.isSome then d
      else k s

/-- FWU_OPEN (R410, R415, R418): the inactive slot and its confirmation record are being erased. -/
def fwuOpen (n : Nat) (d : Dev) : Dev :=
  if !(d.port n).reached then d
  else if d.sec.session.isSome || d.sec.activating.isSome then fwuErr d n 0x10
  else if !bit (d.fld R.FWU_ALLOW 3 0) n then fwuErr d n 0x11
  else
    let total := d.fld (R.FWU_TOTAL n) 25 0
    if total = 0 ∨ 67104768 < total then fwuErr d n 0x12
    else
      let b := idleSlot d
      let d1 := { d with sec := d.sec.setSlot b { confirmed := none, invalid := false, holes := true } }
      (fwuSay (setSession d1 (some { owner := n, total := total })) n 2 0).wr (R.FWU_BLOCKS n) 0

/-- FWU_ERASE_DONE (R410). -/
def eraseDone (d : Dev) : Dev :=
  match d.sec.session with
  | none => d
  | some s =>
    if s.erasing then
      fwuSay (setSession { d with mem := d.mem.eraseSlot (idleSlot d) } (some { s with erasing := false })) s.owner 1 0
    else d

/-- A session ends with its slot erased (R410, R415). -/
def abortSession (d : Dev) (n : Nat) : Dev :=
  let b := idleSlot d
  fwuSay (setSession { d with mem := d.mem.eraseSlot b, sec := d.sec.setSlot b { d.sec.slot b with holes := true } } none) n 0 0

/-- FWU_WRITE (R410): data is what the host's memory answered, none for a failed read. -/
def fwuWrite (n : Nat) (data : Option (List Byte)) (d : Dev) : Dev :=
  withSession d n (fun s =>
    let blk := d.fld (R.FWU_OFF n) 9 0
    let len := d.fld (R.FWU_LEN n) 16 0
    let last := decide (s.total ≤ (blk + 1) * 65536)
    if s.blocks.contains blk then fwuErr d n 0x13
    else if len = 0 ∨ s.total < blk * 65536 + len ∨ (len ≠ 65536 ∧ last = false) ∨ 65536 < len then fwuErr d n 0x12
    else match data with
      | none => fwuErr d n 0x14
      | some bs =>
        let d1 := { d with mem := d.mem.write .flash (slotBase (idleSlot d) + blk * 65536) (bs.take len) }
        fwuSay (setSession d1 (some { s with programming := some blk })) n 2 0)

/-- Blocks of a bundle. -/
def blockCount (total : Nat) : Nat := cdiv total 65536

/-- FWU_BLOCK_DONE (R410). -/
def blockDone (d : Dev) : Dev :=
  match d.sec.session with
  | none => d
  | some s =>
    match s.programming with
    | none => d
    | some blk =>
      let s1 := { s with programming := none, blocks := blk :: s.blocks }
      let b := idleSlot d
      let d1 := { d with sec := d.sec.setSlot b { d.sec.slot b with holes := decide (s1.blocks.length < blockCount s.total) } }
      (fwuSay (setSession d1 (some s1)) s.owner 3 0).wr (R.FWU_BLOCKS s.owner) s1.blocks.length

/-- A check that fails ends the session (R411). -/
def verifyFault (d : Dev) (n code : Nat) : Dev := fwuSay (setSession (postFault d (.fwuH n) code 0 0) none) n 0 0

/-- FWU_VERIFY (R411). -/
def fwuVerify (n : Nat) (d : Dev) : Dev :=
  withSession d n (fun s =>
    let b := idleSlot d
    if s.blocks.length < blockCount s.total then fwuErr d n 0x15
    else if !bundleOk d b then verifyFault d n 0x0803
    else if bundleSvn d b < d.sec.blown ∨ bundleVer d b < d.rd R.SEC_BUNDLE_VER then verifyFault d n 0x0804
    else fwuSay (setSession d (some { s with verified := true })) n 4 0)

/-- A die in Crescent or New goes to Half for a handover (R412). -/
def toHalf (d : Dev) (die : Nat) : Dev :=
  if moonState d die < 3 then d
  else
    let d1 := match moonState d die, ownerOf d die with
      | 4, some n => leaveNew d n die
      | _, _ => d
    (unconverge (selfRefresh d1 die 0)).setFld (R.PWR_MOON die) 2 0 2

/-- The activation is over: no session, no image waits. -/
def activationOver (d : Dev) : Dev :=
  idle (setSession { d with sec := { d.sec with activating := none, todo := [], handed := [], okImages := [] } } none) .fwuG

/-- The session's owner at the end of an activation hears of it. -/
def ownerSay (d : Dev) (status : Nat) : Dev :=
  match d.sec.session with
  | some s => fwuSay d s.owner status 0
  | none => d.setFld R.FWU_STATE 3 0 status

/-- Fuses blown until their count is at least min(svn, 128) of a slot's bundle (R413 step 2): a fuse never heals. -/
def blowFuses (d : Dev) (b : Bool) : Dev := { d with sec := { d.sec with blown := max d.sec.blown (min (bundleSvn d b) 128) } }

/-- ACTIVATION_COMMIT (R413): the confirmation record, then the fuses, then status 7. -/
def activationCommit (d : Dev) : Dev :=
  let b := idleSlot d
  let next := 1 + max (((d.sec.slot false).confirmed).getD 0) (((d.sec.slot true).confirmed).getD 0)
  let s1 := d.sec.setSlot b { d.sec.slot b with confirmed := some next, invalid := false }
  activationOver (ownerSay (runBundle (blowFuses { d with sec := s1 } b) b) 7)

/-- The image a processor runs (R400, R412). -/
def procImage : Proc → Image
  | .dc _ => .dc
  | .qp _ => .qp
  | .stp => .stp
  | .tp => .tp
  | .mp => .mp

/-- The processors in the order of R412. -/
def handoverOrder : List Proc := (List.finRange 16).map .dc ++ (List.finRange 4).map .qp ++ [.stp, .tp, .mp]

/-- Every image handed over and confirmed (R413). -/
def commitIfReady (d : Dev) : Dev :=
  if d.sec.activating.isSome && (leftToHand d).isEmpty && d.sec.handed.all (fun p => d.sec.okImages.contains (procImage p)) then
    activationCommit d
  else d

/-- FWU_ACTIVATE (R412): the processors whose image's digest differs, one by one, those of rows that are not up left out. -/
def fwuActivate (n : Nat) (d : Dev) : Dev :=
  withSession d n (fun s =>
    if !s.verified then d
    else
      let b := idleSlot d
      let todo := handoverOrder.filter (fun p =>
        procUp d p && imageDigest d b (procImage p) != imageDigest d (runSlot d) (procImage p))
      let d1 := (List.range 16).foldl toHalf d
      let d2 := { d1 with sec := { d1.sec with activating := some d1.time.elapsed, todo := todo, handed := [], okImages := [] } }
      commitIfReady (ownerSay (d2.wr R.FWU_CONFIRMED 0) (if todo.isEmpty then 6 else 5)))

/-- FWU_ABORT (R410): the session ends, the inactive slot stays erased. -/
def fwuAbort (n : Nat) (d : Dev) : Dev :=
  match d.sec.session with
  | none => d
  | some s => if s.owner ≠ n ∨ d.sec.activating.isSome ∨ (d.port n).reached = false then d else abortSession d n

/-- IMAGE_HANDOVER (R412): the next processor; the TP's is a handover of the time reference until TP_HANDOVER ends it (R356). -/
def handOver (p : Proc) (d : Dev) : Dev :=
  match leftToHand d with
  | [] => d
  | j :: t =>
    if j ≠ p then d
    else
      let d1 := { d with sec := { d.sec with todo := t, handed := d.sec.handed ++ [p] } }
      let d2 := if p = .tp then beginHandover d1 else d1
      if t.isEmpty then ownerSay d2 6 else d2

/-- An image has confirmed nothing yet, and every processor that runs it has handed over to it. -/
def mayConfirm (d : Dev) (i : Image) : Bool :=
  d.sec.handed.any (fun p => procImage p == i) && (leftToHand d).all (fun p => procImage p != i) && !d.sec.okImages.contains i

/-- FW_FALLBACK (R414): images go back, the TP's in a handover again (R356), the alarm is posted, the new slot is invalid. -/
def fallBack (d : Dev) : Dev :=
  if d.sec.activating.isNone then d
  else
    let b := idleSlot d
    let d0 := if d.sec.handed.contains .tp then beginHandover d else d
    let d1 := { d0 with sec := d0.sec.setSlot b { d0.sec.slot b with invalid := true } }
    let d2 := (postRecord d1 sevAlarm (pageSource .secG) 0x0805 0).inc R.FWU_FALLBACK_CNT 1
    activationOver (ownerSay d2 8)

/-- HEALTH_CONFIRM (R413): an image confirms; one that fails while it confirms ends the activation (R414). -/
def healthConfirm (i : HealthReport) (d : Dev) : Dev :=
  if !mayConfirm d i.image then d
  else if !i.healthy then fallBack d
  else
    let b := imageType i.image - 1
    commitIfReady (({ d with sec := { d.sec with okImages := i.image :: d.sec.okImages } }).setFld R.FWU_CONFIRMED b b 1)

/-! ## The rows -/

/-- GET_VERSION (R404): it begins anew. -/
def execGetVersion (n : Fin 4) (s : State) : Host.Outcome State Fault Refusal :=
  .next { s with dev := spdmRequest n.val 0 1 0x04 (fun _ => [0x13]) s.dev }

/-- GET_CAPABILITIES (R404): CTExponent 20; the flags CERT_CAP, CHAL_CAP and MEAS_CAP with signature, no other. PRESUMED: their
bits are those of SPDM 1.3 (log 157). -/
def execGetCapabilities (n : Fin 4) (s : State) : Host.Outcome State Fault Refusal :=
  .next { s with dev := spdmRequest n.val 1 2 0x61 (fun _ => [20, 0x16]) s.dev }

/-- NEGOTIATE_ALGORITHMS (R404): measurement hash SHA-384, ECDSA NIST P-384, SHA-384. PRESUMED: their bits are those of SPDM 1.3
(log 157). -/
def execNegotiateAlgorithms (n : Fin 4) (s : State) : Host.Outcome State Fault Refusal :=
  .next { s with dev := spdmRequest n.val 2 3 0x63 (fun _ => [0x4, 0x80, 0x2]) s.dev }

/-- GET_DIGESTS (R404). -/
def execGetDigests (n : Fin 4) (s : State) : Host.Outcome State Fault Refusal :=
  .next { s with dev := spdmRequest n.val 3 3 0x01 (fun _ => [Config.sha384 Config.certChain]) s.dev }

/-- GET_CERTIFICATE (R404): slot 0 only. -/
def execGetCertificate (n : Fin 4) (slot : Nat) (s : State) : Host.Outcome State Fault Refusal :=
  .next { s with dev := spdmSlot n.val slot (spdmRequest n.val 3 3 0x02 (fun _ => Config.certChain.map (·.toNat))) s.dev }

/-- CHALLENGE (R404). -/
def execChallenge (n : Fin 4) (slot : Nat) (s : State) : Host.Outcome State Fault Refusal :=
  .next { s with dev := spdmSlot n.val slot (spdmRequest n.val 3 3 0x03
    (fun d => [Config.sha384 Config.certChain, Config.sign n.val d.fresh])) s.dev }

/-- GET_MEASUREMENTS (R403, R404). -/
def execGetMeasurements (n : Fin 4) (index : Nat) (s : State) : Host.Outcome State Fault Refusal :=
  .next { s with dev := spdmRequest n.val 3 3 0x60 (fun d => measured d n.val index ++ [Config.sign n.val d.fresh]) s.dev }

/-- SPDM_UNSUPPORTED (R404): ERROR UnsupportedRequest. -/
def execSpdmUnsupported (n : Fin 4) (code : Nat) (s : State) : Host.Outcome State Fault Refusal :=
  .next { s with dev := if spdmOn s.dev n.val then spdmAnswer s.dev n.val spdmError [0x07, code] else s.dev }

/-- DEBUG_UNLOCK (R409). -/
def execDebugUnlock (s : State) : Host.Outcome State Fault Refusal := .next { s with dev := debugUnlock s.dev }

/-- DEBUG_LOCK (R409). -/
def execDebugLock (s : State) : Host.Outcome State Fault Refusal := .next { s with dev := debugLock s.dev }

/-- JTAG_INSTRUCTION (R409). -/
def execJtagInstruction (op : JtagOp) (s : State) : Host.Outcome State Fault Refusal := .next { s with dev := jtagRun op s.dev }

/-- PROT_APPLY_DONE (R408). -/
def execProtApplyDone (die : Fin 16) (s : State) : Host.Outcome State Fault Refusal :=
  .next { s with dev := protDone die.val s.dev }

/-- FWU_OPEN (R410). -/
def execFwuOpen (n : Fin 4) (s : State) : Host.Outcome State Fault Refusal := .next { s with dev := fwuOpen n.val s.dev }

/-- FWU_ERASE_DONE (R410). -/
def execFwuEraseDone (s : State) : Host.Outcome State Fault Refusal := .next { s with dev := eraseDone s.dev }

/-- FWU_WRITE (R410). -/
def execFwuWrite (n : Fin 4) (data : Option (List Byte)) (s : State) : Host.Outcome State Fault Refusal :=
  .next { s with dev := fwuWrite n.val data s.dev }

/-- FWU_BLOCK_DONE (R410). -/
def execFwuBlockDone (s : State) : Host.Outcome State Fault Refusal := .next { s with dev := blockDone s.dev }

/-- FWU_VERIFY (R411). -/
def execFwuVerify (n : Fin 4) (s : State) : Host.Outcome State Fault Refusal := .next { s with dev := fwuVerify n.val s.dev }

/-- FWU_ACTIVATE (R412). -/
def execFwuActivate (n : Fin 4) (s : State) : Host.Outcome State Fault Refusal := .next { s with dev := fwuActivate n.val s.dev }

/-- FWU_ABORT (R410). -/
def execFwuAbort (n : Fin 4) (s : State) : Host.Outcome State Fault Refusal := .next { s with dev := fwuAbort n.val s.dev }

/-- IMAGE_HANDOVER (R412). -/
def execImageHandover (p : Proc) (s : State) : Host.Outcome State Fault Refusal := .next { s with dev := handOver p s.dev }

/-- HEALTH_CONFIRM (R413). -/
def execHealthConfirm (i : HealthReport) (s : State) : Host.Outcome State Fault Refusal := .next { s with dev := healthConfirm i s.dev }

/-- HEALTH_TIMEOUT (R414). -/
def execHealthTimeout (s : State) : Host.Outcome State Fault Refusal := .next { s with dev := fallBack s.dev }

end Sys2Proof.Machine
end

