-- ==== Sys2Proof/Machine/Partition.lean ====
section
/-! DEFINITION. Partitions: requests and grants (R289, R290), teardown by release, resets, link-down and D3hot (R291), the
clearing of rows, and what creating or tearing down a partition resets. -/

namespace Sys2Proof.Machine
open Sys2Proof

/-! ## Rows -/

/-- Every link inside a set of rows is up, both directions (R265, R289). -/
def linksInside (d : Dev) (rows : Nat) : Bool :=
  (List.range 16).all (fun die => !bit rows (die / 4) ||
    (List.range 4).all (fun p => !bit rows (neighbour die p / 4) || linkUp d (die, p)))

/-- A row that may serve a partition (R319, R384, R436): up, self-tested without a failed core, its X links up, not being
cleared. -/
def rowServes (d : Dev) (r : Nat) : Bool :=
  rowUp d r && linksInside d (2 ^ r) && !(List.range 4).any (fun n => bit (d.port n).clearing r) &&
    (List.range 4).all (fun i =>
      d.fld (R.DIE_BRING (4 * r + i)) 7 4 == 7 && d.rd64 (R.RAS_CORE_FAIL_LO (4 * r + i)) == 0)

/-- PART_ROW_OK follows a row in no partition. -/
def settleRow (d : Dev) (r : Nat) : Dev :=
  if (ownerOf d (4 * r)).isSome then d else d.setFld R.PART_ROW_OK r r (b2n (rowServes d r))

/-- The dies of a row. -/
def rowDies (r : Nat) : List Nat := [4 * r, 4 * r + 1, 4 * r + 2, 4 * r + 3]

/-- A span of a byte store cleared to zeros, its poison with it (R290). -/
def clearTm (m : Mems) (lo hi : Nat) : Mems :=
  { m with tm := clearCells m.tm lo hi, tmPoison := m.tmPoison.filter (fun w => !(decide (lo ≤ 8 * w) && decide (8 * w < hi))) }
def clearHbm (m : Mems) (lo hi : Nat) : Mems :=
  { m with hbm := clearCells m.hbm lo hi, hbmPoison := m.hbmPoison.filter (fun w => !(decide (lo ≤ 64 * w) && decide (64 * w < hi))) }

/-- A row's tile memory and HBM hold zeros (R290), and no mark of a corrected output (R89). -/
def clearRow (d : Dev) (r : Nat) : Dev :=
  let tm : Span := ⟨.tm, tmBase (4 * r) 0, tmBase (4 * r + 4) 0 - tmBase (4 * r) 0⟩
  let hb : Span := ⟨.hbm, hbmBase (4 * r), hbmBase (4 * r + 4) - hbmBase (4 * r)⟩
  dropMarks { d with mem := clearHbm (clearTm d.mem (tmBase (4 * r) 0) (tmBase (4 * r + 4) 0)) (hbmBase (4 * r)) (hbmBase (4 * r + 4)) } [tm, hb]

/-! ## What creation and teardown reset -/

/-- The counters of a page at 0. -/
def clearCounters (d : Dev) (pg : Page) : Dev :=
  (rowsOf pg).foldl (fun (x : Dev) r =>
    if r.ctr = 0 then x
    else (List.range r.cnt).foldl (fun (y : Dev) i =>
      let z := y.wr ⟨pg, r.off + r.stride * i⟩ 0
      if r.ctr = 2 then z.wr ⟨pg, r.off + 4⟩ 0 else z) x) d

/-- The fault fields of a page cleared (R432). -/
def clearFault (d : Dev) (pg : Page) : Dev :=
  { d with regs := without (fun r => decide (r.page = pg) && decide (0x24 ≤ r.off) && decide (r.off ≤ 0x2C)) d.regs }

/-- The pages of a die's window. -/
def diePages (die : Nat) : List Page :=
  [.dieD die, .pwrD die, .hbmc die 0, .hbmc die 1] ++ (List.range 4).map (Page.jlink die) ++
    [.coreDie die, .tcu die 0, .tcu die 1, .kvt die, .ast die, .pxe die, .sem die, .vcD die, .tlmD die, .secD die] ++
    (List.range 64).map (Page.core die)

/-- State a die keeps for plans and page tables, gone (R163, R290). -/
def emptyDie (d : Dev) (die : Nat) : Dev :=
  let on := fun (k : Nat × Nat) => k.1 == die
  let on3 := fun (k : Nat × Nat × Nat) => k.1 == die
  { d with
    sem := without on3 d.sem, semSat := d.semSat.filter (fun k => !on3 k), ctr := without on3 d.ctr, lim := without on3 d.lim,
    slotTab := without on3 d.slotTab, kvt := without on d.kvt, taken := d.taken.filter (fun k => !on k),
    fetching := d.fetching.filter (fun k => !on k), spillRun := d.spillRun.filter (· != die), ast := without on d.ast,
    sfuValid := d.sfuValid.filter (fun k => k.1 != die), comaValid := d.comaValid.filter (fun k => k.1 != die),
    tblUsers := without on d.tblUsers, cores := without on d.cores, tabs := without on d.tabs, peerRel := d.peerRel.filter (fun k => k.1 != die),
    links := without on d.links, colls := without on d.colls
    kvtPoison := d.kvtPoison.filter (fun k => !on k), semPoison := d.semPoison.filter (fun k => !on3 k)
    mem := d.mem.clearPoison [⟨.sfu, sfuBase die 0 0 0, sfuBase (die + 1) 0 0 0 - sfuBase die 0 0 0⟩,
                              ⟨.coma, comaBase die 0 0, comaBase (die + 1) 0 0 - comaBase die 0 0⟩] }

/-- The level bits of a path's status show what stands in it, also after a reset of its page (R395, R396, R399). -/
def settlePath (d : Dev) (p : TlmPath) : Dev :=
  (d.setFld (tlmStat p) 1 1 (b2n (!(d.path p).waiting.isEmpty))).setFld (tlmStat p) 2 2 (b2n (d.path p).burst)

/-- A log ring's path takes and holds nothing while the ring is off (R398). -/
def emptyPath (d : Dev) (p : TlmPath) : Dev := settlePath (d.setPath p { marked := (d.path p).marked }) p

/-- What creating or resetting a partition gives each of its dies (R163, R213, R237, R253, R281, R341, R371, R399, R417,
R432). RAS_CORE_FAIL and the results of link training are kept. -/
def freshDie (d : Dev) (die : Nat) : Dev :=
  let stats := [R.RAS_CORE_FAIL_LO die, R.RAS_CORE_FAIL_HI die]
  let kept := stats.map (fun r => (r, d.rd r))
  let d1 := clearTcu (dropStreams (emptyDie d die) die) die
  let d2 := d1.resetPages (fun g => decide (g = Page.ast die) || decide (g = Page.hbmc die 0) || decide (g = Page.hbmc die 1) ||
    decide (g = Page.tlmD die) || decide (g = Page.secD die))
  let d3 := kept.foldl (fun (x : Dev) e => x.wr e.1 e.2) d2
  let dt := if h : die < 16 then settlePath d3 (.die ⟨die, h⟩) else d3
  let d4 := ([Page.kvt die] ++ (List.range 4).map (Page.jlink die)).foldl clearCounters dt
  let d5 := ([R.KVT_EPOCH die, R.COLL_LAGGARD die 0, R.COLL_LAG_STEP die 0, R.PWR_LAT_TOL die, R.PWR_NEW_BASE_LO die,
    R.PWR_NEW_BASE_HI die, R.IRQ_EN (.pwrD die)].foldl (fun (x : Dev) r => x.wr r 0) d4).wr (R.COLL_WD_DEFAULT die 0) 100
  let d6 := askPoint d5 die 7
  let d7 := d6.setDp die { d6.dp die with newLoose := false }
  (diePages die).foldl clearFault { d7 with sec := { d7.sec with
    inForce := without (· == die) d7.sec.inForce, applying := without (· == die) d7.sec.applying,
    keys := d7.sec.keys.filter (· != die), xts := without (· == die) d7.sec.xts } }

/-- The pages of a host at creation and teardown (R318, R399, R432), and its port with no plan, queue or window. -/
def freshHost (d : Dev) (n : Nat) : Dev :=
  let p := d.port n
  let d1 := clearFault (d.resetPages (fun g => decide (g = Page.hq0 n) || decide (g = Page.hq1 n) || decide (g = Page.tlmH n))) (.fwuH n)
  (emptyPath d1 (hostPath n)).setPort n { up := p.up, clearing := p.clearing, irqGap := p.irqGap, irqHeld := p.irqHeld,
                                           spdm := p.spdm, d3hot := p.d3hot, lanes := p.lanes, rate := p.rate }

/-! ## Creation -/

/-- A legal shape (R29). -/
def legalRows (rows : Nat) : Bool := rows == 1 || rows == 2 || rows == 4 || rows == 8 || rows == 3 || rows == 12 || rows == 15

/-- The MP's answer to a request (R289), its conditions in the table's order. -/
def partStatus (d : Dev) (n rows : Nat) : Nat :=
  let rs := rowList rows
  if !legalRows rows then 3
  else if rs.any (fun r => (List.range 4).any (fun m =>
      (m != n && (d.port m).valid && bit (d.port m).rows r) || bit (d.port m).clearing r)) then 4
  else if rs.any (fun r => d.fld R.PART_ROW_OK r r == 0) || !linksInside d rows then 5
  else if rs.any (fun r => !bit (d.rd R.PART_ALLOW) (4 * n + r)) then 6
  else if (d.port n).valid then 8
  else 2

/-- HQ_PART_RESP. -/
def partResp (d : Dev) (n status : Nat) : Dev := d.setFld (R.HQ_PART_RESP n) 3 0 status

/-- The energy counters of a partition start at 0 (R334). -/
def freshEnergy (d : Dev) (n : Nat) : Dev :=
  let ks := (List.range 9).map (fun s => 9 * n + s)
  let d1 := ks.foldl (fun (x : Dev) k => (x.wr (energyReg k) 0).wr ⟨.pwrG, (energyReg k).off + 4⟩ 0) d
  { d1 with pw := { d1.pw with carry := without (fun k => ks.contains k) d1.pw.carry } }

/-- A granted partition (R290, R405): its dies as R290 says, a key in every one of them. -/
def grantPart (d : Dev) (n rows : Nat) : Dev :=
  let d1 := freshHost d n
  let d2 := { d1 with created := d1.created + 1 }.setPort n { d1.port n with valid := true, rows := rows, number := d1.created + 1 }
  let dies := partDies (d2.port n)
  let d3 := dies.foldl freshDie d2
  let d4 := drawKey d3 dies
  let d5 := dies.foldl (fun (x : Dev) die => x.setFld (R.SEC_PROT_STAT die) 2 2 1) d4
  partResp ((freshEnergy d5 n).inc R.PART_CREATE_CNT 1) n 2

/-- PART_CREATE (R289). PRESUMED: a request shows that the host has taken the function out of D3hot, as PCI Express has it
(log 111). -/
def partCreate (n rows : Nat) (d0 : Dev) : Dev :=
  if !(d0.port n).up then d0
  else
    let d := d0.setPort n { d0.port n with d3hot := false }
    let st := partStatus d n rows
    idle (if st = 2 then grantPart d n rows else partResp (d.inc R.PART_REJECT_CNT 1) n st) .part

/-! ## Teardown -/

/-- A partition has a job (R291). -/
def hasJobs (p : Port) : Bool := p.run.isSome || !p.jobs.isEmpty || (List.range 8).any (fun i => (p.slot i).susp.isSome)

/-- An update session of a torn-down owner ends as with ABORT, before ACTIVATE (R415). -/
def dropSession (d : Dev) (n : Nat) : Dev :=
  match d.sec.session with
  | none => d
  | some s =>
    if s.owner ≠ n ∨ d.sec.activating.isSome then d else abortSession d n

/-- A die of a torn-down partition is clocked and powered for the clearing (R290, R335); at the exit from New its copy of DEVTIME
is reloaded (R347). -/
def leaveForClear (d : Dev) (die : Nat) : Dev :=
  let s := moonState d die
  let d0 := if s = 4 then reloadCopy die d else d
  let d1 := if 3 ≤ s then unconverge (selfRefresh d0 die 0) else d0
  let d2 := d1.setFld (R.PWR_MOON die) 2 0 0
  if 2 ≤ s then d2.setFld (R.PWR_DIE_PT die) 18 16 (askedPoint d2 die) else d2

/-- A partition is torn down (R291): its jobs fault, its flits and tokens are gone, its key is destroyed, its rows are being
cleared. -/
def teardown (d : Dev) (n : Nat) : Dev :=
  let p := d.port n
  if !p.valid then d
  else
    let dies := partDies p
    let d1 := dropSession d n
    let d1 := if holdsPlan p then idlePlans d1 dies else d1
    let d2 := if hasJobs p then postFault d1 (.hq0 n) 0x0904 0 0 else d1
    let d3 := faultAll d2 n 0x0904
    let d4 := dies.foldl (fun (x : Dev) die => leaveForClear (freshDie x die) die) d3
    let d5 := freshHost d4 n
    let d6 := d5.setPort n { d5.port n with clearing := p.clearing ||| p.rows }
    let d7 := (rowList p.rows).foldl (fun (x : Dev) r => x.setFld R.PART_ROW_OK r r 0) d6
    partResp (d7.inc R.PART_TEARDOWN_CNT 1) n 1

/-- PART_CLEAR_DONE (R290, R291): the rows hold zeros and are free. -/
def clearDone (n : Nat) (d : Dev) : Dev :=
  let p := d.port n
  if p.clearing = 0 then d
  else
    let rs := rowList p.clearing
    let d1 := rs.foldl clearRow (d.setPort n { p with clearing := 0 })
    let d2 := rs.foldl settleRow d1
    if p.valid then d2 else partResp d2 n 7

/-- An event of a host port that tears its partition down, and the power state it leaves the function in (R283, R291); the
function must be there. -/
def portEvent (n : Nat) (d3 : Bool) (d : Dev) : Dev :=
  if (d.port n).up then (let e := teardown d n; e.setPort n { e.port n with d3hot := d3 }) else d

/-- A host link trains (R283): to how many lanes and to which rate is the link's. -/
def trainPort (d : Dev) (n : Nat) : Dev :=
  let (x, d1) := d.draw
  d1.setPort n { d1.port n with lanes := 2 ^ (x % 5), rate := x / 5 % 6 }

/-- A host link goes down (R291); the port trains again by itself (R283). -/
def linkLost (n : Nat) (d : Dev) : Dev := if (d.port n).up then trainPort (portEvent n false d) n else d

/-- PART_RELEASE (R291): the MP answers the request. -/
def partRelease (n : Nat) (d : Dev) : Dev := if (d.port n).reached then idle (teardown d n) .part else d

/-! ## The rows -/

/-- PART_CREATE (R289). -/
def execPartCreate (n : Fin 4) (rows : Nat) (s : State) : Host.Outcome State Fault Refusal :=
  .next { s with dev := partCreate n.val rows s.dev }

/-- PART_RELEASE (R291). -/
def execPartRelease (n : Fin 4) (s : State) : Host.Outcome State Fault Refusal := .next { s with dev := partRelease n.val s.dev }

/-- FUNCTION_LEVEL_RESET (R291). -/
def execFunctionLevelReset (n : Fin 4) (s : State) : Host.Outcome State Fault Refusal :=
  .next { s with dev := portEvent n.val false s.dev }

/-- HOT_RESET (R291, R444). -/
def execHotReset (n : Fin 4) (s : State) : Host.Outcome State Fault Refusal :=
  .next { s with dev := portEvent n.val false s.dev }

/-- HOST_LINK_DOWN (R291); the port trains again by itself (R283). -/
def execHostLinkDown (n : Fin 4) (s : State) : Host.Outcome State Fault Refusal :=
  .next { s with dev := linkLost n.val s.dev }

/-- D3HOT_ENTRY (R291). -/
def execD3hotEntry (n : Fin 4) (s : State) : Host.Outcome State Fault Refusal :=
  .next { s with dev := portEvent n.val true s.dev }

/-- PART_CLEAR_DONE (R290). -/
def execPartClearDone (n : Fin 4) (s : State) : Host.Outcome State Fault Refusal := .next { s with dev := clearDone n.val s.dev }

end Sys2Proof.Machine
end

