-- ==== Sys2Proof/Machine/Startup.lean ====
section
/-! DEFINITION. The inputs and their monitoring (R321 to R323), rows that stop (R28, R30), cooling (R449), start-up step by step
(R436 to R440), link training (R264, R265), row bring-up (R441) and the resets (R442, R443). -/

namespace Sys2Proof.Machine
open Sys2Proof

/-! ## Rows that stop -/

/-- Both directions of every link of a row are down and untrained. -/
def linksOff (d : Dev) (r : Nat) : Dev :=
  let off := fun (x : Dev) (k : Nat × Nat) =>
    ((x.setFld (R.JLINK_STAT k.1 k.2) 1 0 0).setFld (R.JLINK_STAT k.1 k.2) 4 4 1).setLink k {}
  (rowDies r).foldl (fun (x : Dev) die =>
    (List.range 4).foldl (fun (y : Dev) p => off (off y (die, p)) (neighbour die p, opposite p)) x) d

/-- A die without power: its pages but the DIE page at their reset values, its units empty, its memories gone. RAS_CORE_FAIL is
kept until start-up clears it (R399, R440). -/
def deadDie (d : Dev) (die : Nat) : Dev :=
  let d1 := dropStreams (emptyDie d die) die
  let pages := (diePages die).filter (fun g => !decide (g = Page.dieD die))
  let d2 := [R.RAS_CORE_FAIL_LO die, R.RAS_CORE_FAIL_HI die].foldl (fun (x : Dev) r => x.wr r (d.rd r)) (d1.resetPages (fun g => pages.contains g))
  { d2 with
    tblValid := d2.tblValid.filter (fun e => e.1 != die), lflag := without (fun (k : Nat × Nat) => k.1 == die) d2.lflag,
    mismatch := d2.mismatch.filter (fun e => e.1.1 != die), fenced := d2.fenced.filter (fun e => e.1 != die),
    dpw := without (· == die) d2.dpw
    sec := { d2.sec with inForce := without (· == die) d2.sec.inForce, applying := without (· == die) d2.sec.applying,
                         keys := d2.sec.keys.filter (· != die), xts := without (· == die) d2.sec.xts } }

/-- A row's stages are off. -/
def rowOff (d : Dev) (r : Nat) : Dev :=
  let d1 := clearRow ((rowDies r).foldl deadDie d) r
  linksOff (((d1.setFld R.DIE_BOOT_STAT (8 + r) (8 + r) 0)).setFld R.PART_ROW_OK r r 0) r

/-- A row stops (R28, R30): every job of the partition that contains it faults. -/
def stopRow (code info0 : Nat) (d : Dev) (r : Nat) : Dev :=
  if !rowUp d r then d
  else
    let d1 := match ownerOf d (4 * r) with
      | none => d
      | some n => faultAll (if hasJobs (d.port n) then postFault d .pwrG code info0 0 else d) n code
    rowOff d1 r

/-- The four rows stop. -/
def stopAll (code info0 : Nat) (d : Dev) : Dev := (List.range 4).foldl (stopRow code info0) d

/-- ROW_PHASE_FAIL (R323). -/
def phaseFail (r : Nat) (d : Dev) : Dev := stopRow 0x0703 r d r

/-- PWR_OVERTEMP (R329). -/
def overtemp (die : Nat) (d : Dev) : Dev := stopRow 0x0704 0 d (die / 4)

/-! ## The main and auxiliary inputs -/

/-- DIE_BOOT_STAT.step (R436). -/
def bootStep (d : Dev) : Nat := d.fld R.DIE_BOOT_STAT 3 0
def setStep (d : Dev) (v : Nat) : Dev := d.setFld R.DIE_BOOT_STAT 3 0 v

/-- The pages of units on the 50 V rail outside the dies: the QPs' and the STP's (R24). -/
def railPage : Page → Bool
  | .hq0 _ | .hq1 _ | .tlmH _ | .netG | .vcG => true
  | _ => false

/-- The PWRGD pin. -/
def setPwrgd (d : Dev) (v : Bool) : Dev :=
  if d.boot.pwrgd == v then d else ({ d with boot := { d.boot with pwrgd := v } }).emit (.pin "PWRGD" v)

/-- The 50 V stages are off (R323, R443): partitions have ceased to exist, memories are lost, the host ports have dropped
their links. An update session before ACTIVATE ends as its owner's teardown ends it (R415). -/
def railOff (d : Dev) : Dev :=
  let d1 := (List.range 4).foldl dropSession d
  let d2 := (List.range 4).foldl rowOff { d1 with ports := [] }
  let d3 := (d2.resetPages railPage).setFld R.DIE_BOOT_STAT 11 4 0
  let d4 := (List.range 16).foldl (fun (x : Dev) die => (x.wr (R.DIE_BRING die) 0).wr (R.DIE_ST_FAIL die) 0) d3
  let kept := fun (p : TlmPath) => match p with
    | .die _ | .host _ => true
    | _ => false
  setPwrgd { d4 with tlm := without kept d4.tlm, boot := { d4.boot with row := 0 },
                     pw := { d4.pw with calRunning := false, samples := [], steady := 0 } } false

/-- A brown-out or overvoltage (R323): each partition's jobs fault, recorded on the auxiliary path alone. -/
def brownOut (code : Nat) (d : Dev) : Dev :=
  if d.boot.row = 0 ∨ d.pw.brownout then d
  else
    let rec' := mkRecord (sourceNs d (pageSource .pwrG)) sevFault (pageSource .pwrG) 0 code 0
    let d1 := (List.range 4).foldl (fun (x : Dev) n => if hasJobs (d.port n) then pathPost x .bmc rec' else x) d
    let d2 := setStep (railOff d1) 3
    fallBack { d2 with pw := { d2.pw with brownout := true } }

/-- PWR_OVERVOLT (R323): before the first row has its stages there is nothing but the input to disconnect. -/
def overvolt (d : Dev) : Dev :=
  if bootStep d = 0 then d
  else
    let d1 := d.setFld R.PWR_STAT 3 3 1
    if d.boot.row = 0 then { d1 with pw := { d1.pw with brownout := true } } else brownOut 0x0702 d1

/-- The 50 V input lies within its operating range (R321). -/
def inRange (d : Dev) : Bool := d.fld R.PWR_STAT 1 1 == 1 && decide (46000 ≤ d.rd R.PWR_IN_V) && decide (d.rd R.PWR_IN_V ≤ 54000)

/-- INPUT_SAMPLE (R323) up to the absolute maximum: mV, and units of 10 mA. -/
def inputSample (mv current : Nat) (d : Dev) : Dev :=
  if bootStep d = 0 then d
  else
    let before := d.rd R.PWR_IN_V
    let d1 := (d.wr R.PWR_IN_V mv).wr R.PWR_IN_I (min current 0xFFFF)
    let d2 := if 46000 ≤ mv then d1.setFld R.PWR_STAT 2 2 0
      else if 46000 ≤ before then flagBit (d1.inc R.PWR_UV_CNT 1) sevAlarm R.PWR_STAT 2 else d1
    let low := decide (mv < 44000)
    let d3 := { d2 with pw := { d2.pw with belowOnce := low } }
    if low && d.pw.belowOnce then brownOut 0x0701 d3 else d3

/-- MAIN_INPUT_RESTORED (R323, R442): 100 ms within range; start-up goes on with step 4. -/
def mainRestored (d : Dev) : Dev :=
  if !d.pw.brownout || !inRange d then d
  else (({ d with pw := { d.pw with brownout := false, belowOnce := false } }).setFld R.PWR_STAT 3 3 0).wr R.DIE_RESET_CAUSE 4

/-- Both inputs are lost (R322, R443): the fuses, the flash and what it marks are left, and the host's memory. An activation
that has not committed leaves its slot invalid (R414), which the next power-up tells. The open-drain pin is let go. -/
def powerOff (d : Dev) : Dev :=
  let cut := d.sec.activating.isSome
  let s := if cut then d.sec.setSlot (idleSlot d) { d.sec.slot (idleSlot d) with invalid := true } else d.sec
  let pins := thermPin d { setPwrgd d false with pw := {} }
  { mem := { host := d.mem.host, flash := d.mem.flash, erasedA := d.mem.erasedA, erasedB := d.mem.erasedB },
    sec := { blown := s.blown, slotA := s.slotA, slotB := s.slotB, cutOff := cut || s.cutOff }, out := pins.out, fresh := d.fresh }

/-- A bit of PWR_STAT follows an input; a change posts an event (R322). -/
def inputBit (d : Dev) (b : Nat) (v : Bool) : Dev :=
  if d.fld R.PWR_STAT b b = b2n v then d else postReg (d.setFld R.PWR_STAT b b (b2n v)) sevEvent R.PWR_STAT b

/-- AUX_INPUT_CHANGE (R322). An absent 50 V rail is a brown-out (R323). -/
def auxChange (aux main : Bool) (d : Dev) : Dev :=
  if bootStep d = 0 then d
  else if !aux && !main then powerOff d
  else
    let d1 := inputBit (inputBit d 0 aux) 1 main
    if main then d1 else brownOut 0x0701 d1

/-! ## Cooling -/

/-- The conditions of R449 present in a sample, as the bits of DIE_COOL_STAT: temperatures in 1/16 °C, flow in 0.01 L/min. -/
def coolBits (inlet flow : Nat) (lowFlow2s : Bool) : Nat :=
  b2n (decide (inlet < 400)) + 2 * b2n (decide (720 < inlet)) + 4 * b2n (decide (flow < 1200)) +
    8 * b2n ((lowFlow2s && decide (flow < 400)) || decide (960 < inlet))

/-- COOLANT_SAMPLE (R449): absent1s has the bits whose condition has been absent for 1 s. -/
def coolantSample (inlet outlet flow : Nat) (lowFlow2s : Bool) (absent1s : Nat) (d : Dev) : Dev :=
  if !d.time.started then d
  else
    let now := coolBits inlet flow lowFlow2s
    let d1 := ((d.wr R.DIE_COOL_IN (min inlet 0xFFFF)).wr R.DIE_COOL_OUT (min outlet 0xFFFF)).wr R.DIE_COOL_FLOW (min flow 0xFFFF)
    let d2 := (List.range 4).foldl (fun (x : Dev) b =>
      let old := x.fld R.DIE_COOL_STAT b b
      if bit now b then (if old = 0 then flagBit x sevAlarm R.DIE_COOL_STAT b else x)
      else if bit absent1s b then x.setFld R.DIE_COOL_STAT b b 0 else x) d1
    let d3 := { d2 with pw := { d2.pw with cool := now } }
    thermPin d (if bit now 3 then stopAll 0x0704 (2 ^ 31) d3 else d3)

/-! ## Start-up -/

/-- AUX_POWER_UP (R436 step 1). -/
def auxUp (aux main : Bool) (d : Dev) : Dev :=
  if bootStep d ≠ 0 ∨ (aux = false ∧ main = false) then d
  else setStep ((d.setFld R.PWR_STAT 0 0 (b2n aux)).setFld R.PWR_STAT 1 1 (b2n main)) 1

/-- The boot slot (R401): the higher sequence number first. -/
def bootSlot (d : Dev) : Option Bool :=
  let b := decide ((d.sec.slotA.confirmed).getD 0 < (d.sec.slotB.confirmed).getD 0)
  if slotBoots d b then some b else if slotBoots d (!b) then some (!b) else none

/-- R413's step 2 is completed when auxiliary power was lost before it: the slot that boots is a confirmed one and its fuses
are not yet blown. -/
def completeCommit (d : Dev) (b : Bool) : Dev := if (d.sec.slot b).confirmed.isSome then blowFuses d b else d

/-- An activation that the loss of auxiliary power cut off falls back (R414, R443): the alarm and the count follow once the
device has power again. -/
def tellCutOff (d : Dev) : Dev :=
  if d.sec.cutOff then (postRecord { d with sec := { d.sec with cutOff := false } } sevAlarm (pageSource .secG) 0x0805 0).inc R.FWU_FALLBACK_CNT 1
  else d

/-- SP_BOOT (R436 step 2, R438). A nonce for debug is drawn (R409). -/
def spBoot (d : Dev) : Dev :=
  if bootStep d ≠ 1 then d
  else
    let d1 := tellCutOff (freshNonce d)
    match bootSlot d1 with
    | some b => setStep (runBundle (completeCommit d1 b) b) 2
    | none =>
      let d2 := setStep (d1.setFld R.SEC_STAT 7 7 1) 15
      idle (d2.setPort 0 { d2.port 0 with up := true }) .dieG

/-- MP_TP_START (R436 step 3): DEVTIME starts, or the TP image has restarted (R356). -/
def mpTpStart (d : Dev) : Dev :=
  if bootStep d ≠ 2 then d
  else
    let d1 := if d.time.started then endHandover d
      else [TlmPath.aggr false, .aggr true, .bmc].foldl timeMark { d with time := { started := true, copies := (List.range 17).map (·, 0) } }
    setStep d1 3

/-- A die's cause of failure among the causes of a step (R452). -/
def causeOf (fails : List DieFail) (mask die : Nat) : Nat :=
  (fails.filter (fun f => f.die.val == die)).foldl (fun c f => c ||| (f.cause &&& mask)) 0

/-- A die passes a step, or fails it (R437). -/
def dieStage (d : Dev) (die stage cause : Nat) : Dev :=
  if cause = 0 then (d.setFld (R.DIE_BRING die) 7 4 stage).setFld (R.DIE_BRING die) 0 0 0
  else (d.setFld (R.DIE_BRING die) 0 0 1).wr (R.DIE_ST_FAIL die) cause

/-- A row's dies pass a step, or the row fails with those that do not and is powered off (R437). -/
def rowStage (stage : Nat) (cause : Nat → Nat) (d : Dev) (r : Nat) : Dev :=
  let d1 := (rowDies r).foldl (fun (x : Dev) die => dieStage x die stage (cause die)) d
  if (rowDies r).any (fun die => cause die != 0) then
    (rowDies r).foldl (fun (x : Dev) die => idle x (.dieD die)) ((rowOff d1 r).setFld R.DIE_BOOT_STAT (4 + r) (4 + r) 1)
  else if stage = 7 then (rowDies r).foldl (fun (x : Dev) die => idle x (.dieD die)) d1 else d1

/-- Causes a die can fail step 4 and step 5 with: stages, calibration; the stacks. -/
def railCauses : Nat := 0x180
def hbmCauses : Nat := 0x60

/-- A row's stages ramp and its dies boot (R436 step 4, R437). -/
def rampRow (fails : List DieFail) (d : Dev) (r : Nat) : Dev :=
  let d1 := (rowDies r).foldl (fun (x : Dev) die => (x.wr (R.DIE_ST_FAIL die) 0).wr (R.DIE_BRING die) 0) d
  let d2 := (d1.setFld R.DIE_BOOT_STAT (8 + r) (8 + r) 1).setFld R.DIE_BOOT_STAT (4 + r) (4 + r) 0
  let d3 := ((rowDies r).filterMap (fun die => if h : die < 16 then some (TlmPath.die ⟨die, h⟩) else none)).foldl timeMark d2
  rowStage 4 (causeOf fails railCauses) d3 r

/-- ROW_POWER_UP (R436 step 4, R439): the rows come in order; the calibration loop starts with the first. -/
def rowPowerUp (r : Nat) (fails : List DieFail) (d : Dev) : Dev :=
  if bootStep d ≠ 3 ∨ d.boot.row ≠ r ∨ d.pw.brownout ∨ inRange d = false then d
  else
    let d1 := if r = 0 then
        (unconverge { d with pw := { d.pw with calRunning := true } }).setFld R.PWR_CAL 31 16 0x4000
      else d
    let d2 := rampRow fails { d1 with boot := { d1.boot with row := r + 1 } } r
    if r = 3 then setStep d2 4 else d2

/-- A row's stacks train and the row is cleared (R436 step 5). -/
def trainRow (fails : List DieFail) (d : Dev) (r : Nat) : Dev :=
  if !rowUp d r then d
  else
    let d1 := (rowDies r).foldl (fun (x : Dev) die => (x.wr (R.HBMC_STAT die 0) 3).wr (R.HBMC_STAT die 1) 3) d
    rowStage 5 (causeOf fails hbmCauses) (clearRow d1 r) r

/-- PWR_CAL shows the margin in force (R328, R439). -/
def showMargin (d : Dev) : Dev := d.setFld R.PWR_CAL 7 0 (marginNow d)

/-- HBM_TRAINING (R436 step 5); the full-load pattern of step 6 begins (R439). -/
def hbmTraining (fails : List DieFail) (d : Dev) : Dev :=
  if bootStep d ≠ 4 then d else showMargin (setStep ((List.range 4).foldl (trainRow fails) d) 5)

/-! ## Links -/

/-- No plan is loaded in the partition of a die (R261). -/
def unloaded (d : Dev) (die : Nat) : Bool :=
  match ownerOf d die with
  | none => true
  | some n => (List.range 8).all (fun i => !((d.port n).slot i).loaded)

/-- A link direction may train (R264, R441): in step 6; later when it is down, its rows are up, and its ends lie in no common
partition and hold no plan. -/
def mayTrain (d : Dev) (k : Nat × Nat) : Bool :=
  let o := neighbour k.1 k.2
  rowUp d (k.1 / 4) && rowUp d (o / 4) &&
    (bootStep d == 5 || (bootStep d == 8 && !linkUp d k && ((ownerOf d k.1).isNone || ownerOf d k.1 != ownerOf d o) &&
      unloaded d k.1 && unloaded d o))

/-- JLINK_SPARE: the lanes the four spares replace (R280). -/
def spareWord (lanes : List Nat) : Nat :=
  (lanes.zipIdx.map (fun e => (128 + e.1 % 128) * 2 ^ (8 * e.2))).foldl (· + ·) 0

/-- A direction that fails step 3 or 4 of R264. -/
def trainFails (t : TrainResult) : Bool := decide (4 < t.badLanes.length) || decide (2 < t.crcErrors)

/-- A direction of a link that is down and untrained. -/
def keepDown (d : Dev) (k : Nat × Nat) : Dev :=
  let st := R.JLINK_STAT k.1 k.2
  idle ((d.setFld st 1 0 0).setFld st 4 4 1) (.jlink k.1 k.2)

/-- A direction trains (R264); one that fails, and the other direction of its link, stay down (R265). -/
def trainLink (rs : List TrainResult) (d : Dev) (t : TrainResult) : Dev :=
  let k := (t.die.val, t.port.val)
  let o := (neighbour k.1 k.2, opposite k.2)
  let st := R.JLINK_STAT k.1 k.2
  if !mayTrain d k then d
  else if trainFails t then keepDown (keepDown (postRecord d sevFault k.1 0x0602 0) k) o
  else if rs.any (fun u => (u.die.val, u.port.val) == o && trainFails u) then keepDown d k
  else
    let d1 := (d.wr (R.JLINK_SPARE k.1 k.2) (spareWord t.badLanes)).setFld (R.JLINK_MARGIN k.1 k.2) 15 0 t.margin
    idle (((d1.setFld st 1 0 3).setFld st 4 4 0).setLink k {}) (.jlink k.1 k.2)

/-- LINK_TRAINING (R264, R436 step 6). -/
def linkTraining (rs : List TrainResult) (d : Dev) : Dev :=
  let d1 := rs.foldl (trainLink rs) d
  if bootStep d = 5 then
    let up := (List.range 4).filter (rowUp d)
    let d2 := (up.flatMap rowDies).foldl (fun (x : Dev) die => x.setFld (R.DIE_BRING die) 7 4 6) d1
    showMargin (setStep d2 6)
  else (List.range 4).foldl settleRow d1

/-! ## Self-test -/

/-- A core's self-test (R440): failed engines are fenced while spares last. The bits are those of DIE_ST_FAIL. -/
def testCore (d : Dev) (f : CoreFail) : Dev × Nat :=
  let die := f.core.die.val
  let c := f.core.core.val
  let r := f.engines.foldl (fun (acc : Dev × Bool) e =>
    let x := fenceEngine acc.1 die c e.val
    (x.1, acc.2 && x.2)) (d, true)
  let cause := 2 * b2n (!r.2) + 4 * b2n f.ve + 8 * b2n f.sfu + 16 * b2n f.companion
  (if cause = 0 then r.1 else markFailed r.1 die c, cause)

/-- A row's self-test (R440, R437): fails has the tile memories. -/
def testRow (fails : List DieFail) (cores : List CoreFail) (d : Dev) (r : Nat) : Dev :=
  if !rowUp d r then d
  else
    let d1 := (rowDies r).foldl (fun (x : Dev) die => (x.wr (R.RAS_CORE_FAIL_LO die) 0).wr (R.RAS_CORE_FAIL_HI die) 0) d
    let t := (cores.filter (fun f => f.core.die.val / 4 == r)).foldl (fun (acc : Dev × List (Nat × Nat)) f =>
      let x := testCore acc.1 f
      (x.1, (f.core.die.val, x.2) :: acc.2)) (d1, [])
    let cause := fun (die : Nat) => (t.2.filter (fun e => e.1 == die)).foldl (fun m e => m ||| e.2) (causeOf fails 1 die)
    rowStage 7 cause t.1 r

/-- SELF_TEST (R436 step 7). -/
def selfTest (fails : List DieFail) (cores : List CoreFail) (d : Dev) : Dev :=
  if bootStep d ≠ 6 then d
  else setStep ((List.range 4).foldl settleRow ((List.range 4).foldl (testRow fails cores) d)) 7

/-- HOST_PORT_START (R436 step 8, R283): the time start-up took is the surroundings'. -/
def hostPortStart (d : Dev) : Dev :=
  if bootStep d ≠ 7 then d
  else
    let (ms, d1) := d.draw
    let d2 := (List.range 4).foldl (fun (x : Dev) n => trainPort (x.setPort n { x.port n with up := true }) n) (d1.wr R.DIE_BOOT_MS ms)
    setPwrgd (idle (setStep d2 8) .dieG) true

/-- OVEN_READY (R343). -/
def ovenReady (d : Dev) : Dev := if bootStep d = 0 then d else d.setFld R.TIME_STAT 7 7 1

/-- ROW_BRINGUP (R441): steps 4, 5 and 7 for a stopped row; its X links train next (LINK_TRAINING). -/
def rowBringup (r : Nat) (fails : List DieFail) (cores : List CoreFail) (d : Dev) : Dev :=
  if bootStep d ≠ 8 ∨ rowUp d r ∨ (ownerOf d (4 * r)).isSome ∨ inRange d = false ∨
      (List.range 4).any (fun n => bit (d.port n).clearing r) then d
  else idle (settleRow (testRow fails cores (trainRow fails (rampRow fails d r) r) r) r) .dieG

/-! ## Resets -/

/-- Start-up begins again at step 2 (R442, R443): every page but TIME is as after a reset, the inputs' bits and the debug lock
as they were; an activation falls back. -/
def restart (cause : Nat) (d : Dev) : Dev :=
  let ins := d.fld R.PWR_STAT 1 0
  let run := d.fld R.SEC_STAT 5 4
  let d1 := (railOff d).resetPages (fun g => !decide (g = Page.timeG))
  let d2 := ((d1.setFld R.PWR_STAT 1 0 ins).setFld R.SEC_STAT 6 6 (b2n d.sec.unlocked)).setFld R.SEC_STAT 5 4 run
  let d3 := fallBack { d2 with pw := { hot := d.pw.hot, cool := d.pw.cool } }
  let d4 := if d3.time.started then d3.setFld R.TIME_STAT 8 8 1 else d3
  setStep (d4.wr R.DIE_RESET_CAUSE cause) 1

/-- RESET_N (R442, R443). -/
def resetPin (d : Dev) : Dev := if bootStep d = 0 then d else restart 2 d

/-- MP_LOCKSTEP (R442): the MP runs from step 3 on. -/
def lockstep (d : Dev) : Dev := if bootStep d < 3 ∨ bootStep d = 15 then d else restart 5 d

/-- MGMT_RESET (R447): answered, then taken; busy before step 3 has ended. -/
def mgmtReset (d : Dev) : Dev :=
  if bootStep d = 0 then d
  else if bootStep d < 3 ∨ bootStep d = 15 then d.emit (.mgmt 4 2 0 0)
  else restart 3 (d.emit (.mgmt 4 0 0 0))

/-! ## The rows -/

/-- INPUT_SAMPLE (R323). Above the absolute maximum of R321 the spec gives no behaviour. -/
def execInputSample (millivolts current : Nat) (s : State) : Host.Outcome State Fault Refusal :=
  if 60000 < millivolts then .fault (.aboveAbsoluteMaximum millivolts)
  else .next { s with dev := inputSample millivolts current s.dev }

/-- PWR_OVERVOLT (R323). -/
def execPwrOvervolt (s : State) : Host.Outcome State Fault Refusal := .next { s with dev := overvolt s.dev }

/-- MAIN_INPUT_RESTORED (R323). -/
def execMainInputRestored (s : State) : Host.Outcome State Fault Refusal := .next { s with dev := mainRestored s.dev }

/-- ROW_PHASE_FAIL (R28, R323). -/
def execRowPhaseFail (r : Fin 4) (s : State) : Host.Outcome State Fault Refusal := .next { s with dev := phaseFail r.val s.dev }

/-- AUX_INPUT_CHANGE (R322). -/
def execAuxInputChange (aux main : Bool) (s : State) : Host.Outcome State Fault Refusal :=
  .next { s with dev := auxChange aux main s.dev }

/-- PWR_OVERTEMP (R329). -/
def execPwrOvertemp (die : Fin 16) (s : State) : Host.Outcome State Fault Refusal := .next { s with dev := overtemp die.val s.dev }

/-- COOLANT_SAMPLE (R449). -/
def execCoolantSample (inlet outlet flow : Nat) (lowFlow2s : Bool) (absent1s : Nat) (s : State) : Host.Outcome State Fault Refusal :=
  .next { s with dev := coolantSample inlet outlet flow lowFlow2s absent1s s.dev }

/-- AUX_POWER_UP (R436). -/
def execAuxPowerUp (aux main : Bool) (s : State) : Host.Outcome State Fault Refusal := .next { s with dev := auxUp aux main s.dev }

/-- SP_BOOT (R401). -/
def execSpBoot (s : State) : Host.Outcome State Fault Refusal := .next { s with dev := spBoot s.dev }

/-- MP_TP_START (R436). -/
def execMpTpStart (s : State) : Host.Outcome State Fault Refusal := .next { s with dev := mpTpStart s.dev }

/-- ROW_POWER_UP (R436). -/
def execRowPowerUp (r : Fin 4) (fails : List DieFail) (s : State) : Host.Outcome State Fault Refusal :=
  .next { s with dev := rowPowerUp r.val fails s.dev }

/-- HBM_TRAINING (R436). -/
def execHbmTraining (fails : List DieFail) (s : State) : Host.Outcome State Fault Refusal :=
  .next { s with dev := hbmTraining fails s.dev }

/-- LINK_TRAINING (R264). -/
def execLinkTraining (rs : List TrainResult) (s : State) : Host.Outcome State Fault Refusal :=
  .next { s with dev := linkTraining rs s.dev }

/-- SELF_TEST (R440). -/
def execSelfTest (fails : List DieFail) (cores : List CoreFail) (s : State) : Host.Outcome State Fault Refusal :=
  .next { s with dev := selfTest fails cores s.dev }

/-- HOST_PORT_START (R436). -/
def execHostPortStart (s : State) : Host.Outcome State Fault Refusal := .next { s with dev := hostPortStart s.dev }

/-- OVEN_READY (R343). -/
def execOvenReady (s : State) : Host.Outcome State Fault Refusal := .next { s with dev := ovenReady s.dev }

/-- ROW_BRINGUP (R441). -/
def execRowBringup (r : Fin 4) (fails : List DieFail) (cores : List CoreFail) (s : State) : Host.Outcome State Fault Refusal :=
  .next { s with dev := rowBringup r.val fails cores s.dev }

/-- RESET_N (R442). -/
def execResetN (s : State) : Host.Outcome State Fault Refusal := .next { s with dev := resetPin s.dev }

/-- MGMT_RESET (R447). -/
def execMgmtReset (s : State) : Host.Outcome State Fault Refusal := .next { s with dev := mgmtReset s.dev }

/-- MP_LOCKSTEP (R442). -/
def execMpLockstep (s : State) : Host.Outcome State Fault Refusal := .next { s with dev := lockstep s.dev }

end Sys2Proof.Machine
end

