-- ==== Sys2Proof/Machine/Pages.lean ====
section
/-! DEFINITION. The register space as a requester sees it (R420 to R435): which page an address names, who may reach it,
the common header, what each register reads as, and the latches of LO/HI pairs. -/

namespace Sys2Proof.Machine
open Sys2Proof

/-! ## The address map -/

/-- The global page at an offset of the global region, in pages (R435). -/
def globalPage : Nat → Option Page
  | 0 => some .dieG
  | 1 => some .pwrG
  | 2 => some .timeG
  | 4 => some .part
  | 5 => some .vcG
  | 6 => some .netG
  | 7 => some .secG
  | 8 => some .fwuG
  | 9 => some .tlmG
  | _ => none

/-- The page of host n's region at an offset in pages (R435). -/
def hostPage (n : Nat) : Nat → Option Page
  | 0 => some (.hq0 n)
  | 1 => some (.hq1 n)
  | 2 => some (.tlmH n)
  | 3 => some (.fwuH n)
  | _ => none

/-- The die-level page of a die's window at an offset in pages (R435). -/
def diePage (die : Nat) : Nat → Option Page
  | 0x00 => some (.dieD die)
  | 0x01 => some (.pwrD die)
  | 0x11 => some (.hbmc die 0)
  | 0x21 => some (.hbmc die 1)
  | 0x12 => some (.jlink die 0)
  | 0x22 => some (.jlink die 1)
  | 0x32 => some (.jlink die 2)
  | 0x42 => some (.jlink die 3)
  | 0x13 => some (.coreDie die)
  | 0x14 => some (.tcu die 0)
  | 0x24 => some (.tcu die 1)
  | 0x15 => some (.kvt die)
  | 0x16 => some (.ast die)
  | 0x17 => some (.pxe die)
  | 0x18 => some (.sem die)
  | 0x19 => some (.vcD die)
  | 0x1A => some (.tlmD die)
  | 0x1B => some (.secD die)
  | _ => none

/-- The page an address names; none for a hole (R423). -/
def pageAt (a : Nat) : Option Page :=
  if a < 0x100_0000 then globalPage (a / 0x1000)
  else if a < 0x140_0000 then hostPage ((a - 0x100_0000) / 0x10_0000) ((a - 0x100_0000) % 0x10_0000 / 0x1000)
  else if a < 0x200_0000 then none
  else
    let die := (a - 0x200_0000) / 0x20_0000
    let w := (a - 0x200_0000) % 0x20_0000
    if 16 ≤ die then none
    else if w < 0x10_0000 then diePage die (w / 0x1000)
    else
      let c := (w - 0x10_0000) / 0x1000
      if c < 64 then some (.core die c) else none

/-- The register whose word covers an address (R424). -/
def regAt (a : Nat) : Option Reg := (pageAt a).map (fun pg => ⟨pg, a % 0x1000 / 4 * 4⟩)

/-! ## Views -/

/-- A page of no host and no die. -/
def isGlobal (pg : Page) : Bool := (pageHost pg).isNone && (pageDie pg).isNone

/-- Whether a requester reads a page (R421 to R423); in recovery H0 has three pages (R435). -/
def canRead (d : Dev) (who : Requester) (pg : Page) : Bool :=
  match who with
  | .mp => true
  | .host n =>
    (d.port n.val).reached &&
    if inRecovery d then n.val == 0 && (decide (pg = Page.secG) || decide (pg = Page.fwuG) || decide (pg = Page.fwuH 0))
    else match pageHost pg, pageDie pg with
      | some m, _ => m == n.val
      | none, some die => ownerOf d die == some n.val
      | none, none => true

/-- Whether a requester's writes to a page take effect (R421 to R423). -/
def canWrite (d : Dev) (who : Requester) (pg : Page) : Bool :=
  match who with
  | .mp => isGlobal pg
  | .host _ => canRead d who pg && !isGlobal pg

/-- A page of a die without power; its DIE page is kept on the I/O die (R452). -/
def darkPage (d : Dev) (pg : Page) : Bool :=
  match pg, pageDie pg with
  | .dieD _, _ => false
  | _, some die => !rowUp d (die / 4)
  | _, none => false

/-- A page answered from the copy on the I/O die (R430). -/
def copiedPage (d : Dev) (pg : Page) : Bool :=
  match pg, pageDie pg with
  | .pwrD _, _ => false
  | _, some die => decide (3 ≤ moonState d die)
  | _, none => false

/-! ## The common header -/

/-- The offset past a page's highest defined register (R431). -/
def pageExtent (pg : Page) : Nat := (rowsOf pg).foldl (fun m r => max m (r.off + (r.cnt - 1) * r.stride + 4)) 0x34

/-- PAGE_STAT.state (R431): 0 unpowered, 2 ready. -/
def pagePower (d : Dev) (pg : Page) : Nat :=
  match pageDie pg with
  | some die => if rowUp d (die / 4) && !copiedPage d pg then 2 else 0
  | none => if bootStep d == 0 || railPage pg && d.boot.row == 0 then 0 else 2

/-- Whether the partition of a die holds a plan. -/
def planHeld (d : Dev) (die : Nat) : Bool :=
  match ownerOf d die with
  | some n => holdsPlan (d.port n)
  | none => false

/-- PAGE_STAT.busy, as each page's chapter means it. -/
def pageBusy (d : Dev) : Page → Bool
  | .sem die | .kvt die | .pxe die | .ast die | .tcu die _ => planHeld d die
  | .hbmc die _ =>
    (match ownerOf d die with
     | some n => switchOn (d.port n)
     | none => false)
  | .core die c =>
    (match ownerOf d die with
     | some n => stepOn (d.port n) && (d.cs die c).phase != .ended
     | none => false)
  | .pwrD die =>
    (d.dp die).changing ||
    (match ownerOf d die with
     | some n => (d.port n).waking && moonState d die != 0
     | none => false)
  | .timeG => d.time.armed.isSome || inHandover d
  | .vcD die => streamOn (decStatus d die) || streamOn (encStatus d die)
  | .secD die => d.fld (R.SEC_PROT_STAT die) 1 0 == 1
  | .fwuG => d.sec.activating.isSome
  | .dieG => bootStep d != 0 && decide (bootStep d < 8)
  | .dieD die => rowUp d (die / 4) && decide (bootStep d < 7)
  | _ => false

/-- IRQ_RAW (R433); nothing is raised before auxiliary power. -/
def irqRaw (d : Dev) (pg : Page) : Nat :=
  if bootStep d = 0 then 0
  else b2n (d.fld (R.FAULT_CODE pg) 15 0 != 0) + 2 * b2n (!pageBusy d pg) + 4 * b2n (alarmBits d pg != 0) + 8 * b2n (anySat d pg)

/-- OWNER (R431, R432). -/
def pageOwner (d : Dev) (pg : Page) : Nat :=
  match pageHost pg, pageDie pg with
  | some n, _ => 16 * b2n (d.port n).valid + n
  | none, some die => match ownerOf d die with
    | some n => 16 + n
    | none => 0
  | none, none => 0x1F

/-- What the header reads as. -/
def headerView (d : Dev) (pg : Page) (off : Nat) : Nat :=
  match off with
  | 0x00 => 65536 * pageType pg + 256 * pageInst pg + pageIndex pg
  | 0x08 => pageExtent pg
  | 0x10 => 16 * pagePower d pg + 2 * b2n (d.fld (R.FAULT_CODE pg) 15 0 != 0) + b2n (pageBusy d pg)
  | 0x14 => irqRaw d pg
  | 0x20 => d.rd (R.IRQ_STAT pg)
  | 0x30 => pageOwner d pg
  | _ => d.rd ⟨pg, off⟩

/-! ## Block registers that show other state -/

/-- The LO or HI word of a number. -/
def half (hi : Bool) (v : Nat) : Nat := if hi then v / 2 ^ 32 % 2 ^ 32 else v % 2 ^ 32

/-- A number with bits from a list of flags, lowest first. -/
def flagsNat (l : List Bool) : Nat := l.foldr (fun b acc => b2n b + 2 * acc) 0

/-- The plan slot whose copies a die's pages show: the plan that runs or last ran. -/
def shownSlot (d : Dev) (die : Nat) : Nat :=
  match ownerOf d die with
  | some n => (d.port n).lastSlot
  | none => 0

/-- SEM page (R58). -/
def semView (d : Dev) (die off : Nat) : Nat :=
  let slot := d.fld (R.SEM_PLAN_SEL die) 2 0
  let i := d.fld (R.SEM_SEL die) 11 0
  if off = 0x44 then semCount d die slot i + 65536 * b2n (d.semSat.contains (die, slot, i))
  else if off = 0x48 then (d.semSat.filter (fun k => k.1 == die && k.2.1 == slot)).length
  else if 0x60 ≤ off ∧ off < 0xA0 then
    (List.range 4).foldl (fun (v : Nat) j => v + slotByte d die slot (off - 0x60 + j) * 256 ^ j) 0
  else if 0x100 ≤ off ∧ off < 0x200 then ctrVal d die slot ((off - 0x100) / 4)
  else if 0x200 ≤ off ∧ off < 0x300 then ctrLim d die slot ((off - 0x200) / 4)
  else d.rd ⟨.sem die, off⟩

/-- CORE die page (R106). -/
def coreDieView (d : Dev) (die off : Nat) : Nat :=
  if 0x800 ≤ off then half (off % 8 == 4) (look 0 d.lflag (die, (off - 0x800) / 8)) else d.rd ⟨.coreDie die, off⟩

/-- CORE page (R107, R134). -/
def coreView (d : Dev) (die c off : Nat) : Nat :=
  let p := shownSlot d die
  if off = 0x40 then (d.cs die c).issued
  else if off = 0x104 then
    flagsNat ((List.range 8).map (fun i => d.sfuValid.contains (die, c, p, i))) +
      256 * flagsNat ((List.range 8).map (fun i => bit (d.mem.byte .sfu (sfuBase die c p i + 6)).toNat 0))
  else d.rd ⟨.core die c, off⟩

/-- KVT page (R161). -/
def kvtView (d : Dev) (die off : Nat) : Nat :=
  let e := d.kv die (d.fld (R.KVT_SEL die) 14 0)
  match off with
  | 0x48 => half false e.word0
  | 0x4C => half true e.word0
  | 0x50 => half false e.word1
  | 0x54 => half true e.word1
  | 0x64 => freeFrameCount d die
  | _ => d.rd ⟨.kvt die, off⟩

/-- PXE page (R183). -/
def pxeView (d : Dev) (die off : Nat) : Nat :=
  let c := d.fld (R.PXE_COMA_SEL die) 9 4
  let p := shownSlot d die
  if 0x94 ≤ off ∧ off < 0xA4 then d.mem.num .coma (comaBase die c p + 16 * d.fld (R.PXE_COMA_SEL die) 3 0 + (off - 0x94)) 4
  else if off = 0xA4 then (if d.comaValid.contains (die, c, p) then 0xFFFF else 0)
  else d.rd ⟨.pxe die, off⟩

/-- AST page (R212). -/
def astView (d : Dev) (die off : Nat) : Nat :=
  let a := d.astSet die (d.fld (R.AST_PLAN_SEL die) 2 0)
  match off with
  | 0x40 => a.core
  | 0x44 => half false a.base
  | 0x48 => half true a.base
  | 0x4C => half false a.hbmSize
  | 0x50 => half true a.hbmSize
  | 0x54 => half false a.limit
  | 0x58 => half true a.limit
  | 0x5C => half false a.hostBase
  | 0x60 => half true a.hostBase
  | 0x64 => half false a.sp
  | 0x68 => half true a.sp
  | 0x6C => half false a.spill
  | 0x70 => half true a.spill
  | 0x74 => half false a.res
  | 0x78 => half true a.res
  | 0x7C => half false a.peak
  | 0x80 => half true a.peak
  | 0x84 => a.miss
  | 0x88 => half false a.raw
  | 0x8C => half true a.raw
  | 0x90 => half false a.stored
  | 0x94 => half true a.stored
  | _ => d.rd ⟨.ast die, off⟩

/-- TCU page (R252). -/
def tcuView (d : Dev) (die t off : Nat) : Nat :=
  if 0x40 ≤ off ∧ off < 0x60 then flagsNat ((List.range 32).map (fun j => d.tblValid.contains (die, 8 * (off - 0x40) + j)))
  else if 0x80 ≤ off ∧ off < 0x100 then d.mem.num .tcu (tblBase die (d.fld (R.TCU_TBL_SEL die t) 7 0) + (off - 0x80)) 4
  else d.rd ⟨.tcu die t, off⟩

/-- JLINK_STAT (R280): both ends in one partition. -/
def jlinkView (d : Dev) (die p off : Nat) : Nat :=
  let v := d.rd ⟨.jlink die p, off⟩
  if off = 0x40 then withBits v 3 3 (b2n ((ownerOf d die).isSome && ownerOf d die == ownerOf d (neighbour die p))) else v

/-- Level of a path (R397). -/
def levelView (d : Dev) (p : TlmPath) : Nat := 65536 * min 0xFFFF (d.path p).alarm.length + min 0xFFFF (generalLevel d p)

/-- A port's mode as PART_P_i shows it (R319). -/
def partState (p : Port) : Nat :=
  if p.valid then
    match p.mode with
    | .idle => 2
    | .running | .yielding => 3
    | .draining => 4
    | _ => 5
  else if p.clearing ≠ 0 then 1 else 0

/-- PART page (R319). -/
def partView (d : Dev) (off : Nat) : Nat :=
  if off = 0x40 then
    (List.range 4).foldl (fun (v : Nat) r => v + (match ownerOf d (4 * r) with
      | some n => (4 + n) * 8 ^ r
      | none => 0)) 0
  else if 0x50 ≤ off ∧ off < 0x60 then
    let p := d.port ((off - 0x50) / 4)
    32 * partState p + (if p.valid then p.rows else p.clearing)
  else d.rd ⟨.part, off⟩

/-- HQ_STAT (R316). -/
def hqStat (p : Port) : Nat :=
  b2n ((List.range 8).any (fun i => (p.slot i).susp.isSome)) + 2 * b2n (onDies p) + 4 * p.lastCls + 16 * p.lastSlot +
    128 * b2n (p.mode == .yielding) + 256 * b2n (p.mode == .draining) + 512 * b2n p.valid + 1024 * p.rows

/-- HQ page 0 (R316). -/
def hqView (d : Dev) (n off : Nat) : Nat :=
  let p := d.port n
  let q := d.fld (R.HQ_QSEL n) 2 0
  let u := p.queue q
  let w := look (0, 0) p.windows (d.fld (R.HQ_WSEL n) 3 0)
  let s := look (0, 0) p.saves (d.fld (R.HQ_SSEL n) 2 0)
  match off with
  | 0x40 => hqStat p
  | 0x54 => (if q = 0 then 62 else u.sizeM1) + 2 ^ 16 * u.slot + 2 ^ 20 * queueCls u q + 2 ^ 24 * b2n u.en
  | 0x58 => half false u.base
  | 0x5C => half true u.base
  | 0xC4 => half false w.1
  | 0xC8 => half true w.1
  | 0xCC => half false w.2
  | 0xD0 => half true w.2
  | 0xE4 => half false s.1
  | 0xE8 => half true s.1
  | 0xEC => half false s.2
  | 0xF0 => half true s.2
  | _ => if 0xA0 ≤ off ∧ off < 0xC0 then (p.queue ((off - 0xA0) / 4)).head else d.rd ⟨.hq0 n, off⟩

/-- TIME_STAT.state (R357). -/
def servoCode : Servo → Nat
  | .freerun => 0
  | .locking => 1
  | .locked => 2
  | .holdover => 3
  | .holdoverExp => 4

/-- Seconds of a holdover (R357). -/
def holdSeconds (t : TimeSt) : Nat :=
  match t.servo with
  | .holdover | .holdoverExp => (t.elapsed - t.lossAt) / oneSecond
  | _ => 0

/-- TIME page (R357): DEVTIME counts 2^-16 ns in 80 bits. -/
def timeView (d : Dev) (off : Nat) : Nat :=
  let now := d.time.now / 2 ^ 16
  match off with
  | 0x40 => withBits (d.rd R.TIME_STAT) 2 0 (servoCode d.time.servo)
  | 0x48 => bits now 47 16
  | 0x4C => bits now 79 48
  | 0x50 => bits now 15 0
  | 0x68 => (d.time.corr * 1000000000000 / (tclk : Int) % 2 ^ 32).toNat
  | 0x6C => holdSeconds d.time
  | _ => d.rd ⟨.timeG, off⟩

/-- Frequency of a V/f point in MHz (R330). -/
def pointMhz (i : Nat) : Nat := [400, 520, 640, 760, 880, 1000, 1100, 1200][i]?.getD 0

/-- Die PWR page (R340). -/
def pwrDieView (d : Dev) (die off : Nat) : Nat :=
  if 0x50 ≤ off ∧ off < 0x70 then 65536 * pointMhz ((off - 0x50) / 4) + Config.vfMillivolt die ((off - 0x50) / 4) % 65536
  else d.rd ⟨.pwrD die, off⟩

/-- VC_E1_COEF_i (R381): two taps of a phase, signed. -/
def e1Word (i : Nat) : Nat :=
  let t := fun j => (((e1Taps (i / 2))[j]?.getD 0) % 65536).toNat
  65536 * t (2 * (i % 2) + 1) + t (2 * (i % 2))

/-- VC_CORE_i (R381): a core that codes a picture, one reserved for a live stream, which codes while a slot waits for it, or an
idle one. -/
def codecCore (d : Dev) (i : Nat) : Nat :=
  match d.codec.find? (fun e => e.2.reserved.contains i) with
  | some e => 256 + 128 * b2n (!e.2.encQueue.isEmpty) + 64 + e.1 % 16
  | none =>
    match d.codec.find? (fun e => (e.2.decCores ++ e.2.encCores).contains i) with
    | some e => 128 + (if e.2.decCores.contains i then 32 else 64) + e.1 % 16
    | none => 0

/-- Global VCODEC page (R381). -/
def vcGlobalView (d : Dev) (off : Nat) : Nat :=
  if 0x100 ≤ off ∧ off < 0x300 then e1Word ((off - 0x100) / 4)
  else if 0x40 ≤ off ∧ off < 0x80 then codecCore d ((off - 0x40) / 4)
  else 0

/-- Die VCODEC page (R379): the cores a stream uses or has reserved. DESIGN CHOICE: 16 cores read as 15, the largest number the
field holds (log 103). -/
def vcDieView (d : Dev) (die off : Nat) : Nat :=
  let v := d.vc die
  let r := d.rd ⟨.vcD die, off⟩
  if off = 0x5C then withBits r 3 0 (min 15 v.decCores.length)
  else if off = 0xC4 then withBits r 3 0 (min 15 (v.encCores.length + v.reserved.length))
  else r

/-- Milliseconds left of the 120 s of R413. -/
def healthLeft (d : Dev) : Nat :=
  match d.sec.activating with
  | some t => 120000 - (d.time.elapsed - t) / (1000000 * 2 ^ 32)
  | none => 0

/-- What a block register reads as; write-only ones read 0 (R9). -/
def blockView (d : Dev) (pg : Page) (off : Nat) : Nat :=
  match pg with
  | .sem die => semView d die off
  | .coreDie die => coreDieView d die off
  | .core die c => coreView d die c off
  | .kvt die => kvtView d die off
  | .pxe die => pxeView d die off
  | .ast die => astView d die off
  | .tcu die t => tcuView d die t off
  | .jlink die p => jlinkView d die p off
  | .part => partView d off
  | .hq0 n => hqView d n off
  | .hq1 _ => 0
  | .timeG => timeView d off
  | .pwrD die => pwrDieView d die off
  | .vcG => vcGlobalView d off
  | .vcD die => vcDieView d die off
  | .netG =>
    if off % 64 = 4 then half false (Config.mac (off / 64 - 1))
    else if off % 64 = 8 then half true (Config.mac (off / 64 - 1)) % 65536
    else d.rd ⟨.netG, off⟩
  | .secG =>
    if off = 0x44 then withBits (d.rd R.SEC_FUSE) 7 0 d.sec.blown
    else if 0x80 ≤ off then 0
    else d.rd ⟨.secG, off⟩
  | .fwuG => if off = 0x4C then healthLeft d else d.rd ⟨.fwuG, off⟩
  | .dieG =>
    if off = 0x5C then half false Config.serial else if off = 0x60 then half true Config.serial else d.rd ⟨.dieG, off⟩
  | .dieD die => if off = 0x40 then 256 * die + 16 * (die / 4) + die % 4 else d.rd ⟨.dieD die, off⟩
  | .tlmD die => if off = 0x44 then (if h : die < 16 then levelView d (.die ⟨die, h⟩) else 0) else d.rd ⟨.tlmD die, off⟩
  | .tlmH n => if off = 0x44 then levelView d (hostPath n) else d.rd ⟨.tlmH n, off⟩
  | .tlmG =>
    if off = 0x44 then levelView d (.aggr false)
    else if off = 0x84 then levelView d (.aggr true)
    else if off = 0xC4 then levelView d .bmc
    else d.rd ⟨.tlmG, off⟩
  | _ => d.rd ⟨pg, off⟩

/-- What a register reads as (R9, R426, R430, R431): an unpowered page and the copy of a die in Crescent or New show the
identity and zeros. -/
def regView (d : Dev) (r : Reg) : Nat :=
  if (darkPage d r.page || copiedPage d r.page) &&
      !(r.off == 0x00 || r.off == 0x04 || r.off == 0x08 || r.off == 0x30) then 0
  else if r.off < 0x40 then headerView d r.page r.off
  else if (rowAt r).isNone then 0
  else blockView d r.page r.off

/-! ## LO/HI pairs -/

/-- The offsets of a page's LO words (R425): first, number, stride. -/
def loWords : Page → List (Nat × Nat × Nat)
  | .coreDie _ => [(0x48, 1, 8), (0x800, 256, 8)]
  | .core _ _ => [(0x44, 1, 8), (0x108, 1, 8)]
  | .kvt _ => [(0x48, 3, 8), (0x70, 1, 8)]
  | .pxe _ => [(0x48, 1, 8), (0x68, 1, 8), (0x80, 1, 8)]
  | .ast _ => [(0x44, 8, 8), (0x88, 2, 8)]
  | .hbmc _ s => if s = 0 then [(0x48, 2, 8), (0x90, 2, 8), (0x100, 16, 8)] else [(0x48, 2, 8)]
  | .tcu _ _ => [(0x100, 2, 8)]
  | .jlink _ p => if p = 0 then [(0x58, 3, 8), (0x8C, 1, 8)] else [(0x58, 3, 8)]
  | .hq0 _ => [(0x58, 2, 8), (0xC4, 2, 8), (0xE4, 2, 8)]
  | .pwrG => [(0x100, 36, 8), (0x220, 1, 8)]
  | .pwrD _ => [(0x80, 2, 8)]
  | .timeG => [(0x48, 1, 8), (0x54, 1, 8)]
  | .vcD _ => [(0x44, 1, 8), (0x90, 2, 8)]
  | .netG => [(0x44, 2, 64)]
  | .tlmG => [(0x50, 3, 64)]
  | .tlmD _ => [(0x50, 1, 8), (0x78, 1, 8)]
  | .tlmH _ => [(0x50, 1, 8), (0x60, 1, 8)]
  | .secG => [(0x4C, 1, 8)]
  | .fwuH _ => [(0x44, 1, 8)]
  | .dieG => [(0x5C, 1, 8)]
  | _ => []

/-- Whether a register is a LO word. -/
def isLo (r : Reg) : Bool :=
  (loWords r.page).any (fun e => decide (e.1 ≤ r.off) && (r.off - e.1) % e.2.2 == 0 && decide ((r.off - e.1) / e.2.2 < e.2.1))

/-- Whether a register is a HI word. -/
def isHi (r : Reg) : Bool := decide (4 ≤ r.off) && isLo ⟨r.page, r.off - 4⟩

/-- The latch of a requester: ports 0 to 3, the MP 4. TIME_FRAC has latches of its own, 5 to 9 (R357). -/
def latchOf : Requester → Nat
  | .host n => n.val
  | .mp => 4

/-- A partition's energy counter, which the other partitions' hosts read as 0 (R334). -/
def foreignEnergy (who : Requester) (r : Reg) : Bool :=
  match who with
  | .host n => decide (r.page = .pwrG) && decide (0x100 ≤ r.off) && decide (r.off < 0x220) && (r.off - 0x100) / 72 != n.val
  | .mp => false

/-- A register read by a requester that sees its page: the value and what the read changes (R425, R409, R253). -/
def readSeen (who : Requester) (r : Reg) (d : Dev) : Nat × Dev :=
  let k := latchOf who
  if foreignEnergy who r then (0, d)
  else if darkPage d r.page || copiedPage d r.page then (regView d r, d)
  else if isLo r then
    let d1 := { d with latches := put d.latches (r.page, k) (BitVec.ofNat 32 (regView d ⟨r.page, r.off + 4⟩)) }
    (regView d r,
      if r = R.SEC_DBG_NONCE_LO ∧ who = .mp then { d1 with sec := { d1.sec with nonce := some (d.rd64 R.SEC_DBG_NONCE_LO) } }
      else if r = R.TIME_NS_LO then { d1 with latches := put d1.latches (.timeG, 5 + k) (BitVec.ofNat 32 (regView d R.TIME_FRAC)) } else d1)
  else if isHi r then
    ((look 0 d.latches (r.page, k)).toNat, if r = R.SEC_DBG_NONCE_HI then freshNonce d else d)
  else if r = R.TIME_FRAC then ((look 0 d.latches (.timeG, 5 + k)).toNat, d)
  else match r.page with
    | .tcu die t =>
      if 0x80 ≤ r.off ∧ r.off < 0x100 ∧ d.tblLoose.contains (die, t) then
        let (x, d1) := d.draw
        (x % 2 ^ 32, d1)
      else (regView d r, d)
    | _ => (regView d r, d)

/-- A read of the register at an aligned address (R423): 0 outside the requester's view. -/
def readAt (who : Requester) (a : Nat) (d : Dev) : Nat × Dev :=
  match regAt a with
  | none => (0, d)
  | some r => if canRead d who r.page then readSeen who r d else (0, d)

/-- k registers from an aligned address, the lower address first, as one little-endian number (R424). -/
def readWords (who : Requester) : Nat → Nat → Dev → Nat × Dev
  | 0, _, d => (0, d)
  | k + 1, a, d =>
    let r := readAt who a d
    let t := readWords who k (a + 4) r.2
    (r.1 + 2 ^ 32 * t.1, t.2)

/-- A read of n bytes at an address (R424): the addressed bytes of the registers it covers. -/
def readBytes (who : Requester) (a n : Nat) (d : Dev) : Nat × Dev :=
  let r := readWords who ((a + n + 3) / 4 - a / 4) (a / 4 * 4) d
  (r.1 / 256 ^ (a % 4) % 256 ^ n, r.2)

end Sys2Proof.Machine
end

