-- ==== Sys2Proof/Machine/Access.lean ====
section
/-! DEFINITION. Register writes (R9, R424 to R430): the access codes, registers whose write acts, what a write at a forbidden
time leaves open, and the register access rows of hosts and of the management path (R446). -/

namespace Sys2Proof.Machine
open Sys2Proof

/-! ## The access codes -/

/-- A number with the bits of mask m set to those of v, and the bits v has in mask w cleared (R9). -/
def maskWrite (old m w v : Nat) : Nat := (old - (old &&& (m ||| (w &&& v)))) ||| (v &&& m)

/-- TLM_STAT.en is writable in host pages only (R397). -/
def rwMask (r : Reg) (row : RegRow) : Nat :=
  match r.page with
  | .tlmD _ | .tlmG => 0
  | _ => row.rw

/-- A write to a register with no behaviour of its own (R9, R10, R426). -/
def plainWrite (d : Dev) (r : Reg) (v : Nat) : Dev :=
  match rowAt r with
  | none => d
  | some row => d.wr r (maskWrite (d.rd r) (rwMask r row) row.w1c v)

/-- A number whose LO or HI word is replaced. -/
def setHalf (old : Nat) (hi : Bool) (v : Nat) : Nat :=
  if hi then old % 2 ^ 32 + 2 ^ 32 * v else v + 2 ^ 32 * (old / 2 ^ 32)

/-! ## The header -/

/-- PAGE_CTRL.fault_clr (R432). -/
def faultClr (pg : Page) (d : Dev) : Dev := clearFault d pg

/-- IRQ_EN (R434): a message when it enables a bit that is already latched. -/
def irqEnable (pg : Page) (v : Nat) (d : Dev) : Dev :=
  let old := d.rd (R.IRQ_EN pg)
  let new := v % 16
  let d1 := d.wr (R.IRQ_EN pg) new
  if (d.rd (R.IRQ_STAT pg) &&& (new - (new &&& old))) != 0 then pageMsg d1 pg else d1

/-- IRQ_SET (R431): bits set as if their source had risen. -/
def irqForce (pg : Page) (v : Nat) (d : Dev) : Dev :=
  (List.range 4).foldl (fun (x : Dev) b => if bit v b then irqRise x pg b else x) d

/-- A write to the common header. -/
def writeHeader (pg : Page) (off v : Nat) (d : Dev) : Dev :=
  match off with
  | 0x0C => if bit v 0 then faultClr pg d else d
  | 0x18 => irqEnable pg v d
  | 0x20 => irqForce pg v d
  | _ => plainWrite d ⟨pg, off⟩ v

/-! ## Die pages -/

/-- Spans that a forbidden write leaves open, to the commands that read them too (R3). -/
def disturb (d : Dev) (ss : List Span) : Dev := taintReaders (scramble d ss) 16 64 ss

/-- The slots of a die's frame rings. -/
def ringSpans (d : Dev) (die : Nat) : List Span :=
  [inRing d die, outRing d die].flatMap (fun r => (List.range r.count).map (slotSpan r die))

/-- A die's stacks and pointers are open (R213), to the pushes and pops in flight too: what they commit is open. -/
def looseStacks (d : Dev) (die : Nat) : Dev :=
  let d1 := freeAst d die
  let (x, d2) := d1.draw
  let (y, d3) := d2.draw
  { d3 with cores := d3.cores.map (fun (e : (Nat × Nat) × CoreSt) =>
      if e.1.1 = die then
        (e.1, { e.2 with flight := e.2.flight.map (fun f =>
          if f.astSp.isNone then f
          else { f with taint := true, astSp := some (x % 2 ^ 64), astMarks := f.astMarks.map (fun _ => (y % 2 ^ 64, y / 2 ^ 64 % 2 ^ 64)) }) })
      else e) }

/-- A write at a time that R427 forbids and the page's chapter leaves to it: the block's registers and what it holds are open. -/
def openBlock (d : Dev) (pg : Page) : Dev :=
  let d1 := freePage d pg
  match pg with
  | .sem die => freeSem d1 die
  | .kvt die => freeEntries (disturb d1 (kvSpans d die ++ kvSpans d1 die)) die
  | .pxe die => disturb d1 (ringSpans d die ++ ringSpans d1 die)
  | .ast die => looseStacks (freeSets d1 die) die
  | _ => d1

/-- SEM page (R58, R59). The write of a count clears its word's poison (R388). -/
def writeSem (die off v : Nat) (d : Dev) : Dev :=
  let slot := d.fld (R.SEM_PLAN_SEL die) 2 0
  let i := d.fld (R.SEM_SEL die) 11 0
  let settle := fun (x : Dev) => if pageBusy d (.sem die) then freeSem x die else x
  if off = 0x44 then
    let d1 := semGood (setSem d die slot i (v % 65536)) die slot i
    settle (if bit v 16 then { d1 with semSat := d1.semSat.filter (· != (die, slot, i)) } else d1)
  else if 0x60 ≤ off ∧ off < 0xA0 then
    settle ((List.range 4).foldl (fun (x : Dev) j =>
      { x with slotTab := put x.slotTab (die, slot, off - 0x60 + j) (v / 256 ^ j % 256) }) d)
  else if 0x100 ≤ off ∧ off < 0x200 then settle (setCtr d die slot ((off - 0x100) / 4) v)
  else if 0x200 ≤ off ∧ off < 0x300 then settle { d with lim := put d.lim (die, slot, (off - 0x200) / 4) v }
  else
    let d1 := plainWrite d ⟨.sem die, off⟩ v
    if pageBusy d (.sem die) then openBlock d1 (.sem die) else d1

/-- CORE_LFLAG_CLR (R96, R106). -/
def lflagClr (die v : Nat) (d : Dev) : Dev :=
  { d with lflag := without (fun (k : Nat × Nat) => k.1 == die && (bit v 8 || k.2 == bits v 7 0)) d.lflag }

/-- A KVT entry's word written (R161, R162): nothing moves and no frame is claimed. The write clears its poison (R388). -/
def writeEntry (d : Dev) (die off v : Nat) : Dev :=
  let i := d.fld (R.KVT_SEL die) 14 0
  let e := d.kv die i
  let hi := off % 8 == 4
  let w0 := if off < 0x50 then setHalf e.word0 hi v else e.word0
  let w1 := if off < 0x50 then e.word1 else setHalf e.word1 hi v
  { d.setKv die i (KvtEnt.ofWords w0 w1) with kvtPoison := d.kvtPoison.filter (· != (die, i)) }

/-- page_4k as it is stored (R149). -/
def pageCfg (v : Nat) : Nat := let x := v % 512; if x < 32 ∨ 256 < x then 32 else x

/-- KVT page (R161, R162): a forbidden write leaves the entries and the page data open, where they lay before and where they lie
after it. -/
def writeKvt (die off v : Nat) (d : Dev) : Dev :=
  let bad := pageBusy d (.kvt die) || d.kvt.any (fun e => e.1.1 == die && e.2.pins != 0)
  let settle := fun (x : Dev) => if bad then freeEntries (disturb x (kvSpans d die ++ kvSpans x die)) die else x
  if off = 0x40 then
    let change := d.fld (R.KVT_CFG die) 8 0 != pageCfg v && d.kvt.any (fun e => e.1.1 == die && e.2.state != kvFree)
    let d1 := (if change then scramble d (kvSpans d die) else d).wr (R.KVT_CFG die) (pageCfg v)
    settle (if change then scramble d1 (kvSpans d1 die) else d1)
  else if 0x48 ≤ off ∧ off < 0x58 then settle (writeEntry d die off v)
  else if (0x58 ≤ off ∧ off < 0x64) ∨ (0x70 ≤ off ∧ off < 0x78) then settle (plainWrite d ⟨.kvt die, off⟩ v)
  else
    let d1 := plainWrite d ⟨.kvt die, off⟩ v
    if pageBusy d (.kvt die) then openBlock d1 (.kvt die) else d1

/-- PXE page (R183). -/
def writePxe (die off v : Nat) (d : Dev) : Dev :=
  let d1 := plainWrite d ⟨.pxe die, off⟩ v
  if !pageBusy d (.pxe die) then d1
  else if off < 0x80 then disturb d1 (ringSpans d die ++ ringSpans d1 die)
  else openBlock d1 (.pxe die)

/-- AST_CTRL.reset_sp (R212). -/
def resetSp (die : Nat) (d : Dev) : Dev :=
  let slot := d.fld (R.AST_PLAN_SEL die) 2 0
  let d1 := d.setAst die slot { d.astSet die slot with sp := 0, spill := 0, res := 0 }
  if pageBusy d (.ast die) then looseStacks d1 die else d1

/-- AST page (R212, R213). -/
def writeAst (die off v : Nat) (d : Dev) : Dev :=
  let slot := d.fld (R.AST_PLAN_SEL die) 2 0
  let a := d.astSet die slot
  let low := v / 4096 * 4096
  let busy := pageBusy d (.ast die)
  let old := dieSpan die a.base a.hbmSize
  let set := fun (b : AstSet) => let d1 := d.setAst die slot b; if busy then looseStacks (disturb d1 [old]) die else d1
  match off with
  | 0x40 => set { a with core := v % 64 }
  | 0x44 => set { a with base := setHalf a.base false low }
  | 0x48 => set { a with base := setHalf a.base true v }
  | 0x4C => set { a with hbmSize := setHalf a.hbmSize false low }
  | 0x50 => set { a with hbmSize := setHalf a.hbmSize true v }
  | 0x5C => set { a with hostBase := setHalf a.hostBase false low }
  | 0x60 => set { a with hostBase := setHalf a.hostBase true v }
  | 0x98 => if bit v 0 then resetSp die d else if busy then looseStacks d die else d
  | _ =>
    let d1 := plainWrite d ⟨.ast die, off⟩ v
    if busy then openBlock d1 (.ast die) else d1

/-- A plan of a die's partition runs. -/
def planRuns (d : Dev) (die : Nat) : Bool :=
  match ownerOf d die with
  | some n => (d.port n).run.isSome
  | none => false

/-- HBMC page (R236, R237): a write while a plan runs or is switched leaves the slot's data open, in its old and its new
range. -/
def writeHbmc (die s off v : Nat) (d : Dev) : Dev :=
  let d1 := plainWrite d ⟨.hbmc die s, off⟩ v
  if 0x100 ≤ off ∧ off < 0x180 ∧ s = 0 ∧ (pageBusy d (.hbmc die s) || planRuns d die) = true then
    let i := (off - 0x100) / 16
    let range := fun (x : Dev) => dieSpan die (planBase x die i) (planSize x die i)
    disturb d1 [range d, range d1]
  else d1

/-- TCU page (R253). -/
def writeTcu (die t off v : Nat) (d : Dev) : Dev :=
  let d1 := plainWrite d ⟨.tcu die t, off⟩ v
  if off ≠ 0x60 then d1
  else
    let rest := d1.tblLoose.filter (· != (die, t))
    { d1 with tblLoose := if pageBusy d (.tcu die t) then (die, t) :: rest else rest }

/-- Die PWR page (R340, R341). -/
def writePwrDie (n die off v : Nat) (d : Dev) : Dev :=
  if off = 0x40 then hostPoint n die (v % 8) d
  else if off = 0x48 then (if bit v 8 then moonWake die d else d)
  else
    let d1 := plainWrite d ⟨.pwrD die, off⟩ v
    let area := fun (x : Dev) =>
      let b := x.rd64 (R.PWR_NEW_BASE_LO die)
      if b = 0 then [] else [dieSpan die b 0x20_0000]
    if off ≠ 0x80 ∧ off ≠ 0x84 then d1
    else if pageBusy d (.pwrD die) || moonState d die == 4 then
      (disturb d1 (area d ++ area d1)).setDp die { d1.dp die with newLoose := true }
    else d1.setDp die { d1.dp die with newLoose := false }

/-- A stream status at which its configuration may be written (R380). -/
def mayConfigure (s : Nat) : Bool := s == 0 || s == 3 || s == 4 || s == 5

/-- VC_DEC_BS_WP has been written (R362): where it passed VC_DEC_BS_RP the whole ring holds overwritten bytes. -/
def overrun (old new : Dev) (die : Nat) : Dev :=
  let size := bsSize old die
  let wp := R.VC_DEC_BS_WP die
  let gain := (new.rd wp + size - old.rd wp % max size 1) % max size 1
  if size < bsWaiting old die + gain then new.setVc die { new.vc die with decTaint := size } else shareCores new

/-- A die's encoder bitstream ring (R364). -/
def encRing (d : Dev) (die : Nat) : Span := dieSpan die (d.rd64 (R.VC_ENC_BS_BASE_LO die)) (d.rd (R.VC_ENC_BS_SIZE die))

/-- Die VCODEC page (R379, R380): a forbidden write leaves the stream's pictures open, those in the encoder's ring too, before the
write and after it. -/
def writeVc (die off v : Nat) (d : Dev) : Dev :=
  let op := v % 4
  if off = 0x58 then (if op = 1 then decAttach die d else if op = 2 then decDetach die d else d)
  else if off = 0xC0 then (if op = 1 then encAttach die d else if op = 2 then encDetach die d else d)
  else
    let d1 := plainWrite d ⟨.vcD die, off⟩ v
    if off = 0x50 then overrun d d1 die
    else if off < 0x50 ∧ mayConfigure (decStatus d die) = false then d1.setVc die { d1.vc die with decLoose := true }
    else if 0x80 ≤ off ∧ off < 0xC0 ∧ off ≠ 0xA4 ∧ off ≠ 0xA8 ∧ mayConfigure (encStatus d die) = false then
      disturb (d1.setVc die { d1.vc die with encLoose := true }) [encRing d die, encRing d1 die]
    else d1

/-- Die SEC page (R408, R417). -/
def writeSecDie (n die off v : Nat) (d : Dev) : Dev :=
  if off = 0x40 then (if bit v 0 then protApply n die d else d) else plainWrite d ⟨.secD die, off⟩ v

/-! ## Host pages -/

/-- HQ_QCFG of the selected queue (R293, R318): a queue that stays enabled and changes leaves the entries read open. -/
def writeQcfg (n v : Nat) (d : Dev) : Dev :=
  let p := d.port n
  let q := d.fld (R.HQ_QSEL n) 2 0
  let u := p.queue q
  let cls := if q = 0 then 0 else max 1 (bits v 21 20)
  let w := { u with en := bit v 24, cls := cls, slot := bits v 18 16, sizeM1 := if q = 0 then 62 else bits v 15 0 }
  let changed := u.en && (decide (w.cls ≠ queueCls u q) || w.slot != u.slot || (q != 0 && w.sizeM1 != u.sizeM1))
  let (es, d1) := if changed then takeEntries d u.entries.length [] else (u.entries, d)
  d1.setPort n ((d1.port n).setQueue q { w with entries := es, loose := w.en && (u.loose || changed) })

/-- HQ_QBASE of the selected queue (R318). -/
def writeQbase (n off v : Nat) (d : Dev) : Dev :=
  let p := d.port n
  let q := d.fld (R.HQ_QSEL n) 2 0
  let u := p.queue q
  let b := if off = 0x58 then setHalf u.base false (v / 4096 * 4096) else setHalf u.base true v
  let (es, d1) := if u.en then takeEntries d u.entries.length [] else (u.entries, d)
  d1.setPort n ((d1.port n).setQueue q { u with base := b, entries := es, loose := u.en })

/-- HQ_CQ_BASE (R318). -/
def writeCqBase (n off v : Nat) (d : Dev) : Dev :=
  let d1 := plainWrite d ⟨.hq0 n, off⟩ v
  d1.setPort n { d1.port n with cqLoose := (List.range 8).any (fun q => ((d.port n).queue q).en) }

/-- Entries of a queue's ring in host memory, as the QP reads them (R293, R295). -/
def ringEntry (d : Dev) (n : Nat) (u : Queue) (j : Nat) : QEntry :=
  let w := fun (off k : Nat) => d.mem.num .host (hostAt n (u.base + 64 * j + off)) k
  ⟨w 0 1, w 1 1, w 2 1, w 4 4, w 8 8, w 16 8, w 24 8⟩

/-- HQ_DB_q (R293, R294): the QP reads the entries up to the tail from the ring. -/
def writeDoorbell (n q v : Nat) (d : Dev) : Dev :=
  let u := (d.port n).queue q
  let size := queueSize u q
  let first := u.head + u.entries.length
  let count := (bits v 15 0 + size - first % size) % size
  doorbell n q (bits v 15 0) ((List.range count).map (fun i => ringEntry d n u ((first + i) % size))) d

/-- Host-tier data are open to the commands in flight (R292): what they read of it, and what they write there. -/
def looseHost (p : Port) (d : Dev) : Dev :=
  let host := fun (s : Span) => s.space == .host
  { d with cores := d.cores.map (fun (e : (Nat × Nat) × CoreSt) =>
      if inDies (partDies p) e.1 then
        (e.1, { e.2 with flight := e.2.flight.map (fun f =>
          { f with taint := f.taint || f.ins.any host, loose := f.loose ++ f.outs.filter host }) })
      else e) }

/-- A host-tier window (R292): a change while a plan runs or is suspended leaves the host-tier data the partition reads or writes
open. -/
def writeWindow (n off v : Nat) (d : Dev) : Dev :=
  let p := d.port n
  let i := d.fld (R.HQ_WSEL n) 3 0
  let w := look (0, 0) p.windows i
  let low := v / 4096 * 4096
  let w1 := match off with
    | 0xC4 => (setHalf w.1 false low, w.2)
    | 0xC8 => (setHalf w.1 true v, w.2)
    | 0xCC => (w.1, setHalf w.2 false low)
    | _ => (w.1, setHalf w.2 true v)
  let used := p.run.isSome || (List.range 8).any (fun s => (p.slot s).susp.isSome)
  let d1 := d.setPort n { p with windows := put p.windows i w1, hostLoose := p.hostLoose || used }
  if used then
    scramble (looseHost p d1) ((windowsOf p ++ windowsOf (d1.port n)).map (fun x => ⟨.host, hostBase n + x.1, x.2⟩))
  else d1

/-- A save area (R307, R318): a change while its slot runs or is suspended leaves what it holds open. -/
def writeSave (n off v : Nat) (d : Dev) : Dev :=
  let p := d.port n
  let i := d.fld (R.HQ_SSEL n) 2 0
  let s := look (0, 0) p.saves i
  let low := v / 0x20_0000 * 0x20_0000
  let s1 := match off with
    | 0xE4 => (setHalf s.1 false low, s.2)
    | 0xE8 => (setHalf s.1 true v, s.2)
    | 0xEC => (s.1, setHalf s.2 false low)
    | _ => (s.1, setHalf s.2 true v)
  let d1 := d.setPort n { p with saves := put p.saves i s1 }
  if p.run.any (fun j => j.slot == i) || (p.slot i).susp.isSome then
    disturb d1 ((partDies p).flatMap (fun die => [dieSpan die s.1 s.2, dieSpan die s1.1 s1.2]))
  else d1

/-- HQ page 0 (R316, R318). -/
def writeHq (n off v : Nat) (d : Dev) : Dev :=
  match off with
  | 0x44 => if v % 4 = 1 then partCreate n (bits v 5 2) d else if v % 4 = 2 then partRelease n d else d
  | 0x54 => writeQcfg n v d
  | 0x58 | 0x5C => writeQbase n off v d
  | 0x60 | 0x64 => writeCqBase n off v d
  | 0x6C => cqHead n v d
  | 0x74 => d.wr (R.HQ_CQ_VEC n) (min 62 (v % 64))
  | 0xC4 | 0xC8 | 0xCC | 0xD0 => writeWindow n off v d
  | 0xE4 | 0xE8 | 0xEC | 0xF0 => writeSave n off v d
  | _ => if 0x80 ≤ off ∧ off < 0xA0 then writeDoorbell n ((off - 0x80) / 4) v d else plainWrite d ⟨.hq0 n, off⟩ v

/-- HQ page 1 (R317): the words written are noted, an entry rewritten between its submission and its reading is open. -/
def writeInline (n off v : Nat) (d : Dev) : Dev :=
  let d0 := d.wr ⟨.hq1 n, off⟩ v
  let d1 := d0.setPort n { d0.port n with inl := insertNew off (d0.port n).inl }
  let p := d1.port n
  let u := p.queue 0
  let k := ((off - 0x40) / 64 + 63 - u.head % 63) % 63
  if k < u.entries.length then
    ({ d1 with fresh := d1.fresh + 7 }).setPort n (p.setQueue 0 { u with entries := u.entries.set k (freeEntry d1.fresh) })
  else d1

/-- A log ring's path holds nothing once the ring is off (R398; log 154). -/
def ringLeft (n : Nat) (old new : Dev) : Dev := if ringOn old n && !ringOn new n then emptyPath new (hostPath n) else new

/-- TLM_STAT.en of a host page (R398): enabling sets the tail to the head and marks the time (R393). -/
def tlmEnable (n : Nat) (on : Bool) (d : Dev) : Dev :=
  let st := tlmStat (hostPath n)
  let d1 := d.setFld st 0 0 (b2n on)
  if on && d.fld st 0 0 == 0 then
    let d2 := d1.wr (R.TLM_HR_TAIL n) (d1.rd (R.TLM_HR_HEAD n))
    let d3 := d2.setPath (hostPath n) { d2.path (hostPath n) with loose := false }
    if d.time.started then timeMark d3 (hostPath n) else d3
  else ringLeft n d d1

/-- Host TLM page (R398). -/
def writeTlmHost (n off v : Nat) (d : Dev) : Dev :=
  if off = 0x40 then
    let d1 := if bit v 3 then d.setFld (tlmStat (hostPath n)) 3 3 0 else d
    tlmEnable n (bit v 0) d1
  else
    let d1 := ringLeft n d (plainWrite d ⟨.tlmH n, off⟩ v)
    if (off = 0x60 ∨ off = 0x64 ∨ off = 0x68) ∧ d.fld (tlmStat (hostPath n)) 0 0 = 1 then
      d1.setPath (hostPath n) { d1.path (hostPath n) with loose := true }
    else d1

/-- Host FWU page (R410, R418): WRITE reads the block from host memory. -/
def writeFwu (n off v : Nat) (d : Dev) : Dev :=
  if off ≠ 0x40 then plainWrite d ⟨.fwuH n, off⟩ v
  else match v % 8 with
    | 1 => fwuOpen n d
    | 2 => fwuWrite n (some ((List.range (d.fld (R.FWU_LEN n) 16 0)).map (fun i => d.mem.byte .host (hostAt n (d.rd64 (R.FWU_ADDR_LO n) + i))))) d
    | 3 => fwuVerify n d
    | 4 => fwuActivate n d
    | 5 => fwuAbort n d
    | _ => d

/-! ## Global pages -/

/-- PWR_BUDGET as it is stored (R327). -/
def budgetStored (v : Nat) : Nat :=
  let sust := min 7500 (bits v 15 0)
  65536 * max sust (min 8500 (bits v 31 16)) + sust

/-- Global PWR page (R327, R339). -/
def writePwr (off v : Nat) (d : Dev) : Dev :=
  if off = 0x4C then d.wr R.PWR_BUDGET (budgetStored v)
  else if 0x60 ≤ off ∧ off < 0x70 then d.wr ⟨.pwrG, off⟩ (min 16 (v % 32))
  else plainWrite d ⟨.pwrG, off⟩ v

/-- A signed 4-bit field kept within bounds (R350, R358). -/
def clampLog (lo hi : Int) (f : Nat) : Nat :=
  let s : Int := if 8 ≤ f then (f : Int) - 16 else f
  ((max lo (min hi s)) % 16).toNat

/-- TIME_PTP_CFG as it is stored (R358). -/
def ptpStored (v : Nat) : Nat :=
  2 ^ 24 * min 127 (bits v 31 24) + 2 ^ 20 * clampLog (-3) 1 (bits v 23 20) + 2 ^ 16 * clampLog (-7) (-1) (bits v 19 16) +
    2 ^ 12 * clampLog (-7) 5 (bits v 15 12) + 2 ^ 8 * max 2 (min 10 (bits v 11 8)) + v % 4

/-- TIME page (R343, R352, R357, R358). Only TIME_UTC and TIME_FP_CFG may be written while the page is busy. -/
def writeTime (off v : Nat) (d : Dev) : Dev :=
  let settle := fun (x : Dev) => if pageBusy d .timeG then timeLoose x else x
  match off with
  | 0x44 =>
    let d1 := plainWrite d R.TIME_CFG v
    let free := refSrc d1 == 0 && refSrc d != 0 && !slaved d1
    let d2 := if free then { d1 with time := { d1.time with servo := .freerun, edges := 0 } } else d1
    settle (if d2.fld R.TIME_CFG 3 3 == 0 && d.fld R.TIME_CFG 3 3 == 1 then decidePtp { d2 with time := { d2.time with foreign := [] } } else d2)
  | 0x54 | 0x58 =>
    let d1 := plainWrite d ⟨.timeG, off⟩ v
    if inHandover d then timeLoose d1 else d1
  | 0x5C => if bit v 0 then todArm d else if inHandover d then timeLoose d else d
  | 0x70 => settle (d.wr R.TIME_PTP_CFG (ptpStored v))
  | 0x74 => settle (plainWrite d R.TIME_PTP_PRIO v)
  | 0x40 => settle (plainWrite d R.TIME_STAT v)
  | _ => plainWrite d ⟨.timeG, off⟩ v

/-- NET page (R382): a new address or VLAN starts the listens of its port anew. -/
def writeNet (off v : Nat) (d : Dev) : Dev :=
  let d1 := plainWrite d ⟨.netG, off⟩ v
  let i := off / 64 - 1
  if (off % 64 = 0x0C ∨ off % 64 = 0x10) ∧ i < 2 ∧ d1.rd ⟨.netG, off⟩ ≠ d.rd ⟨.netG, off⟩ then relisten d1 i else d1

/-- Global SEC page (R409, R416). -/
def writeSec (off v : Nat) (d : Dev) : Dev :=
  if off = 0x54 then
    let d1 := if bit v 0 then debugUnlock d else d
    if bit v 1 then debugLock d1 else d1
  else if 0x80 ≤ off ∧ off < 0xE0 then d.wr ⟨.secG, off⟩ v
  else plainWrite d ⟨.secG, off⟩ v

/-- Global FWU page (R418): a write while an activation runs leaves the page open (R427). -/
def writeFwuGlobal (off v : Nat) (d : Dev) : Dev :=
  let d1 := plainWrite d ⟨.fwuG, off⟩ v
  if d.sec.activating.isSome then freePage d1 .fwuG else d1

/-- What a bring-up meets that the row's own command would name: causes of its dies, and of its cores (R437, R440). -/
def freeFails (d : Dev) (r : Nat) : (List DieFail × List CoreFail) × Dev :=
  let dies := (List.finRange 16).filter (fun i => i.val / 4 == r)
  let (v, d1) := freeKeys d dies 512
  let (c, d2) := freeKeys d1 (dies.flatMap (fun i => (List.finRange 64).map (fun j => (⟨i, j⟩ : CoreIx)))) (2 ^ 37)
  ((v.map (fun e => ⟨e.1, e.2⟩), c.map (fun e => ⟨e.1, (List.finRange 34).filter (fun i => bit e.2 i.val), bit e.2 34, bit e.2 35, bit e.2 36⟩)), d2)

/-- Global DIE page (R441, R451). -/
def writeDie (off v : Nat) (d : Dev) : Dev :=
  if off = 0x48 then
    if bit v 2 then
      let (fails, d1) := freeFails d (v % 4)
      rowBringup (v % 4) fails.1 fails.2 d1
    else d
  else plainWrite d ⟨.dieG, off⟩ v

/-! ## Writes -/

/-- The port whose host writes; host pages and die pages are written by hosts only. -/
def hostOf : Requester → Nat
  | .host n => n.val
  | .mp => 0

/-- A write to a block register (R427). -/
def writeBlock (who : Requester) (pg : Page) (off v : Nat) (d : Dev) : Dev :=
  let n := hostOf who
  match pg with
  | .sem die => writeSem die off v d
  | .coreDie die => if off = 0x40 then lflagClr die v d else d
  | .kvt die => writeKvt die off v d
  | .pxe die => writePxe die off v d
  | .ast die => writeAst die off v d
  | .hbmc die s => writeHbmc die s off v d
  | .tcu die t => writeTcu die t off v d
  | .pwrD die => writePwrDie n die off v d
  | .vcD die => writeVc die off v d
  | .secD die => writeSecDie n die off v d
  | .hq0 m => writeHq m off v d
  | .hq1 m => writeInline m off v d
  | .tlmH m => writeTlmHost m off v d
  | .fwuH m => writeFwu m off v d
  | .pwrG => writePwr off v d
  | .timeG => writeTime off v d
  | .netG => writeNet off v d
  | .secG => writeSec off v d
  | .fwuG => writeFwuGlobal off v d
  | .dieG => writeDie off v d
  | .part => if off = 0x48 then d.wr R.PART_ALLOW (v % 65536) else d
  | _ => plainWrite d ⟨pg, off⟩ v

/-- A write that has reached a register (R426). -/
def writeReg (who : Requester) (r : Reg) (v : Nat) (d : Dev) : Dev :=
  if r.off < 0x40 then writeHeader r.page r.off v d
  else if (rowAt r).isNone then d
  else writeBlock who r.page r.off v d

/-- A requester's write on its way (R421 to R423, R430): discarded outside the view; discarded with an event at the copy of a
die in Crescent or New. -/
def reach (who : Requester) (r : Reg) (k : Dev → Dev) (d : Dev) : Dev :=
  if !canWrite d who r.page || darkPage d r.page then d
  else if copiedPage d r.page then postReg d sevEvent r 0
  else k d

/-- A write of an address (R424): whole aligned words only. -/
def writeAt (who : Requester) (a v : Nat) (be : Nat) (d : Dev) : Dev :=
  if be ≠ 15 ∨ a % 4 ≠ 0 then d
  else match regAt a with
    | none => d
    | some r => reach who r (writeReg who r (v % 2 ^ 32)) d

/-! ## Management messages -/

/-- Before step 3 has ended a message is answered busy (R447); in recovery it never has. -/
def mgmtBusy (d : Dev) : Bool := decide (bootStep d < 3) || bootStep d == 15

/-- MGMT_REG_READ (R446): a register, or a diagnostic read of a die's HBM, which a protected page refuses with zeros (R407). DESIGN
CHOICE: what another page answers is open, and the answer's address field is 0 (log 156). -/
def mgmtRead (p : MgmtPlace) (d : Dev) : Dev :=
  if bootStep d = 0 then d
  else match p with
    | .reg a =>
      if mgmtBusy d then d.emit (.mgmt 1 2 a 0)
      else
        let r := readAt .mp a d
        r.2.emit (.mgmt 1 0 a r.1)
    | .memory die page =>
      if mgmtBusy d then d.emit (.mgmt 1 2 0 0)
      else if pageProtected d die.val page then (refuseOutside die.val page d).emit (.mgmt 1 0 0 0)
      else
        let (x, d1) := d.draw
        d1.emit (.mgmt 1 0 0 (x % 2 ^ 32))

/-- MGMT_REG_WRITE (R446, R422): discarded outside the global pages, and so at a die's HBM, where a protected page also faults
(R407). -/
def mgmtWrite (p : MgmtPlace) (v : Nat) (d : Dev) : Dev :=
  if bootStep d = 0 then d
  else match p with
    | .reg a =>
      if mgmtBusy d then d.emit (.mgmt 2 2 a v)
      else
        let ok := a % 4 == 0 && (match pageAt a with | some pg => canWrite d .mp pg | none => false)
        (writeAt .mp a v 15 d).emit (.mgmt 2 (if ok then 0 else 1) a v)
    | .memory die page =>
      if mgmtBusy d then d.emit (.mgmt 2 2 0 v)
      else (if pageProtected d die.val page then refuseOutside die.val page d else d).emit (.mgmt 2 1 0 v)

/-! ## The rows -/

/-- FAULT_CLR (R431). -/
def execFaultClr (r : Requester) (pg : Page) (s : State) : Host.Outcome State Fault Refusal :=
  .next { s with dev := reach r ⟨pg, 0x0C⟩ (writeReg r ⟨pg, 0x0C⟩ 1) s.dev }

/-- IRQ_EN (R434). -/
def execIrqEn (r : Requester) (pg : Page) (v : Nat) (s : State) : Host.Outcome State Fault Refusal :=
  .next { s with dev := reach r (R.IRQ_EN pg) (writeReg r (R.IRQ_EN pg) v) s.dev }

/-- IRQ_SET (R431). -/
def execIrqSet (r : Requester) (pg : Page) (v : Nat) (s : State) : Host.Outcome State Fault Refusal :=
  .next { s with dev := reach r ⟨pg, 0x20⟩ (writeReg r ⟨pg, 0x20⟩ v) s.dev }

/-- CORE_LFLAG_CLR (R96). -/
def execCoreLflagClr (r : Requester) (die : Fin 16) (v : Nat) (s : State) : Host.Outcome State Fault Refusal :=
  .next { s with dev := reach r (R.CORE_LFLAG_CLR die.val) (lflagClr die.val v) s.dev }

/-- AST_RESET_SP (R212). -/
def execAstResetSp (n : Fin 4) (die : Fin 16) (s : State) : Host.Outcome State Fault Refusal :=
  .next { s with dev := reach (.host n) (R.AST_CTRL die.val) (resetSp die.val) s.dev }

/-- TLM_ENABLE (R398). -/
def execTlmEnable (n : Fin 4) (on : Bool) (s : State) : Host.Outcome State Fault Refusal :=
  .next { s with dev := reach (.host n) (tlmStat (.host n)) (tlmEnable n.val on) s.dev }

/-- A write that a die's owner makes to one of the die's registers; nobody makes it where the die has no owner. -/
def reachOwner (die : Nat) (r : Reg) (k : Dev → Dev) (d : Dev) : Dev :=
  match (List.finRange 4).find? (fun n => ownerOf d die == some n.val) with
  | some n => reach (.host n) r k d
  | none => d

/-- PROT_APPLY (R408). -/
def execProtApply (n : Fin 4) (die : Fin 16) (s : State) : Host.Outcome State Fault Refusal :=
  .next { s with dev := reach (.host n) (R.SEC_PROT_CTRL die.val) (protApply n.val die.val) s.dev }

/-- VC_DEC_ATTACH (R370). -/
def execVcDecAttach (die : Fin 16) (s : State) : Host.Outcome State Fault Refusal :=
  .next { s with dev := reachOwner die.val (R.VC_DEC_CTRL die.val) (decAttach die.val) s.dev }

/-- VC_DEC_DETACH (R371). -/
def execVcDecDetach (die : Fin 16) (s : State) : Host.Outcome State Fault Refusal :=
  .next { s with dev := reachOwner die.val (R.VC_DEC_CTRL die.val) (decDetach die.val) s.dev }

/-- VC_ENC_ATTACH (R370). -/
def execVcEncAttach (die : Fin 16) (s : State) : Host.Outcome State Fault Refusal :=
  .next { s with dev := reachOwner die.val (R.VC_ENC_CTRL die.val) (encAttach die.val) s.dev }

/-- VC_ENC_DETACH (R371). -/
def execVcEncDetach (die : Fin 16) (s : State) : Host.Outcome State Fault Refusal :=
  .next { s with dev := reachOwner die.val (R.VC_ENC_CTRL die.val) (encDetach die.val) s.dev }

/-- LO_READ_LATCH (R424, R425): a read of registers, its value answered. -/
def execLoReadLatch (r : Requester) (p : ReadPlace) (s : State) : Host.Outcome State Fault Refusal :=
  .next { s with dev := (readBytes r p.addr p.len s.dev).2.emit (.regValue (readBytes r p.addr p.len s.dev).1) }

/-- DBG_NONCE_READ (R409): the management path reads the nonce's HI word. -/
def execDbgNonceRead (s : State) : Host.Outcome State Fault Refusal :=
  .next { s with dev := mgmtRead (.reg 0x7050) s.dev }

/-- REGISTER_WRITE (R9, R421 to R430). -/
def execRegisterWrite (r : Requester) (addr v : Nat) (be : Fin 16) (s : State) : Host.Outcome State Fault Refusal :=
  .next { s with dev := writeAt r addr v be.val s.dev }

/-- MGMT_REG_READ (R446). -/
def execMgmtRegRead (p : MgmtPlace) (s : State) : Host.Outcome State Fault Refusal :=
  .next { s with dev := mgmtRead p s.dev }

/-- MGMT_REG_WRITE (R446). -/
def execMgmtRegWrite (p : MgmtPlace) (v : Nat) (s : State) : Host.Outcome State Fault Refusal :=
  .next { s with dev := mgmtWrite p v s.dev }

/-- The 1 µs gap of a port's page-interrupt messages is over (R434): held edges make one message. -/
def gapEnd (n : Nat) (d : Dev) : Dev :=
  let p := d.port n
  if !p.irqGap then d
  else if p.irqHeld then (d.setPort n { p with irqHeld := false }).emit (.msix n 63)
  else d.setPort n { p with irqGap := false }

/-- IRQ_MESSAGE_GAP_END (R434). -/
def execIrqMessageGapEnd (n : Fin 4) (s : State) : Host.Outcome State Fault Refusal :=
  .next { s with dev := gapEnd n.val s.dev }

end Sys2Proof.Machine
end

