-- ==== Sys2Proof/Machine/Dispatch.lean ====
section
/-! DEFINITION. The dispatch of commands to their meanings. -/

namespace Sys2Proof.Machine
open Sys2Proof

/-- What a command does to the machine. -/
def exec (i : Instr) (s : State) : Host.Outcome State Fault Refusal :=
  match i with
  | .nop k u => Sys2Proof.Machine.execNop k u s
  | .layerMarker k u => Sys2Proof.Machine.execLayerMarker k u s
  | .ctrFetch k u => Sys2Proof.Machine.execCtrFetch k u s
  | .stepEnd k u => Sys2Proof.Machine.execStepEnd k u s
  | .mm k u => Sys2Proof.Machine.execMm k u s
  | .veEw k u => Sys2Proof.Machine.execVeEw k u s
  | .veRed k u => Sys2Proof.Machine.execVeRed k u s
  | .veNorm k u => Sys2Proof.Machine.execVeNorm k u s
  | .veSoftmax k u => Sys2Proof.Machine.execVeSoftmax k u s
  | .veCombine k u => Sys2Proof.Machine.execVeCombine k u s
  | .veQuant k u => Sys2Proof.Machine.execVeQuant k u s
  | .veQuantEf k u => Sys2Proof.Machine.execVeQuantEf k u s
  | .veDwconv k u => Sys2Proof.Machine.execVeDwconv k u s
  | .veSfu k u => Sys2Proof.Machine.execVeSfu k u s
  | .veSfuLoad k u => Sys2Proof.Machine.execVeSfuLoad k u s
  | .attPart k u => Sys2Proof.Machine.execAttPart k u s
  | .attPin k u => Sys2Proof.Machine.execAttPin k u s
  | .kvWrite k u => Sys2Proof.Machine.execKvWrite k u s
  | .kvCopy k u => Sys2Proof.Machine.execKvCopy k u s
  | .conv k u => Sys2Proof.Machine.execConv k u s
  | .pxeIn k u => Sys2Proof.Machine.execPxeIn k u s
  | .pxeOut k u => Sys2Proof.Machine.execPxeOut k u s
  | .comaLoad k u => Sys2Proof.Machine.execComaLoad k u s
  | .bwMm k u => Sys2Proof.Machine.execBwMm k u s
  | .bwAdapt k u => Sys2Proof.Machine.execBwAdapt k u s
  | .bwAtt k u => Sys2Proof.Machine.execBwAtt k u s
  | .bwNorm k u => Sys2Proof.Machine.execBwNorm k u s
  | .bwSoftmax k u => Sys2Proof.Machine.execBwSoftmax k u s
  | .astPush k u => Sys2Proof.Machine.execAstPush k u s
  | .astPop k u => Sys2Proof.Machine.execAstPop k u s
  | .update k u => Sys2Proof.Machine.execUpdate k u s
  | .seCopy k u => Sys2Proof.Machine.execSeCopy k u s
  | .sePut k u => Sys2Proof.Machine.execSePut k u s
  | .tcuTblLoad k u => Sys2Proof.Machine.execTcuTblLoad k u s
  | .tcuPack k u => Sys2Proof.Machine.execTcuPack k u s
  | .tcuUnpack k u => Sys2Proof.Machine.execTcuUnpack k u s
  | .clRs k u => Sys2Proof.Machine.execClRs k u s
  | .clAg k u => Sys2Proof.Machine.execClAg k u s
  | .mmRs k u => Sys2Proof.Machine.execMmRs k u s
  | .agMm k u => Sys2Proof.Machine.execAgMm k u s
  | .semAcquire k u => Sys2Proof.Machine.execSemAcquire k u s
  | .semTimeout k late => Sys2Proof.Machine.execSemTimeout k late s
  | .commit k => Sys2Proof.Machine.execCommit k s
  | .kvSpillSwitch d ix => Sys2Proof.Machine.execKvSpillSwitch d ix s
  | .kvDemandFetchDone d ix => Sys2Proof.Machine.execKvDemandFetchDone d ix s
  | .astDemandTransferDone k u => Sys2Proof.Machine.execAstDemandTransferDone k u s
  | .tideComplete n ix => Sys2Proof.Machine.execTideComplete n ix s
  | .peerSemRelease d => Sys2Proof.Machine.execPeerSemRelease d s
  | .hostTierTimeout r f => Sys2Proof.Machine.execHostTierTimeout r f s
  | .rampWindow d frac held throttled => Sys2Proof.Machine.execRampWindow d frac held throttled s
  | .linkFlitRx d p err => Sys2Proof.Machine.execLinkFlitRx d p err s
  | .marginProbe d p margin => Sys2Proof.Machine.execMarginProbe d p margin s
  | .collPrepare d id => Sys2Proof.Machine.execCollPrepare d id s
  | .collDoneToken d id sender => Sys2Proof.Machine.execCollDoneToken d id sender s
  | .collNogo d id => Sys2Proof.Machine.execCollNogo d id s
  | .collFaultToken d id sender => Sys2Proof.Machine.execCollFaultToken d id sender s
  | .collTimeout d id late => Sys2Proof.Machine.execCollTimeout d id late s
  | .linkTraining rs => Sys2Proof.Machine.execLinkTraining rs s
  | .sqDoorbell n q tail entries => Sys2Proof.Machine.execSqDoorbell n q tail entries s
  | .runStep n q => Sys2Proof.Machine.execRunStep n q s
  | .loadPlan n q => Sys2Proof.Machine.execLoadPlan n q s
  | .unloadPlan n q => Sys2Proof.Machine.execUnloadPlan n q s
  | .setRecipe n q => Sys2Proof.Machine.execSetRecipe n q s
  | .fence n q => Sys2Proof.Machine.execFence n q s
  | .hqCqHead n head => Sys2Proof.Machine.execHqCqHead n head s
  | .stepBoundary n => Sys2Proof.Machine.execStepBoundary n s
  | .yieldSuspended n => Sys2Proof.Machine.execYieldSuspended n s
  | .eclipseDrainEnd n => Sys2Proof.Machine.execEclipseDrainEnd n s
  | .eclipseSaveDone n => Sys2Proof.Machine.execEclipseSaveDone n s
  | .eclipseRestoreDone n => Sys2Proof.Machine.execEclipseRestoreDone n s
  | .resumeSuspended n => Sys2Proof.Machine.execResumeSuspended n s
  | .stepWatchdog n late => Sys2Proof.Machine.execStepWatchdog n late s
  | .partCreate n rows => Sys2Proof.Machine.execPartCreate n rows s
  | .partRelease n => Sys2Proof.Machine.execPartRelease n s
  | .functionLevelReset n => Sys2Proof.Machine.execFunctionLevelReset n s
  | .hotReset n => Sys2Proof.Machine.execHotReset n s
  | .hostLinkDown n => Sys2Proof.Machine.execHostLinkDown n s
  | .d3hotEntry n => Sys2Proof.Machine.execD3hotEntry n s
  | .partClearDone n => Sys2Proof.Machine.execPartClearDone n s
  | .bar2Read n addr len => Sys2Proof.Machine.execBar2Read n addr len s
  | .bar2Write n addr data => Sys2Proof.Machine.execBar2Write n addr data s
  | .parbCycle fracs temps => Sys2Proof.Machine.execParbCycle fracs temps s
  | .bucketSample milliwatts => Sys2Proof.Machine.execBucketSample milliwatts s
  | .inputSample millivolts current => Sys2Proof.Machine.execInputSample millivolts current s
  | .pwrOvervolt => Sys2Proof.Machine.execPwrOvervolt s
  | .mainInputRestored => Sys2Proof.Machine.execMainInputRestored s
  | .rowPhaseFail r => Sys2Proof.Machine.execRowPhaseFail r s
  | .auxInputChange aux main => Sys2Proof.Machine.execAuxInputChange aux main s
  | .calUpdate meanInput modelled => Sys2Proof.Machine.execCalUpdate meanInput modelled s
  | .energyUpdate inputMicrojoule dieMicrojoule => Sys2Proof.Machine.execEnergyUpdate inputMicrojoule dieMicrojoule s
  | .pwrOvertemp d => Sys2Proof.Machine.execPwrOvertemp d s
  | .pwrDiePt n d point => Sys2Proof.Machine.execPwrDiePt n d point s
  | .clockHandover d => Sys2Proof.Machine.execClockHandover d s
  | .vfChangeDone d => Sys2Proof.Machine.execVfChangeDone d s
  | .droopDetect d => Sys2Proof.Machine.execDroopDetect d s
  | .droopRecover d overOneMicrosecond => Sys2Proof.Machine.execDroopRecover d overOneMicrosecond s
  | .issueCutEnd d => Sys2Proof.Machine.execIssueCutEnd d s
  | .moonEnter d => Sys2Proof.Machine.execMoonEnter d s
  | .pwrMoonWake d => Sys2Proof.Machine.execPwrMoonWake d s
  | .moonExitDone n => Sys2Proof.Machine.execMoonExitDone n s
  | .refEdge src phase ref10 => Sys2Proof.Machine.execRefEdge src phase ref10 s
  | .refLoss l => Sys2Proof.Machine.execRefLoss l s
  | .holdoverExpiry => Sys2Proof.Machine.execHoldoverExpiry s
  | .devtimeReload copy => Sys2Proof.Machine.execDevtimeReload copy s
  | .todArm => Sys2Proof.Machine.execTodArm s
  | .todApply => Sys2Proof.Machine.execTodApply s
  | .ppsOut => Sys2Proof.Machine.execPpsOut s
  | .framePulse => Sys2Proof.Machine.execFramePulse s
  | .pulseEnd frame => Sys2Proof.Machine.execPulseEnd frame s
  | .ptpAnnounceRx p a => Sys2Proof.Machine.execPtpAnnounceRx p a s
  | .announceTimeout p late => Sys2Proof.Machine.execAnnounceTimeout p late s
  | .delayReqRx p unicast seq => Sys2Proof.Machine.execDelayReqRx p unicast seq s
  | .syncTx p => Sys2Proof.Machine.execSyncTx p s
  | .announceTx p => Sys2Proof.Machine.execAnnounceTx p s
  | .metadataTlvTx p => Sys2Proof.Machine.execMetadataTlvTx p s
  | .tpHandover done => Sys2Proof.Machine.execTpHandover done s
  | .vcDecAttach d => Sys2Proof.Machine.execVcDecAttach d s
  | .vcDecDetach d => Sys2Proof.Machine.execVcDecDetach d s
  | .vcEncAttach d => Sys2Proof.Machine.execVcEncAttach d s
  | .vcEncDetach d => Sys2Proof.Machine.execVcEncDetach d s
  | .decodePicture d o => Sys2Proof.Machine.execDecodePicture d o s
  | .encodePicture d latencyNs => Sys2Proof.Machine.execEncodePicture d latencyNs s
  | .st2110Picture d => Sys2Proof.Machine.execSt2110Picture d s
  | .rtcpSenderReport d => Sys2Proof.Machine.execRtcpSenderReport d s
  | .mcastListenEnd d pathB => Sys2Proof.Machine.execMcastListenEnd d pathB s
  | .netFrameRx p f buffersFull => Sys2Proof.Machine.execNetFrameRx p f buffersFull s
  | .netLinkChange p up => Sys2Proof.Machine.execNetLinkChange p up s
  | .scrubSram k pass f => Sys2Proof.Machine.execScrubSram k pass f s
  | .scrubHbm d pass f => Sys2Proof.Machine.execScrubHbm d pass f s
  | .tlmBurstEnd p => Sys2Proof.Machine.execTlmBurstEnd p s
  | .tlmAlarmRelease p => Sys2Proof.Machine.execTlmAlarmRelease p s
  | .tlmTimeMark p => Sys2Proof.Machine.execTlmTimeMark p s
  | .getVersion n => Sys2Proof.Machine.execGetVersion n s
  | .getCapabilities n => Sys2Proof.Machine.execGetCapabilities n s
  | .negotiateAlgorithms n => Sys2Proof.Machine.execNegotiateAlgorithms n s
  | .getDigests n => Sys2Proof.Machine.execGetDigests n s
  | .getCertificate n slot => Sys2Proof.Machine.execGetCertificate n slot s
  | .challenge n slot => Sys2Proof.Machine.execChallenge n slot s
  | .getMeasurements n index => Sys2Proof.Machine.execGetMeasurements n index s
  | .spdmUnsupported n code => Sys2Proof.Machine.execSpdmUnsupported n code s
  | .debugUnlock => Sys2Proof.Machine.execDebugUnlock s
  | .debugLock => Sys2Proof.Machine.execDebugLock s
  | .dbgNonceRead => Sys2Proof.Machine.execDbgNonceRead s
  | .jtagInstruction op => Sys2Proof.Machine.execJtagInstruction op s
  | .protApply n d => Sys2Proof.Machine.execProtApply n d s
  | .protApplyDone d => Sys2Proof.Machine.execProtApplyDone d s
  | .fwuOpen n => Sys2Proof.Machine.execFwuOpen n s
  | .fwuEraseDone => Sys2Proof.Machine.execFwuEraseDone s
  | .fwuWrite n data => Sys2Proof.Machine.execFwuWrite n data s
  | .fwuBlockDone => Sys2Proof.Machine.execFwuBlockDone s
  | .fwuVerify n => Sys2Proof.Machine.execFwuVerify n s
  | .fwuActivate n => Sys2Proof.Machine.execFwuActivate n s
  | .fwuAbort n => Sys2Proof.Machine.execFwuAbort n s
  | .imageHandover p => Sys2Proof.Machine.execImageHandover p s
  | .healthConfirm ix => Sys2Proof.Machine.execHealthConfirm ix s
  | .healthTimeout => Sys2Proof.Machine.execHealthTimeout s
  | .faultClr r pg => Sys2Proof.Machine.execFaultClr r pg s
  | .irqEn r pg v => Sys2Proof.Machine.execIrqEn r pg v s
  | .irqSet r pg v => Sys2Proof.Machine.execIrqSet r pg v s
  | .coreLflagClr r d v => Sys2Proof.Machine.execCoreLflagClr r d v s
  | .astResetSp n d => Sys2Proof.Machine.execAstResetSp n d s
  | .tlmEnable n on => Sys2Proof.Machine.execTlmEnable n on s
  | .loReadLatch r p => Sys2Proof.Machine.execLoReadLatch r p s
  | .registerWrite r addr v be => Sys2Proof.Machine.execRegisterWrite r addr v be s
  | .mgmtRegRead p => Sys2Proof.Machine.execMgmtRegRead p s
  | .mgmtRegWrite p v => Sys2Proof.Machine.execMgmtRegWrite p v s
  | .mgmtReset => Sys2Proof.Machine.execMgmtReset s
  | .resetN => Sys2Proof.Machine.execResetN s
  | .mpLockstep => Sys2Proof.Machine.execMpLockstep s
  | .rowBringup r fails cores => Sys2Proof.Machine.execRowBringup r fails cores s
  | .coolantSample inlet outlet flow lowFlow2s absent1s => Sys2Proof.Machine.execCoolantSample inlet outlet flow lowFlow2s absent1s s
  | .auxPowerUp aux main => Sys2Proof.Machine.execAuxPowerUp aux main s
  | .spBoot => Sys2Proof.Machine.execSpBoot s
  | .mpTpStart => Sys2Proof.Machine.execMpTpStart s
  | .rowPowerUp r fails => Sys2Proof.Machine.execRowPowerUp r fails s
  | .hbmTraining fails => Sys2Proof.Machine.execHbmTraining fails s
  | .selfTest fails cores => Sys2Proof.Machine.execSelfTest fails cores s
  | .hostPortStart => Sys2Proof.Machine.execHostPortStart s
  | .ovenReady => Sys2Proof.Machine.execOvenReady s
  | .irqMessageGapEnd n => Sys2Proof.Machine.execIrqMessageGapEnd n s
  | .planSwitchRestoreDone n => Sys2Proof.Machine.execPlanSwitchRestoreDone n s

end Sys2Proof.Machine
end

