-- ==== Sys2Proof/Safety.lean ====
section
/-! DEFINITION. The terms the statements use: what a command answers, what stays as it was, when a core's command can
issue and do its work, and what stands between its work and its commit. -/

namespace Sys2Proof.Machine
open Sys2Proof

/-- The command runs, and the device after it satisfies P; the waiting commands are as before. -/
def Ends (i : Instr) (s : State) (P : Dev → Prop) : Prop :=
  ∃ e, exec i s = .next { s with dev := e } ∧ P e

/-- The command runs and leaves the device as it was. -/
def Idles (i : Instr) (s : State) : Prop := exec i s = .next s

/-- Every byte of every memory and every poison mark as before. -/
def SameMem (d e : Dev) : Prop := e.mem = d.mem

/-- Every register outside a set reads as before. -/
def RegsBut (d e : Dev) (out : Reg → Prop) : Prop := ∀ r, ¬ out r → e.rd r = d.rd r

/-- The device memories are in canonical form. -/
abbrev Sound (s : State) : Prop := s.dev.mem.wf = true

/-! ## A core's command -/

/-- The pins a core's command takes when one commit slot is enough for its page list (R152): the device and the attempt with
them. A rerun keeps the pins it has. -/
def pinned (op : OpSpec) (x : Ctx) (f : Flight) (list : List Nat) (u : Upset) : Dev × Flight :=
  let kept := (x.dev.cs x.die x.core).carried
  let new := (list.filter (fun i => !kept.contains i)).eraseDups.filter (fun i => !kept.contains i)
  let who := (x.slot, x.core)
  let bad := new.any (fun i => kvUnsure (x.dev.kv x.die i) who || kvClash x.dev x.die i)
  (new.foldl (fun y i => kvPin y x.die i who) x.dev,
   { f with pins := kept ++ new, toPin := [], upset := u, doubt := f.doubt || bad, taint := f.taint || (bad && !op.partDoubt) })

/-- An attempt whose pages one commit slot pins, if it has any to pin, finds them resident and their entries sound, the stack ready
and its slots served, and its work ends without a fault: the device as the work begins, and the attempt as it ends. -/
def startOf (op : OpSpec) (h : Here) (x0 : Ctx) (f : Flight) (u : Upset := .clean) : Option (Dev × Flight) :=
  let x := { x0 with dev := op.atStart x0 x0.dev }
  let list := listEntries (op.pages x)
  let left := list.filter (fun i => !(x.dev.cs x.die x.core).carried.contains i)
  let r := pinned op x f list u
  let y := { x with dev := r.1 }
  let m := { y with dev := applyUpset y.dev x.die x.core u }
  let z := { m with dev := nameTables m.dev x.die x.slot (op.tables m) }
  if (left.isEmpty || (decide (left.length ≤ 16) && ownsSlot x.dev x.die x.slot x.core && !left.any (fun i => x.dev.kvtPoison.contains (x.die, i)))) &&
      (kvMissing y.dev x.die r.2.pins).isEmpty && !op.waits y && movesServed y.dev x.die x.core f.order (op.moves y) then
    match workUnder u (op.work z) (workFlight op h z r.2) with
    | (.ok _, g) => some (y.dev, g)
    | (.error _, _) => none
  else none

/-- The command at a core's boundary is of this opcode, sound in memory, passes its decode checks, acquires no semaphore, is not made
to wait and does its work without a fault; u is what its memory and units meet. -/
def attemptOf (op : OpSpec) (d : Dev) (k : CoreIx) (u : Upset := .clean) : Option (Here × Dev × Flight) :=
  let die := k.die.val
  let c := k.core.val
  match here d die c with
  | none => none
  | some h =>
    match fetchPlace d h.p h.ps (relCore h.p die c) h.cs with
    | none => none
    | some place =>
      let cmd := readCmd d.mem place
      let x : Ctx := ⟨d, h.n, h.job.slot, die, c, cmd⟩
      let b := begun op h x
      if mayIssue d h die c && !recordBad d h.p h.ps place cmd && opcodeDefined cmd.opcode && cmd.opcode == op.opcode && op.mine cmd && !op.holds x && !cmd.acq &&
          (decodeStop op x (tailAt d h.p h.ps cmd.tailIndex) (tailOf d h.p h.ps cmd)).isNone &&
          (op.pages x).all (fun v => decide (v < 0x8000) || decide (0xFFFF ≤ v)) &&
          (b.1.port h.n).run == some h.job then
        (startOf op h { x with dev := afterIssue h x b.1 } (opened op h x b) u).map (fun r => (h, r.1, r.2))
      else none

/-- A core's place, and its attempt but for what the links change: flits not yet sent or acknowledged (R228, R275). -/
def CoreSt.still (c : CoreSt) : CoreSt :=
  { c with flight := c.flight.map (fun g => { g with unacked := 0, coll := g.coll.map (fun q => { q with unsent := 0 }) }) }

/-- A command's work is done and nothing of it shows yet: the core stands at its command with the attempt's outputs and
flags waiting for the commit (R41); memory, semaphores, work counters, layer flags, the KV page table, the other cores and
the waiting records are as the work found them. What an SE_COPY (0x180) writes to the host tier is there before the commit
(R227), as written but after an untimely change of the windows (R292). -/
structure Worked (op : OpSpec) (h : Here) (d e : Dev) (k : CoreIx) (f : Flight) : Prop where
  phase : (e.cs k.die.val k.core.val).phase = .worked
  place : (e.cs k.die.val k.core.val).idx = (d.cs k.die.val k.core.val).idx
  flight : ∃ g, (e.cs k.die.val k.core.val).flight = some g ∧ g.cmd = f.cmd ∧ g.flags = f.flags ∧
    g.xflags = f.xflags ∧ g.taint = f.taint ∧ g.outs = f.outs ∧ g.loose = f.loose ∧ g.pins = f.pins ∧
    g.writes = (if op.opcode = 0x180 then f.writes.filter (fun w => w.space != .host) else f.writes)
  mem : (op.opcode = 0x180 → h.p.hostLoose = false) → e.mem = (if op.opcode = 0x180 then
    (f.writes.filter (fun w => w.space == .host)).foldr (fun (w : Wr) m => m.write w.space w.addr w.data) d.mem else d.mem)
  sem : e.sem = d.sem
  ctr : e.ctr = d.ctr
  lflag : e.lflag = d.lflag
  kvt : e.kvt = d.kvt
  others : ∀ die c, (die, c) ≠ (k.die.val, k.core.val) → (e.cs die c).still = (d.cs die c).still

/-- Commands of one opcode that can do their work do it. -/
def Works (op : OpSpec) (mk : CoreIx → Upset → Instr) : Prop :=
  ∀ (k : CoreIx) (s : State) (h : Here) (d : Dev) (f : Flight), attemptOf op s.dev k = some (h, d, f) →
    Ends (mk k .clean) s (fun e => Worked op h d e k f)

/-- The 40 rows of a core's sequencer, each with its opcode. -/
def coreRows : List (OpSpec × (CoreIx → Upset → Instr)) :=
  [(opNop, .nop), (opMarker, .layerMarker), (opCtrFetch, .ctrFetch), (opStepEnd, .stepEnd), (opMm, .mm),
   (opVeEw, .veEw), (opVeRed, .veRed), (opVeNorm, .veNorm), (opVeSoftmax, .veSoftmax), (opVeCombine, .veCombine),
   (opVeQuant, .veQuant), (opVeQuantEf, .veQuantEf), (opVeDwconv, .veDwconv), (opVeSfu, .veSfu),
   (opVeSfuLoad, .veSfuLoad), (opAttPart, .attPart), (opAttPin, .attPin), (opKvWrite, .kvWrite), (opKvCopy, .kvCopy),
   (opConv, .conv), (opPxeIn, .pxeIn), (opPxeOut, .pxeOut), (opComaLoad, .comaLoad), (opBwMm, .bwMm),
   (opBwAdapt, .bwAdapt), (opBwAtt, .bwAtt), (opBwNorm, .bwNorm), (opBwSoftmax, .bwSoftmax), (opAstPush, .astPush),
   (opAstPop, .astPop), (opUpdate, .update), (opSeCopy, .seCopy), (opSePut, .sePut), (opTcuTblLoad, .tcuTblLoad),
   (opTcuPack, .tcuPack), (opTcuUnpack, .tcuUnpack), (opClRs, .clRs), (opClAg, .clAg), (opMmRs, .mmRs),
   (opAgMm, .agMm)]

/-! ## Register writes -/

/-- A register whose write, as the device stands, does nothing but follow its access code (R9, R426, R427): one without an effect of
its own, on a page whose chapter does not forbid the write now. -/
def PlainNow (d : Dev) (g : Reg) : Prop :=
  g.off = 0x1C ∨ 0x40 ≤ g.off ∧ match g.page with
    | .core _ _ | .jlink _ _ | .tlmD _ => True
    | .sem _ => (g.off = 0x40 ∨ g.off = 0x58) ∧ pageBusy d g.page = false
    | .kvt die => (g.off = 0x44 ∨ 0x58 ≤ g.off) ∧ pageBusy d g.page = false ∧ d.kvt.any (fun e => e.1.1 == die && e.2.pins != 0) = false
    | .pxe _ => pageBusy d g.page = false
    | .ast _ => g.off = 0x9C ∧ pageBusy d g.page = false
    | .hbmc die _ => g.off < 0x100 ∨ (pageBusy d g.page = false ∧ planRuns d die = false)
    | .tcu _ _ => g.off ≠ 0x60
    | .pwrD _ => g.off = 0x44
    | .vcD die => (g.off < 0x50 ∧ mayConfigure (decStatus d die) = true) ∨
        (0x80 ≤ g.off ∧ g.off < 0xC0 ∧ mayConfigure (encStatus d die) = true) ∨ g.off = 0xC4
    | .secD _ => g.off ≠ 0x40
    | .hq0 _ => g.off ∈ [0x4C, 0x50, 0x68, 0xC0, 0xE0]
    | .tlmH n => 0x60 ≤ g.off ∧ d.fld (tlmStat (hostPath n)) 0 0 = 0
    | .fwuH _ => g.off ≠ 0x40
    | .pwrG => g.off = 0x50
    | .timeG => g.off ∈ [0x40, 0x54, 0x58, 0x60, 0x74, 0x78] ∧ pageBusy d g.page = false ∧ inHandover d = false
    | .netG => g.off % 64 = 0x14
    | .secG => g.off < 0x54
    | .fwuG => d.sec.activating = none
    | _ => False

/-! ## Transfers of the die controller -/

/-- n bytes can move from one region to another: both hold them, none is poisoned, no command is writing them, and no untimely change
of a host window has left the host tier's data open (R292). -/
def Movable (d : Dev) (src dst : Region) (n : Nat) : Prop :=
  n ≤ src.bound ∧ n ≤ dst.bound ∧ src.poisoned d 0 n = false ∧
  [src, dst].any (fun r => r.space == .host && (d.port r.port).hostLoose) = false ∧
  beingWritten d 16 64 ((src.pieces d 0 n).map (fun q => (⟨src.space, q.1, q.2⟩ : Span)) ++
    (dst.pieces d 0 n).map (fun q => (⟨dst.space, q.1, q.2⟩ : Span))) = false

/-- The memories once n bytes have moved. -/
def movedMem (d : Dev) (src dst : Region) (n : Nat) : Mems :=
  (dst.writes d 0 (src.bytes d 0 n)).foldl (fun m w => m.write w.space w.addr w.data) d.mem

/-- Source and destination of one piece of an activation stack's transfer: out to its host home, or back. -/
def stackEnds (d : Dev) (die : Nat) (a : AstSet) (n v len : Nat) (out : Bool) : Region × Region :=
  if out then (astAt a die v len n, astHome d a n v len) else (astHome d a n v len, astAt a die v len n)

/-- Every piece of stack offsets lo … hi that does not wrap can move. -/
def StackMovable (d : Dev) (die : Nat) (a : AstSet) (n lo hi : Nat) (out : Bool) : Prop :=
  ∀ v len, lo ≤ v → v + len ≤ hi → v % a.hbmSize + len ≤ a.hbmSize →
    Movable d (stackEnds d die a n v len out).1 (stackEnds d die a n v len out).2 len

/-- The memories once stack bytes lo … hi have moved, piece after piece (R205). -/
def stackMem (d : Dev) (die : Nat) (a : AstSet) (n lo hi : Nat) (out : Bool) : Mems :=
  ((astPieces a.hbmSize (hi - lo) lo (hi - lo)).foldl (fun (acc : Mems × Nat) q =>
    let r := stackEnds d die a n acc.2 q.2 out
    (movedMem { d with mem := acc.1 } r.1 r.2 q.2, acc.2 + q.2)) (d.mem, lo)).1

/-- What a completed tide entry does at the end of its frame: what a command has met of it is unpredictable (R232), it leaves the
list, counts, releases its semaphore, the die's stalled cores look again (R230), and so does a spill run (R154). met: what it writes;
a page that arrived is met where it lies now. -/
def tideOver (n i : Nat) (t : TideRun) (die : Nat) (met : List Span) (x0 : Dev) : Dev :=
  let x := if t.hazard then scramble x0 (if t.ent.kind = 1 then kvPlaces x0 die (bits t.ent.arg 14 0) else met) else x0
  let y := (x.setPort n { x.port n with tides := (x.port n).tides.eraseIdx i }).inc (R.TIDE_DONE die 0) 1
  spillNext (proceedAll (if t.ent.semEn then unhold (semRelease y die t.slot t.ent.sem 1) die t.ent.sem else y) die) die

end Sys2Proof.Machine
end

