-- ==== Sys2Proof/Certificates/Slice0/Obligations.lean ====
section
/-! DEFINITION. The statements: what the commands of the block do, family by family, and what every step keeps. -/

open Sys2Proof Sys2Proof.Machine

/-- For every command c, list rest and device d: step of the state whose queue is c followed by rest is exec of c on the state with the queue rest and the same device. (00_scope.md) -/
def Obligations.FrontCommandRuns : Prop :=
  ∀ (c : Instr) (rest : List Instr) (d : Dev),
    step { pending := c :: rest, dev := d } = exec c { pending := rest, dev := d }

/-- With no command waiting a step answers a next state: the device after one edge of the tick clock (clockEdge), the queue still empty. That the idle step is a clock edge is a choice of the model (log entry 2). (14_time_reference.md) -/
def Obligations.EmptyQueueCountsAnEdge : Prop :=
  ∀ d : Dev, step { pending := [], dev := d } = .next { pending := [], dev := clockEdge d }

/-- Whenever exec answers a next state, the waiting commands are those of the state it began in: for every command and every state. (00_scope.md) -/
def Obligations.CommandsLeaveTheQueue : Prop :=
  ∀ (i : Instr) (s t : State), exec i s = .next t → t.pending = s.pending

/-- exec refuses no command in any state; it ends in a fault exactly for INPUT_SAMPLE with more than 60,000 mV (the absolute maximum rating above which R321 says only that damage may occur), and then the fault names the voltage. (13_power.md) -/
def Obligations.OnlyDestructionStops : Prop :=
  ∀ (i : Instr) (s : State),
    (∀ r, exec i s ≠ .refused r) ∧
    (∀ f, exec i s = .fault f → ∃ mv current, i = .inputSample mv current ∧ 60000 < mv ∧ f = .aboveAbsoluteMaximum mv) ∧
    (∀ mv current, 60000 < mv → exec (.inputSample mv current) s = .fault (.aboveAbsoluteMaximum mv))

/-- State.reset satisfies Sound, and every byte of tile memory, HBM and the per-plan copies reads 0: rows start cleared. (12_hosts_and_preemption.md) -/
def Obligations.ResetMemoryIsCanonical : Prop :=
  Sound State.reset ∧
    ∀ a, State.reset.dev.mem.byte .tm a = 0 ∧ State.reset.dev.mem.byte .hbm a = 0 ∧ State.reset.dev.mem.byte .sfu a = 0 ∧
      State.reset.dev.mem.byte .coma a = 0 ∧ State.reset.dev.mem.byte .tcu a = 0

/-- For every state whose memories are in canonical form (addresses strictly rising, no listed byte equal to what an unlisted one reads as; host memory and flash, whose unlisted bytes are open, only rising), if step answers a next state then its memories are in canonical form: for every command, its faults, kills, transfers and unpredictable results, and for the clock edge of an empty queue. (00_scope.md, 09_memory_tiers.md, 12_hosts_and_preemption.md) -/
def Obligations.StepKeepsMemoryCanonical : Prop :=
  ∀ s t : State, Sound s → step s = .next t → Sound t

/-- For every command whose fields fit their bit ranges, reading the fields out of its 64-byte record gives the command back: no field of the record is dropped or overlaps another. (02_plans_and_commands.md) -/
def Obligations.CommandRecordRoundTrip : Prop :=
  ∀ c : Cmd, c.opcode < 2 ^ 10 → c.fmtA < 2 ^ 4 → c.fmtB < 2 ^ 4 → c.fmtOut < 2 ^ 4 → c.cls < 2 ^ 2 → c.tailCount < 2 ^ 4 →
    c.outMask < 2 ^ 6 → c.tailIndex < 2 ^ 24 → Cmd.ofWords (Cmd.toWords c) = c

/-- For each opcode named: when the record at a core's boundary is that command, its core may issue, its decode checks pass, it acquires no semaphore, its pages, stack and slots are ready and its work ends without a fault (attemptOf), the row runs: the core stands at the same command, its work done, with the outputs, flags and exceptions the work computed waiting for the commit; memory, semaphores, work counters, layer flags, the KV page table and every other core (but for flits the links carry) are as the work found them (R41: nothing of a command shows before its commit; R227: what SE_COPY writes to the host tier is there at once). (02_plans_and_commands.md, 95_what_each_step_holds.md, 04_matrix_engines.md, 05_vector_and_functions.md, 06_attention.md, 07_convolution_and_pixels.md) -/
def Obligations.WorkOfComputeCommands : Prop :=
  Works opNop .nop ∧
    Works opMarker .layerMarker ∧
    Works opCtrFetch .ctrFetch ∧
    Works opStepEnd .stepEnd ∧
    Works opMm .mm ∧
    Works opVeEw .veEw ∧
    Works opVeRed .veRed ∧
    Works opVeNorm .veNorm ∧
    Works opVeSoftmax .veSoftmax ∧
    Works opVeCombine .veCombine ∧
    Works opVeQuant .veQuant ∧
    Works opVeQuantEf .veQuantEf ∧
    Works opVeDwconv .veDwconv ∧
    Works opVeSfu .veSfu ∧
    Works opVeSfuLoad .veSfuLoad ∧
    Works opAttPart .attPart ∧
    Works opAttPin .attPin ∧
    Works opKvWrite .kvWrite ∧
    Works opKvCopy .kvCopy ∧
    Works opConv .conv ∧
    Works opPxeIn .pxeIn ∧
    Works opPxeOut .pxeOut ∧
    Works opComaLoad .comaLoad

/-- For each opcode named: when the record at a core's boundary is that command, its core may issue, its decode checks pass, it acquires no semaphore, its pages, stack and slots are ready and its work ends without a fault (attemptOf), the row runs: the core stands at the same command, its work done, with the outputs, flags and exceptions the work computed waiting for the commit; memory, semaphores, work counters, layer flags, the KV page table and every other core (but for flits the links carry) are as the work found them (R41: nothing of a command shows before its commit; R227: what SE_COPY writes to the host tier is there at once). (08_training.md, 09_memory_tiers.md, 10_tensor_compression.md, 11_torus_and_collectives.md) -/
def Obligations.WorkOfTrainingAndMoves : Prop :=
  Works opBwMm .bwMm ∧
    Works opBwAdapt .bwAdapt ∧
    Works opBwAtt .bwAtt ∧
    Works opBwNorm .bwNorm ∧
    Works opBwSoftmax .bwSoftmax ∧
    Works opAstPush .astPush ∧
    Works opAstPop .astPop ∧
    Works opUpdate .update ∧
    Works opSeCopy .seCopy ∧
    Works opSePut .sePut ∧
    Works opTcuTblLoad .tcuTblLoad ∧
    Works opTcuPack .tcuPack ∧
    Works opTcuUnpack .tcuUnpack ∧
    Works opClRs .clRs ∧
    Works opClAg .clAg ∧
    Works opMmRs .mmRs ∧
    Works opAgMm .agMm

/-- For a core whose command has done its work and may commit, with out_mask as required, no rule of the programmer broken, no output range left open, no page of a free KV entry written, no tide entry under way and no tail: COMMIT runs. The memories are as before but for the writes the command had waiting, and the poison of the words and sectors they cover is cleared (R388); the flag record of R95 stands in CORE_FLAG_LAST and is merged into the layer flag table of the die; semaphores are unchanged; the core is at its next command (STEP_END: ended) with nothing in flight. (02_plans_and_commands.md, 04_matrix_engines.md) -/
def Obligations.CommitShowsTheWork : Prop :=
  ∀ (k : CoreIx) (s : State) (h : Here) (f : Flight) (op : OpSpec),
    inFlight s.dev k.die.val k.core.val .worked = some (h, f, op) → mayCommit s.dev h k.die.val k.core.val f = true →
    f.cmd.tailCount = 0 → f.taint = false → f.loose = [] → f.wild = [] → h.p.tides = [] →
    f.cmd.outMask = op.mask ⟨s.dev, h.n, h.job.slot, k.die.val, k.core.val, f.cmd⟩ →
    let r := op.fill ⟨s.dev, h.n, h.job.slot, k.die.val, k.core.val, f.cmd⟩ f s.dev
    let w := packFlags f.flags f.cmd.opcode (activeVariant r.2 h.p h.ps (op.layer f.cmd)) (op.layer f.cmd)
    Ends (.commit k) s (fun e =>
      e.mem = r.1.writes.foldr (fun (v : Wr) m => m.write v.space v.addr v.data) (s.dev.mem.clearPoison r.1.written) ∧
      e.rd (R.CORE_FLAG_LAST_LO k.die.val k.core.val) = w % 2 ^ 32 ∧
      e.rd (R.CORE_FLAG_LAST_HI k.die.val k.core.val) = w / 2 ^ 32 % 2 ^ 32 ∧
      look 0 e.lflag (k.die.val, op.layer f.cmd) = mergeFlags (look 0 s.dev.lflag (k.die.val, op.layer f.cmd)) w ∧
      e.sem = s.dev.sem ∧
      (e.cs k.die.val k.core.val).flight = none ∧
      (e.cs k.die.val k.core.val).phase = (if f.cmd.opcode = 0x002 then .ended else .ready))

/-- For a NOP that may commit with one tail entry, whose semaphore or KV page table entry is not poisoned, COMMIT runs and, unless its acquire timed out, by the type of the entry: a release sets the semaphore to min(count + n, 65535); a counter add adds unless the sum exceeds the limit, when the counter stays; a counter store sets the counter. Every other semaphore and counter is unchanged, and the core is at its next command. A NOP whose acquire timed out publishes nothing: semaphores and counters are unchanged. A tail that would read a poisoned semaphore or entry stops the command with 0x0501 (R389). For a CTR_FETCH that may commit untainted with its required out_mask, with no tail and no tide entry under way: COMMIT runs; the word at the start of D2 reads the counter as it was, with bit 31 set exactly when counter plus amount exceeds the limit; the counter then holds the sum, or stays as it was when exhausted; every other counter and every byte of tile memory outside the word is unchanged. (02_plans_and_commands.md) -/
def Obligations.CommitOfTailsAndFetches : Prop :=
  (∀ (k : CoreIx) (s : State) (h : Here) (f : Flight),
    inFlight s.dev k.die.val k.core.val .worked = some (h, f, opNop) → mayCommit s.dev h k.die.val k.core.val f = true →
    f.cmd.tailCount = 1 →
    let t := tailAt s.dev h.p h.ps (f.cmd.tailIndex + b2n f.cmd.acq)
    let die := k.die.val
    let slot := h.job.slot
    (tailPoisoned s.dev h die f = true →
      exec (.commit k) s = .next { s with dev := cmdStop s.dev h die k.core.val { code := 0x0501 } }) ∧
    (tailPoisoned s.dev h die f = false → Ends (.commit k) s (fun e =>
      (e.cs die k.core.val).flight = none ∧
      (f.flags.timeout = false → t.ty = 2 →
        semCount e die slot t.target = min (semCount s.dev die slot t.target + t.value) 65535 ∧
        (∀ q, q ≠ (die, slot, t.target) → look 0 e.sem q = look 0 s.dev.sem q) ∧ e.ctr = s.dev.ctr) ∧
      (f.flags.timeout = false → t.ty = 3 →
        ctrVal e die slot t.target =
          (if ctrLim s.dev die slot t.target < ctrVal s.dev die slot t.target + t.value then ctrVal s.dev die slot t.target
           else ctrVal s.dev die slot t.target + t.value) ∧
        (∀ q, q ≠ (die, slot, t.target) → look 0 e.ctr q = look 0 s.dev.ctr q) ∧ e.sem = s.dev.sem) ∧
      (f.flags.timeout = false → t.ty = 4 →
        ctrVal e die slot t.target = t.operand ∧
        (∀ q, q ≠ (die, slot, t.target) → look 0 e.ctr q = look 0 s.dev.ctr q) ∧ e.sem = s.dev.sem) ∧
      (f.flags.timeout = true → e.sem = s.dev.sem ∧ e.ctr = s.dev.ctr)))) ∧
  (∀ (k : CoreIx) (s : State) (h : Here) (f : Flight),
    inFlight s.dev k.die.val k.core.val .worked = some (h, f, opCtrFetch) → mayCommit s.dev h k.die.val k.core.val f = true →
    f.cmd.tailCount = 0 → f.taint = false → f.loose = [] → f.wild = [] → h.p.tides = [] → f.cmd.outMask = 0b000100 → descSpace f.cmd.d2 = 1 ∨ descSpace f.cmd.d2 = 2 →
    let die := k.die.val
    let slot := h.job.slot
    let i := fetchCtr f.cmd
    let v := ctrVal s.dev die slot i
    let out := ctrLim s.dev die slot i < v + fetchAmount f.cmd
    let a := (regionOf s.dev h.n slot die k.core.val 2 f.cmd.d2).base
    v < 2 ^ 31 →
    Ends (.commit k) s (fun e =>
      e.mem.num .tm a 4 = (if out then 2 ^ 31 + v else v) ∧
      (∀ b, b < a ∨ a + 4 ≤ b → e.mem.byte .tm b = s.dev.mem.byte .tm b) ∧
      ctrVal e die slot i = (if out then v else v + fetchAmount f.cmd) ∧
      (∀ q, q ≠ (die, slot, i) → look 0 e.ctr q = look 0 s.dev.ctr q)))

/-- For a core waiting in its acquire of n on a semaphore whose word is not poisoned: in a slot of its core in which the count is at least n (that an acquire of 0 completes so is the model's choice, log entry 151), when the command can then do its work (startOf), SEM_ACQUIRE runs: the count is n less, every other semaphore as before, and the command's work is done and held for its commit. In a slot with a smaller count the device is unchanged, unless a fired tide entry will release that semaphore: then the command is marked tide_miss once and TIDE_MISS_CNT counts one, the count and the wait as before. In a slot with a poisoned word the command stops with 0x0501 (R389). For a core with a commit slot that waits in an acquire with a nonzero timeout (late only when the awaited count is there): SEM_TIMEOUT runs. A NOP with on_timeout = 1 has its work done with the TIMEOUT flag (and LATE as given) in its flag record; any other command stops with fault 0x0901. SEM_TIMEOUT_CNT counts one in both cases, SEM_LATE_CNT one when late; the semaphores of the NOP case are as before. With timeout 0, or on a core without a commit slot, whose timer never starts, the device is unchanged. (02_plans_and_commands.md, 09_memory_tiers.md, 14_time_reference.md) -/
def Obligations.AcquiresTakeOrTimeOut : Prop :=
  (∀ (k : CoreIx) (s : State) (h : Here) (f : Flight) (op : OpSpec),
    inFlight s.dev k.die.val k.core.val .waitAcq = some (h, f, op) →
    ownsSlot s.dev k.die.val h.job.slot k.core.val = true →
    let die := k.die.val
    let slot := h.job.slot
    let t := tailAt s.dev h.p h.ps f.cmd.tailIndex
    let n := semCount s.dev die slot t.target
    (semBad s.dev die slot t.target = true →
      exec (.semAcquire k .clean) s = .next { s with dev := cmdStop s.dev h die k.core.val { code := 0x0501 } }) ∧
    (∀ y g, semBad s.dev die slot t.target = false → t.value ≤ n →
      startOf op h ⟨setSem s.dev die slot t.target (n - t.value), h.n, slot, die, k.core.val, f.cmd⟩
        { f with acquired := some (t.target, t.value) } = some (y, g) →
      Ends (.semAcquire k .clean) s (fun e => Worked op h y e k g ∧ semCount e die slot t.target = n - t.value ∧
        ∀ q, q ≠ (die, slot, t.target) → look 0 e.sem q = look 0 s.dev.sem q)) ∧
    (semBad s.dev die slot t.target = false → n < t.value → (tidePending h die t.target && !f.flags.tideMiss) = false → Idles (.semAcquire k .clean) s) ∧
    (semBad s.dev die slot t.target = false → n < t.value → tidePending h die t.target = true → f.flags.tideMiss = false →
      Ends (.semAcquire k .clean) s (fun e =>
        (e.cs die k.core.val).flight = some { f with flags := { f.flags with tideMiss := true } } ∧
        (e.cs die k.core.val).phase = .waitAcq ∧ e.sem = s.dev.sem ∧ SameMem s.dev e ∧
        e.rd (R.TIDE_MISS_CNT die 0) = min (s.dev.rd (R.TIDE_MISS_CNT die 0) + 1) 0xFFFFFFFF))) ∧
  (∀ (k : CoreIx) (late : Bool) (s : State) (h : Here) (f : Flight) (op : OpSpec),
    inFlight s.dev k.die.val k.core.val .waitAcq = some (h, f, op) →
    let die := k.die.val
    let t := tailAt s.dev h.p h.ps f.cmd.tailIndex
    let counted := let d := s.dev.inc (R.SEM_TIMEOUT_CNT die) 1
      if late then d.inc (R.SEM_LATE_CNT die) 1 else d
    (t.operand % 65536 = 0 ∨ ownsSlot s.dev die h.job.slot k.core.val = false → Idles (.semTimeout k late) s) ∧
    (t.operand % 65536 ≠ 0 → ownsSlot s.dev die h.job.slot k.core.val = true → (late = true → t.value ≤ semCount s.dev die h.job.slot t.target) →
      (bit t.operand 31 = true → f.cmd.opcode = 0 →
        Ends (.semTimeout k late) s (fun e =>
          (e.cs die k.core.val).phase = .worked ∧
          (e.cs die k.core.val).flight = some { f with flags := { f.flags with timeout := true, late := late } } ∧
          e.sem = s.dev.sem ∧ SameMem s.dev e ∧
          e.rd (R.SEM_TIMEOUT_CNT die) = min (s.dev.rd (R.SEM_TIMEOUT_CNT die) + 1) 0xFFFFFFFF ∧
          (late = true → e.rd (R.SEM_LATE_CNT die) = min (s.dev.rd (R.SEM_LATE_CNT die) + 1) 0xFFFFFFFF))) ∧
      ((bit t.operand 31 && f.cmd.opcode == 0) = false →
        Ends (.semTimeout k late) s (fun e => e = cmdStop counted h die k.core.val { code := 0x0901 }))))

/-- For a spilling KV entry whose words are not poisoned: unpinned throughout, with the die controller's slots present and the page movable, KV_SPILL_SWITCH runs; the memories are as before but for the page copied to its host home, the entry is valid at tier 2 with address and frame 0, its frame is back in the pool, KVT_SPILL_CNT counts one. Pinned during the copy: KVT_SPILL_ABORT counts one, memory is unchanged and the entry's tier, address and frame stay. A poisoned entry ends the job with 0x0501 in the KVT page (R389). An entry that is not spilling: the device is unchanged. (06_attention.md, 16_reliability_and_telemetry.md) -/
def Obligations.SpillMovesThePageHome : Prop :=
  ∀ (die : Fin 16) (i : Fin 32768) (s : State),
    let d := s.dev
    let e0 := d.kv die.val i.val
    let f := frameRegion d die.val e0.frame
    let h := kvHome d die.val i.val
    let n := kvPageSize d die.val
    (e0.state ≠ kvSpilling → Idles (.kvSpillSwitch die i) s) ∧
    (e0.state = kvSpilling → (die.val, i.val) ∈ d.kvtPoison →
      exec (.kvSpillSwitch die i) s = .next { s with dev := tableFault (.kvt die.val) die.val d }) ∧
    (e0.state = kvSpilling → (die.val, i.val) ∉ d.kvtPoison → (e0.pinnedInSpill || e0.pins != 0) = true →
      Ends (.kvSpillSwitch die i) s (fun e => SameMem d e ∧
        (e.kv die.val i.val).tier = e0.tier ∧ (e.kv die.val i.val).addr = e0.addr ∧ (e.kv die.val i.val).frame = e0.frame ∧
        e.taken = d.taken ∧ e.rd (R.KVT_SPILL_ABORT die.val) = min (d.rd (R.KVT_SPILL_ABORT die.val) + 1) 0xFFFFFFFF)) ∧
    (e0.state = kvSpilling → (die.val, i.val) ∉ d.kvtPoison → e0.pinnedInSpill = false → e0.pins = 0 → dcServed d f n = true → Movable d f h n →
      Ends (.kvSpillSwitch die i) s (fun e => e.mem = movedMem d f h n ∧
        e.kv die.val i.val = { e0 with state := kvValid, tier := 2, addr := 0, frame := 0 } ∧
        e.taken = d.taken.filter (· != (die.val, e0.frame)) ∧
        e.rd (R.KVT_SPILL_CNT die.val) = min (d.rd (R.KVT_SPILL_CNT die.val) + 1) 0xFFFFFFFF))

/-- For a page being demand-fetched from tier 2, its entry not poisoned, with at least one free frame: KV_DEMAND_FETCH_DONE runs for some free frame (which one is open); when that frame has the die controller's slots and the page is movable, the page has been copied there, its entry names the frame at tier 1, the frame is taken, the fetch is over, and then the die's stalled commands look again. With no free frame, or for a page that is not being fetched, the device is unchanged. A poisoned entry ends the fetch and the job, with 0x0501 in the KVT page (R389). (06_attention.md, 16_reliability_and_telemetry.md) -/
def Obligations.FetchBringsThePageIn : Prop :=
  ∀ (die : Fin 16) (i : Fin 32768) (s : State),
    let d := s.dev
    let e0 := d.kv die.val i.val
    let n := kvPageSize d die.val
    ((die.val, i.val) ∉ d.fetching → Idles (.kvDemandFetchDone die i) s) ∧
    ((die.val, i.val) ∈ d.fetching → (die.val, i.val) ∈ d.kvtPoison →
      exec (.kvDemandFetchDone die i) s =
        .next { s with dev := tableFault (.kvt die.val) die.val { d with fetching := d.fetching.filter (· != (die.val, i.val)) } }) ∧
    ((die.val, i.val) ∈ d.fetching → (die.val, i.val) ∉ d.kvtPoison → e0.tier = 2 → e0.state ≠ kvFree → freeFrames d die.val = [] →
      Idles (.kvDemandFetchDone die i) s) ∧
    ((die.val, i.val) ∈ d.fetching → (die.val, i.val) ∉ d.kvtPoison → e0.tier = 2 → e0.state ≠ kvFree → freeFrames d die.val ≠ [] →
      (∀ fr ∈ freeFrames d die.val, dcServed d (frameRegion d die.val fr) n = true ∧
        Movable d (kvHome d die.val i.val) (frameRegion d die.val fr) n) →
      ∃ fr d1, fr ∈ freeFrames d die.val ∧
        exec (.kvDemandFetchDone die i) s = .next { s with dev := proceedAll d1 die.val } ∧
        d1.mem = movedMem d (kvHome d die.val i.val) (frameRegion d die.val fr) n ∧
        d1.kv die.val i.val = { e0 with tier := 1, addr := fr, frame := fr } ∧
        d1.taken = (die.val, fr) :: d.taken ∧ (die.val, i.val) ∉ d1.fetching)

/-- For a core stalled on the stack, with the die controller's slots on the channels of what it needs and the stack bytes movable: AST_DEMAND_TRANSFER_DONE runs. For a push, stack bytes have gone from HBM to their host homes up to a mark at least the offset the push needs, where AST_SP allows that, and at most AST_SP or the need; for a pop, they have come back down to a mark at most the offset the pop needs; how far beyond the need is free (R205); AST_SPILL_MARK or AST_RES_MARK is that mark, the other registers of the stack as before, and then the core looks again (proceed). A core that does not wait for the stack, or whose slots are missing: the device is unchanged. (08_training.md, 09_memory_tiers.md) -/
def Obligations.StackTransferServesTheCore : Prop :=
  ∀ (k : CoreIx) (u : Upset) (s : State) (h : Here) (f : Flight) (op : OpSpec),
    inFlight s.dev k.die.val k.core.val .stalled = some (h, f, op) →
    let d := s.dev
    let die := k.die.val
    let slot := h.job.slot
    let a := d.astSet die slot
    let x : Ctx := ⟨d, h.n, slot, die, k.core.val, f.cmd⟩
    let up := a.sp + (pushBlocks x).1.2 + 64 - a.hbmSize
    let down := popNeeds d die a
    let upServed := astServed d a die 0x3FFD a.spill up
    let downServed := astServed d a die 0x3FFD down a.res
    ((op.waits x && (if f.cmd.opcode = 0x245 then upServed else downServed)) = false → Idles (.astDemandTransferDone k u) s) ∧
    (op.waits x = true → f.cmd.opcode = 0x245 → upServed = true → 0 < a.hbmSize →
      StackMovable d die a h.n a.spill (max a.sp up) true →
      ∃ hi e, (up ≤ a.sp → up ≤ hi) ∧ hi ≤ max a.sp up ∧
        exec (.astDemandTransferDone k u) s = .next { s with dev := proceed op h die k.core.val u e } ∧
        e.astSet die slot = { a with spill := max hi a.spill } ∧ e.mem = stackMem d die a h.n a.spill hi true) ∧
    (op.waits x = true → f.cmd.opcode ≠ 0x245 → downServed = true → 0 < a.hbmSize →
      StackMovable d die a h.n (min down (a.sp - a.hbmSize)) a.res false →
      ∃ lo e, (a.sp - a.hbmSize ≤ down → lo ≤ down) ∧
        exec (.astDemandTransferDone k u) s = .next { s with dev := proceed op h die k.core.val u e } ∧
        e.astSet die slot = { a with res := min lo a.res } ∧ e.mem = stackMem d die a h.n lo a.res false)

/-- For a fired entry of a partition that is not draining or saving, with no earlier transfer of its identifier in flight on the die and its slots present, and no poisoned table word: TIDE_COMPLETE runs. A copy (kind 0) whose bytes can move copies them; a prefetch, a stack spill and a stack fetch act through their units; a skipped prefetch does nothing; then what a command has met of it is unpredictable, the entry leaves the list, TIDE_DONE counts, its semaphore is released when the entry says so, and the die's stalled commands and a spill run look again. A copy that goes past a region's bound ends the job with 0x0104 and the failing unit, one that reads poison with the poison fault of its source, both in HBMC page 0 (R231, R389); so does an entry whose semaphore or KV page table entry is poisoned, with 0x0501. When the entry is held back by one of the conditions above, and for an index with no fired entry, the device is unchanged. (09_memory_tiers.md, 16_reliability_and_telemetry.md) -/
def Obligations.TideEntryCompletes : Prop :=
  ∀ (n : Fin 4) (i : Nat) (s : State) (t : TideRun),
    let d := s.dev
    let p := d.port n.val
    (p.tides[i]? = none → Idles (.tideComplete n i) s) ∧
    (p.tides[i]? = some t →
    let die := baseDie p + t.ent.die
    let blocked := decide (p.mode = .draining) || decide (p.mode = .saving) ||
      (decide (t.ent.kind < 4) && turnTaken d die 64 t.ent.xfer t.order) || !tideServed d n.val p t.slot t.ent
    let src := tideRegion d n.val t.slot p t.ent 0 t.ent.src
    let dst := tideRegion d n.val t.slot p t.ent 2 t.ent.dst
    let a := d.astSet die t.slot
    let finish := tideOver n.val i t die (tideSpans d n.val t).2
    let bad := t.ent.semEn && semBad d die t.slot t.ent.sem || t.ent.kind == 1 && d.kvtPoison.contains (die, bits t.ent.arg 14 0)
    let ends := fun (code info : Nat) => exec (.tideComplete n i) s =
      .next { s with dev := faultRun (postFault d (.hbmc die 0) code 0 info) n.val code false }
    (blocked = true → Idles (.tideComplete n i) s) ∧
    (blocked = false → bad = true → exec (.tideComplete n i) s = .next { s with dev := tableFault (.hbmc die 0) die d }) ∧
    (blocked = false → bad = false → t.ent.kind = 0 → src.bound < src.len → ends cRegion (failUnit src.bound 0)) ∧
    (blocked = false → bad = false → t.ent.kind = 0 → src.len ≤ src.bound → dst.bound < src.len → ends cRegion (failUnit dst.bound 0)) ∧
    (blocked = false → bad = false → t.ent.kind = 0 → src.len ≤ src.bound → src.len ≤ dst.bound → src.poisoned d 0 src.len = true →
      ends (poisonCode src.space) 0) ∧
    (blocked = false → bad = false → t.ent.kind = 0 → Movable d src dst src.len →
      ∃ d1, exec (.tideComplete n i) s = .next { s with dev := finish d1 } ∧
        d1.mem = movedMem d src dst src.len ∧ d1.sem = d.sem ∧ d1.kvt = d.kvt ∧ (d1.port n.val).tides = p.tides) ∧
    (blocked = false → bad = false → t.ent.kind = 1 → exec (.tideComplete n i) s =
      .next { s with dev := prefetchDone d die n.val (bits t.ent.arg 14 0) t.ent finish }) ∧
    (blocked = false → bad = false → t.ent.kind = 2 → exec (.tideComplete n i) s =
      .next { s with dev := astSpill d die t.slot n.val (spillTo a t.ent) finish }) ∧
    (blocked = false → bad = false → t.ent.kind = 3 → exec (.tideComplete n i) s =
      .next { s with dev := astFetch d die t.slot n.val (fetchTo a t.ent) finish }) ∧
    (blocked = false → bad = false → 4 ≤ t.ent.kind → exec (.tideComplete n i) s = .next { s with dev := finish d }))

/-- The oldest release on its way to a die that a VC3 route can carry takes effect: the semaphore of its plan slot holds min(count + 1, 65535), every other semaphore and all memory are as before, the release is no longer under way, and no core of the die holds that semaphore; on a poisoned semaphore of a die with an owner it is used up and ends the job with 0x0501 in the SEM page instead (R389). With none on its way that can pass the device is unchanged. When a core's command or a fired tide entry is reading the host tier, a failed read stops its job with fault 0x0510: FAULT_INFO1 bit 31 is set and TIME_LATE_CNT counts one when the completion came inside the late window, else not. A core or an entry that reads nothing from the host leaves the device unchanged. (09_memory_tiers.md, 11_torus_and_collectives.md, 02_plans_and_commands.md, 14_time_reference.md) -/
def Obligations.ReleasesAndHostFailures : Prop :=
  (∀ (die : Fin 16) (s : State),
    let r := s.dev.peerRel.find? (fun e => e.2.1 == die.val && tokenRoute s.dev (rowsAround s.dev die.val) e.1 die.val)
    (r = none → Idles (.peerSemRelease die) s) ∧
    (∀ q, r = some q → semBad s.dev die.val q.2.2.1 q.2.2.2 = false ∨ ownerOf s.dev die.val = none →
      Ends (.peerSemRelease die) s (fun e =>
        semCount e die.val q.2.2.1 q.2.2.2 = min (semCount s.dev die.val q.2.2.1 q.2.2.2 + 1) 65535 ∧
        (∀ j, j ≠ (die.val, q.2.2.1, q.2.2.2) → look 0 e.sem j = look 0 s.dev.sem j) ∧
        (∀ c v, (q.2.2.2, v) ∉ (e.cs die.val c).held) ∧
        SameMem s.dev e ∧ e.peerRel = s.dev.peerRel.erase q)) ∧
    (∀ q n, r = some q → semBad s.dev die.val q.2.2.1 q.2.2.2 = true → ownerOf s.dev die.val = some n →
      ∃ d1, exec (.peerSemRelease die) s =
          .next { s with dev := faultRun (postFault d1 (.sem die.val) 0x0501 0 0) n 0x0501 false } ∧
        SameMem s.dev d1 ∧ d1.sem = s.dev.sem ∧ d1.peerRel = s.dev.peerRel.erase q)) ∧
  (∀ (s : State) (f : HostFail),
    let d := s.dev
    let info := if f = .timedOut true then 2 ^ 31 else 0
    let d1 := if f = .timedOut true then d.inc R.TIME_LATE_CNT 1 else d
    (∀ (k : CoreIx) (h : Here) (g : Flight) (op : OpSpec), here d k.die.val k.core.val = some h → h.cs.flight = some g →
      specOf g.cmd = some op →
      (readsHost d h k.die.val g op = true → exec (.hostTierTimeout (.core k) f) s =
        .next { s with dev := cmdStop d1 h k.die.val k.core.val { code := 0x0510, info1 := info } }) ∧
      (readsHost d h k.die.val g op = false → Idles (.hostTierTimeout (.core k) f) s)) ∧
    (∀ (n : Fin 4) (i : Nat) (t : TideRun), (d.port n.val).tides[i]? = some t →
      let die := baseDie (d.port n.val) + t.ent.die
      let reads := decide ((d.port n.val).mode ≠ .draining) && decide ((d.port n.val).mode ≠ .saving) && tideReadsHost d die t.ent
      (reads = true → exec (.hostTierTimeout (.tide n i) f) s =
        .next { s with dev := faultRun (postFault d1 (.hbmc die 0) 0x0510 0 info) n.val 0x0510 false }) ∧
      (reads = false → Idles (.hostTierTimeout (.tide n i) f) s)))

/-- A 250 ns window begins on every die in every state: a grant that has arrived applies; CORE_RAMP_LVL reads the least of 16, one more than the fraction in use, and the grant, the fraction being bounded by the level and the grant of the window before and by a droop cut that stood all that window (R332; R101: engines issue below the level alone); the prologue cap of every core of the die steps once and no other core changes; CORE_RAMP_STALL grows by the held cycles, saturating; memory, semaphores and every register but the grant, the level and the two counters (and the interrupt status their saturation raises) are as before. (04_matrix_engines.md, 13_power.md) -/
def Obligations.RampWindowSetsTheLevel : Prop :=
  ∀ (die : Fin 16) (frac : Fin 17) (held throttled : Nat) (s : State),
    let d := s.dev
    let grant := (match (d.dp die.val).pendingGrant with | some g => g % 32 | none => d.fld (R.PWR_GRANT die.val) 4 0)
    let used := min frac.val (min (min 16 ((d.dp die.val).frac + 1)) (min (d.fld (R.PWR_GRANT die.val) 4 0) (standingCut (d.dp die.val))))
    Ends (.rampWindow die frac held throttled) s (fun e =>
      e.fld (R.CORE_RAMP_LVL die.val) 4 0 = min (min 16 (used + 1)) grant ∧
      e.fld (R.PWR_GRANT die.val) 4 0 = grant ∧
      (e.dp die.val).pendingGrant = none ∧ (e.dp die.val).frac = used ∧
      e.rd64 (R.CORE_RAMP_STALL_LO die.val) = min (d.rd64 (R.CORE_RAMP_STALL_LO die.val) + held) (2 ^ 64 - 1) ∧
      (∀ q c, e.cs q c = if q = die.val then { d.cs q c with cap := (d.cs q c).cap.map capStep } else d.cs q c) ∧
      SameMem d e ∧ e.sem = d.sem ∧
      RegsBut d e (fun r => r ∈ [R.CORE_RAMP_LVL die.val, R.PWR_GRANT die.val, R.CORE_RAMP_STALL_LO die.val,
        ⟨.coreDie die.val, 0x4C⟩, R.PWR_THROT_LO die.val, ⟨(R.PWR_THROT_LO die.val).page, (R.PWR_THROT_LO die.val).off + 4⟩,
        R.IRQ_STAT (.coreDie die.val), R.IRQ_STAT (R.PWR_THROT_LO die.val).page]))

/-- On a link direction that is up, what comes next over it (the first flit on its way, or the idle flit of a slot in which nothing comes) arrives. When it is intact the first of the flits that are in which the die can take is taken: at its destination outside a step its payload is written at its address and the sender's unacknowledged flits fall by one; step data with the tag, size and region its receiver expects is written at its offset of the receive region and counts as received; for another die it waits at the next port of its route. When the die can take none of them the flit that came waits in its channel's queue, memory unchanged. When what comes is bad: no memory changes, the flits on the link stay, JLINK_CRC_CNT and the sender's JLINK_RETRY_CNT count one; the sixteenth nak in a row of one number ends the direction. With the direction down, or with an intact idle flit and nothing to take, the device is unchanged. (11_torus_and_collectives.md) -/
def Obligations.FlitIsWrittenPassedOrAskedAgain : Prop :=
  ∀ (die : Fin 16) (p : Fin 4) (err : Option (Nat × Byte)) (s : State),
    let d := s.dev
    let k := (neighbour die.val p.val, opposite p.val)
    let good := intact (comingFlit d k).1 err
    (linkUp d k = false ∨ (good = true ∧ nextFlit d die.val k = none ∧ (d.link k).queue = []) → Idles (.linkFlitRx die p err) s) ∧
    (linkUp d k = true → good = true → nextFlit d die.val k = none → ∀ f t, (d.link k).queue = f :: t →
      Ends (.linkFlitRx die p err) s (fun e => SameMem d e ∧ (e.link k).queue = t ∧ (e.link k).held = (d.link k).held ++ [f] ∧
        (e.link k).naks = 0)) ∧
    (∀ f l, linkUp d k = true → good = true → nextFlit d die.val k = some (f, l) →
      (f.dest = die.val → f.vc ≠ 1 →
        Ends (.linkFlitRx die p err) s (fun e => e.mem = d.mem.write f.space f.addr f.payload ∧
          (e.cs f.sender.1 f.sender.2).flight.map (·.unacked) =
            (d.cs f.sender.1 f.sender.2).flight.map (fun g => g.unacked - 1))) ∧
      (f.dest = die.val → f.vc = 1 → ∀ h g cf, here d die.val f.sender.2 = some h →
        h.cs.flight = some g → g.coll = some cf → f.tag = cf.tag → cf.received + f.payload.length ≤ cf.size →
        let r := rxRegion d h die.val f.sender.2 g.cmd
        64 * f.offset + f.payload.length ≤ r.bound →
        Ends (.linkFlitRx die p err) s (fun e => e.mem = d.mem.write r.space (r.base + 64 * f.offset) f.payload ∧
          ((e.cs die.val f.sender.2).flight.bind (·.coll)).map (·.received) = some (cf.received + f.payload.length))) ∧
      (f.dest ≠ die.val →
        exec (.linkFlitRx die p err) s =
          .next { s with dev := pumpLink (pumpLink (sendFlits (d.setLink k l) die.val f.dest [f]) k) (reverse k) })) ∧
    (linkUp d k = true → good = false →
      let seq := (comingFlit d k).2
      let n := if (d.link k).nakSeq = seq ∧ (d.link k).naks ≠ 0 then (d.link k).naks + 1 else 1
      (n < 16 → Ends (.linkFlitRx die p err) s (fun e => SameMem d e ∧ e.cores = d.cores ∧
        e.link k = { d.link k with nakSeq := seq, naks := n } ∧
        e.rd (R.JLINK_CRC_CNT die.val p.val) = min (d.rd (R.JLINK_CRC_CNT die.val p.val) + 1) 0xFFFFFFFF ∧
        e.rd (R.JLINK_RETRY_CNT k.1 k.2) = min (d.rd (R.JLINK_RETRY_CNT k.1 k.2) + 1) 0xFFFFFFFF)) ∧
      (16 ≤ n → ∃ d1, SameMem d d1 ∧ d1.cores = d.cores ∧
        exec (.linkFlitRx die p err) s = .next { s with dev := linkDown d1 k.1 k.2 }))

/-- On a link direction that is up: JLINK_MARGIN holds the margin, JLINK_STAT.margin_alarm is set when the margin is below the alarm threshold and otherwise as before, and memory is unchanged. On a direction that is down the device is unchanged. (11_torus_and_collectives.md) -/
def Obligations.MarginProbeReports : Prop :=
  ∀ (die : Fin 16) (p : Fin 4) (margin : Nat) (s : State),
    let d := s.dev
    (linkUp d (die.val, p.val) = false → Idles (.marginProbe die p margin) s) ∧
    (linkUp d (die.val, p.val) = true →
      Ends (.marginProbe die p margin) s (fun e => SameMem d e ∧ e.cores = d.cores ∧ e.links = d.links ∧
        e.fld (R.JLINK_MARGIN die.val p.val) 31 16 = margin % 65536 ∧
        e.fld (R.JLINK_STAT die.val p.val) 2 2 =
          (if margin < bits (d.rd (R.JLINK_MARGIN_THR die.val p.val)) 31 16 then 1
           else d.fld (R.JLINK_STAT die.val p.val) 2 2)))

/-- For a collective step of a die: when it is not yet prepared and every core the record names has done its part, COLL_PREPARE runs: the member stands prepared at DEVTIME as the die's copy shows it (R347), a DONE token with that time is on its way to every other member, memory is unchanged, and the member then decides if it holds every DONE. In every other case the device is unchanged. (11_torus_and_collectives.md) -/
def Obligations.MemberPrepares : Prop :=
  ∀ (die : Fin 16) (id : Nat) (s : State),
    let d := s.dev
    (stepCores d die.val id = [] → Idles (.collPrepare die id) s) ∧
    (∀ m rest, stepCores d die.val id = m :: rest →
      let named := (List.range 64).filter (fun c => bit m.2.2.cores c)
      let ready := named.all (fun c => (m :: rest).any (fun q => q.1 == c && coreReady d die.val q))
      let others := (collMembers (portOf d die.val) die.val m.2.2).filter (· != die.val)
      ((d.coll die.val id).prepared.isSome = true ∨ ready = false → Idles (.collPrepare die id) s) ∧
      ((d.coll die.val id).prepared = none → ready = true →
        ∃ d1, exec (.collPrepare die id) s = .next { s with dev := decideStep d1 die.val id } ∧ SameMem d d1 ∧
          d1.cores = d.cores ∧ (d1.coll die.val id).prepared = some (sourceNs d die.val) ∧
          (∀ q ∈ others, (d1.coll q id).due = (d.coll q id).due ++ [(die.val, sourceNs d die.val)])))

/-- A DONE token on its way, with a route of VC3 slots and no NOGO of its sender before it, arrives: the member holds it. When the member is prepared and now holds DONE from all p - 1 others, every step core of the die is decided, COLL_STEPS counts one and the member is no longer prepared; while one is missing no core is decided, and only the tokens and the links the token crossed change. Memory is unchanged in both cases. With no such token the device is unchanged. (11_torus_and_collectives.md) -/
def Obligations.MemberCommitsOnTheLastDone : Prop :=
  ∀ (die : Fin 16) (id : Nat) (sender : Fin 16) (s : State),
    let d := s.dev
    let k := d.coll die.val id
    let pass := !k.nogoDue.contains sender.val && tokenRoute d (rowsAround d die.val) sender.val die.val
    (k.due.find? (fun t => t.1 == sender.val) = none ∨ pass = false → Idles (.collDoneToken die id sender) s) ∧
    (∀ t, k.due.find? (fun t => t.1 == sender.val) = some t → pass = true →
      let d1 := (controlToken d (rowsAround d die.val) sender.val die.val).setColl die.val id { k with due := k.due.erase t, done := k.done ++ [t] }
      (∀ m rest, stepCores d die.val id = m :: rest → k.done.length + 2 < m.2.2.p →
        exec (.collDoneToken die id sender) s = .next { s with dev := d1 }) ∧
      (k.prepared = none → exec (.collDoneToken die id sender) s = .next { s with dev := d1 }) ∧
      (∀ m rest, stepCores d die.val id = m :: rest → k.prepared.isSome = true → m.2.2.p ≤ k.done.length + 2 →
        Ends (.collDoneToken die id sender) s (fun e => SameMem d e ∧
          (∀ q ∈ m :: rest, ((e.cs die.val q.1).flight.bind (·.coll)).map (·.decided) = some true) ∧
          (e.coll die.val id).prepared = none ∧ (e.coll die.val id).done = [] ∧
          e.rd (R.COLL_STEPS die.val 0) = min (d.rd (R.COLL_STEPS die.val 0) + 1) 0xFFFFFFFF)))

/-- COLL_NOGO: a NOGO on its way whose route VC3 serves arrives in every state and is used up; with no undecided step command on the die memory and cores are as before; when the die has undecided step commands and belongs to a partition, each of them stands killed at its boundary, to rerun, the member is not prepared and COLL_ABANDON counts one. COLL_FAULT_TOKEN: a FAULT token on its way with a route is used up, 0x0302 with the sender's die stands in the page of every core it names whose fault register was clear, and memory and cores are as before. COLL_TIMEOUT: for a die with a step command not yet committed, whose partition runs a step, the lowest-numbered core with such a command ends it with fault 0x0902 (cmdStop; that it is that core is the model's choice, log entry 47) naming the silent die, a free one where nothing is awaited (log entry 100), with bit 31 of FAULT_INFO1 for a late one. In every other case the device is unchanged. (11_torus_and_collectives.md) -/
def Obligations.TokensEndAStep : Prop :=
  ∀ (die : Fin 16) (id : Nat) (s : State),
    let d := s.dev
    let k := d.coll die.val id
    let rows := rowsAround d die.val
    let nogo := k.nogoDue.find? (fun q => tokenRoute d rows q die.val)
    (nogo = none → Idles (.collNogo die id) s) ∧
    (∀ q, nogo = some q →
      Ends (.collNogo die id) s (fun e => (e.coll die.val id).nogoDue = k.nogoDue.erase q ∧
        (stepCores d die.val id = [] → SameMem d e ∧ e.cores = d.cores) ∧
        (stepCores d die.val id ≠ [] → (ownerOf d die.val).isSome = true →
          (e.coll die.val id).prepared = none ∧
          e.rd (R.COLL_ABANDON die.val 0) = min (d.rd (R.COLL_ABANDON die.val 0) + 1) 0xFFFFFFFF ∧
          ∀ c f cf, (d.cs die.val c).flight = some f → f.coll = some cf → cf.id = id → cf.decided = false →
            (e.cs die.val c).flight = none ∧ (e.cs die.val c).phase = .ready ∧ (e.cs die.val c).rerun = true ∧
            (e.cs die.val c).idx = (d.cs die.val c).idx))) ∧
    (∀ sender : Fin 16,
      let fault := k.faultDue.find? (fun t => t.1 == sender.val)
      (fault = none ∨ tokenRoute d rows sender.val die.val = false → Idles (.collFaultToken die id sender) s) ∧
      (∀ t, fault = some t → tokenRoute d rows sender.val die.val = true →
        Ends (.collFaultToken die id sender) s (fun e => SameMem d e ∧ e.cores = d.cores ∧
          (e.coll die.val id).faultDue = k.faultDue.erase t ∧
          ∀ c ∈ t.2, d.rd (R.FAULT_CODE (.core die.val c)) = 0 →
            bits (e.rd (R.FAULT_CODE (.core die.val c))) 15 0 = 0x0302 ∧
            e.rd (R.FAULT_INFO0 (.core die.val c)) = 2 ^ 24 * sender.val))) ∧
    (∀ late : Bool,
      let es := uncommitted d die.val id
      let info := if late then 2 ^ 31 else 0
      (es = [] → Idles (.collTimeout die id late) s) ∧
      (∀ m rest h, es = m :: rest → here d die.val m.1 = some h →
        (∀ q, silentDie d die.val id es = some q → exec (.collTimeout die id late) s =
          .next { s with dev := cmdStop d h die.val m.1 { code := 0x0902, die := q, info1 := info } }) ∧
        (silentDie d die.val id es = none → ∃ q d1, q < 16 ∧ SameMem d d1 ∧ d1.cores = d.cores ∧
          exec (.collTimeout die id late) s =
            .next { s with dev := cmdStop d1 h die.val m.1 { code := 0x0902, die := q, info1 := info } })))

/-- For an enabled queue of a partition that is awake: a tail outside the queue counts in HQ_REJ_CNT and changes no queue. Else the tail is taken over and the waiting entries are those between head and tail: on queues 1 to 7, of a queue not reconfigured while enabled, those read before followed by the ring entries given; memory is unchanged. On queue 0, whose entries stand in the inline page, a bell without a runnable step, or beside a class-0 step already run, pending or waiting in the queue from an earlier bell, changes nothing but the queue; one with such a step notes the time of the bell, has a running step of another class drain, and gives up a plan being brought in. A bell on a disabled queue of a partition that is awake changes nothing, which the model infers (log entry 51). (12_hosts_and_preemption.md) -/
def Obligations.DoorbellHandsOverEntries : Prop :=
  ∀ (n : Fin 4) (q : Fin 8) (tail : Nat) (given : List QEntry) (s : State),
    let d := s.dev
    let p := d.port n.val
    let u := p.queue q.val
    let size := queueSize u q.val
    p.up = true → p.valid = true → awake d n.val = true → tail < 65536 →
    (u.en = false → Idles (.sqDoorbell n q tail given) s) ∧
    (u.en = true → size ≤ tail → Ends (.sqDoorbell n q tail given) s (fun e => SameMem d e ∧ (e.port n.val).queues = p.queues ∧
      e.rd (R.HQ_REJ_CNT n.val) = min (d.rd (R.HQ_REJ_CNT n.val) + 1) 0xFFFFFFFF)) ∧
    (u.en = true → tail < size →
      let total := (tail + size - u.head % size) % size
      let old := u.entries.take total
      (q.val ≠ 0 → u.loose = false → total - old.length ≤ given.length →
        Ends (.sqDoorbell n q tail given) s (fun e => SameMem d e ∧
          (e.port n.val).queue q.val = { u with tail := tail, entries := old ++ given.take (total - old.length) } ∧
          (e.port n.val).jobs = p.jobs)) ∧
      (q.val = 0 → ∃ d1, SameMem d d1 ∧ ((d1.port n.val).queue 0).tail = tail ∧
        ((d1.port n.val).queue 0).entries.length = total ∧
        (exec (.sqDoorbell n q tail given) s = .next { s with dev := d1 } ∨
         ∃ earlier, exec (.sqDoorbell n q tail given) s = .next { s with dev := classZeroBell d1 n.val earlier })) ∧
      (q.val = 0 → u.loose = false →
        let new := inlineEntries d n.val (u.head + old.length) (total - old.length)
        let v := { u with tail := tail, entries := old ++ new }
        let d1 := ({ d with fresh := d.fresh + 7 * (total - old.length) } : Dev).setPort n.val (p.setQueue 0 v)
        let steps := new.filter (fun e => e.op == 1 && !entryBad d1 (d1.port n.val) 0 e)
        let quiet := c0Waiting d (p.setQueue 0 { u with entries := old }) || p.jobs.any (fun j => j.cls == 0) || p.run.any (fun j => j.cls == 0)
        (steps = [] ∨ quiet = true → exec (.sqDoorbell n q tail given) s = .next { s with dev := d1 }) ∧
        (steps ≠ [] → quiet = false → Ends (.sqDoorbell n q tail given) s (fun e =>
          (e.port n.val).queue 0 = v ∧ (e.port n.val).dbTime = some (elapsedNs d) ∧
          (p.run.isSome = true → p.mode = .running ∨ p.mode = .yielding → (e.port n.val).mode = .draining) ∧
          (p.mode = .switching → (e.port n.val).mode = .idle ∧ (e.port n.val).run = none) ∧
          (p.mode = .idle → SameMem d e ∧ e.cores = d.cores ∧ (e.port n.val).mode = .idle)))))

/-- Each of the five entry rows acts only on the entry at the head of its enabled queue when the entry has its operation: with no such entry the device is unchanged. A readable entry leaves the queue and the head passes it. An entry that a reason of R296 rejects counts in HQ_REJ_CNT and completes with status 0x010E, its doorbell timed no more when no class-0 step is left of it (bellSpent); an accepted one is carried out. (12_hosts_and_preemption.md) -/
def Obligations.QueueEntriesAreRead : Prop :=
  ∀ (n : Fin 4) (q : Fin 8) (s : State),
    let d := s.dev
    let p := d.port n.val
    let u := p.queue q.val
    let rows : List (Nat × Instr × (Dev → Queue → QEntry → Nat → Dev)) :=
      [(1, .runStep n q, runStepEntry n.val q.val), (2, .loadPlan n q, loadEntry n.val q.val),
       (3, .unloadPlan n q, unloadEntry n.val q.val), (4, .setRecipe n q, recipeEntryIn n.val q.val),
       (5, .fence n q, fenceEntry n.val q.val)]
    ∀ r ∈ rows,
      (p.valid = false ∨ u.en = false ∨ u.entries = [] → Idles r.2.1 s) ∧
      (∀ e t, p.valid = true → u.en = true → u.entries = e :: t →
        let v := { u with head := (u.head + 1) % queueSize u q.val, entries := t }
        let gone := if q.val = 0 then inlineWords u.head else []
        let d1 := idle (d.setPort n.val { p.setQueue q.val v with inl := p.inl.filter (fun o => !gone.contains o) }) (.hq0 n.val)
        (e.op ≠ r.1 → 1 ≤ e.op → e.op ≤ 5 → Idles r.2.1 s) ∧
        (e.op = r.1 → entryBad d p q.val e = false → exec r.2.1 s = .next { s with dev := r.2.2 d1 v e u.head }) ∧
        (e.op = r.1 ∨ e.op = 0 ∨ 5 < e.op → entryBad d p q.val e = true →
          let d2 := entryDone (d1.inc (R.HQ_REJ_CNT n.val) 1) n.val q.val u.head 0x010E e.tag (bit e.flags 0) false
          exec r.2.1 s = .next { s with dev := schedule (bellSpent d2 n.val) n.val }))

/-- For an accepted RUN_STEP of an idle, awake partition with nothing else pending or suspended, no variant asked for, and no class-0 entry that the QP has yet to read: the job runs, for count steps (one for a count of 0, the model's inference: log entry 50); at once from boundary 0 on every core when its plan is the one on the dies, else after a restore (class 0) or a plan switch. (12_hosts_and_preemption.md) -/
def Obligations.RunStepStartsAnIdlePartition : Prop :=
  ∀ (n : Fin 4) (q : Fin 8) (s : State) (e : QEntry) (t : List QEntry),
    let d := s.dev
    let p := d.port n.val
    let u := p.queue q.val
    p.valid = true → u.en = true → u.entries = e :: t → e.op = 1 → entryBad d p q.val e = false → p.mode = .idle →
    p.jobs = [] → p.loads = [] → p.recipes = [] → q.val = 0 ∨ c0Waiting d p = false → (∀ i, (p.slot i).susp = none) → awake d n.val = true →
    let slot := entrySlot u q.val e
    let j : Job := ⟨q.val, u.head, queueCls u q.val, slot, max 1 e.count, bit e.flags 0, e.tag⟩
    Ends (.runStep n q) s (fun x => (x.port n.val).run = some j ∧
      (resident p slot = true → (x.port n.val).mode = .running ∧ (x.port n.val).jobs = [] ∧ SameMem d x ∧
        ∀ die ∈ partDies p, ∀ c, x.cs die c = {}) ∧
      (resident p slot = false → (x.port n.val).mode = (if queueCls u q.val = 0 then .restoring else .switching)))

/-- For an accepted LOAD_PLAN of an idle, awake partition with nothing pending: when the image passes the checks of R32, its slot holds the plan at the given offset and length, with no suspended step; when a check fails with a code, the slot is as before and, if the fault register of HQ page 0 was clear, it holds that code. (12_hosts_and_preemption.md, 02_plans_and_commands.md) -/
def Obligations.LoadPlanChecksTheImage : Prop :=
  ∀ (n : Fin 4) (q : Fin 8) (s : State) (e : QEntry) (t : List QEntry),
    let d := s.dev
    let p := d.port n.val
    let u := p.queue q.val
    p.valid = true → u.en = true → u.entries = e :: t → e.op = 2 → entryBad d p q.val e = false → p.mode = .idle →
    p.jobs = [] → p.loads = [] → p.recipes = [] → (∀ i, (p.slot i).susp = none) → awake d n.val = true →
    let slot := entrySlot u q.val e
    let g : Img := ⟨d, p, e.arg0, e.arg1⟩
    (g.check = none → Ends (.loadPlan n q) s (fun x =>
      (x.port n.val).slot slot = { loaded := true, offset := e.arg0, len := e.arg1 } ∧
      ∀ a, x.mem.byte .hbm a = d.mem.byte .hbm a ∧ x.mem.byte .tm a = d.mem.byte .tm a)) ∧
    (∀ code, g.check = some code → Ends (.loadPlan n q) s (fun x =>
      (x.port n.val).slot slot = p.slot slot ∧
      (d.rd (R.FAULT_CODE (.hq0 n.val)) = 0 → bits (x.rd (R.FAULT_CODE (.hq0 n.val))) 15 0 = code)))

/-- An accepted UNLOAD_PLAN leaves its slot empty and every other slot as before. An accepted SET_RECIPE of an idle, awake partition with nothing else pending or suspended writes the variant into the active byte of its layer's entry in the plan image at once and changes no other byte of HBM (that an idle partition stands at a step boundary is the model's inference, log entry 53). While a step is on the dies, or a die of the partition is not in Full, it waits behind the variants asked for before and no memory changes. (12_hosts_and_preemption.md, 04_matrix_engines.md) -/
def Obligations.UnloadAndRecipe : Prop :=
  ∀ (n : Fin 4) (q : Fin 8) (s : State) (e : QEntry) (t : List QEntry),
    let d := s.dev
    let p := d.port n.val
    let u := p.queue q.val
    p.valid = true → u.en = true → u.entries = e :: t → entryBad d p q.val e = false →
    let slot := entrySlot u q.val e
    (e.op = 3 → Ends (.unloadPlan n q) s (fun x => (x.port n.val).slot slot = {} ∧
      ∀ i, i ≠ slot → (x.port n.val).slot i = p.slot i)) ∧
    (e.op = 4 → p.mode ≠ .idle ∨ awake d n.val = false → Ends (.setRecipe n q) s (fun x => SameMem d x ∧
      (x.port n.val).recipes = p.recipes ++ [⟨q.val, u.head, slot, bits e.arg0 7 0, bits e.arg0 9 8, bit e.flags 0, e.tag⟩])) ∧
    (∀ r, e.op = 4 → p.mode = .idle → awake d n.val = true → p.jobs = [] → p.recipes = [] → p.loads = [] → (∀ i, (p.slot i).susp = none) →
      recipeEntry d p (p.slot slot) (bits e.arg0 7 0) = some r →
      let a := bar2Base p + (p.slot slot).offset + r + 2
      Ends (.setRecipe n q) s (fun x => x.mem.byte .hbm a = BitVec.ofNat 8 (bits e.arg0 9 8) ∧
        (∀ b, b ≠ a → x.mem.byte .hbm b = d.mem.byte .hbm b) ∧ (x.port n.val).recipes = []))

/-- For a FENCE at the head of an enabled queue. With nothing outstanding and notify set, and room in the ring: the 16 bytes of its completion record (status 0, its queue and index, kind 0, its tag, the phase) stand at HQ_CQ_TAIL in host memory (bus addresses wrapping at 2^64, log entry 138), no byte of host memory outside them changes, HQ_CQ_TAIL advances modulo the ring. With earlier entries outstanding it waits for exactly those and memory is unchanged. HQ_CQ_HEAD holds the head written (16 bits). With no record waiting, memory and ports are unchanged. With records waiting and the ring no longer full, the first of them stands at HQ_CQ_TAIL when it is the only one. (12_hosts_and_preemption.md) -/
def Obligations.FencesAndRingHeads : Prop :=
  (∀ (n : Fin 4) (q : Fin 8) (s : State) (e : QEntry) (t : List QEntry),
    let d := s.dev
    let p := d.port n.val
    let u := p.queue q.val
    p.valid = true → u.en = true → u.entries = e :: t → e.op = 5 →
    (u.outstanding = [] → bit e.flags 0 = true → cqFull d n.val = false → p.cqWait = [] → p.cqLoose = false →
      d.rd (R.HQ_CQ_TAIL n.val) < cqSize d n.val →
      let a := hostAt n.val (d.rd64 (R.HQ_CQ_BASE_LO n.val) + 16 * d.rd (R.HQ_CQ_TAIL n.val))
      Ends (.fence n q) s (fun x =>
        x.mem.bytes .host a 16 = cqBytes ⟨0, q.val, false, 0, u.head, e.tag, none⟩ p.phase ∧
        (∀ b, b < a ∨ a + 16 ≤ b → x.mem.byte .host b = d.mem.byte .host b) ∧
        x.rd (R.HQ_CQ_TAIL n.val) = (d.rd (R.HQ_CQ_TAIL n.val) + 1) % cqSize d n.val)) ∧
    (u.outstanding ≠ [] → Ends (.fence n q) s (fun x => SameMem d x ∧
      ((x.port n.val).queue q.val).fences = u.fences ++ [(u.head, bit e.flags 0, e.tag, u.outstanding)]))) ∧
  (∀ (n : Fin 4) (head : Nat) (s : State),
    let d := s.dev
    let d1 := d.wr (R.HQ_CQ_HEAD n.val) (head % 65536)
    ((d.port n.val).cqWait = [] → Ends (.hqCqHead n head) s (fun e => SameMem d e ∧
      e.rd (R.HQ_CQ_HEAD n.val) = head % 65536 ∧ RegsBut d e (· = R.HQ_CQ_HEAD n.val) ∧ e.port n.val = d.port n.val)) ∧
    (∀ r, (d.port n.val).cqWait = [r] → cqFull d1 n.val = false → (d.port n.val).cqLoose = false →
      let a := hostAt n.val (d.rd64 (R.HQ_CQ_BASE_LO n.val) + 16 * d.rd (R.HQ_CQ_TAIL n.val))
      Ends (.hqCqHead n head) s (fun e => (e.port n.val).cqWait = [] ∧
        e.mem.bytes .host a 16 = cqBytes r (d.port n.val).phase ∧
        e.rd (R.HQ_CQ_HEAD n.val) = head % 65536)))

/-- STEP_BOUNDARY: once every core has ended the step, KVT_EPOCH of each die of the partition moves on by one (modulo 2^32, the model's choice: log entry 108), a job with steps left is queued again with one less, and the QP goes on; before that the device is unchanged. YIELD_SUSPENDED and ECLIPSE_SAVE_DONE: a step whose live set fits its save area is suspended in its slot with its job, and the QP goes on with none running; outside a yield with every core stopped and not every core ended, or a save, the device is unchanged. ECLIPSE_DRAIN_END: with no command in flight, no held core going on and not every core ended, a draining partition begins its save and nothing else changes; else the device is unchanged. (12_hosts_and_preemption.md) -/
def Obligations.StepsEndSuspendAndResume : Prop :=
  ∀ (n : Fin 4) (s : State),
    let d := s.dev
    let p := d.port n.val
    (onDies p = false ∨ allEnded d p = false → Idles (.stepBoundary n) s) ∧
    (∀ j, p.run = some j → onDies p = true → allEnded d p = true →
      ∃ d1, exec (.stepBoundary n) s = .next { s with dev := stepOver d1 n.val } ∧
        (∀ die ∈ partDies p, d1.rd (R.KVT_EPOCH die) = (d.rd (R.KVT_EPOCH die) + 1) % 2 ^ 32) ∧
        (1 < j.left → (d1.port n.val).jobs = p.jobs ++ [{ j with left := j.left - 1 }] ∧ SameMem d d1)) ∧
    let stood := fun (j : Job) => (coresOf (partDies p)).all (fun k =>
      (d.cs k.1 k.2).phase == .ended ||
        ((d.cs k.1 k.2).phase == .ready && yieldStands d p (p.slot j.slot) (relCore p k.1 k.2) (d.cs k.1 k.2).boundary))
    let still := fun (j : Job) => (coresOf (partDies p)).all (fun k => (d.cs k.1 k.2).flight.isNone &&
      !mayIssue d ⟨n.val, p, j, p.slot j.slot, d.cs k.1 k.2⟩ k.1 k.2)
    (p.mode ≠ .yielding ∨ p.run = none ∨ allEnded d p = true → Idles (.yieldSuspended n) s) ∧
    (∀ j, p.run = some j → stood j = false → Idles (.yieldSuspended n) s) ∧
    (∀ j d0, p.run = some j → p.mode = .yielding → allEnded d p = false → stood j = true → saveLive d n.val j.slot = .ok d0 →
      ∃ d1, exec (.yieldSuspended n) s = .next { s with dev := schedule d1 n.val } ∧ (d1.port n.val).run = none ∧
        (d1.port n.val).mode = .idle ∧ ((d1.port n.val).slot j.slot).susp.map (·.job) = some j ∧
        (d1.port n.val).tides = p.tides) ∧
    (p.mode ≠ .draining ∨ p.run = none ∨ allEnded d p = true → Idles (.eclipseDrainEnd n) s) ∧
    (∀ j, p.run = some j → still j = false → Idles (.eclipseDrainEnd n) s) ∧
    (∀ j, p.run = some j → p.mode = .draining → allEnded d p = false → still j = true →
      exec (.eclipseDrainEnd n) s = .next { s with dev := d.setPort n.val { p with mode := .saving } }) ∧
    (p.mode ≠ .saving → Idles (.eclipseSaveDone n) s) ∧
    (∀ j d0, p.run = some j → p.mode = .saving → saveLive d n.val j.slot = .ok d0 →
      ∃ d1, exec (.eclipseSaveDone n) s = .next { s with
          dev := if switchOn ((schedule d1 n.val).port n.val) then schedule d1 n.val else idleHbmc (schedule d1 n.val) n.val } ∧
        (d1.port n.val).run = none ∧
        (d1.port n.val).mode = .idle ∧ ((d1.port n.val).slot j.slot).susp.map (·.job) = some j)

/-- ECLIPSE_RESTORE_DONE (a class-0 plan), RESUME_SUSPENDED (a suspended step) and PLAN_SWITCH_RESTORE_DONE (a new step): with the partition in the matching state, and a saved set without poison, the live set is back in tile memory and the job runs; a new step begins at boundary 0 on every core, a suspended one where each core stood; a pending step it yields to may have it yield at once (R303). A poisoned saved set ends the incoming job instead (failIncoming, R389). In any other state the device is unchanged. For a step on the dies of which a core has issued a command, with a nonzero watchdog (late only when every core has ended the step): the fault 0x0903 is posted in HQ page 0 (the page is the model's inference, log entry 55), HQ_WD_LATE_CNT counts a late one, and the job ends with that code. With no step on the dies, none of its commands issued, or the watchdog at 0, the device is unchanged. (12_hosts_and_preemption.md, 09_memory_tiers.md, 14_time_reference.md) -/
def Obligations.RestoresBeginAndWatchdogsEnd : Prop :=
  (∀ (n : Fin 4) (s : State),
    let d := s.dev
    let p := d.port n.val
    let rows : List (Instr × Mode × Bool) := [(.eclipseRestoreDone n, .restoring, false), (.resumeSuspended n, .switching, true),
      (.planSwitchRestoreDone n, .switching, false)]
    ∀ r ∈ rows,
      (p.mode ≠ r.2.1 ∨ p.resuming ≠ r.2.2 → Idles r.1 s) ∧
      (∀ code, p.mode = r.2.1 → p.resuming = r.2.2 → restoreTarget d n.val = .error code →
        exec r.1 s = .next { s with dev := failIncoming d n.val code }) ∧
      (∀ j d1, p.run = some j → p.mode = r.2.1 → p.resuming = r.2.2 → restoreTarget d n.val = .ok d1 →
        Ends r.1 s (fun e => ((e.port n.val).mode = .running ∨
            ((e.port n.val).mode = .yielding ∧ p.jobs.any (fun b => yieldsTo j b.cls b.slot) = true)) ∧ (e.port n.val).run = some j ∧
          e.mem = d1.mem ∧
          (r.2.2 = false → ∀ die ∈ partDies p, ∀ c, e.cs die c = {}) ∧
          (∀ v, r.2.2 = true → (p.slot j.slot).susp = some v → (∀ k ∈ v.cores, k.1.1 ∈ partDies p) →
            (∀ die ∈ partDies p, ∀ c, e.cs die c = look {} v.cores (die, c)) ∧
            ((e.port n.val).slot j.slot).susp = none)))) ∧
  (∀ (n : Fin 4) (late : Bool) (s : State),
    let d := s.dev
    let p := d.port n.val
    let issued := (coresOf (partDies p)).any (fun k => hasIssued (d.cs k.1 k.2))
    (onDies p = false ∨ issued = false ∨ d.fld (R.HQ_STEP_WD n.val) 15 0 = 0 ∨ (late && !allEnded d p) = true →
      Idles (.stepWatchdog n late) s) ∧
    (onDies p = true → issued = true → d.fld (R.HQ_STEP_WD n.val) 15 0 ≠ 0 → (late = true → allEnded d p = true) →
      let d1 := postFault d (.hq0 n.val) 0x0903 0 0
      let d2 := if late then d1.inc (R.HQ_WD_LATE_CNT n.val) 1 else d1
      exec (.stepWatchdog n late) s = .next { s with dev := faultRun d2 n.val 0x0903 late }))

/-- For a host port that is up: when the conditions of R289 hold (status 2) the partition exists with the requested rows, each of its dies has a key, no semaphore count, no live core and no plan in its host port, PART_CREATE_CNT counts one, and tile memory and HBM are unchanged; else HQ_PART_RESP holds the failing condition's status, PART_REJECT_CNT counts one, all memory is as before, and so is the port, but that a request takes its function out of D3hot (log entry 111). On a port that is down the device is unchanged. (12_hosts_and_preemption.md, 17_security_and_firmware.md) -/
def Obligations.PartitionIsGrantedOrRejected : Prop :=
  ∀ (n : Fin 4) (rows : Nat) (s : State),
    let d := s.dev
    let st := partStatus d n.val rows
    ((d.port n.val).up = false → Idles (.partCreate n rows) s) ∧
    ((d.port n.val).up = true → st ≠ 2 → Ends (.partCreate n rows) s (fun e => SameMem d e ∧ e.port n.val = { d.port n.val with d3hot := false } ∧
      e.fld (R.HQ_PART_RESP n.val) 3 0 = st ∧ e.rd R.PART_REJECT_CNT = min (d.rd R.PART_REJECT_CNT + 1) 0xFFFFFFFF)) ∧
    ((d.port n.val).up = true → st = 2 → Ends (.partCreate n rows) s (fun e =>
      (e.port n.val).valid = true ∧ (e.port n.val).rows = rows ∧ (e.port n.val).slots = [] ∧ (e.port n.val).queues = [] ∧
      (∀ r ∈ rowList rows, ∀ die ∈ rowDies r, die ∈ e.sec.keys ∧ (∀ c, e.cs die c = {}) ∧ (∀ slot i, semCount e die slot i = 0)) ∧
      e.fld (R.HQ_PART_RESP n.val) 3 0 = 2 ∧ e.rd R.PART_CREATE_CNT = min (d.rd R.PART_CREATE_CNT + 1) 0xFFFFFFFF ∧
      ∀ a, e.mem.byte .tm a = d.mem.byte .tm a ∧ e.mem.byte .hbm a = d.mem.byte .hbm a))

/-- PART_RELEASE (of a function not in D3hot), FUNCTION_LEVEL_RESET, HOT_RESET, HOST_LINK_DOWN and D3HOT_ENTRY of a port that is up and has a partition: the partition is gone with its jobs, queues and plans, its keys are destroyed, its rows are marked as being cleared and leave PART_ROW_OK, PART_TEARDOWN_CNT counts one; the port is up at once, after HOST_LINK_DOWN too (the model's choice, log entry 59). A port that is down leaves the device unchanged, and so does a release from D3hot, whose registers the host does not reach (R283); without a partition the events change the function's power state and the link's width and rate at most, and a release is only answered. PART_CLEAR_DONE then leaves zeros in every byte of tile memory and HBM of the rows being cleared, every other byte as before, and no row being cleared; with none being cleared the device is unchanged. (12_hosts_and_preemption.md) -/
def Obligations.PartitionIsTornDownAndCleared : Prop :=
  ∀ (n : Fin 4) (s : State),
    let d := s.dev
    let p := d.port n.val
    let rows : List (Instr × Bool) := [(.partRelease n, p.reached), (.functionLevelReset n, p.up), (.hotReset n, p.up),
      (.hostLinkDown n, p.up), (.d3hotEntry n, p.up)]
    (∀ r ∈ rows,
      (r.2 = false → Idles r.1 s) ∧
      (r.2 = true → p.valid = true → Ends r.1 s (fun e =>
        (e.port n.val).valid = false ∧ (e.port n.val).run = none ∧ (e.port n.val).jobs = [] ∧ (e.port n.val).queues = [] ∧
        (e.port n.val).slots = [] ∧ (e.port n.val).up = true ∧ (e.port n.val).clearing = p.clearing ||| p.rows ∧
        (∀ r ∈ rowList p.rows, e.fld R.PART_ROW_OK r r = 0 ∧ ∀ die ∈ rowDies r, die ∉ e.sec.keys) ∧
        e.rd R.PART_TEARDOWN_CNT = min (d.rd R.PART_TEARDOWN_CNT + 1) 0xFFFFFFFF))) ∧
    (p.up = true → p.valid = false →
      (p.d3hot = false → exec (.partRelease n) s = .next { s with dev := idle d .part }) ∧
      exec (.functionLevelReset n) s = .next { s with dev := d.setPort n.val { p with d3hot := false } } ∧
      exec (.hotReset n) s = .next { s with dev := d.setPort n.val { p with d3hot := false } } ∧
      exec (.d3hotEntry n) s = .next { s with dev := d.setPort n.val { p with d3hot := true } } ∧
      Ends (.hostLinkDown n) s (fun e => SameMem d e ∧ e.regs = d.regs ∧ e.cores = d.cores ∧
        e.port n.val = { p with d3hot := false, lanes := (e.port n.val).lanes, rate := (e.port n.val).rate })) ∧
    (p.clearing = 0 → Idles (.partClearDone n) s) ∧
    (p.clearing ≠ 0 → Ends (.partClearDone n) s (fun e =>
      (e.port n.val).clearing = 0 ∧ (e.port n.val).valid = p.valid ∧
      (p.valid = false → e.fld (R.HQ_PART_RESP n.val) 3 0 = 7) ∧
      ∀ a, e.mem.byte .tm a = (if (rowList p.clearing).any (fun r => decide (tmBase (4 * r) 0 ≤ a) && decide (a < tmBase (4 * r + 4) 0))
          then 0 else d.mem.byte .tm a) ∧
        e.mem.byte .hbm a = (if (rowList p.clearing).any (fun r => decide (hbmBase (4 * r) ≤ a) && decide (a < hbmBase (4 * r + 4)))
          then 0 else d.mem.byte .hbm a)))

/-- On a host port that is up. Outside the HBM of its partition, or of a stopped row: only an Unsupported Request answers. To a die in New: the same, PWR_MOON_UR counts, and the partition starts to wake. In a partition that is awake, with no request waiting, slots for this one and no command in flight on the bytes: a read answers exactly the bytes, with their poison mark, and a write stores them and changes no other byte; the rows their pieces open count in HBMC_OPEN (R218, R236), which with its page's counter_sat interrupt off is all that else changes (on the bytes of a command in flight what is read or stored is free: R286). To a die in another moon state, or behind a request that waits, it waits in order while the partition wakes (behind a waiting one by the model's choice, log entry 115). A port that is down does nothing. (12_hosts_and_preemption.md, 13_power.md, 09_memory_tiers.md) -/
def Obligations.BarTwoReachesHbm : Prop :=
  ∀ (n : Fin 4) (s : State) (addr len : Nat) (data : List Byte),
    let d := s.dev
    let p := d.port n.val
    let die := baseDie p + (barPlace addr).1
    let a := hbmBase die + (barPlace addr).2
    let rows : List (Instr × BarReq) := [(.bar2Read n addr len, .read addr len), (.bar2Write n addr data, .write addr data)]
    (∀ r ∈ rows,
      (p.up = false → Idles r.1 s) ∧
      (p.up = true → p.valid = false ∨ barOk p r.2 = false ∨ rowUp d (die / 4) = false →
        exec r.1 s = .next { s with dev := d.emit (.unsupportedRequest n.val) }) ∧
      (p.up = true → p.valid = true → barOk p r.2 = true → rowUp d (die / 4) = true → awake d n.val = false →
        (moonState d die = 4 → Ends r.1 s (fun e => SameMem d e ∧ (e.port n.val).waking = true ∧
          e.rd (R.PWR_MOON_UR die) = min (d.rd (R.PWR_MOON_UR die) + 1) 0xFFFFFFFF)) ∧
        (moonState d die ≠ 4 → moonState d die ≠ 0 ∨ p.bar ≠ [] → Ends r.1 s (fun e => SameMem d e ∧ e.out = d.out ∧
          (e.port n.val).waking = true ∧ (e.port n.val).bar = p.bar ++ [r.2])))) ∧
    let opens := fun (e : Dev) => RegsBut d e (fun r => r.page = .hbmc die 0 ∨ r.page = .hbmc die 1)
    let quiet := bit (d.rd (R.IRQ_EN (.hbmc die 0))) 3 = false ∧ bit (d.rd (R.IRQ_EN (.hbmc die 1))) 3 = false
    (p.up = true → p.valid = true → rowUp d (die / 4) = true → moonState d die ≠ 4 → awake d n.val = true → p.bar = [] →
      (barOk p (.read addr len) = true → spanServed d 0x3FFE false ⟨.hbm, a, len⟩ = true → inUse d ⟨.hbm, a, len⟩ = false →
        let tlp := Out.tlp n.val (d.mem.bytes .hbm a len) (d.mem.poisoned .hbm a len)
        Ends (.bar2Read n addr len) s (fun e => SameMem d e ∧ e.cores = d.cores ∧ opens e ∧ e.out.head? = some tlp ∧
          (quiet → e.out = tlp :: d.out ∧ ∀ m, e.port m = d.port m))) ∧
      (barOk p (.write addr data) = true → spanServed d 0x3FFE false ⟨.hbm, a, data.length⟩ = true →
        inUse d ⟨.hbm, a, data.length⟩ = false →
        Ends (.bar2Write n addr data) s (fun e => e.mem = d.mem.write .hbm a data ∧ opens e ∧ (quiet → e.out = d.out) ∧
          ((∀ i ∈ stepSlots p, entriesMet d p (p.slot i) ⟨.hbm, a, data.length⟩ = []) →
            e.cores = d.cores ∧ (quiet → ∀ m, e.port m = d.port m)))))

/-- After PART_CREATE with status 2, and after every reset of a partition (R291: PART_RELEASE, FUNCTION_LEVEL_RESET, HOT_RESET, HOST_LINK_DOWN, D3HOT_ENTRY), every KV page table entry of each of its dies is free with all fields 0, no frame of those dies is taken, and KVT_EPOCH and the seven KVT counters of those dies read 0. An accepted LOAD_PLAN of an idle, awake partition with nothing pending changes no entry. (R163) -/
def Obligations.CreationFreesThePageTable : Prop :=
  ∀ (n : Fin 4) (s : State),
    let d := s.dev
    let cleared := fun (rows : Nat) (e : Dev) => ∀ r ∈ rowList rows, ∀ die ∈ rowDies r,
      (∀ i, e.kv die i = {}) ∧ (∀ f, (die, f) ∉ e.taken) ∧ e.rd (R.KVT_EPOCH die) = 0 ∧
      ∀ g ∈ [R.KVT_MISS_CNT die, R.KVT_SPILL_CNT die, R.KVT_SPILL_ABORT die, R.KVT_OP_REJ die, R.KVT_FREE_USE die,
        R.KVT_ALLOC_HOST die, R.KVT_TIDE_SKIP die], e.rd g = 0
    (∀ rows, (d.port n.val).up = true → partStatus d n.val rows = 2 → Ends (.partCreate n rows) s (cleared rows)) ∧
    ((d.port n.val).up = true → (d.port n.val).valid = true →
      ((d.port n.val).d3hot = false → Ends (.partRelease n) s (cleared (d.port n.val).rows)) ∧
      ∀ i ∈ [Instr.functionLevelReset n, .hotReset n, .hostLinkDown n, .d3hotEntry n], Ends i s (cleared (d.port n.val).rows)) ∧
    (∀ (q : Fin 8) (e : QEntry) (t : List QEntry),
      let p := d.port n.val
      let u := p.queue q.val
      p.valid = true → u.en = true → u.entries = e :: t → e.op = 2 → entryBad d p q.val e = false → p.mode = .idle →
      p.jobs = [] → p.loads = [] → p.recipes = [] → (∀ i, (p.slot i).susp = none) → awake d n.val = true →
      Ends (.loadPlan n q) s (fun x => x.kvt = d.kvt))

/-- While the device runs and is not in a brown-out: PARB_CYCLE stores the 16 temperatures, steps each die's thermal cap by R329, counts the cycle, and every die of a row that is up has a grant on its way that is no more than its new thermal cap; memory and semaphores are unchanged. Before start-up or in a brown-out the device is unchanged. (13_power.md) -/
def Obligations.ArbiterCycleRespectsThermalCaps : Prop :=
  ∀ (fracs temps : List Nat) (s : State),
    let d := s.dev
    (d.time.started = false ∨ d.pw.brownout = true → Idles (.parbCycle fracs temps) s) ∧
    (d.time.started = true → d.pw.brownout = false → Ends (.parbCycle fracs temps) s (fun e =>
      SameMem d e ∧ e.sem = d.sem ∧ e.pw.cycle = d.pw.cycle + 1 ∧
      ∀ i < 16, e.fld (R.PWR_TEMP i) 15 0 = (temps[i]?.getD 0) % 65536 ∧
        e.fld (R.PWR_GRANT i) 20 16 = thermStep (d.fld (R.PWR_GRANT i) 20 16) (temps[i]?.getD 0) ∧
        (rowUp d (i / 4) = true → ∃ g, (e.dp i).pendingGrant = some g ∧
          g ≤ thermStep (d.fld (R.PWR_GRANT i) 20 16) (temps[i]?.getD 0))))

/-- While the device runs and is not in a brown-out: BUCKET_SAMPLE moves the bucket by sustained minus sampled power within 0 and 10 J, PWR_BUCKET shows it in millijoules, and the cut bit is set on an empty bucket or a 10-sample mean above the peak (not again while that has held since the sample before and the power is below the sustained), cleared below the sustained power once a cycle has run at the floors, else kept (when it is set again and when it ends is the model's inference, log entry 79). CAL_UPDATE with at least 200 W modelled sets k to the ratio of R328 with its last bit rounded down or up (open, log entry 80), clipped to 0.75 to 1.5. Otherwise the device is unchanged; memory is never changed. ENERGY_UPDATE while the device runs and is not in a brown-out: each counter, with its carried part, grows by exactly the calibrated energies it counts (units of 2^-14 microjoule): a step's to its plan slot, a save's to the outgoing and a restore's to the incoming slot, all other to slot 8, an unowned die's to PWR_E_UNATTR, as long as it does not saturate. What the input energy with the carried part exceeds the modelled sum by is shared over the counted entries of owned dies in proportion, rounded down, the rest carried; without such entries it goes to PWR_E_UNATTR whole; a deficit is carried. Memory and all other pages' registers are unchanged. Otherwise the device is unchanged. (13_power.md) -/
def Obligations.PowerSamplesAndEnergyAreKept : Prop :=
  (∀ (s : State) (mw mean modelled : Nat),
    let d := s.dev
    let sust := d.fld R.PWR_BUDGET 15 0
    let samples := (mw :: d.pw.samples).take 10
    let b := bucketStep d.pw.bucket sust mw
    let overs := b == 0 || (samples.length == 10 && decide (10000 * d.fld R.PWR_BUDGET 31 16 < samples.foldl (· + ·) 0))
    (d.time.started = false ∨ d.pw.brownout = true → Idles (.bucketSample mw) s) ∧
    (d.time.started = true → d.pw.brownout = false → Ends (.bucketSample mw) s (fun e => SameMem d e ∧ e.pw.bucket = b ∧
      e.pw.samples = samples ∧ e.rd R.PWR_BUCKET = b / 100000 ∧
      e.fld R.PWR_STAT 5 5 = (if d.fld R.PWR_STAT 5 5 = 1 then b2n (!(decide (mw < 1000 * sust) && d.pw.cutRan))
        else b2n (overs && !(decide (mw < 1000 * sust) && d.pw.over'))))) ∧
    (d.pw.calRunning = false ∨ d.pw.brownout = true ∨ modelled < 200000 → Idles (.calUpdate mean modelled) s) ∧
    (d.pw.calRunning = true → d.pw.brownout = false → 200000 ≤ modelled →
      let r := calRatio (d.fld R.PWR_CAL 31 16) (mean - Config.iodPower) modelled
      Ends (.calUpdate mean modelled) s (fun e => SameMem d e ∧
        ∃ u ≤ 1, (r.1 % r.2 = 0 → u = 0) ∧ e.fld R.PWR_CAL 31 16 = max 0x3000 (min 0x6000 (r.1 / r.2 + u))))) ∧
  (∀ (s : State) (input : Nat) (dies : List (List (DieWork × Nat))),
    let d := s.dev
    let k := d.fld R.PWR_CAL 31 16
    let parts := (List.range 16).flatMap (fun i => (dies[i]?.getD []).map (fun e => (energyKey d i e.1, k * e.2)))
    let sum := fun (key : Nat) => parts.foldl (fun (x : Nat) e => x + (if e.1 = key then e.2 else 0)) 0
    let all : Nat := parts.foldl (fun (x : Nat) e => x + e.2) 0
    let mj := 1000 * 2 ^ 14
    let io : Int := ((input * 2 ^ 14 : Nat) : Int) - all + d.pw.ioCarry
    let mine := parts.filter (fun e => e.1 != 36)
    let owned : Nat := mine.foldl (fun (x : Nat) e => x + e.2) 0
    let share := fun (e : Nat × Nat) => if owned = 0 then 0 else io.toNat * e.2 / owned
    let shares : Nat := mine.foldl (fun (x : Nat) e => x + share e) 0
    let extra := fun (key : Nat) => if io ≤ 0 then 0 else if owned = 0 then (if key = 36 then io.toNat else 0)
      else mine.foldl (fun (x : Nat) e => x + (if e.1 = key then share e else 0)) 0
    (d.time.started = false ∨ d.pw.brownout = true → Idles (.energyUpdate input dies) s) ∧
    (d.time.started = true → d.pw.brownout = false →
      Ends (.energyUpdate input dies) s (fun e => SameMem d e ∧ RegsBut d e (fun r => r.page = .pwrG) ∧
        e.pw.ioCarry = (if io ≤ 0 then io else if owned = 0 then 0 else io - (shares : Int)) ∧
        ∀ key ≤ 36, look 0 d.pw.carry key + sum key + extra key + mj * d.rd64 (energyReg key) < mj * (2 ^ 64 - 1) →
          look 0 e.pw.carry key + mj * e.rd64 (energyReg key) =
            look 0 d.pw.carry key + sum key + extra key + mj * d.rd64 (energyReg key))))

/-- PWR_DIE_PT by the host whose partition owns the die records the point; a change begins when none is in progress, the die is above Half and the point differs; during a change the point waits for its end. CLOCK_HANDOVER marks a change in progress once, unless the clock is stretched. VF_CHANGE_DONE after the handover, with no other point waiting and not paused by a droop, puts the target point in force and ends busy. In every other case the device is unchanged, and memory always is. A droop on a die of a running row above Quarter, not already in one, starts the stretch and the issue cut and counts in PWR_DROOP_CNT. Its end stops the stretch only. The cut ends when no stretch holds, and nothing else changes. In every other case the device is unchanged; memory always is. (13_power.md) -/
def Obligations.PointsAndDroops : Prop :=
  (∀ (n : Fin 4) (die : Fin 16) (pt : Fin 8) (s : State),
    let d := s.dev
    let q := d.dp die.val
    let r := R.PWR_DIE_PT die.val
    (ownerOf d die.val ≠ some n.val → Idles (.pwrDiePt n die pt) s) ∧
    (ownerOf d die.val = some n.val → Ends (.pwrDiePt n die pt) s (fun e => SameMem d e ∧ RegsBut d e (· = r) ∧
      e.fld r 2 0 = pt.val ∧ e.fld r 18 16 = d.fld r 18 16 ∧
      (q.changing = true → e.dp die.val = { q with nextPoint := some pt.val }) ∧
      (q.changing = false → 2 ≤ moonState d die.val ∨ d.fld r 18 16 = pt.val → e.dp die.val = q) ∧
      (q.changing = false → moonState d die.val < 2 → d.fld r 18 16 ≠ pt.val →
        e.dp die.val = { q with changing := true, handed := false, target := pt.val } ∧ e.fld r 8 8 = 1))) ∧
    (q.changing = true → q.handed = false → q.droop = false →
      exec (.clockHandover die) s = .next { s with dev := d.setDp die.val { q with handed := true } }) ∧
    (q.changing = false ∨ q.handed = true ∨ q.droop = true → Idles (.clockHandover die) s) ∧
    (q.changing = false ∨ q.handed = false ∨ (q.droop = true ∧ q.target < d.fld r 18 16) → Idles (.vfChangeDone die) s) ∧
    (q.changing = true → q.handed = true → ¬ (q.droop = true ∧ q.target < d.fld r 18 16) → q.nextPoint = none →
      Ends (.vfChangeDone die) s (fun e => SameMem d e ∧ e.fld r 18 16 = q.target % 8 ∧ e.fld r 8 8 = 0 ∧
        e.dp die.val = { q with changing := false, handed := false, nextPoint := none }))) ∧
  (∀ (die : Fin 16) (long : Bool) (s : State),
    let d := s.dev
    let q := d.dp die.val
    (q.droop = true ∨ 3 ≤ moonState d die.val ∨ rowUp d (die.val / 4) = false → Idles (.droopDetect die) s) ∧
    (q.droop = false → moonState d die.val < 3 → rowUp d (die.val / 4) = true → Ends (.droopDetect die) s (fun e =>
      SameMem d e ∧ e.dp die.val = { q with droop := true, cut := true, cutTurned := true } ∧
      e.rd (R.PWR_DROOP_CNT die.val) = min (d.rd (R.PWR_DROOP_CNT die.val) + 1) 0xFFFFFFFF)) ∧
    (q.droop = false → Idles (.droopRecover die long) s) ∧
    (q.droop = true → Ends (.droopRecover die long) s (fun e => SameMem d e ∧ e.dp die.val = { q with droop := false } ∧
      (long = false → e = d.setDp die.val { q with droop := false }))) ∧
    (q.droop = true → Idles (.issueCutEnd die) s) ∧
    (q.droop = false → exec (.issueCutEnd die) s = .next { s with dev := d.setDp die.val { q with cut := false, cutTurned := true } }))

/-- A die that may descend (R335 to R338) goes exactly one moon state deeper; memory is unchanged except on the way into New, after which its tile memory reads 0 (the model's choice, log entries 12 and 83). PWR_MOON_WAKE by its owner starts the exit of a partition that is not all in Full and changes nothing else. MOON_EXIT_DONE brings every die of a waking partition to Full, then serves the held BAR2 requests and the waiting work. In every other case the device is unchanged. (13_power.md) -/
def Obligations.MoonStatesDeepenAndEnd : Prop :=
  ∀ (die : Fin 16) (n : Fin 4) (s : State),
    let d := s.dev
    (mayDescend d die.val = false → Idles (.moonEnter die) s) ∧
    (mayDescend d die.val = true → Ends (.moonEnter die) s (fun e => moonState e die.val = moonState d die.val + 1 ∧
      (moonState d die.val + 1 < 4 → SameMem d e) ∧
      (moonState d die.val + 1 = 4 → ∀ a, tmBase die.val 0 ≤ a → a < tmBase (die.val + 1) 0 → e.mem.byte .tm a = 0))) ∧
    (ownerOf d die.val = none → Idles (.pwrMoonWake die) s) ∧
    (∀ m, ownerOf d die.val = some m → awake d m = true → Idles (.pwrMoonWake die) s) ∧
    (∀ m, ownerOf d die.val = some m → awake d m = false →
      exec (.pwrMoonWake die) s = .next { s with dev := d.setPort m { d.port m with waking := true } }) ∧
    ((d.port n.val).valid = false ∨ (d.port n.val).waking = false → Idles (.moonExitDone n) s) ∧
    ((d.port n.val).valid = true → (d.port n.val).waking = true →
      ∃ d1, exec (.moonExitDone n) s = .next { s with dev := schedule (barRelease n.val d1) n.val } ∧
        (d1.port n.val).waking = false ∧ ∀ x ∈ partDies (d.port n.val), moonState d1 x = 0)

/-- ROW_PHASE_FAIL of a row that is up: the row, its four dies together, is down, no core of the four has a command in flight, and its partition (when it has one) has no job left; every other row is up exactly when it was, and where the row had no partition the tile memory of every die of another row is as before. Of a row that is down, nothing changes. (R28) -/
def Obligations.RowFaultStopsOneRow : Prop :=
  ∀ (r : Fin 4) (s : State),
    let d := s.dev
    (rowUp d r.val = false → Idles (.rowPhaseFail r) s) ∧
    (rowUp d r.val = true → Ends (.rowPhaseFail r) s (fun e =>
      rowUp e r.val = false ∧ (∀ q < 4, q ≠ r.val → rowUp e q = rowUp d q) ∧
      (∀ n, ownerOf d (4 * r.val) = some n → (e.port n).jobs = [] ∧ (e.port n).run = none) ∧
      (∀ die ∈ rowDies r.val, ∀ c, (e.cs die c).flight = none) ∧
      (ownerOf d (4 * r.val) = none → ∀ a, a < tmBase (4 * r.val) 0 ∨ tmBase (4 * r.val + 4) 0 ≤ a → e.mem.byte .tm a = d.mem.byte .tm a)))

/-- After power-up INPUT_SAMPLE up to 60 V shows the voltage, sets the undervoltage bit on falling below 46 V and clears it at 46 V or more; the second sample in a row below 44 V, and PWR_OVERVOLT, are a brown-out of a device whose rows are powered: no partition is left and start-up waits at step 3; before the first row an overvoltage disconnects the input. MAIN_INPUT_RESTORED with the input in range ends it with reset cause 4. AUX_INPUT_CHANGE shows the two inputs, and with neither the device is off. PWR_OVERTEMP stops the die's row, whose tile memory and HBM then read 0 (the model's choice, log entry 12). COOLANT_SAMPLE shows its values and stops every row when the shutdown condition holds. Where a condition fails the device is unchanged. (13_power.md, 19_startup_and_electrical.md) -/
def Obligations.InputsAreWatched : Prop :=
  ∀ (s : State) (mv cur inlet outlet flow absent : Nat) (aux main low2 : Bool) (die : Fin 16),
    let d := s.dev
    let dark := fun (e : Dev) => e.pw.brownout = true ∧ bootStep e = 3 ∧ e.boot.row = 0 ∧
      (∀ n, (e.port n).valid = false ∧ (e.port n).run = none ∧ (e.port n).up = false) ∧ (∀ r < 4, rowUp e r = false)
    (mv ≤ 60000 → bootStep d = 0 → Idles (.inputSample mv cur) s) ∧
    (mv ≤ 60000 → bootStep d ≠ 0 → ¬ (mv < 44000 ∧ d.pw.belowOnce = true) → Ends (.inputSample mv cur) s (fun e => SameMem d e ∧
      e.rd R.PWR_IN_V = mv ∧ e.rd R.PWR_IN_I = min cur 0xFFFF ∧ e.pw.belowOnce = decide (mv < 44000) ∧
      e.fld R.PWR_STAT 2 2 = (if 46000 ≤ mv then 0 else if 46000 ≤ d.rd R.PWR_IN_V then 1 else d.fld R.PWR_STAT 2 2))) ∧
    (bootStep d ≠ 0 → mv < 44000 → d.pw.belowOnce = true → d.boot.row ≠ 0 → d.pw.brownout = false →
      Ends (.inputSample mv cur) s dark) ∧
    (bootStep d = 0 → Idles .pwrOvervolt s) ∧
    (bootStep d ≠ 0 → d.boot.row ≠ 0 → d.pw.brownout = false → Ends .pwrOvervolt s dark) ∧
    (bootStep d ≠ 0 → d.boot.row = 0 → Ends .pwrOvervolt s (fun e => SameMem d e ∧ e.fld R.PWR_STAT 3 3 = 1 ∧ e.pw.brownout = true)) ∧
    (d.pw.brownout = false ∨ inRange d = false → Idles .mainInputRestored s) ∧
    (d.pw.brownout = true → inRange d = true → Ends .mainInputRestored s (fun e => SameMem d e ∧ e.pw.brownout = false ∧
      e.rd R.DIE_RESET_CAUSE = 4 ∧ e.ports = d.ports)) ∧
    (bootStep d = 0 → Idles (.auxInputChange aux main) s) ∧
    (bootStep d ≠ 0 → main = true → Ends (.auxInputChange aux main) s (fun e => SameMem d e ∧
      e.fld R.PWR_STAT 0 0 = b2n aux ∧ e.fld R.PWR_STAT 1 1 = 1)) ∧
    (bootStep d ≠ 0 → Ends (.auxInputChange false false) s (fun e => bootStep e = 0 ∧ e.time.started = false ∧
      e.mem.flash = d.mem.flash ∧ e.mem.host = d.mem.host ∧ e.mem.tm = [] ∧ e.mem.hbm = [] ∧ e.sec.blown = d.sec.blown)) ∧
    (bootStep d ≠ 0 → aux = true → main = false → d.boot.row ≠ 0 → d.pw.brownout = false → Ends (.auxInputChange aux main) s dark) ∧
    (rowUp d (die.val / 4) = false → Idles (.pwrOvertemp die) s) ∧
    (rowUp d (die.val / 4) = true → Ends (.pwrOvertemp die) s (fun e => rowUp e (die.val / 4) = false ∧
      (∀ q < 4, q ≠ die.val / 4 → rowUp e q = rowUp d q) ∧
      (∀ a, tmBase (4 * (die.val / 4)) 0 ≤ a → a < tmBase (4 * (die.val / 4) + 4) 0 → e.mem.byte .tm a = 0) ∧
      (∀ a, hbmBase (4 * (die.val / 4)) ≤ a → a < hbmBase (4 * (die.val / 4) + 4) → e.mem.byte .hbm a = 0))) ∧
    (d.time.started = false → Idles (.coolantSample inlet outlet flow low2 absent) s) ∧
    (d.time.started = true → Ends (.coolantSample inlet outlet flow low2 absent) s (fun e =>
      e.rd R.DIE_COOL_IN = min inlet 0xFFFF ∧ e.rd R.DIE_COOL_OUT = min outlet 0xFFFF ∧ e.rd R.DIE_COOL_FLOW = min flow 0xFFFF ∧
      (∀ b < 4, bit (coolBits inlet flow low2) b = true → e.fld R.DIE_COOL_STAT b b = 1) ∧
      (bit (coolBits inlet flow low2) 3 = true → ∀ r < 4, rowUp e r = false) ∧
      (bit (coolBits inlet flow low2) 3 = false → SameMem d e ∧ ∀ r < 4, rowUp e r = rowUp d r)))

/-- AUX_POWER_UP with an input begins at step 1; SP_BOOT goes to 2 when a slot boots, else to recovery (step 15, H0 alone up), and tells of an activation that the loss of auxiliary power cut off, which FWU_FALLBACK_CNT counts; MP_TP_START to 3 and starts DEVTIME at 0 if it did not run; ROW_POWER_UP in row order with the input in range, to 4 after row 3, a row being up exactly when none of its dies fails; HBM_TRAINING to 5, the HBM of every row that is up reading 0; LINK_TRAINING to 6; SELF_TEST to 7; HOST_PORT_START to 8 with the four host ports up. An event out of its turn changes nothing (LINK_TRAINING at step 8 may train links that are down, and keeps the step). ROW_BRINGUP at step 8 brings a stopped free row up when nothing of it fails. OVEN_READY sets its bit. (19_startup_and_electrical.md) -/
def Obligations.StartUpGoesStepByStep : Prop :=
  ∀ (s : State) (aux main : Bool) (r : Fin 4) (fails : List DieFail) (cores : List CoreFail) (rs : List TrainResult),
    let d := s.dev
    (bootStep d ≠ 0 ∨ (aux = false ∧ main = false) → Idles (.auxPowerUp aux main) s) ∧
    (bootStep d = 0 → (aux || main) = true → Ends (.auxPowerUp aux main) s (fun e => bootStep e = 1 ∧ SameMem d e ∧
      e.fld R.PWR_STAT 0 0 = b2n aux ∧ e.fld R.PWR_STAT 1 1 = b2n main)) ∧
    (bootStep d ≠ 1 → Idles .spBoot s) ∧
    (bootStep d = 1 → Ends .spBoot s (fun e => SameMem d e ∧
      ((bootSlot d).isSome = true → bootStep e = 2 ∧ (∀ b, bootSlot d = some b → runSlot e = b)) ∧
      (bootSlot d = none → bootStep e = 15 ∧ (e.port 0).up = true ∧ e.fld R.SEC_STAT 7 7 = 1) ∧
      e.sec.cutOff = false ∧ (d.sec.cutOff = true →
        e.rd R.FWU_FALLBACK_CNT = min (d.rd R.FWU_FALLBACK_CNT + 1) 0xFFFFFFFF))) ∧
    (bootStep d ≠ 2 → Idles .mpTpStart s) ∧
    (bootStep d = 2 → Ends .mpTpStart s (fun e => bootStep e = 3 ∧ e.time.started = true ∧
      (d.time.started = false → e.time.now = 0 ∧ e.time.elapsed = 0))) ∧
    (bootStep d ≠ 3 ∨ d.boot.row ≠ r.val ∨ d.pw.brownout = true ∨ inRange d = false → Idles (.rowPowerUp r fails) s) ∧
    (bootStep d = 3 → d.boot.row = r.val → d.pw.brownout = false → inRange d = true → Ends (.rowPowerUp r fails) s (fun e =>
      bootStep e = (if r.val = 3 then 4 else 3) ∧ e.boot.row = r.val + 1 ∧
      rowUp e r.val = (rowDies r.val).all (fun die => causeOf fails railCauses die == 0))) ∧
    (bootStep d ≠ 4 → Idles (.hbmTraining fails) s) ∧
    (bootStep d = 4 → Ends (.hbmTraining fails) s (fun e => bootStep e = 5 ∧
      ∀ q < 4, rowUp d q = true → ∀ a, hbmBase (4 * q) ≤ a → a < hbmBase (4 * q + 4) → e.mem.byte .hbm a = 0)) ∧
    (bootStep d = 5 → Ends (.linkTraining rs) s (fun e => bootStep e = 6 ∧ SameMem d e)) ∧
    (bootStep d ≠ 5 → Ends (.linkTraining rs) s (fun e => bootStep e = bootStep d ∧ SameMem d e)) ∧
    (bootStep d ≠ 6 → Idles (.selfTest fails cores) s) ∧
    (bootStep d = 6 → Ends (.selfTest fails cores) s (fun e => bootStep e = 7)) ∧
    (bootStep d ≠ 7 → Idles .hostPortStart s) ∧
    (bootStep d = 7 → Ends .hostPortStart s (fun e => bootStep e = 8 ∧ SameMem d e ∧ e.boot.pwrgd = true ∧
      ∀ n < 4, (e.port n).up = true ∧ (e.port n).valid = (d.port n).valid)) ∧
    (bootStep d ≠ 8 ∨ rowUp d r.val = true ∨ (ownerOf d (4 * r.val)).isSome = true ∨ inRange d = false →
      Idles (.rowBringup r fails cores) s) ∧
    (bootStep d = 8 → rowUp d r.val = false → ownerOf d (4 * r.val) = none → inRange d = true →
      (∀ n < 4, bit (d.port n).clearing r.val = false) → fails = [] → cores = [] →
      Ends (.rowBringup r fails cores) s (fun e => rowUp e r.val = true ∧ bootStep e = 8 ∧
        ∀ die ∈ rowDies r.val, e.fld (R.DIE_BRING die) 7 4 = 7)) ∧
    (bootStep d = 0 → Idles .ovenReady s) ∧
    (bootStep d ≠ 0 → exec .ovenReady s = .next { s with dev := d.setFld R.TIME_STAT 7 7 1 })

/-- Each of the three, where it applies (RESET_N after power-up; the other two from step 3 on, outside recovery): start-up stands before step 2, DIE_RESET_CAUSE holds 2, 5 and 3, no partition is left, every row is down, DEVTIME is as it was, and MGMT_RESET has answered with status 0 before. MGMT_RESET before step 3 has ended is answered with status 2 and changes nothing else; the others then change nothing. (19_startup_and_electrical.md) -/
def Obligations.ResetsBeginStartUpAgain : Prop :=
  ∀ s : State,
    let d := s.dev
    let again := fun (cause : Nat) (e : Dev) => bootStep e = 1 ∧ e.rd R.DIE_RESET_CAUSE = cause ∧
      (∀ n, (e.port n).valid = false ∧ (e.port n).up = false) ∧ (∀ r < 4, rowUp e r = false) ∧ e.time.now = d.time.now
    (bootStep d = 0 → Idles .resetN s ∧ Idles .mpLockstep s ∧ Idles .mgmtReset s) ∧
    (bootStep d ≠ 0 → Ends .resetN s (again 2)) ∧
    (bootStep d < 3 ∨ bootStep d = 15 → Idles .mpLockstep s) ∧
    (3 ≤ bootStep d → bootStep d ≠ 15 → Ends .mpLockstep s (again 5) ∧
      Ends .mgmtReset s (fun e => again 3 e ∧ Out.mgmt 4 0 0 0 ∈ e.out)) ∧
    (bootStep d ≠ 0 → bootStep d < 3 ∨ bootStep d = 15 →
      exec .mgmtReset s = .next { s with dev := d.emit (.mgmt 4 2 0 0) })

/-- On a port that is up every one of the eight requests is answered on that port's mailbox, counts in its SEC_SPDM_CNT and changes no memory. A request whose stage has not been reached is answered with an error (the order of stages is presumed, log entry 34); one in its turn with its response code, and moves the stage; a certificate slot other than 0, and an unsupported code, with an error. A port that is down answers nothing. (17_security_and_firmware.md) -/
def Obligations.AttestationAnswersInOrder : Prop :=
  ∀ (n : Fin 4) (s : State) (slot index code : Nat),
    let d := s.dev
    let p := d.port n.val
    let said := fun (c : Nat) (e : Dev) => SameMem d e ∧ (∃ body, e.out.head? = some (.spdm n.val c body)) ∧
      e.rd (R.SEC_SPDM_CNT n.val) = min (d.rd (R.SEC_SPDM_CNT n.val) + 1) 0xFFFFFFFF
    let rows : List (Instr × Nat × Nat × Nat) := [(.getVersion n, 0, 1, 0x04), (.getCapabilities n, 1, 2, 0x61),
      (.negotiateAlgorithms n, 2, 3, 0x63), (.getDigests n, 3, 3, 0x01), (.getCertificate n 0, 3, 3, 0x02),
      (.challenge n 0, 3, 3, 0x03), (.getMeasurements n index, 3, 3, 0x60)]
    (∀ r ∈ rows,
      (p.up = false → Idles r.1 s) ∧
      (p.up = true → p.spdm < r.2.1 → Ends r.1 s (fun e => said 0x7F e ∧ e.port n.val = p)) ∧
      (p.up = true → r.2.1 ≤ p.spdm → Ends r.1 s (fun e => said r.2.2.2 e ∧ (e.port n.val).spdm = r.2.2.1))) ∧
    (p.up = false → Idles (.getCertificate n slot) s ∧ Idles (.challenge n slot) s ∧ Idles (.spdmUnsupported n code) s) ∧
    (p.up = true → slot ≠ 0 → Ends (.getCertificate n slot) s (said 0x7F) ∧ Ends (.challenge n slot) s (said 0x7F)) ∧
    (p.up = true → Ends (.spdmUnsupported n code) s (said 0x7F))

/-- DEBUG_UNLOCK with no partition and a token that signs the nonce the management path has read (which bytes it signs, and where it lies, is presumed: log entry 75) unlocks; else fault 0x0802 is posted on the SEC page and debug stays as it was. DEBUG_LOCK locks. JTAG: IDCODE and BYPASS always answer; while locked anything else is replaced by BYPASS and counted; while unlocked an access to a protected page reads 0, counts in SEC_KEY_CNT and posts fault 0x0801. PROT_APPLY by the owner starts the change, or is refused while a plan runs or is suspended, a codec stream is attached or debug is unlocked; while one is under way the ranges in force and memory stay (what comes of it is open, R427); of a page the owner does not reach, or without power, nothing changes, and at the copy of a die in Crescent or New the write is dropped with an event (R430). PROT_APPLY_DONE puts the new ranges in force: every HBM byte of a 2 MiB page whose marking changed reads 0, every other byte is as before. (17_security_and_firmware.md) -/
def Obligations.DebugAndProtectedMemory : Prop :=
  ∀ (n : Fin 4) (die : Fin 16) (s : State),
    let d := s.dev
    let good := (List.range 4).all (fun m => !(d.port m).valid) && (match d.sec.nonce with
      | some k => Config.sigOk (Config.sha384 (leBytes 8 Config.serial ++ leBytes 8 k)) (ofLe (tokenBytes d))
      | none => false)
    let there := canWrite d (.host n) (.secD die.val) && !darkPage d (.secD die.val)
    let copied := copiedPage d (.secD die.val)
    let p := d.port n.val
    let busy := p.run.isSome || (List.range 8).any (fun i => (p.slot i).susp.isSome) || (partDies p).any (codecServes d) || d.sec.unlocked
    let st := R.SEC_PROT_STAT die.val
    (d.time.started = false → Idles .debugUnlock s) ∧
    (d.time.started = true → Ends .debugUnlock s (fun e => SameMem d e ∧
      e.sec = (if good then { d.sec with unlocked := true } else d.sec) ∧
      e.fld R.SEC_STAT 6 6 = (if good then 1 else d.fld R.SEC_STAT 6 6) ∧
      (good = false → d.rd (R.FAULT_CODE .secG) = 0 → bits (e.rd (R.FAULT_CODE .secG)) 15 0 = 0x0802))) ∧
    exec .debugLock s = .next { s with dev := ({ d with sec := { d.sec with unlocked := false } }).setFld R.SEC_STAT 6 6 0 } ∧
    exec (.jtagInstruction .idcode) s = .next { s with dev := d.emit (.jtag Config.idcode) } ∧
    exec (.jtagInstruction .bypass) s = .next { s with dev := d.emit (.jtag 0) } ∧
    (∀ op, op ≠ .idcode → op ≠ .bypass → d.sec.unlocked = false → Ends (.jtagInstruction op) s (fun e => SameMem d e ∧
      e.sec = d.sec ∧ e.out.head? = some (.jtag 0) ∧
      e.rd R.SEC_DBG_DENY_CNT = min (d.rd R.SEC_DBG_DENY_CNT + 1) 0xFFFFFFFF)) ∧
    (∀ w page, d.sec.unlocked = true → pageProtected d die.val page = true → Ends (.jtagInstruction (.memory w die page)) s (fun e =>
      SameMem d e ∧ e.sec = d.sec ∧ e.out.head? = some (.jtag 0) ∧
      e.rd R.SEC_KEY_CNT = min (d.rd R.SEC_KEY_CNT + 1) 0xFFFFFFFF ∧
      (d.rd (R.FAULT_CODE .secG) = 0 → bits (e.rd (R.FAULT_CODE .secG)) 15 0 = 0x0801))) ∧
    (there = false → Idles (.protApply n die) s) ∧
    (there = true → copied = true →
      exec (.protApply n die) s = .next { s with dev := postReg d sevEvent (R.SEC_PROT_CTRL die.val) 0 }) ∧
    (there = true → copied = false → d.fld st 1 0 = 1 → Ends (.protApply n die) s (fun e => SameMem d e ∧
      e.sec.inForce = d.sec.inForce ∧ e.cores = d.cores ∧ RegsBut d e (fun r => r.page = .secD die.val))) ∧
    (there = true → copied = false → d.fld st 1 0 ≠ 1 → busy = true →
      exec (.protApply n die) s = .next { s with dev := d.setFld st 1 0 3 }) ∧
    (there = true → copied = false → d.fld st 1 0 ≠ 1 → busy = false → Ends (.protApply n die) s (fun e => SameMem d e ∧
      e.fld st 1 0 = 1 ∧ look [] e.sec.applying die.val = protRanges d die.val ∧ e.sec.inForce = d.sec.inForce)) ∧
    (d.fld st 1 0 ≠ 1 → Idles (.protApplyDone die) s) ∧
    (d.fld st 1 0 = 1 → Ends (.protApplyDone die) s (fun e => e.fld st 1 0 = 2 ∧
      look [] e.sec.inForce die.val = look [] d.sec.applying die.val ∧
      ∀ a, e.mem.byte .hbm a =
        (if hbmBase die.val ≤ a ∧ a < hbmBase die.val + hbmSize ∧
            (covered (look [] d.sec.applying die.val) ((a - hbmBase die.val) / 0x20_0000) !=
              covered (look [] d.sec.inForce die.val) ((a - hbmBase die.val) / 0x20_0000)) = true
          then 0 else d.mem.byte .hbm a)))

/-- FWU_OPEN of an allowed host with no session and a legal length makes it the owner of a session over the inactive slot; refusals answer their error code (0x10, 0x11, 0x12; their order is the model's, log entry 74). The erase ends once, the slot erased, and each block once, counting blocks. FWU_WRITE of a legal block by the owner stores exactly its bytes in the inactive slot; a block written before answers 0x13, a length not allowed 0x12, a failed read 0x14. FWU_VERIFY with blocks missing answers 0x15; with all of them it ends the session with 0x0803 for a bad bundle and 0x0804 for one whose svn is below the fuse count or whose version is below the running one, else marks it verified. FWU_ABORT ends the session and leaves the slot erased. Another host's operation answers 0x10; one while an erase, a block or an activation is under way, without a session, or from a host that does not reach its page changes nothing. The processors of the rows that are up hand over in order, each image is confirmed once, and when the last is confirmed the activation commits: fuses never fall. An image that fails while it confirms, and a timeout, fall back: the new slot is invalid, the old slot runs, and FWU_FALLBACK_CNT counts. A hand-over or a report out of turn, and a timeout without an activation, change nothing. (17_security_and_firmware.md) -/
def Obligations.UpdateSessionsAndActivation : Prop :=
  ∀ (n : Fin 4) (s : State) (data : Option (List Byte)) (i : Image) (pr : Proc),
    let d := s.dev
    let up := (d.port n.val).reached
    let b := idleSlot d
    let total := d.fld (R.FWU_TOTAL n.val) 25 0
    let err := fun (c : Nat) => Host.Outcome.next (φ := Fault) (ρ := Refusal) { s with dev := d.setFld (R.FWU_STATUS n.val) 15 8 c }
    let fell := fun (e : Dev) => SameMem d e ∧ e.sec.activating = none ∧ (e.sec.slot b).invalid = true ∧ runSlot e = runSlot d ∧
      e.sec.blown = d.sec.blown ∧ e.rd R.FWU_FALLBACK_CNT = min (d.rd R.FWU_FALLBACK_CNT + 1) 0xFFFFFFFF
    (up = false ∨ (d.sec.session = none) → Idles (.fwuWrite n data) s ∧ Idles (.fwuVerify n) s ∧ Idles (.fwuActivate n) s) ∧
    (up = false → Idles (.fwuOpen n) s) ∧
    (up = true → d.sec.session.isSome = true ∨ d.sec.activating.isSome = true → exec (.fwuOpen n) s = err 0x10) ∧
    (up = true → d.sec.session = none → d.sec.activating = none → bit (d.fld R.FWU_ALLOW 3 0) n.val = false →
      exec (.fwuOpen n) s = err 0x11) ∧
    (up = true → d.sec.session = none → d.sec.activating = none → bit (d.fld R.FWU_ALLOW 3 0) n.val = true →
      (total = 0 ∨ 67104768 < total → exec (.fwuOpen n) s = err 0x12) ∧
      (total ≠ 0 → total ≤ 67104768 → Ends (.fwuOpen n) s (fun e => SameMem d e ∧
        e.sec.session = some { owner := n.val, total := total } ∧ (e.sec.slot b).confirmed = none ∧
        e.sec.slot (!b) = d.sec.slot (!b) ∧ e.rd (R.FWU_STATUS n.val) = 2))) ∧
    (d.sec.session = none → Idles .fwuEraseDone s ∧ Idles .fwuBlockDone s ∧ Idles (.fwuAbort n) s) ∧
    (∀ v, d.sec.session = some v → (v.erasing = false → Idles .fwuEraseDone s) ∧
      (v.erasing = true → Ends .fwuEraseDone s (fun e => e.mem = d.mem.eraseSlot b ∧ e.sec.session = some { v with erasing := false })) ∧
      (v.programming = none → Idles .fwuBlockDone s) ∧
      (∀ blk, v.programming = some blk → Ends .fwuBlockDone s (fun e => SameMem d e ∧
        e.sec.session = some { v with programming := none, blocks := blk :: v.blocks })) ∧
      (v.owner ≠ n.val ∨ d.sec.activating.isSome = true ∨ up = false → Idles (.fwuAbort n) s) ∧
      (v.owner = n.val → d.sec.activating = none → up = true → Ends (.fwuAbort n) s (fun e => e.mem = d.mem.eraseSlot b ∧
        e.sec.session = none ∧ e.rd (R.FWU_STATUS n.val) = 0)) ∧
      (up = true → v.owner ≠ n.val → exec (.fwuWrite n data) s = err 0x10 ∧ exec (.fwuVerify n) s = err 0x10 ∧
        exec (.fwuActivate n) s = err 0x10) ∧
      (v.owner = n.val → (v.erasing || v.programming.isSome || d.sec.activating.isSome) = true →
        Idles (.fwuWrite n data) s ∧ Idles (.fwuVerify n) s ∧ Idles (.fwuActivate n) s) ∧
      (up = true → v.owner = n.val → v.erasing = false → v.programming = none → d.sec.activating = none →
        let blk := d.fld (R.FWU_OFF n.val) 9 0
        let len := d.fld (R.FWU_LEN n.val) 16 0
        let fits := decide (0 < len) && decide (len ≤ 65536) && decide (blk * 65536 + len ≤ v.total) &&
          (len == 65536 || decide (v.total ≤ (blk + 1) * 65536))
        let old := decide (bundleSvn d b < d.sec.blown) || decide (bundleVer d b < d.rd R.SEC_BUNDLE_VER)
        let fault := if bundleOk d b = false then 0x0803 else if old then 0x0804 else 0
        (blk ∈ v.blocks → exec (.fwuWrite n data) s = err 0x13) ∧
        (blk ∉ v.blocks → fits = false → exec (.fwuWrite n data) s = err 0x12) ∧
        (blk ∉ v.blocks → fits = true → data = none → exec (.fwuWrite n data) s = err 0x14) ∧
        (∀ bs, data = some bs → blk ∉ v.blocks → fits = true → Ends (.fwuWrite n data) s (fun e =>
            e.mem = d.mem.write .flash (slotBase b + blk * 65536) (bs.take len) ∧
            e.sec.session = some { v with programming := some blk })) ∧
        (v.blocks.length < blockCount v.total → exec (.fwuVerify n) s = err 0x15) ∧
        (blockCount v.total ≤ v.blocks.length → Ends (.fwuVerify n) s (fun e => SameMem d e ∧
          e.sec.session = (if fault = 0 then some { v with verified := true } else none) ∧
          (fault ≠ 0 → d.rd (R.FAULT_CODE (.fwuH n.val)) = 0 → bits (e.rd (R.FAULT_CODE (.fwuH n.val))) 15 0 = fault))) ∧
        (v.verified = false → Idles (.fwuActivate n) s) ∧
        (v.verified = true → (∀ j, imageDigest d b j ≠ imageDigest d (runSlot d) j) → (∀ die, moonState d die < 3) →
          Ends (.fwuActivate n) s (fun e => SameMem d e ∧ e.sec.todo = handoverOrder.filter (procUp d) ∧
            e.sec.activating = some d.time.elapsed ∧ e.rd R.FWU_CONFIRMED = 0)))) ∧
    ((leftToHand d).head? ≠ some pr → Idles (.imageHandover pr) s) ∧
    (∀ t, leftToHand d = pr :: t → Ends (.imageHandover pr) s (fun e => SameMem d e ∧ e.sec.todo = t ∧
      e.sec.handed = d.sec.handed ++ [pr])) ∧
    (mayConfirm d i = false → Idles (.healthConfirm ⟨i, true⟩) s ∧ Idles (.healthConfirm ⟨i, false⟩) s) ∧
    (mayConfirm d i = true → d.sec.activating = none → Idles (.healthConfirm ⟨i, false⟩) s) ∧
    (mayConfirm d i = true → d.sec.activating.isSome = true → Ends (.healthConfirm ⟨i, false⟩) s fell) ∧
    (mayConfirm d i = true → Ends (.healthConfirm ⟨i, true⟩) s (fun e => SameMem d e ∧ d.sec.blown ≤ e.sec.blown ∧
      ((d.sec.activating = none ∨ leftToHand d ≠ [] ∨
          d.sec.handed.all (fun j => (i :: d.sec.okImages).contains (procImage j)) = false) →
        e.sec = { d.sec with okImages := i :: d.sec.okImages }) ∧
      (d.sec.activating.isSome = true → leftToHand d = [] →
          d.sec.handed.all (fun j => (i :: d.sec.okImages).contains (procImage j)) = true →
        e.sec.activating = none ∧ e.sec.session = none ∧ runSlot e = b ∧ e.sec.blown = max d.sec.blown (min (bundleSvn d b) 128) ∧
        (e.sec.slot b).confirmed = some (1 + max ((d.sec.slot false).confirmed.getD 0) ((d.sec.slot true).confirmed.getD 0))))) ∧
    (d.sec.activating = none → Idles .healthTimeout s) ∧
    (d.sec.activating.isSome = true → Ends .healthTimeout s fell)

/-- Once DEVTIME runs: an irregular edge of the 1PPS input only counts in TIME_EDGE_REJ; a regular one sets the bits of the inputs. An edge of the source in force (the inputs TIME_CFG names, or in step-down mode the foreign master) moves the servo as R343 says, shows its phase error, and outside a handover keeps the correction within 1 ppm; up to 1 ms it leaves DEVTIME alone, above it steps DEVTIME by the error, within its 80 bits, and counts the step; elapsed time never steps (R346); an edge of a foreign master makes tod_valid 1, and one without such a master in use changes nothing. A handover holds DEVTIME and the correction. A 1PPS edge under a source other than none, a late one too, applies an armed set (which value DEVTIME takes at such an edge in place of a step is the model's choice, log entry 84). A loss with the input absent before shows the 10 MHz bit alone; else it moves the servo of a source in force and clears the edge bit; a late edge counts and begins LOCKING. Holdover expires once. A copy reloads the present DEVTIME. TOD_ARM arms the second written, and in a handover leaves the PTP fields and DEVTIME open; an applied set makes DEVTIME exactly the armed second (one past 64 bits of nanoseconds an open value, log entry 155) and sets tod_valid, elapsed time unchanged. Before DEVTIME runs nothing changes; memory is never changed by an edge within 1 ms or a loss. (14_time_reference.md) -/
def Obligations.TimeFollowsItsReference : Prop :=
  ∀ (s : State) (phase : Int) (ref10 : Bool) (copy : Fin 17),
    let d := s.dev
    let t := d.time
    let drops := refSrc d != 0 && !slaved d
    let inUse := fun (src : RefSource) => match src with
      | .pps good => good && !slaved d && (refSrc d == 2 || (refSrc d == 1 && ref10))
      | .master => slaved d
    let moved := servoEdge t (if refSrc d = 2 ∧ slaved d = false then 300 else 60) (decide (phase.natAbs ≤ 50))
    let applied := fun (sec : Nat) (e : Dev) => e.time.elapsed = t.elapsed ∧ e.time.armed = none ∧ e.fld R.TIME_STAT 6 6 = 1 ∧
      e.time.now < 2 ^ 96 ∧ (sec * 1000000000 < 2 ^ 64 → e.time.now = sec * oneSecond)
    (t.started = false → (∀ src, Idles (.refEdge src phase ref10) s) ∧ (∀ l, Idles (.refLoss ⟨l, ref10⟩) s) ∧ Idles .todArm s ∧
      Idles (.devtimeReload copy) s) ∧
    (t.started = true → Ends (.refEdge (.pps false) phase ref10) s (fun e => SameMem d e ∧ e.time = t ∧
      e.rd R.TIME_EDGE_REJ = min (d.rd R.TIME_EDGE_REJ + 1) 0xFFFFFFFF)) ∧
    (slaved d = false → Idles (.refEdge .master phase ref10) s) ∧
    (t.started = true → inUse (.pps true) = false → t.armed = none ∨ refSrc d = 0 → Ends (.refEdge (.pps true) phase ref10) s (fun e =>
      SameMem d e ∧ e.time = t ∧ RegsBut d e (· = R.TIME_STAT) ∧ e.fld R.TIME_STAT 4 4 = b2n ref10 ∧ e.fld R.TIME_STAT 5 5 = 1)) ∧
    (∀ sec, t.started = true → t.armed = some sec → refSrc d ≠ 0 → Ends (.refEdge (.pps true) phase ref10) s (applied sec)) ∧
    (∀ src, t.started = true → inUse src = true → (src = .pps true → t.armed = none) →
      (inHandover d = true → Ends (.refEdge src phase ref10) s (fun e => SameMem d e ∧ e.time = moved ∧
        e.rd R.TIME_PHASE_ERR = (phase % 2 ^ 32).toNat)) ∧
      (inHandover d = false → Ends (.refEdge src phase ref10) s (fun e => (slaved d = true → e.fld R.TIME_STAT 6 6 = 1) ∧
        e.time.servo = moved.servo ∧ e.time.edges = moved.edges ∧ e.time.elapsed = t.elapsed ∧
        e.rd R.TIME_PHASE_ERR = (phase % 2 ^ 32).toNat ∧ -17179 ≤ e.time.corr ∧ e.time.corr ≤ 17179 ∧
        (phase.natAbs ≤ 1000000 → e.time.now = t.now ∧ SameMem d e) ∧
        (1000000 < phase.natAbs → e.time.now = (((t.now : Int) - phase * 2 ^ 32) % 2 ^ 96).toNat ∧
          e.rd R.TIME_STEP_CNT = min (d.rd R.TIME_STEP_CNT + 1) 0xFFFFFFFF)))) ∧
    (t.started = true → d.fld R.TIME_STAT 5 5 = 0 → ∀ l,
      exec (.refLoss ⟨l, ref10⟩) s = .next { s with dev := d.setFld R.TIME_STAT 4 4 (b2n ref10) }) ∧
    (t.started = true → d.fld R.TIME_STAT 5 5 = 1 → Ends (.refLoss ⟨false, ref10⟩) s (fun e => SameMem d e ∧
      e.time = (if drops then servoLoss t else t) ∧ e.fld R.TIME_STAT 5 5 = 0 ∧ e.fld R.TIME_STAT 4 4 = b2n ref10) ∧
      (t.armed = none ∨ refSrc d = 0 → Ends (.refLoss ⟨true, ref10⟩) s (fun e => SameMem d e ∧
        e.time = (if drops then servoEdge (servoLoss t) 60 true else t) ∧ e.fld R.TIME_STAT 5 5 = 1 ∧
        e.rd R.TIME_LATE_CNT = min (d.rd R.TIME_LATE_CNT + 1) 0xFFFFFFFF)) ∧
      (∀ sec, t.armed = some sec → refSrc d ≠ 0 → Ends (.refLoss ⟨true, ref10⟩) s (fun e => applied sec e ∧
        e.rd R.TIME_LATE_CNT = min (d.rd R.TIME_LATE_CNT + 1) 0xFFFFFFFF))) ∧
    (t.servo = .holdover → exec .holdoverExpiry s = .next { s with dev := { d with time := { t with servo := .holdoverExp } } }) ∧
    (t.servo = .locking → t.before = .holdover →
      exec .holdoverExpiry s = .next { s with dev := { d with time := { t with before := .holdoverExp } } }) ∧
    (t.servo ≠ .holdover → t.servo ≠ .locking ∨ t.before ≠ .holdover → Idles .holdoverExpiry s) ∧
    (t.started = true → exec (.devtimeReload copy) s =
      .next { s with dev := { d with time := { t with copies := put t.copies copy.val t.now } } }) ∧
    (t.started = true → inHandover d = false → exec .todArm s =
      .next { s with dev := { d with time := { t with armed := some (d.rd64 R.TIME_TOD_SEC_LO) } } }) ∧
    (t.started = true → inHandover d = true → Ends .todArm s (fun e => SameMem d e ∧ e.regs = d.regs ∧
      e.time.armed = some (d.rd64 R.TIME_TOD_SEC_LO) ∧ e.time.loose = true ∧ e.time.elapsed = t.elapsed ∧
      e.time.now < 2 ^ 96 ∧ e.time.lastPps = e.time.now / oneSecond)) ∧
    (t.armed = none → Idles .todApply s) ∧
    (∀ sec, t.armed = some sec → Ends .todApply s (applied sec))

/-- A 1PPS edge comes once DEVTIME stands in another second than at the last, with the UTC register taking effect; a frame pulse once it stands past another frame boundary of the code in force; each pulse ends once. SYNC_TX, ANNOUNCE_TX, METADATA_TLV_TX and DELAY_REQ_RX send their message last on a master port that may transmit (up to 8,192 answers a second, then TIME_DREQ_DROP counts), else do nothing. A foreign announce of the domain on a port that is up and has an address counts and sets its bit; an announce timeout drops the port's foreign masters. A handover begins only when the TP's image is the next to hand over, and ends once it has handed over, with no announce held. Elsewhere the device is unchanged. (14_time_reference.md) -/
def Obligations.PulsesAndPtpMessages : Prop :=
  ∀ (s : State) (p : Fin 2) (a : Announce) (late uni frame : Bool) (seq : Nat),
    let d := s.dev
    let t := d.time
    let sec := t.now / oneSecond
    let master := ptpOn d p.val && ptpState d p.val == 0
    let head := fun (kind : Nat) (body : List Nat) (e : Dev) => SameMem d e ∧
      e.out.head? = some (.ptp p.val kind (d.rd (R.NET_VLAN p.val)) (d.rd (R.NET_IP p.val)) (d.fld (R.NET_PTP_DSCP p.val) 5 0) body)
    let heard := t.started && netUp d p.val && d.rd (R.NET_IP p.val) != 0 && bit (d.fld R.TIME_PTP_CFG 1 0) p.val &&
      a.domain == d.fld R.TIME_PTP_CFG 31 24 && a.sender != Config.clockIdentity
    (t.started = false ∨ sec = t.lastPps → Idles .ppsOut s) ∧
    (t.started = true → sec ≠ t.lastPps → Ends .ppsOut s (fun e => SameMem d e ∧ e.regs = d.regs ∧ e.time.ppsHigh = true ∧
      e.time.lastPps = sec ∧ e.time.now = t.now ∧ e.time.utc = d.rd R.TIME_UTC ∧ e.out = .pin "1PPS_OUT" true :: d.out)) ∧
    (frameIndex t.fp t.now = none ∨ t.started = false → Idles .framePulse s) ∧
    (∀ i, frameIndex t.fp t.now = some i → t.started = true → i ≠ t.lastFp → exec .framePulse s = .next { s with dev :=
      { d with time := { t with lastFp := i, fpHigh := true }, out := .pin "FRAME_PULSE" true :: d.out } }) ∧
    (∀ i, frameIndex t.fp t.now = some i → i = t.lastFp → Idles .framePulse s) ∧
    ((if frame then t.fpHigh else t.ppsHigh) = false → Idles (.pulseEnd frame) s) ∧
    ((if frame then t.fpHigh else t.ppsHigh) = true → Ends (.pulseEnd frame) s (fun e => e.mem = d.mem ∧ e.regs = d.regs ∧
      (if frame then e.time.fpHigh else e.time.ppsHigh) = false ∧ e.time.now = t.now)) ∧
    (master = false → Idles (.syncTx p) s ∧ Idles (.announceTx p) s ∧ Idles (.metadataTlvTx p) s ∧ Idles (.delayReqRx p uni seq) s) ∧
    (master = true → t.loose = false →
      Ends (.syncTx p) s (if d.fld R.TIME_CFG 4 4 = 1 then head 0 [d.fld R.TIME_PTP_CFG 31 24, devNs d]
        else head 1 [d.fld R.TIME_PTP_CFG 31 24, devNs d]) ∧
      Ends (.metadataTlvTx p) s (head 4 [bits t.fp 3 0, bits t.utc 15 0, bits t.utc 18 16]) ∧
      (slaved d = false → Ends (.announceTx p) s (head 2 [(ownData d).domain, (ownData d).identity, (ownData d).priority1,
        (ownData d).clockClass, (ownData d).accuracy, (ownData d).variance, (ownData d).priority2, (ownData d).steps,
        (ownData d).timeSource, bits t.utc 15 0, bits t.utc 18 16])) ∧
      (look 0 t.dreqUsed p.val < 8192 →
        Ends (.delayReqRx p uni seq) s (head 3 [d.fld R.TIME_PTP_CFG 31 24, seq, b2n uni, devNs d])) ∧
      (8192 ≤ look 0 t.dreqUsed p.val → Ends (.delayReqRx p uni seq) s (fun e => SameMem d e ∧ e.time = t ∧
        e.rd (R.TIME_DREQ_DROP p.val) = min (d.rd (R.TIME_DREQ_DROP p.val) + 1) 0xFFFFFFFF))) ∧
    (heard = false → Idles (.ptpAnnounceRx p a) s) ∧
    (heard = true → Ends (.ptpAnnounceRx p a) s (fun e => SameMem d e ∧ e.time.now = t.now ∧ e.fld R.TIME_STAT 9 9 = 1 ∧
      e.rd (R.TIME_STRANGER_CNT p.val) = min (d.rd (R.TIME_STRANGER_CNT p.val) + 1) 0xFFFFFFFF)) ∧
    (inHandover d = true ∨ t.foreign.any (fun f => f.port == p.val) = false → Idles (.announceTimeout p late) s) ∧
    (inHandover d = false → t.foreign.any (fun f => f.port == p.val) = true → Ends (.announceTimeout p late) s (fun e =>
      SameMem d e ∧ e.time.now = t.now ∧ e.time.foreign = t.foreign.filter (fun f => f.port != p.val) ∧
      e.rd R.TIME_ANN_TO_CNT = min (d.rd R.TIME_ANN_TO_CNT + 1) 0xFFFFFFFF)) ∧
    (t.started = false ∨ tpNext d = false → Idles (.tpHandover false) s) ∧
    (t.started = true → tpNext d = true →
      exec (.tpHandover false) s = .next { s with dev := d.setFld R.TIME_STAT 8 8 1 }) ∧
    (inHandover d = false ∨ tpNext d = true → Idles (.tpHandover true) s) ∧
    (inHandover d = true → tpNext d = false → Ends (.tpHandover true) s (fun e => SameMem d e ∧ e.time.now = t.now ∧ e.time.held = [] ∧
      inHandover e = false))

/-- On a die of a partition whose codec page its host reaches: VC_DEC_ATTACH of a stream that is off answers status 4 for a ring of another format or pitch, 5 for a size out of range (which of the two stands for a pitch is the model's inference, log entry 86), else 2; VC_DEC_DETACH answers 0. VC_ENC_ATTACH answers 4, 5, 3 when too few codec cores are free for a live stream, else it reserves as many free cores as the stream needs (which ones is open) and follows its paths. VC_ENC_DETACH stops the stream (status 7) while it can code a picture, else releases what waits and ends it. On a die in Crescent or New the four are dropped with an event (R430); where the host does not reach the page they change nothing. MCAST_LISTEN_END lets a path transmit, or holds it when a foreign source was heard. A frame of a joined group from another source counts a collision on each die it hits and leaves the counter and status of every other as they were; to a listened group on another UDP port it is accepted without effect, a Pause frame ignored; with full buffers only PTP event messages are kept, every other frame counts in NET_RX_OVF; answered frames are answered from the port's addresses and the answers counted as sent, and discarded ones counted. NET_LINK_CHANGE sets the link bit; a link comes up only with the 50 V stages. Memory is never changed; elsewhere the device is unchanged. (15_video_and_media_network.md) -/
def Obligations.StreamsAttachListenAndEnd : Prop :=
  ∀ (die : Fin 16) (pathB : Bool) (p : Fin 2) (f : NetFrame) (s : State),
    let d := s.dev
    let ri := inRing d die.val
    let ro := outRing d die.val
    let need := if encLive d die.val then encSlices d die.val else 0
    let badIn := !ri.yuv || ri.pitch % 64 != 0 || decide (ri.pitch < 2 * ri.w)
    let badOut := (!ro.yuv && encOut d die.val != 2) || ro.pitch % 64 != 0 || decide (ro.pitch < (if ro.yuv then 2 else 4) * ro.w)
    let path := pathOf d die.val (b2n pathB)
    let ip := d.rd (R.NET_IP p.val)
    let heard := fun (grp : Nat) => (joined d p.val).filter (fun q => pathGroup d q p.val == grp)
    let reply := fun (g : NetFrame) => Host.Outcome.next (φ := Fault) (ρ := Refusal)
      { s with dev := (d.inc (R.NET_TX_PKT p.val) 1).emit (.netReply p.val (d.rd (R.NET_VLAN p.val)) ip (Config.mac p.val) g) }
    (ownerOf d die.val = none → Idles (.vcDecAttach die) s ∧ Idles (.vcDecDetach die) s ∧ Idles (.vcEncAttach die) s ∧ Idles (.vcEncDetach die) s) ∧
    (∀ n : Fin 4, ownerOf d die.val = some n.val → canWrite d (.host n) (.vcD die.val) = false ∨ darkPage d (.vcD die.val) = true →
      Idles (.vcDecAttach die) s ∧ Idles (.vcDecDetach die) s ∧ Idles (.vcEncAttach die) s ∧ Idles (.vcEncDetach die) s) ∧
    (∀ n : Fin 4, ownerOf d die.val = some n.val → canWrite d (.host n) (.vcD die.val) = true → darkPage d (.vcD die.val) = false →
        copiedPage d (.vcD die.val) = true →
      let dropped := fun (r : Reg) => Host.Outcome.next (φ := Fault) (ρ := Refusal) { s with dev := postReg d sevEvent r 0 }
      exec (.vcDecAttach die) s = dropped (R.VC_DEC_CTRL die.val) ∧ exec (.vcDecDetach die) s = dropped (R.VC_DEC_CTRL die.val) ∧
        exec (.vcEncAttach die) s = dropped (R.VC_ENC_CTRL die.val) ∧ exec (.vcEncDetach die) s = dropped (R.VC_ENC_CTRL die.val)) ∧
    (∀ n : Fin 4, ownerOf d die.val = some n.val → canWrite d (.host n) (.vcD die.val) = true → darkPage d (.vcD die.val) = false →
        copiedPage d (.vcD die.val) = false →
      (streamOn (decStatus d die.val) = true → Idles (.vcDecAttach die) s) ∧
      (streamOn (decStatus d die.val) = false →
        (badIn = true → exec (.vcDecAttach die) s = .next { s with dev := setDec d die.val 4 }) ∧
        (badIn = false → sizeOk ri.w ri.h = false → exec (.vcDecAttach die) s = .next { s with dev := setDec d die.val 5 }) ∧
        (badIn = false → sizeOk ri.w ri.h = true → Ends (.vcDecAttach die) s (fun e => SameMem d e ∧ decStatus e die.val = 2 ∧
          RegsBut d e (· = R.VC_DEC_STAT die.val) ∧ (awake d n.val = true → e.ports = d.ports)))) ∧
      Ends (.vcDecDetach die) s (fun e => SameMem d e ∧ decStatus e die.val = 0 ∧ (e.vc die.val).decCores = []) ∧
      (streamOn (encStatus d die.val) = true → Idles (.vcEncAttach die) s) ∧
      (streamOn (encStatus d die.val) = false →
        (badOut = true → exec (.vcEncAttach die) s = .next { s with dev := setEnc d die.val 4 }) ∧
        (badOut = false → encConfigOk d die.val ro = false → exec (.vcEncAttach die) s = .next { s with dev := setEnc d die.val 5 }) ∧
        (badOut = false → encConfigOk d die.val ro = true → (freeCores d).length < need →
          exec (.vcEncAttach die) s = .next { s with dev := setEnc d die.val 3 }) ∧
        (badOut = false → encConfigOk d die.val ro = true → need ≤ (freeCores d).length →
          Ends (.vcEncAttach die) s (fun e => SameMem d e ∧ (e.vc die.val).reserved.length = need ∧ (e.vc die.val).reserved.Nodup ∧
            (∀ c ∈ (e.vc die.val).reserved, c ∈ freeCores d) ∧ encStatus e die.val = pathStatus e die.val ∧
            (encOut d die.val = 0 → encStatus e die.val = 2)))) ∧
      (streamOn (encStatus d die.val) = false → Idles (.vcEncDetach die) s) ∧
      (streamOn (encStatus d die.val) = true → nextToCode d die.val = none → Ends (.vcEncDetach die) s (fun e => SameMem d e ∧
        encStatus e die.val = 0 ∧ (e.vc die.val).reserved = [] ∧ (e.vc die.val).paths = [] ∧ (e.vc die.val).encQueue = [])) ∧
      (streamOn (encStatus d die.val) = true → (nextToCode d die.val).isSome = true →
        exec (.vcEncDetach die) s = .next { s with dev := setEnc d die.val 7 })) ∧
    ((streamOn (encStatus d die.val) && (path.1 == 1 || path.1 == 3)) = false → Idles (.mcastListenEnd die pathB) s) ∧
    ((streamOn (encStatus d die.val) && (path.1 == 1 || path.1 == 3)) = true → Ends (.mcastListenEnd die pathB) s (fun e => SameMem d e ∧
      pathOf e die.val (b2n pathB) = (if path.2 then (3, false) else (2, false)) ∧ RegsBut d e (· = R.VC_ENC_STAT die.val))) ∧
    (netUp d p.val = false → ∀ full, Idles (.netFrameRx p f full) s) ∧
    (∀ full, Idles (.netFrameRx p (.ptpMessage true) full) s ∧ Idles (.netFrameRx p .pause full) s) ∧
    Idles (.netFrameRx p (.ptpMessage false) false) s ∧
    (netUp d p.val = true → (f ≠ .ptpMessage true → f ≠ .pause → Ends (.netFrameRx p f true) s (fun e => SameMem d e ∧ e.codec = d.codec ∧
        e.rd (R.NET_RX_OVF p.val) = min (d.rd (R.NET_RX_OVF p.val) + 1) 0xFFFFFFFF)) ∧
      (ip ≠ 0 → ∀ a b body v3, exec (.netFrameRx p (.arp ip a b) false) s = reply (.arp ip a b) ∧
        exec (.netFrameRx p (.icmpEcho a ip body) false) s = reply (.icmpEcho a ip body) ∧
        (joined d p.val ≠ [] → exec (.netFrameRx p (.igmpQuery v3) false) s = reply (.igmpQuery v3)) ∧
        (joined d p.val = [] → Idles (.netFrameRx p (.igmpQuery v3) false) s)) ∧
      (∀ g, (g = .other ∨ (∃ t a b, g = .arp t a b ∧ (ip = 0 ∨ t ≠ ip)) ∨ (∃ a t body, g = .icmpEcho a t body ∧ (ip = 0 ∨ t ≠ ip)) ∨
          (∃ v3, g = .igmpQuery v3 ∧ ip = 0) ∨ (∃ grp udp src, g = .group grp udp src ∧ heard grp = [])) →
        Ends (.netFrameRx p g false) s (fun e => SameMem d e ∧ e.codec = d.codec ∧
          e.rd (R.NET_RX_DISC p.val) = min (d.rd (R.NET_RX_DISC p.val) + 1) 0xFFFFFFFF)) ∧
      (∀ grp udp src, heard grp ≠ [] → src = ip ∨ (∀ q ∈ heard grp, d.fld (R.VC_ENC_UDP q) 31 16 ≠ udp) → Idles (.netFrameRx p (.group grp udp src) false) s) ∧
      (∀ grp udp src, heard grp ≠ [] → src ≠ ip → Ends (.netFrameRx p (.group grp udp src) false) s (fun e => SameMem d e ∧
        e.rd (R.NET_RX_DISC p.val) = d.rd (R.NET_RX_DISC p.val) ∧
        (∀ q ∈ heard grp, d.fld (R.VC_ENC_UDP q) 31 16 = udp → e.fld (R.VC_ENC_STAT q) (12 + p.val) (12 + p.val) = 1 ∧
          e.rd (R.VC_MCAST_COLL_CNT q) = min (d.rd (R.VC_MCAST_COLL_CNT q) + 1) 0xFFFFFFFF) ∧
        ∀ q < 16, ¬ (q ∈ heard grp ∧ d.fld (R.VC_ENC_UDP q) 31 16 = udp) → e.rd (R.VC_ENC_STAT q) = d.rd (R.VC_ENC_STAT q) ∧
          e.rd (R.VC_MCAST_COLL_CNT q) = d.rd (R.VC_MCAST_COLL_CNT q)))) ∧
    exec (.netLinkChange p false) s = .next { s with dev := d.setFld (R.NET_STAT p.val) 0 0 0 } ∧
    (d.boot.row = 0 ∨ netUp d p.val = true → Idles (.netLinkChange p true) s) ∧
    (d.boot.row ≠ 0 → netUp d p.val = false → Ends (.netLinkChange p true) s (fun e => SameMem d e ∧ netUp e p.val = true))

/-- DECODE_PICTURE of a decode stream with codec cores, the bytes waiting, its next slot free, and edge slots for both: the read pointer moves past the bytes used; a picture the decoder supports, of the ring's size and unpoisoned bytes is stored in the slot, handed to the PXE, and VC_DEC_PIC counts; one before the first picture to start at is passed over; otherwise (an unsupported picture too, the model's choice: log entry 104) VC_DEC_ERR counts, memory is unchanged and the decoder looks for a picture to start at. ENCODE_PICTURE of the slot to code next, with cores: poisoned rows drop the picture (VC_ENC_BS_DROP) and release the slot; else the picture counts in VC_ENC_PIC and the slot is released, its access unit in the bitstream ring when there is one with room, memory otherwise unchanged; a full ring, or one without edge slots, makes a stream wait, but a live one drops the access unit of a full ring; with RTP output every payload leaves on every path that transmits. A slot of a stream that is off is only released. ST2110_PICTURE releases the oldest slot and counts the picture or, of poisoned rows, the drop; every payload of a whole picture leaves on every path that transmits. With the picture a stopping stream ends. RTCP_SENDER_REPORT changes only the packet counters of the ports. Elsewhere the device is unchanged. (15_video_and_media_network.md, 07_convolution_and_pixels.md) -/
def Obligations.PicturesPassThroughTheRings : Prop :=
  ∀ (die : Fin 16) (o : DecOutcome) (lat : Nat) (s : State),
    let d := s.dev
    let c := shareCores d
    let r := inRing d die.val
    let v := c.vc die.val
    let slot := v.decNext % r.count
    let used := outcomeUsed o
    let rp := d.rd (R.VC_DEC_BS_RP die.val)
    let size := bsSize d die.val
    let taken := bsSpans die.val (decPieces d die.val used)
    let dirty := spansPoisoned d taken
    let counts := fun (g : Reg) (e : Dev) => e.rd g = min (d.rd g + 1) 0xFFFFFFFF
    let ready := decide (decStatus d die.val = 2) && !v.decCores.isEmpty && decide (used ≠ 0) && decide (used ≤ bsWaiting d die.val) &&
      decide (inSlot d die.val slot = .free) && edgeServed c (slotSpan r die.val slot :: taken) && decide (moonState d die.val < 3)
    let refused := fun (pic : DecPicture) => !decodes c die.val pic || ((!v.decWait || pic.random) && (pic.w != r.w || pic.h != r.h))
    (ready = false → Idles (.decodePicture die o) s) ∧
    (ready = true → (dirty = true ∨ ∀ pic, o = .picture pic → refused pic = true) → Ends (.decodePicture die o) s (fun e => SameMem d e ∧
      e.rd (R.VC_DEC_BS_RP die.val) = (rp + used) % max size 1 ∧ (e.vc die.val).decWait = true ∧
      (e.vc die.val).inSlots = v.inSlots ∧ counts (R.VC_DEC_ERR die.val) e)) ∧
    (∀ pic, ready = true → dirty = false → o = .picture pic → decodes c die.val pic = true → v.decWait = true → pic.random = false →
      Ends (.decodePicture die o) s (fun e => SameMem d e ∧ e.rd (R.VC_DEC_BS_RP die.val) = (rp + used) % max size 1 ∧
        (∀ g, (∀ q i, g.page ≠ .hbmc q i) → g ≠ R.VC_DEC_BS_RP die.val → e.rd g = d.rd g) ∧ (e.vc die.val).decWait = true)) ∧
    (∀ pic, ready = true → dirty = false → o = .picture pic → decodes c die.val pic = true → v.decWait = false ∨ pic.random = true →
        pic.w = r.w → pic.h = r.h → v.decLoose = false → v.decTaint = 0 →
      Ends (.decodePicture die o) s (fun e =>
        e.mem = (pictureWrites r die.val slot (pictureSamples pic)).foldl (fun m x => m.write x.space x.addr x.data) d.mem ∧
        e.rd (R.VC_DEC_BS_RP die.val) = (rp + used) % max size 1 ∧
        inSlot e die.val slot = .withPxe ∧ (e.vc die.val).decWait = false ∧ (e.vc die.val).decNext = (slot + 1) % r.count ∧
        counts (R.VC_DEC_PIC die.val) e)) ∧
    (v.encQueue = [] → Idles (.encodePicture die lat) s ∧ Idles (.st2110Picture die) s) ∧
    (streamOn (encStatus d die.val) = true → nextToCode d die.val = none → Idles (.encodePicture die lat) s) ∧
    (∀ q, streamOn (encStatus d die.val) = false → v.encQueue.head? = some q →
      exec (.encodePicture die lat) s = .next { s with dev := releaseSlot c die.val q.slot } ∧ Idles (.st2110Picture die) s) ∧
    (∀ q, streamOn (encStatus d die.val) = true → nextToCode d die.val = some q →
      let ro := outRing d die.val
      let sp := slotSpan ro die.val q.slot
      let rows := frameGroups ro die.val q.slot
      let bad := spansPoisoned d rows.flatten
      let stops := encStatus d die.val = 7
      let freed := fun (e : Dev) => if stops then encStatus e die.val = 0 ∧ (e.vc die.val).encQueue = [] else
        (e.vc die.val).encQueue = v.encQueue.filter (fun x => x.slot != q.slot) ∧ look .free (e.vc die.val).outSlots q.slot = .free
      let goes := fun (i : Nat) => i ∈ pathsOn d die.val ∧ netUp d i = true ∧ (pathOf d die.val i).1 = 2
      let ssrc := d.rd (R.VC_ENC_SSRC die.val)
      let ts := rtpStamp (encRate d die.val) q.at'
      let coded := encOut d die.val != 2 && spanServed c 0x3FFE false sp && decide (moonState d die.val < 3) &&
        (encLive d die.val || !v.encCores.isEmpty)
      let job := encJob c die.val q
      let au := accessUnit job
      let ring := d.rd64 (R.VC_ENC_BS_BASE_LO die.val)
      let room := decide (au.length ≤ encRoom d die.val)
      let counted := fun (e : Dev) => freed e ∧ counts (R.VC_ENC_PIC die.val) e ∧ (stops ∨ (e.vc die.val).pics = v.pics + 1)
      (coded = false → Idles (.encodePicture die lat) s) ∧
      (coded = true → bad = true → Ends (.encodePicture die lat) s (fun e => SameMem d e ∧ freed e ∧ counts (R.VC_ENC_BS_DROP die.val) e)) ∧
      (coded = true → bad = false → ringReady c die.val au.length = false → Idles (.encodePicture die lat) s) ∧
      (coded = true → bad = false → ringReady c die.val au.length = true → Ends (.encodePicture die lat) s (fun e => counted e ∧
        (ring = 0 → SameMem d e) ∧
        (ring ≠ 0 → room = false → SameMem d e ∧ counts (R.VC_ENC_BS_DROP die.val) e) ∧
        (ring ≠ 0 → room = true → v.encLoose = false → e.mem = (ringAppend c die.val au).mem ∧
          e.rd (R.VC_ENC_BS_WP die.val) = (d.rd (R.VC_ENC_BS_WP die.val) + au.length) % max (d.rd (R.VC_ENC_BS_SIZE die.val)) 1) ∧
        (encOut d die.val = 1 → v.encLoose = false → ∀ i, goes i → ∀ b ∈ (codedUnits job).flatMap nalPayloads,
          ∃ sq m, Out.rtp die.val i (netHead d die.val i) ssrc sq ts m b ∈ e.out))) ∧
      (encOut d die.val ≠ 2 ∨ spanServed d 0x3FFE false sp = false ∨ 3 ≤ moonState d die.val → Idles (.st2110Picture die) s) ∧
      (encOut d die.val = 2 → spanServed d 0x3FFE false sp = true → moonState d die.val < 3 → Ends (.st2110Picture die) s (fun e =>
        SameMem d e ∧ freed e ∧ (stops ∨ (e.vc die.val).pics = v.pics + 1) ∧
        (bad = true → counts (R.VC_ENC_BS_DROP die.val) e) ∧
        (bad = false → counts (R.VC_ENC_PIC die.val) e ∧
          (v.encLoose = false → ∀ i, goes i → ∀ b ∈ packets2110 ro (groupBytes d rows),
            ∃ sq m, Out.st2110 die.val i (netHead d die.val i) ssrc sq ts m b ∈ e.out))))) ∧
    (encOut d die.val ≠ 1 ∨ streamOn (encStatus d die.val) = false → Idles (.rtcpSenderReport die) s) ∧
    (encOut d die.val = 1 → streamOn (encStatus d die.val) = true → Ends (.rtcpSenderReport die) s (fun e => SameMem d e ∧ e.codec = d.codec ∧
      RegsBut d e (fun g => ∃ i, g = R.NET_TX_PKT i ∨ g = R.NET_TX_DROP i ∨ g = R.IRQ_STAT .netG)))

/-- Every RTP packet that ENCODE_PICTURE sends, and every ST 2110-20 packet that ST2110_PICTURE sends, for a picture handed over at DEVTIME t with the stream's rate r/q frames a second carries the timestamp floor(T x 90000) mod 2^32, where T = k q / r is the last frame boundary at or before t. (The stream's configuration was written in its time, R380; both commands run.) (R375) -/
def Obligations.RtpTimestampsAreFrameBoundaries : Prop :=
  ∀ (die : Fin 16) (lat : Nat) (s : State) (r c : Nat) (q : OutPic),
    let d := s.dev
    nextToCode d die.val = some q → (d.vc die.val).encLoose = false →
    frameRate (encRate d die.val) = some (r, c) →
    ∃ k, k * c * oneSecond ≤ q.at' * r ∧ q.at' * r < (k + 1) * c * oneSecond ∧
      Ends (.encodePicture die lat) s (fun e => ∀ x ∈ e.out, x ∈ d.out ∨
        ∀ a i h ssrc sq ts m b, x = .rtp a i h ssrc sq ts m b → ts = k * c * 90000 / r % 2 ^ 32) ∧
      Ends (.st2110Picture die) s (fun e => ∀ x ∈ e.out, x ∈ d.out ∨
        ∀ a i h ssrc sq ts m b, x = .st2110 a i h ssrc sq ts m b → ts = k * c * 90000 / r % 2 ^ 32)

/-- On a die that is up, in Full to Half: a scrub that finds nothing leaves memory alone, a corrected error counts in RAS_*_CE, an uncorrectable one counts in RAS_*_UE and poisons exactly its word or sector; a finished pass counts. Elsewhere the device is unchanged. TLM_BURST_END, of a path in a burst whose queue has fallen below a quarter, empties its keys; TLM_ALARM_RELEASE moves the oldest held alarm to the alarm queue, or into the host ring, when it has room; TLM_TIME_MARK, on a path that runs when its DEVTIME [31:0] has wrapped since it last marked, puts a TIME_MARK record with DEVTIME [47:32] in the alarm queue. Of a path in any other case nothing changes. (16_reliability_and_telemetry.md) -/
def Obligations.ScrubbersAndTelemetryPaths : Prop :=
  ∀ (k : CoreIx) (pass : Bool) (p : TlmPath) (a : Nat) (s : State),
    let d := s.dev
    let die := k.die.val
    let c := k.core.val
    let q := d.path p
    let up := scrubs d die
    let passed := fun (r : Reg) (e : Dev) => e.rd r = (if pass then min (d.rd r + 1) 0xFFFFFFFF else d.rd r)
    let counted := fun (r : Reg) (e : Dev) => e.rd r = min (d.rd r + 1) 0xFFFFFFFF
    let mark := mkRecord (pathNs d p) sevAlarm 0xFF 0 0x0001 (bits (pathNs d p) 47 32)
    (up = false → ∀ f, Idles (.scrubSram k pass f) s ∧ Idles (.scrubHbm k.die pass f) s) ∧
    (up = true →
      Ends (.scrubSram k pass .good) s (fun e => SameMem d e ∧ e.tlm = d.tlm ∧ passed (R.RAS_SCRUB_SRAM die) e) ∧
      Ends (.scrubHbm k.die pass .good) s (fun e => SameMem d e ∧ e.tlm = d.tlm ∧ passed (R.RAS_SCRUB_HBM die) e) ∧
      Ends (.scrubSram k pass .corrected) s (fun e => SameMem d e ∧ counted (R.RAS_SRAM_CE die) e ∧ passed (R.RAS_SCRUB_SRAM die) e) ∧
      Ends (.scrubHbm k.die pass .corrected) s (fun e => SameMem d e ∧ counted (R.RAS_HBM_CE die) e ∧ passed (R.RAS_SCRUB_HBM die) e) ∧
      Ends (.scrubSram k pass (.uncorrected a)) s (fun e => e.mem = d.mem.poison .tm (tmBase die c + a % tmSize) ∧
        counted (R.RAS_SRAM_UE die) e ∧ passed (R.RAS_SCRUB_SRAM die) e) ∧
      Ends (.scrubHbm k.die pass (.uncorrected a)) s (fun e => e.mem = d.mem.poison .hbm (hbmBase die + a % hbmSize) ∧
        counted (R.RAS_HBM_UE die) e ∧ passed (R.RAS_SCRUB_HBM die) e)) ∧
    (q.burst = false ∨ generalCap d p ≤ 4 * generalLevel d p → Idles (.tlmBurstEnd p) s) ∧
    (q.burst = true → 4 * generalLevel d p < generalCap d p → Ends (.tlmBurstEnd p) s (fun e =>
      (e.path p).keys = [] ∧ ((∀ n, p ≠ .host n) → SameMem d e) ∧
      (q.keys = [] → (e.path p).burst = false ∧ (e.path p).general = q.general))) ∧
    (q.waiting = [] ∨ alarmRoom d p = false → Idles (.tlmAlarmRelease p) s) ∧
    (∀ r t, q.waiting = r :: t → alarmRoom d p = true →
      ((∀ n, p ≠ .host n) → Ends (.tlmAlarmRelease p) s (fun e => SameMem d e ∧
        e.path p = { q with waiting := t, alarm := q.alarm ++ [r] } ∧ e.out = (if recSev r = sevAlarm then .sideband p :: d.out else d.out) ∧
        (t = [] → e.fld (tlmStat p) 1 1 = 0))) ∧
      (∀ n, p = .host n → q.loose = false → Ends (.tlmAlarmRelease p) s (fun e =>
        e.mem = d.mem.write .host (hostAt n.val (d.rd64 (R.TLM_HR_BASE_LO n.val) + d.rd (R.TLM_HR_TAIL n.val))) (leBytes 8 r) ∧
        (e.path p).waiting = t))) ∧
    (pathRuns d p = false ∨ pathWraps d p = q.marked → Idles (.tlmTimeMark p) s) ∧
    (pathRuns d p = true → pathWraps d p ≠ q.marked → (∀ n, p ≠ .host n) → q.waiting = [] → q.alarm.length < 256 → Ends (.tlmTimeMark p) s (fun e =>
      SameMem d e ∧ e.path p = { q with marked := pathWraps d p, alarm := q.alarm ++ [mark] } ∧ e.regs = d.regs))

/-- REGISTER_WRITE changes nothing when a byte enable is off, the address is unaligned (both the model's inference, log entry 66), names no page or no register of its page, the requester may not write the page, or its die has no power (the model's choice, log entry 67). At the copy of a die in Crescent or New it is discarded and posts an event. Else each RW bit takes the written value, each W1C bit written 1 is cleared, every other bit, every other register and all memory are as before: for the IRQ_STAT of any page, every register of a CORE, JLINK or die TLM page, and every register of another page whose write has no effect of its own and is not forbidden as the device stands (PlainNow: the selects, the configurations of rings, streams, frames, plans, protection, time and media network). KVT_CFG of an idle table with free entries stores 32 for a page size outside 32 to 256, HQ_CQ_VEC at most 62, SEM_DATA of an idle page sets the selected semaphore. MGMT_REG_WRITE before step 1 does nothing, before step 3 has ended and in recovery it is answered with status 2 and changes nothing else, then at a register it acts as a REGISTER_WRITE of the MP, answered with status 0, or 1 when the address is unaligned or names no global page; at a die's HBM it is discarded with status 1, and a protected page counts in SEC_KEY_CNT and faults with 0x0801 (which message that is, is the model's choice: log entry 156). (18_register_pages.md, 19_startup_and_electrical.md, 17_security_and_firmware.md) -/
def Obligations.WritesFollowTheAccessCodes : Prop :=
  ∀ (who : Requester) (addr v : Nat) (be : Fin 16) (die : Fin 16) (page : Nat) (s : State),
    let d := s.dev
    let i := Instr.registerWrite who addr v be
    let slot := d.fld (R.SEM_PLAN_SEL die.val) 2 0
    let sel := d.fld (R.SEM_SEL die.val) 11 0
    let w := v % 2 ^ 32
    (be.val ≠ 15 ∨ addr % 4 ≠ 0 ∨ regAt addr = none → Idles i s) ∧
    (∀ g, regAt addr = some g → canWrite d who g.page = false ∨ darkPage d g.page = true ∨ (rowAt g = none ∧ copiedPage d g.page = false) →
      Idles i s) ∧
    (∀ g, regAt addr = some g → be.val = 15 → addr % 4 = 0 → canWrite d who g.page = true → darkPage d g.page = false →
      (copiedPage d g.page = true → exec i s = .next { s with dev := postReg d sevEvent g 0 }) ∧
      (copiedPage d g.page = false → ∀ row, rowAt g = some row →
        (PlainNow d g → Ends i s (fun e => SameMem d e ∧ RegsBut d e (· = g) ∧
          e.rd g = maskWrite (d.rd g) (rwMask g row) row.w1c w % 2 ^ 32)) ∧
        (∀ n, g = ⟨.hq0 n, 0x74⟩ → Ends i s (fun e => SameMem d e ∧ RegsBut d e (· = g) ∧ e.rd g = min 62 (w % 64))) ∧
        (g = R.KVT_CFG die.val → pageBusy d g.page = false →
            (∀ e ∈ d.kvt, e.1.1 = die.val → e.2.state = kvFree ∧ e.2.pins = 0) →
          Ends i s (fun e => SameMem d e ∧ RegsBut d e (· = g) ∧ e.rd g = (if 32 ≤ w % 512 ∧ w % 512 ≤ 256 then w % 512 else 32))) ∧
        (g = ⟨.sem die.val, 0x44⟩ → pageBusy d g.page = false → Ends i s (fun e => SameMem d e ∧ e.regs = d.regs ∧
          semCount e die.val slot sel = w % 65536 ∧
          ∀ q, q ≠ (die.val, slot, sel) → look 0 e.sem q = look 0 d.sem q)))) ∧
    (bootStep d = 0 → Idles (.mgmtRegWrite (.reg addr) v) s ∧ Idles (.mgmtRegWrite (.memory die page) v) s) ∧
    (bootStep d ≠ 0 → bootStep d < 3 ∨ bootStep d = 15 →
      exec (.mgmtRegWrite (.reg addr) v) s = .next { s with dev := d.emit (.mgmt 2 2 addr v) } ∧
      exec (.mgmtRegWrite (.memory die page) v) s = .next { s with dev := d.emit (.mgmt 2 2 0 v) }) ∧
    (3 ≤ bootStep d → bootStep d ≠ 15 →
      let taken := addr % 4 = 0 ∧ ∃ g, regAt addr = some g ∧ isGlobal g.page = true
      (taken → ∃ e : Dev, exec (.registerWrite .mp addr v 15) s = .next { s with dev := e } ∧
        exec (.mgmtRegWrite (.reg addr) v) s = .next { s with dev := e.emit (.mgmt 2 0 addr v) }) ∧
      (¬ taken → exec (.mgmtRegWrite (.reg addr) v) s = .next { s with dev := d.emit (.mgmt 2 1 addr v) }) ∧
      (pageProtected d die.val page = false →
        exec (.mgmtRegWrite (.memory die page) v) s = .next { s with dev := d.emit (.mgmt 2 1 0 v) }) ∧
      (pageProtected d die.val page = true → Ends (.mgmtRegWrite (.memory die page) v) s (fun e => SameMem d e ∧
        e.out.head? = some (.mgmt 2 1 0 v) ∧ e.rd R.SEC_KEY_CNT = min (d.rd R.SEC_KEY_CNT + 1) 0xFFFFFFFF ∧
        (d.rd (R.FAULT_CODE .secG) = 0 → e.rd (R.FAULT_CODE .secG) = 0x0801))))

/-- For every page address: the MP may read it at the same address; a host's write to a global page changes nothing; the MP's write to a host region or die window changes nothing; a whole word the MP writes to PART_ALLOW takes effect. (Its message format and its reads of HBM-backed data are other rules'.) (R422) -/
def Obligations.OnlyTheMpWritesGlobalPages : Prop :=
  ∀ (addr v : Nat) (s : State) (g : Reg), regAt addr = some g →
    let d := s.dev
    canRead d .mp g.page = true ∧
    (∀ n be, isGlobal g.page = true → Idles (.registerWrite (.host n) addr v be) s) ∧
    (∀ be, isGlobal g.page = false → Idles (.registerWrite .mp addr v be) s) ∧
    (3 ≤ bootStep d → bootStep d ≠ 15 → isGlobal g.page = false →
      exec (.mgmtRegWrite (.reg addr) v) s = .next { s with dev := d.emit (.mgmt 2 1 addr v) }) ∧
    (addr = 0x4048 → Ends (.registerWrite .mp addr v 15) s (fun e => e.rd R.PART_ALLOW = v % 65536 ∧ RegsBut d e (· = R.PART_ALLOW)))

/-- A host's write of PWR_BUDGET or PWR_FLOOR_i changes nothing. The management path's write stores sust_w as at most 7,500 and peak_w as at most 8,500 and at least the stored sust_w; a floor above 16 is stored and read as 16, a lower one as written; every other register and all memory are as before. (R327) -/
def Obligations.PowerBudgetIsStoredWithinLimits : Prop :=
  ∀ (v : Nat) (i : Fin 4) (s : State),
    let d := s.dev
    let sust := min 7500 (bits v 15 0)
    (∀ n be, Idles (.registerWrite (.host n) 0x104C v be) s ∧ Idles (.registerWrite (.host n) (0x1060 + 4 * i.val) v be) s) ∧
    Ends (.registerWrite .mp 0x104C v 15) s (fun e => SameMem d e ∧ RegsBut d e (· = R.PWR_BUDGET) ∧
      e.fld R.PWR_BUDGET 15 0 = sust ∧ e.fld R.PWR_BUDGET 31 16 = max sust (min 8500 (bits v 31 16))) ∧
    Ends (.registerWrite .mp (0x1060 + 4 * i.val) v 15) s (fun e => SameMem d e ∧ RegsBut d e (· = R.PWR_FLOOR i.val) ∧
      e.rd (R.PWR_FLOOR i.val) = min 16 (v % 32)) ∧
    (3 ≤ bootStep d → bootStep d ≠ 15 → Ends (.mgmtRegWrite (.reg 0x104C) v) s (fun e => SameMem d e ∧ RegsBut d e (· = R.PWR_BUDGET) ∧
      e.fld R.PWR_BUDGET 15 0 = sust ∧ e.out = .mgmt 2 0 0x104C v :: d.out))

/-- A read outside the requester's view, and a host's of another partition's energy counter, answers 0 and changes nothing else. An aligned word read of a LO word answers it and puts the HI word, as it then reads, in that requester's latch of the page, no other requester's; a read of a HI word answers that latch, 0 with none since the page was last reset; reading HI of the debug nonce then draws a new nonce, no other HI read changes anything. A read of any other register, but for TIME_FRAC and TCU_TBL_DATA, answers what it shows, of the bytes addressed, and changes nothing. An aligned read of 8 bytes answers a whole pair, both halves of one moment. MGMT_REG_READ of a register answers the same read by the MP with status 0, or status 2 before step 3 has ended; of a protected page of a die's HBM it answers 0, counts in SEC_KEY_CNT and faults with 0x0801, of another page it answers an open value (which message that is, is the model's choice: log entry 156). DBG_NONCE_READ is that read of SEC_DBG_NONCE_HI. (18_register_pages.md, 17_security_and_firmware.md, 19_startup_and_electrical.md) -/
def Obligations.ReadsLatchTheHighWord : Prop :=
  ∀ (who : Requester) (addr : Nat) (die : Fin 16) (page : Nat) (s : State),
    let d := s.dev
    let k := latchOf who
    let i := Instr.loReadLatch who ⟨addr, 4⟩
    let answer := fun (v : Nat) => Host.Outcome.next (φ := Fault) (ρ := Refusal) { s with dev := d.emit (.regValue v) }
    let open' := 3 ≤ bootStep d ∧ bootStep d ≠ 15
    (addr % 4 = 0 → regAt addr = none → exec i s = answer 0) ∧
    (∀ g, addr % 4 = 0 → regAt addr = some g → canRead d who g.page = false ∨ foreignEnergy who g = true → exec i s = answer 0) ∧
    (∀ g, addr % 4 = 0 → regAt addr = some g → canRead d who g.page = true → foreignEnergy who g = false →
      let dark := darkPage d g.page || copiedPage d g.page
      (dark = true → exec i s = answer (regView d g % 2 ^ 32)) ∧
      (dark = false → isLo g = true → Ends i s (fun e => SameMem d e ∧ e.regs = d.regs ∧ e.out = .regValue (regView d g % 2 ^ 32) :: d.out ∧
        look 0 e.latches (g.page, k) = BitVec.ofNat 32 (regView d ⟨g.page, g.off + 4⟩) ∧
        ∀ q, q ≠ (g.page, k) → q ≠ (.timeG, 5 + k) → look 0 e.latches q = look 0 d.latches q)) ∧
      (dark = false → isLo g = false → isHi g = true → g ≠ R.SEC_DBG_NONCE_HI →
        exec i s = answer (look 0 d.latches (g.page, k)).toNat) ∧
      (dark = false → isLo g = true → g ≠ R.SEC_DBG_NONCE_LO → regView d g < 2 ^ 32 → Ends (.loReadLatch who ⟨addr, 8⟩) s (fun e => SameMem d e ∧
        e.regs = d.regs ∧ e.out = .regValue (regView d g + 2 ^ 32 * (regView d ⟨g.page, g.off + 4⟩ % 2 ^ 32)) :: d.out)) ∧
      (dark = false → isLo g = false → isHi g = false → g ≠ R.TIME_FRAC → (∀ die t, g.page ≠ .tcu die t) → ∀ off len, 0 < len →
        off + len ≤ 4 → exec (.loReadLatch who ⟨addr + off, len⟩) s = answer (regView d g % 2 ^ 32 / 256 ^ off % 256 ^ len))) ∧
    (bootStep d = 0 → Idles (.mgmtRegRead (.reg addr)) s ∧ Idles (.mgmtRegRead (.memory die page)) s ∧ Idles .dbgNonceRead s) ∧
    (bootStep d ≠ 0 → ¬ open' → exec (.mgmtRegRead (.reg addr)) s = .next { s with dev := d.emit (.mgmt 1 2 addr 0) } ∧
      exec (.mgmtRegRead (.memory die page)) s = .next { s with dev := d.emit (.mgmt 1 2 0 0) } ∧
      exec .dbgNonceRead s = .next { s with dev := d.emit (.mgmt 1 2 0x7050 0) }) ∧
    (open' → (addr % 4 = 0 → ∃ (v : Nat) (e : Dev), exec (.loReadLatch .mp ⟨addr, 4⟩) s = .next { s with dev := e.emit (.regValue (v % 2 ^ 32)) } ∧
        exec (.mgmtRegRead (.reg addr)) s = .next { s with dev := e.emit (.mgmt 1 0 addr v) }) ∧
      (pageProtected d die.val page = true → Ends (.mgmtRegRead (.memory die page)) s (fun e => SameMem d e ∧
        e.out.head? = some (.mgmt 1 0 0 0) ∧ e.rd R.SEC_KEY_CNT = min (d.rd R.SEC_KEY_CNT + 1) 0xFFFFFFFF ∧
        (d.rd (R.FAULT_CODE .secG) = 0 → e.rd (R.FAULT_CODE .secG) = 0x0801))) ∧
      (pageProtected d die.val page = false → Ends (.mgmtRegRead (.memory die page)) s (fun e => SameMem d e ∧ e.regs = d.regs ∧
        ∃ x, e.out = .mgmt 1 0 0 x :: d.out)) ∧
      exec .dbgNonceRead s =
        .next { s with dev := (freshNonce d).emit (.mgmt 1 0 0x7050 (look 0 d.latches (.secG, 4)).toNat) })

/-- For a requester that may write the page, of a die with power (else the device is unchanged, without power by the model's choice of log entry 67; or an event is posted at the copy of a sleeping die): FAULT_CLR clears the three fault registers; IRQ_EN sets the enable bits and, when a newly enabled bit is already latched on a global page, interrupts the MP; IRQ_SET sets bits of IRQ_STAT; CORE_LFLAG_CLR clears the flags of the layer named, or of every layer; AST_RESET_SP of a die whose page is not busy sets the stack's pointer and marks to 0; TLM_ENABLE sets the enable bit and, when it turns the ring on, empties it and writes one TIME_MARK record at its head. Nothing else changes, but interrupt messages. IRQ_MESSAGE_GAP_END sends one message for edges held in the gap, or ends it. (18_register_pages.md, 04_matrix_engines.md, 08_training.md, 16_reliability_and_telemetry.md) -/
def Obligations.PageCommandsActOnTheirPage : Prop :=
  ∀ (who : Requester) (pg : Page) (v : Nat) (n : Fin 4) (die : Fin 16) (on : Bool) (s : State),
    let d := s.dev
    let shut := fun (w : Requester) (p : Page) => !canWrite d w p || darkPage d p
    let acts := fun (w : Requester) (p : Page) => canWrite d w p && !darkPage d p && !copiedPage d p
    let newly := d.rd (R.IRQ_STAT pg) &&& (v % 16 - (v % 16 &&& d.rd (R.IRQ_EN pg)))
    let st := tlmStat (.host n)
    let h := d.rd (R.TLM_HR_HEAD n.val)
    let sz := ringSize d n.val
    (shut who pg = true → Idles (.faultClr who pg) s ∧ Idles (.irqEn who pg v) s ∧ Idles (.irqSet who pg v) s) ∧
    (shut who pg = false → copiedPage d pg = true →
      exec (.faultClr who pg) s = .next { s with dev := postReg d sevEvent ⟨pg, 0x0C⟩ 0 } ∧
      exec (.irqEn who pg v) s = .next { s with dev := postReg d sevEvent (R.IRQ_EN pg) 0 } ∧
      exec (.irqSet who pg v) s = .next { s with dev := postReg d sevEvent ⟨pg, 0x20⟩ 0 }) ∧
    (acts who pg = true →
      Ends (.faultClr who pg) s (fun e => SameMem d e ∧ e.out = d.out ∧ 
        RegsBut d e (fun r => r.page = pg ∧ 0x24 ≤ r.off ∧ r.off ≤ 0x2C) ∧
        e.rd (R.FAULT_CODE pg) = 0 ∧ e.rd (R.FAULT_INFO0 pg) = 0 ∧ e.rd (R.FAULT_INFO1 pg) = 0) ∧
      Ends (.irqEn who pg v) s (fun e => SameMem d e ∧ RegsBut d e (· = R.IRQ_EN pg) ∧ e.rd (R.IRQ_EN pg) = v % 16 ∧
        (newly = 0 → e.out = d.out) ∧ (newly ≠ 0 → isGlobal pg = true → e.out = .mpIrq pg :: d.out)) ∧
      Ends (.irqSet who pg v) s (fun e => SameMem d e ∧ RegsBut d e (· = R.IRQ_STAT pg) ∧
        e.rd (R.IRQ_STAT pg) = (d.rd (R.IRQ_STAT pg) ||| v % 16))) ∧
    (shut who (.coreDie die.val) = true → Idles (.coreLflagClr who die v) s) ∧
    (acts who (.coreDie die.val) = true → Ends (.coreLflagClr who die v) s (fun e => SameMem d e ∧ e.regs = d.regs ∧
      ∀ q l, look 0 e.lflag (q, l) = if q = die.val ∧ (bit v 8 = true ∨ l = bits v 7 0) then 0 else look 0 d.lflag (q, l))) ∧
    (shut (.host n) (.ast die.val) = true → Idles (.astResetSp n die) s) ∧
    (acts (.host n) (.ast die.val) = true → pageBusy d (.ast die.val) = false →
      let slot := d.fld (R.AST_PLAN_SEL die.val) 2 0
      exec (.astResetSp n die) s =
        .next { s with dev := d.setAst die.val slot { d.astSet die.val slot with sp := 0, spill := 0, res := 0 } }) ∧
    (shut (.host n) (.tlmH n.val) = true → Idles (.tlmEnable n on) s) ∧
    (acts (.host n) (.tlmH n.val) = true →
      (on = false ∨ d.fld st 0 0 = 1 ∨ d.time.started = false ∨ sz < 8192 → Ends (.tlmEnable n on) s (fun e => SameMem d e ∧
        e.fld st 0 0 = b2n on ∧ RegsBut d e (fun r => r = st ∨ (on = true ∧ r = R.TLM_HR_TAIL n.val)))) ∧
      (on = true → d.fld st 0 0 = 0 → d.time.started = true → 8192 ≤ sz → (d.path (.host n)).waiting = [] → Ends (.tlmEnable n on) s (fun e =>
        e.fld st 0 0 = 1 ∧ e.rd (R.TLM_HR_TAIL n.val) = (if sz ≤ h + 8 then 0 else h + 8) ∧
        e.mem = d.mem.write .host (hostAt n.val (d.rd64 (R.TLM_HR_BASE_LO n.val) + h))
          (leBytes 8 (mkRecord (pathNs d (.host n)) sevAlarm 0xFF 0 0x0001 (bits (pathNs d (.host n)) 47 32)))))) ∧
    ((d.port n.val).irqGap = false → Idles (.irqMessageGapEnd n) s) ∧
    ((d.port n.val).irqGap = true → (d.port n.val).irqHeld = true → Ends (.irqMessageGapEnd n) s (fun e =>
      e.out = .msix n.val 63 :: d.out ∧ (e.port n.val).irqHeld = false ∧ (e.port n.val).irqGap = true)) ∧
    ((d.port n.val).irqGap = true → (d.port n.val).irqHeld = false → Ends (.irqMessageGapEnd n) s (fun e =>
      e.out = d.out ∧ (e.port n.val).irqGap = false))

/-- For every core row, on a core that may issue, past no end of its stream and with a sound record (a poisoned one stops it with 0x0502, R389; past the end it stops with 0x0105, R34): when the record at its boundary has an undefined opcode, or (being that row's command, free to issue) names a reserved space in a used descriptor, or its acquire entry is no SEM_ACQ, or a published tail entry is a SEM_ACQ, of a reserved type, a work counter of 64 or above, a HOST_NOTIFY with target bits [11:6] set or vector 63, or a KVT_OP of no operation, the row stops the command with fault 0x0105 in the device as it stood: no tide entry, prologue, acquire or work of it has run. (R35) -/
def Obligations.UndecodableCommandsDoNoWork : Prop :=
  ∀ op mk, (op, mk) ∈ coreRows → ∀ (k : CoreIx) (u : Upset) (s : State) (h : Here),
    let d := s.dev
    let die := k.die.val
    let c := k.core.val
    let bad := fun (t : TailEnt) => t.ty = 0 ∨ t.ty = 1 ∨ 8 ≤ t.ty ∨ ((t.ty = 3 ∨ t.ty = 4) ∧ 64 ≤ t.target) ∨
      (t.ty = 5 ∧ 63 ≤ t.target) ∨ (t.ty = 7 ∧ (t.target = 0 ∨ 4 ≤ t.target))
    here d die c = some h → mayIssue d h die c = true →
    (fetchPlace d h.p h.ps (relCore h.p die c) h.cs = none →
      exec (mk k u) s = .next { s with dev := cmdStop d h die c { code := 0x0105, core := true } }) ∧
    (∀ place, fetchPlace d h.p h.ps (relCore h.p die c) h.cs = some place →
      let cmd := readCmd d.mem place
      (recordBad d h.p h.ps place cmd = true → exec (mk k u) s = .next { s with dev := cmdStop d h die c { code := 0x0502 } }) ∧
      (recordBad d h.p h.ps place cmd = false →
        opcodeDefined cmd.opcode = false ∨
          (cmd.opcode = op.opcode ∧ op.mine cmd = true ∧ op.holds ⟨d, h.n, h.job.slot, die, c, cmd⟩ = false ∧
            ((∃ q ∈ op.descs ⟨d, h.n, h.job.slot, die, c, cmd⟩, descSpace q.2.1 = 7) ∨
              (cmd.acq = true ∧ (tailAt d h.p h.ps cmd.tailIndex).ty ≠ 1) ∨ ∃ t ∈ tailOf d h.p h.ps cmd, bad t)) →
        exec (mk k u) s = .next { s with dev := cmdStop d h die c { code := 0x0105, core := true } }))

/-- For an MM that may issue, of a sound record, and passes the checks before it in the decode order (R458: tail, reserved spaces, formats): when a used descriptor names a space other than 0b001 and 0b010, the row stops it with fault 0x0104 naming the first such descriptor, in the device as it stood; when it does its work, every used descriptor names one of the two. (R87) -/
def Obligations.MmReachesTileMemoryOnly : Prop :=
  ∀ (k : CoreIx) (u : Upset) (s : State) (h : Here) (place : Nat),
    let d := s.dev
    let die := k.die.val
    let c := k.core.val
    let cmd := readCmd d.mem place
    let x : Ctx := ⟨d, h.n, h.job.slot, die, c, cmd⟩
    let ds := opMm.descs x
    here d die c = some h → mayIssue d h die c = true → fetchPlace d h.p h.ps (relCore h.p die c) h.cs = some place →
    recordBad d h.p h.ps place cmd = false → cmd.opcode = 0x040 →
    (tailOk cmd (tailAt d h.p h.ps cmd.tailIndex) (tailOf d h.p h.ps cmd) = true → (∀ q ∈ ds, descSpace q.2.1 ≠ 7) →
      (opMm.fmts cmd).all (· < 10) = true → opMm.pair cmd = true → opMm.out cmd = true →
      ∀ q, ds.find? (fun t => descSpace t.2.1 != 1 && descSpace t.2.1 != 2) = some q → exec (.mm k u) s =
        .next { s with dev := cmdStop d h die c { code := 0x0104, desc := q.1, core := true } }) ∧
    ((attemptOf opMm d k).isSome = true → ∀ q ∈ ds, descSpace q.2.1 = 1 ∨ descSpace q.2.1 = 2)

/-- For every killable core row whose work would be done (attemptOf), with a first mismatch of a unit that computes for it: with fewer than three residue kills behind it the command (if of a collective, of a member that has neither prepared nor decided its step) is killed and stands at its boundary with one more, its core as before otherwise; with three it faults with 0x0403. A kill that is not for residue leaves the count as it is. (That the fault stands in place of the fourth kill is read from R4, log entry 14.) (R385) -/
def Obligations.FourthResidueKillFaults : Prop :=
  (∀ op mk, (op, mk) ∈ coreRows → op.alwaysNk = false → ∀ (k : CoreIx) (unit : ResUnit) (s : State) (h : Here) (d : Dev) (f : Flight),
    let die := k.die.val
    let c := k.core.val
    attemptOf op s.dev k (.residue unit) = some (h, d, f) → f.cmd.nk = false → unitUsed d op f.cmd die c unit = true →
    d.mismatch.find? (fun e => decide (e.1 = (die, c, unit))) = none →
    ((d.cs die c).resKills < 3 → (∀ cf, f.coll = some cf → (d.coll die cf.id).prepared = none ∧ cf.decided = false) → Ends (mk k (.residue unit)) s (fun e =>
      (e.cs die c).phase = .ready ∧ (e.cs die c).rerun = true ∧ (e.cs die c).idx = (d.cs die c).idx ∧
      (e.cs die c).flight = none ∧ (e.cs die c).resKills = (d.cs die c).resKills + 1)) ∧
    (3 ≤ (d.cs die c).resKills → ∃ d1, SameMem d d1 ∧ (d1.cs die c).flight.map (·.cmd) = some f.cmd ∧
      exec (mk k (.residue unit)) s = .next { s with dev := firstIssue (cmdStop d1 h die c { code := 0x0403 }) h.n })) ∧
  (∀ (d : Dev) (n slot die c : Nat), ((killAt d n slot die c false).cs die c).resKills = (d.cs die c).resKills)
end

