-- ==== Sys2Proof/Laws/Store.lean ====
section
/-! SUPPORT. Laws of the memories: every operation keeps the canonical form, a byte written is read back, and every
other byte stays; sparse maps likewise. -/

namespace Sys2Proof.Machine
open Sys2Proof

/-! ## Sparse maps -/

@[simp] theorem look_nil {κ α : Type} [DecidableEq κ] (d : α) (k : κ) : look d ([] : List (κ × α)) k = d := rfl

/-- A key set reads as set; every other key reads as before. -/
theorem look_put {κ α : Type} [DecidableEq κ] (d : α) (m : List (κ × α)) (k j : κ) (v : α) :
    look d (put m k v) j = if k = j then v else look d m j := by
  induction m with
  | nil => simp [put, look]
  | cons e t ih =>
    obtain ⟨i, w⟩ := e
    by_cases h : i = k <;> by_cases hj : k = j <;> by_cases hi : i = j <;> simp_all [put, look]

@[simp] theorem look_put_self {κ α : Type} [DecidableEq κ] (d : α) (m : List (κ × α)) (k : κ) (v : α) :
    look d (put m k v) k = v := by simp [look_put]

theorem look_put_ne {κ α : Type} [DecidableEq κ] (d : α) (m : List (κ × α)) {k j : κ} (v : α) (h : k ≠ j) :
    look d (put m k v) j = look d m j := by simp [look_put, h]

/-- A key taken out reads as the default; every other key reads as before. -/
theorem look_without {κ α : Type} [DecidableEq κ] (p : κ → Bool) (d : α) (m : List (κ × α)) (j : κ) :
    look d (without p m) j = if p j then d else look d m j := by
  induction m with
  | nil => simp [without, look]
  | cons e t ih =>
    obtain ⟨i, w⟩ := e
    by_cases h : p i = true <;> by_cases hi : i = j <;> simp_all [without, look]

/-! ## Cells -/

/-- Every address of a rising list exceeds those before it. -/
theorem rising_cons {a : Nat} {b : Byte} {t : List Host.Cell} :
    rising ((a, b) :: t) = true ↔ rising t = true ∧ ∀ c ∈ t, a < c.1 := by
  induction t generalizing a b with
  | nil => simp [rising]
  | cons e t ih =>
    obtain ⟨j, c⟩ := e
    simp only [rising, Bool.and_eq_true, decide_eq_true_eq, List.mem_cons, forall_eq_or_imp]
    constructor
    · rintro ⟨h, r⟩
      exact ⟨r, h, fun x hx => Nat.lt_trans h ((ih.1 r).2 x hx)⟩
    · rintro ⟨r, h, _⟩
      exact ⟨h, r⟩

theorem rising_filter (p : Host.Cell → Bool) {m : List Host.Cell} (h : rising m = true) : rising (m.filter p) = true := by
  induction m with
  | nil => simpa
  | cons e t ih =>
    obtain ⟨a, b⟩ := e
    rw [rising_cons] at h
    by_cases hp : p (a, b) = true
    · rw [List.filter_cons_of_pos hp, rising_cons]
      exact ⟨ih h.1, fun c hc => h.2 c ((List.mem_filter.1 hc).1)⟩
    · rw [List.filter_cons_of_neg hp]
      exact ih h.1

/-- What a set cell leaves: the cell, and cells that were there. -/
theorem mem_setCell {m : List Host.Cell} {a : Nat} {b : Byte} {c : Host.Cell} (h : c ∈ setCell m a b) :
    c = (a, b) ∨ c ∈ m := by
  induction m with
  | nil => simpa [setCell] using h
  | cons e t ih =>
    obtain ⟨j, v⟩ := e
    simp only [setCell] at h
    split at h
    · simpa using h
    · split at h
      · simp only [List.mem_cons] at h ⊢
        rcases h with h | h
        · exact .inl h
        · exact .inr (.inr h)
      · simp only [List.mem_cons] at h ⊢
        rcases h with h | h
        · exact .inr (.inl h)
        · rcases ih h with h | h
          · exact .inl h
          · exact .inr (.inr h)

theorem rising_setCell {m : List Host.Cell} (a : Nat) (b : Byte) (h : rising m = true) : rising (setCell m a b) = true := by
  induction m with
  | nil => simp [setCell, rising]
  | cons e t ih =>
    obtain ⟨j, v⟩ := e
    have h' := rising_cons.1 h
    simp only [setCell]
    split
    · rename_i hlt
      refine rising_cons.2 ⟨h, fun c hc => ?_⟩
      rcases List.mem_cons.1 hc with rfl | hc
      · exact hlt
      · exact Nat.lt_trans hlt (h'.2 c hc)
    · split
      · rename_i heq
        subst heq
        exact rising_cons.2 h'
      · rename_i h1 h2
        refine rising_cons.2 ⟨ih h'.1, fun c hc => ?_⟩
        rcases mem_setCell hc with rfl | hc
        · show j < a; omega
        · exact h'.2 c hc

theorem canonical_filter (p : Host.Cell → Bool) {m : List Host.Cell} (h : canonical m = true) :
    canonical (m.filter p) = true := by
  simp only [canonical, Bool.and_eq_true, List.all_eq_true] at h ⊢
  exact ⟨rising_filter p h.1, fun c hc => h.2 c ((List.mem_filter.1 hc).1)⟩

/-- A byte written keeps the canonical form. -/
theorem canonical_setByte {m : List Host.Cell} (a : Nat) (b : Byte) (h : canonical m = true) :
    canonical (setByte m a b) = true := by
  unfold setByte
  split
  · exact canonical_filter _ h
  · rename_i hb
    simp only [canonical, Bool.and_eq_true, List.all_eq_true] at h ⊢
    refine ⟨rising_setCell a b h.1, fun c hc => ?_⟩
    rcases mem_setCell hc with rfl | hc
    · simpa using hb
    · exact h.2 c hc

/-! ## Memories -/

theorem Mems.setByteAt_wf {m : Mems} (sp : Space) (a : Nat) (b : Byte) (h : m.wf = true) : (m.setByteAt sp a b).wf = true := by
  simp only [Mems.wf, Bool.and_eq_true] at h ⊢
  cases sp <;> simp only [Mems.setByteAt] <;> simp_all [canonical_setByte, rising_setCell]

@[simp] theorem Mems.put_wf {m : Mems} (sp : Space) (a : Nat) (bs : List Byte) (h : m.wf = true) : (m.put sp a bs).wf = true := by
  induction bs generalizing m a with
  | nil => exact h
  | cons b t ih => exact ih _ (Mems.setByteAt_wf sp a b h)

@[simp] theorem Mems.unpoison_wf {m : Mems} (sp : Space) (a n : Nat) : (m.unpoison sp a n).wf = m.wf := by
  cases sp <;> rfl

/-- A byte string written keeps the canonical form. -/
@[simp] theorem Mems.write_wf {m : Mems} (sp : Space) (a : Nat) (bs : List Byte) (h : m.wf = true) : (m.write sp a bs).wf = true := by
  simp [Mems.write, h]

@[simp] theorem Mems.poison_wf {m : Mems} (sp : Space) (a : Nat) : (m.poison sp a).wf = m.wf := by
  cases sp <;> rfl

@[simp] theorem Mems.clearPoison_wf {m : Mems} (ss : List Span) : (m.clearPoison ss).wf = m.wf := rfl

/-- Writes applied one after another keep the canonical form. -/
@[simp] theorem Mems.foldr_write_wf {α : Type} (sp : α → Space) (a : α → Nat) (bs : α → List Byte) (l : List α) {m : Mems}
    (h : m.wf = true) : (l.foldr (fun w (m : Mems) => m.write (sp w) (a w) (bs w)) m).wf = true := by
  induction l with
  | nil => exact h
  | cons w t ih => simp [ih]

@[simp] theorem Mems.foldl_write_wf {α : Type} (sp : α → Space) (a : α → Nat) (bs : α → List Byte) (l : List α) {m : Mems}
    (h : m.wf = true) : (l.foldl (fun (m : Mems) w => m.write (sp w) (a w) (bs w)) m).wf = true := by
  induction l generalizing m with
  | nil => exact h
  | cons w t ih => exact ih (Mems.write_wf _ _ _ h)

@[simp] theorem clearTm_wf {m : Mems} (lo hi : Nat) (h : m.wf = true) : (clearTm m lo hi).wf = true := by
  simp only [Mems.wf, Bool.and_eq_true] at h ⊢
  simp_all [clearTm, clearCells, canonical_filter]

@[simp] theorem clearHbm_wf {m : Mems} (lo hi : Nat) (h : m.wf = true) : (clearHbm m lo hi).wf = true := by
  simp only [Mems.wf, Bool.and_eq_true] at h ⊢
  simp_all [clearHbm, clearCells, canonical_filter]

/-- An erase keeps the canonical form. -/
@[simp] theorem Mems.eraseSlot_wf {m : Mems} (b : Bool) (h : m.wf = true) : (m.eraseSlot b).wf = true := by
  simp only [Mems.wf, Bool.and_eq_true] at h ⊢
  cases b <;> simp_all [Mems.eraseSlot, clearCells, rising_filter]

/-! ## Read after write -/

theorem cellAt_setCell (m : List Host.Cell) (a j : Nat) (b : Byte) :
    cellAt (setCell m a b) j = if a = j then some b else cellAt m j := by
  induction m with
  | nil => simp [setCell, cellAt]
  | cons e t ih =>
    obtain ⟨i, v⟩ := e
    simp only [setCell]
    split
    · simp [cellAt]
    · split
      · rename_i h
        subst h
        by_cases hj : a = j <;> simp [cellAt, hj]
      · rename_i h1 h2
        by_cases hi : i = j
        · subst hi
          simp [cellAt, h2]
        · simp [cellAt, hi, ih]

theorem cellAt_filter_ne (m : List Host.Cell) (a j : Nat) :
    cellAt (m.filter (fun c => c.1 ≠ a)) j = if a = j then none else cellAt m j := by
  induction m with
  | nil => simp [cellAt]
  | cons e t ih =>
    obtain ⟨i, v⟩ := e
    by_cases h : i = a
    · subst h
      rw [List.filter_cons_of_neg (by simp), ih]
      by_cases hj : i = j <;> simp [cellAt, hj]
    · rw [List.filter_cons_of_pos (by simpa using h)]
      by_cases hi : i = j
      · subst hi
        simp [cellAt, Ne.symm h]
      · simp only [cellAt, hi, if_false]
        exact ih

theorem getByte_setByte (m : List Host.Cell) (a j : Nat) (b : Byte) :
    getByte (setByte m a b) j = if a = j then b else getByte m j := by
  unfold setByte getByte
  split
  · rename_i h
    subst h
    rw [cellAt_filter_ne]
    split <;> rfl
  · rw [cellAt_setCell]
    split <;> rfl

/-- A byte written reads back; every other byte of every space reads as before. -/
theorem Mems.byte_setByteAt (m : Mems) (sp sp' : Space) (a j : Nat) (b : Byte) :
    (m.setByteAt sp a b).byte sp' j = if sp = sp' ∧ a = j then b else m.byte sp' j := by
  cases sp <;> cases sp' <;> simp [Mems.setByteAt, Mems.byte, flashEra, getByte_setByte, cellAt_setCell] <;> split <;> simp_all

/-- A byte string written: outside it every byte reads as before. -/
theorem Mems.byte_put_outside (m : Mems) (sp sp' : Space) (a j : Nat) (bs : List Byte)
    (h : sp ≠ sp' ∨ j < a ∨ a + bs.length ≤ j) : (m.put sp a bs).byte sp' j = m.byte sp' j := by
  induction bs generalizing m a with
  | nil => rfl
  | cons b t ih =>
    simp only [List.length_cons] at h
    rw [Mems.put, ih _ _ (by rcases h with h | h | h <;> first | exact .inl h | exact .inr (.inl (by omega)) | exact .inr (.inr (by omega))),
      Mems.byte_setByteAt, if_neg]
    rintro ⟨rfl, rfl⟩
    rcases h with h | h | h
    · exact h rfl
    · omega
    · omega

/-- Inside it the bytes read as written. -/
theorem Mems.byte_put_inside (m : Mems) (sp : Space) (a i : Nat) (bs : List Byte) (h : i < bs.length) :
    (m.put sp a bs).byte sp (a + i) = bs[i] := by
  induction bs generalizing m a i with
  | nil => simp at h
  | cons b t ih =>
    rw [Mems.put]
    cases i with
    | zero =>
      rw [Mems.byte_put_outside _ _ _ _ _ _ (.inr (.inl (by omega))), Mems.byte_setByteAt]
      simp
    | succ i =>
      have := ih (m.setByteAt sp a b) (a + 1) i (by simpa using h)
      rw [show a + (i + 1) = a + 1 + i by omega, this]
      rfl

@[simp] theorem Mems.byte_unpoison (m : Mems) (sp sp' : Space) (a n j : Nat) : (m.unpoison sp a n).byte sp' j = m.byte sp' j := by
  cases sp <;> cases sp' <;> rfl

theorem Mems.byte_write_outside (m : Mems) (sp sp' : Space) (a j : Nat) (bs : List Byte)
    (h : sp ≠ sp' ∨ j < a ∨ a + bs.length ≤ j) : (m.write sp a bs).byte sp' j = m.byte sp' j := by
  simp [Mems.write, Mems.byte_put_outside _ _ _ _ _ _ h]

theorem Mems.byte_write_inside (m : Mems) (sp : Space) (a i : Nat) (bs : List Byte) (h : i < bs.length) :
    (m.write sp a bs).byte sp (a + i) = bs[i] := by
  simp [Mems.write, Mems.byte_put_inside _ _ _ _ _ h]

/-- A byte string written reads back whole. -/
theorem Mems.bytes_write (m : Mems) (sp : Space) (a : Nat) (bs : List Byte) : (m.write sp a bs).bytes sp a bs.length = bs := by
  apply List.ext_getElem
  · simp [Mems.bytes]
  · intro i h1 h2
    simp [Mems.bytes, Mems.byte_write_inside _ _ _ _ _ h2]

@[simp] theorem Mems.byte_clearPoison (m : Mems) (ss : List Span) (sp : Space) (j : Nat) : (m.clearPoison ss).byte sp j = m.byte sp j := by
  cases sp <;> rfl

@[simp] theorem Mems.byte_poison (m : Mems) (sp sp' : Space) (a j : Nat) : (m.poison sp a).byte sp' j = m.byte sp' j := by
  cases sp <;> cases sp' <;> rfl

/-! ## Numbers and bytes -/

@[simp] theorem leBytes_length (n v : Nat) : (leBytes n v).length = n := by
  induction n generalizing v with
  | zero => rfl
  | succ n ih => simp [leBytes, ih]

/-- n little-endian bytes of a number hold its low 8 n bits. -/
theorem ofLe_leBytes (n v : Nat) : ofLe (leBytes n v) = v % 256 ^ n := by
  induction n generalizing v with
  | zero => simp [leBytes, ofLe, Nat.mod_one]
  | succ n ih =>
    rw [leBytes, ofLe, ih, BitVec.toNat_ofNat, Nat.pow_succ' (n := n), Nat.mod_mul]

end Sys2Proof.Machine
end

