-- ==== Sys2Proof/Laws/State.lean ====
section
/-! SUPPORT. What each update of the device leaves alone, field by field and through each reader, and what its own
reader answers after it. Every lemma is by computation: later proofs unfold no record. -/

namespace Sys2Proof.Machine
open Sys2Proof

/-! ## Registers -/

/-- A register written reads as written, cut to 32 bits; every other register as before. -/
theorem Dev.reg_wr (d : Dev) (r q : Reg) (v : Nat) : (d.wr r v).reg q = if r = q then BitVec.ofNat 32 v else d.reg q :=
  look_put _ _ _ _ _

theorem Dev.rd_wr (d : Dev) (r q : Reg) (v : Nat) : (d.wr r v).rd q = if r = q then v % 2 ^ 32 else d.rd q := by
  unfold Dev.rd
  rw [Dev.reg_wr]
  split
  · exact BitVec.toNat_ofNat _ _
  · rfl

@[simp] theorem Dev.rd_wr_self (d : Dev) (r : Reg) (v : Nat) : (d.wr r v).rd r = v % 2 ^ 32 := by simp [Dev.rd_wr]

theorem Dev.rd_wr_ne (d : Dev) {r q : Reg} (v : Nat) (h : r ≠ q) : (d.wr r v).rd q = d.rd q := by simp [Dev.rd_wr, h]

theorem Dev.rd_lt (d : Dev) (r : Reg) : d.rd r < 2 ^ 32 := (d.reg r).isLt

/-- A field set leaves every other register alone. -/
theorem Dev.rd_setFld_ne (d : Dev) {r q : Reg} (hi lo v : Nat) (h : r ≠ q) : (d.setFld r hi lo v).rd q = d.rd q :=
  Dev.rd_wr_ne d _ h

/-! ## wr -/

@[simp] theorem Dev.wr_latches (d : Dev) (r : Reg) (v : Nat) : (d.wr r v).latches = d.latches := (rfl)
@[simp] theorem Dev.wr_mem (d : Dev) (r : Reg) (v : Nat) : (d.wr r v).mem = d.mem := (rfl)
@[simp] theorem Dev.wr_sem (d : Dev) (r : Reg) (v : Nat) : (d.wr r v).sem = d.sem := (rfl)
@[simp] theorem Dev.wr_semSat (d : Dev) (r : Reg) (v : Nat) : (d.wr r v).semSat = d.semSat := (rfl)
@[simp] theorem Dev.wr_ctr (d : Dev) (r : Reg) (v : Nat) : (d.wr r v).ctr = d.ctr := (rfl)
@[simp] theorem Dev.wr_lim (d : Dev) (r : Reg) (v : Nat) : (d.wr r v).lim = d.lim := (rfl)
@[simp] theorem Dev.wr_slotTab (d : Dev) (r : Reg) (v : Nat) : (d.wr r v).slotTab = d.slotTab := (rfl)
@[simp] theorem Dev.wr_lflag (d : Dev) (r : Reg) (v : Nat) : (d.wr r v).lflag = d.lflag := (rfl)
@[simp] theorem Dev.wr_kvtPoison (d : Dev) (r : Reg) (v : Nat) : (d.wr r v).kvtPoison = d.kvtPoison := (rfl)
@[simp] theorem Dev.wr_semPoison (d : Dev) (r : Reg) (v : Nat) : (d.wr r v).semPoison = d.semPoison := (rfl)
@[simp] theorem Dev.wr_created (d : Dev) (r : Reg) (v : Nat) : (d.wr r v).created = d.created := (rfl)
@[simp] theorem Dev.wr_kvt (d : Dev) (r : Reg) (v : Nat) : (d.wr r v).kvt = d.kvt := (rfl)
@[simp] theorem Dev.wr_taken (d : Dev) (r : Reg) (v : Nat) : (d.wr r v).taken = d.taken := (rfl)
@[simp] theorem Dev.wr_fetching (d : Dev) (r : Reg) (v : Nat) : (d.wr r v).fetching = d.fetching := (rfl)
@[simp] theorem Dev.wr_spillRun (d : Dev) (r : Reg) (v : Nat) : (d.wr r v).spillRun = d.spillRun := (rfl)
@[simp] theorem Dev.wr_ast (d : Dev) (r : Reg) (v : Nat) : (d.wr r v).ast = d.ast := (rfl)
@[simp] theorem Dev.wr_sfuValid (d : Dev) (r : Reg) (v : Nat) : (d.wr r v).sfuValid = d.sfuValid := (rfl)
@[simp] theorem Dev.wr_comaValid (d : Dev) (r : Reg) (v : Nat) : (d.wr r v).comaValid = d.comaValid := (rfl)
@[simp] theorem Dev.wr_tblValid (d : Dev) (r : Reg) (v : Nat) : (d.wr r v).tblValid = d.tblValid := (rfl)
@[simp] theorem Dev.wr_tblUsers (d : Dev) (r : Reg) (v : Nat) : (d.wr r v).tblUsers = d.tblUsers := (rfl)
@[simp] theorem Dev.wr_tblLoose (d : Dev) (r : Reg) (v : Nat) : (d.wr r v).tblLoose = d.tblLoose := (rfl)
@[simp] theorem Dev.wr_cores (d : Dev) (r : Reg) (v : Nat) : (d.wr r v).cores = d.cores := (rfl)
@[simp] theorem Dev.wr_mismatch (d : Dev) (r : Reg) (v : Nat) : (d.wr r v).mismatch = d.mismatch := (rfl)
@[simp] theorem Dev.wr_fenced (d : Dev) (r : Reg) (v : Nat) : (d.wr r v).fenced = d.fenced := (rfl)
@[simp] theorem Dev.wr_tabs (d : Dev) (r : Reg) (v : Nat) : (d.wr r v).tabs = d.tabs := (rfl)
@[simp] theorem Dev.wr_peerRel (d : Dev) (r : Reg) (v : Nat) : (d.wr r v).peerRel = d.peerRel := (rfl)
@[simp] theorem Dev.wr_corrected (d : Dev) (r : Reg) (v : Nat) : (d.wr r v).corrected = d.corrected := (rfl)
@[simp] theorem Dev.wr_order (d : Dev) (r : Reg) (v : Nat) : (d.wr r v).order = d.order := (rfl)
@[simp] theorem Dev.wr_openRows (d : Dev) (r : Reg) (v : Nat) : (d.wr r v).openRows = d.openRows := (rfl)
@[simp] theorem Dev.wr_codecTurn (d : Dev) (r : Reg) (v : Nat) : (d.wr r v).codecTurn = d.codecTurn := (rfl)
@[simp] theorem Dev.wr_dpw (d : Dev) (r : Reg) (v : Nat) : (d.wr r v).dpw = d.dpw := (rfl)
@[simp] theorem Dev.wr_links (d : Dev) (r : Reg) (v : Nat) : (d.wr r v).links = d.links := (rfl)
@[simp] theorem Dev.wr_colls (d : Dev) (r : Reg) (v : Nat) : (d.wr r v).colls = d.colls := (rfl)
@[simp] theorem Dev.wr_ports (d : Dev) (r : Reg) (v : Nat) : (d.wr r v).ports = d.ports := (rfl)
@[simp] theorem Dev.wr_pw (d : Dev) (r : Reg) (v : Nat) : (d.wr r v).pw = d.pw := (rfl)
@[simp] theorem Dev.wr_time (d : Dev) (r : Reg) (v : Nat) : (d.wr r v).time = d.time := (rfl)
@[simp] theorem Dev.wr_codec (d : Dev) (r : Reg) (v : Nat) : (d.wr r v).codec = d.codec := (rfl)
@[simp] theorem Dev.wr_tlm (d : Dev) (r : Reg) (v : Nat) : (d.wr r v).tlm = d.tlm := (rfl)
@[simp] theorem Dev.wr_sec (d : Dev) (r : Reg) (v : Nat) : (d.wr r v).sec = d.sec := (rfl)
@[simp] theorem Dev.wr_boot (d : Dev) (r : Reg) (v : Nat) : (d.wr r v).boot = d.boot := (rfl)
@[simp] theorem Dev.wr_out (d : Dev) (r : Reg) (v : Nat) : (d.wr r v).out = d.out := (rfl)
@[simp] theorem Dev.wr_fresh (d : Dev) (r : Reg) (v : Nat) : (d.wr r v).fresh = d.fresh := (rfl)
@[simp] theorem Dev.wr_read_port (d : Dev) (r : Reg) (v : Nat) (m : Nat) : (d.wr r v).port m = d.port m := (rfl)
@[simp] theorem Dev.wr_read_path (d : Dev) (r : Reg) (v : Nat) (t : TlmPath) : (d.wr r v).path t = d.path t := (rfl)
@[simp] theorem Dev.wr_read_coll (d : Dev) (r : Reg) (v : Nat) (x j : Nat) : (d.wr r v).coll x j = d.coll x j := (rfl)
@[simp] theorem Dev.wr_read_astSet (d : Dev) (r : Reg) (v : Nat) (x j : Nat) : (d.wr r v).astSet x j = d.astSet x j := (rfl)
@[simp] theorem Dev.wr_read_kv (d : Dev) (r : Reg) (v : Nat) (x j : Nat) : (d.wr r v).kv x j = d.kv x j := (rfl)
@[simp] theorem Dev.wr_read_dp (d : Dev) (r : Reg) (v : Nat) (x : Nat) : (d.wr r v).dp x = d.dp x := (rfl)
@[simp] theorem Dev.wr_read_link (d : Dev) (r : Reg) (v : Nat) (j : Nat × Nat) : (d.wr r v).link j = d.link j := (rfl)
@[simp] theorem Dev.wr_read_cs (d : Dev) (r : Reg) (v : Nat) (x j : Nat) : (d.wr r v).cs x j = d.cs x j := (rfl)
@[simp] theorem Dev.wr_read_vc (d : Dev) (r : Reg) (v : Nat) (x : Nat) : (d.wr r v).vc x = d.vc x := (rfl)

/-! ## setFld -/

@[simp] theorem Dev.setFld_latches (d : Dev) (r : Reg) (hi lo v : Nat) : (d.setFld r hi lo v).latches = d.latches := (rfl)
@[simp] theorem Dev.setFld_mem (d : Dev) (r : Reg) (hi lo v : Nat) : (d.setFld r hi lo v).mem = d.mem := (rfl)
@[simp] theorem Dev.setFld_sem (d : Dev) (r : Reg) (hi lo v : Nat) : (d.setFld r hi lo v).sem = d.sem := (rfl)
@[simp] theorem Dev.setFld_semSat (d : Dev) (r : Reg) (hi lo v : Nat) : (d.setFld r hi lo v).semSat = d.semSat := (rfl)
@[simp] theorem Dev.setFld_ctr (d : Dev) (r : Reg) (hi lo v : Nat) : (d.setFld r hi lo v).ctr = d.ctr := (rfl)
@[simp] theorem Dev.setFld_lim (d : Dev) (r : Reg) (hi lo v : Nat) : (d.setFld r hi lo v).lim = d.lim := (rfl)
@[simp] theorem Dev.setFld_slotTab (d : Dev) (r : Reg) (hi lo v : Nat) : (d.setFld r hi lo v).slotTab = d.slotTab := (rfl)
@[simp] theorem Dev.setFld_lflag (d : Dev) (r : Reg) (hi lo v : Nat) : (d.setFld r hi lo v).lflag = d.lflag := (rfl)
@[simp] theorem Dev.setFld_kvtPoison (d : Dev) (r : Reg) (hi lo v : Nat) : (d.setFld r hi lo v).kvtPoison = d.kvtPoison := (rfl)
@[simp] theorem Dev.setFld_semPoison (d : Dev) (r : Reg) (hi lo v : Nat) : (d.setFld r hi lo v).semPoison = d.semPoison := (rfl)
@[simp] theorem Dev.setFld_created (d : Dev) (r : Reg) (hi lo v : Nat) : (d.setFld r hi lo v).created = d.created := (rfl)
@[simp] theorem Dev.setFld_kvt (d : Dev) (r : Reg) (hi lo v : Nat) : (d.setFld r hi lo v).kvt = d.kvt := (rfl)
@[simp] theorem Dev.setFld_taken (d : Dev) (r : Reg) (hi lo v : Nat) : (d.setFld r hi lo v).taken = d.taken := (rfl)
@[simp] theorem Dev.setFld_fetching (d : Dev) (r : Reg) (hi lo v : Nat) : (d.setFld r hi lo v).fetching = d.fetching := (rfl)
@[simp] theorem Dev.setFld_spillRun (d : Dev) (r : Reg) (hi lo v : Nat) : (d.setFld r hi lo v).spillRun = d.spillRun := (rfl)
@[simp] theorem Dev.setFld_ast (d : Dev) (r : Reg) (hi lo v : Nat) : (d.setFld r hi lo v).ast = d.ast := (rfl)
@[simp] theorem Dev.setFld_sfuValid (d : Dev) (r : Reg) (hi lo v : Nat) : (d.setFld r hi lo v).sfuValid = d.sfuValid := (rfl)
@[simp] theorem Dev.setFld_comaValid (d : Dev) (r : Reg) (hi lo v : Nat) : (d.setFld r hi lo v).comaValid = d.comaValid := (rfl)
@[simp] theorem Dev.setFld_tblValid (d : Dev) (r : Reg) (hi lo v : Nat) : (d.setFld r hi lo v).tblValid = d.tblValid := (rfl)
@[simp] theorem Dev.setFld_tblUsers (d : Dev) (r : Reg) (hi lo v : Nat) : (d.setFld r hi lo v).tblUsers = d.tblUsers := (rfl)
@[simp] theorem Dev.setFld_tblLoose (d : Dev) (r : Reg) (hi lo v : Nat) : (d.setFld r hi lo v).tblLoose = d.tblLoose := (rfl)
@[simp] theorem Dev.setFld_cores (d : Dev) (r : Reg) (hi lo v : Nat) : (d.setFld r hi lo v).cores = d.cores := (rfl)
@[simp] theorem Dev.setFld_mismatch (d : Dev) (r : Reg) (hi lo v : Nat) : (d.setFld r hi lo v).mismatch = d.mismatch := (rfl)
@[simp] theorem Dev.setFld_fenced (d : Dev) (r : Reg) (hi lo v : Nat) : (d.setFld r hi lo v).fenced = d.fenced := (rfl)
@[simp] theorem Dev.setFld_tabs (d : Dev) (r : Reg) (hi lo v : Nat) : (d.setFld r hi lo v).tabs = d.tabs := (rfl)
@[simp] theorem Dev.setFld_peerRel (d : Dev) (r : Reg) (hi lo v : Nat) : (d.setFld r hi lo v).peerRel = d.peerRel := (rfl)
@[simp] theorem Dev.setFld_corrected (d : Dev) (r : Reg) (hi lo v : Nat) : (d.setFld r hi lo v).corrected = d.corrected := (rfl)
@[simp] theorem Dev.setFld_order (d : Dev) (r : Reg) (hi lo v : Nat) : (d.setFld r hi lo v).order = d.order := (rfl)
@[simp] theorem Dev.setFld_openRows (d : Dev) (r : Reg) (hi lo v : Nat) : (d.setFld r hi lo v).openRows = d.openRows := (rfl)
@[simp] theorem Dev.setFld_codecTurn (d : Dev) (r : Reg) (hi lo v : Nat) : (d.setFld r hi lo v).codecTurn = d.codecTurn := (rfl)
@[simp] theorem Dev.setFld_dpw (d : Dev) (r : Reg) (hi lo v : Nat) : (d.setFld r hi lo v).dpw = d.dpw := (rfl)
@[simp] theorem Dev.setFld_links (d : Dev) (r : Reg) (hi lo v : Nat) : (d.setFld r hi lo v).links = d.links := (rfl)
@[simp] theorem Dev.setFld_colls (d : Dev) (r : Reg) (hi lo v : Nat) : (d.setFld r hi lo v).colls = d.colls := (rfl)
@[simp] theorem Dev.setFld_ports (d : Dev) (r : Reg) (hi lo v : Nat) : (d.setFld r hi lo v).ports = d.ports := (rfl)
@[simp] theorem Dev.setFld_pw (d : Dev) (r : Reg) (hi lo v : Nat) : (d.setFld r hi lo v).pw = d.pw := (rfl)
@[simp] theorem Dev.setFld_time (d : Dev) (r : Reg) (hi lo v : Nat) : (d.setFld r hi lo v).time = d.time := (rfl)
@[simp] theorem Dev.setFld_codec (d : Dev) (r : Reg) (hi lo v : Nat) : (d.setFld r hi lo v).codec = d.codec := (rfl)
@[simp] theorem Dev.setFld_tlm (d : Dev) (r : Reg) (hi lo v : Nat) : (d.setFld r hi lo v).tlm = d.tlm := (rfl)
@[simp] theorem Dev.setFld_sec (d : Dev) (r : Reg) (hi lo v : Nat) : (d.setFld r hi lo v).sec = d.sec := (rfl)
@[simp] theorem Dev.setFld_boot (d : Dev) (r : Reg) (hi lo v : Nat) : (d.setFld r hi lo v).boot = d.boot := (rfl)
@[simp] theorem Dev.setFld_out (d : Dev) (r : Reg) (hi lo v : Nat) : (d.setFld r hi lo v).out = d.out := (rfl)
@[simp] theorem Dev.setFld_fresh (d : Dev) (r : Reg) (hi lo v : Nat) : (d.setFld r hi lo v).fresh = d.fresh := (rfl)
@[simp] theorem Dev.setFld_read_port (d : Dev) (r : Reg) (hi lo v : Nat) (m : Nat) :
    (d.setFld r hi lo v).port m = d.port m := (rfl)
@[simp] theorem Dev.setFld_read_path (d : Dev) (r : Reg) (hi lo v : Nat) (t : TlmPath) :
    (d.setFld r hi lo v).path t = d.path t := (rfl)
@[simp] theorem Dev.setFld_read_coll (d : Dev) (r : Reg) (hi lo v : Nat) (x j : Nat) :
    (d.setFld r hi lo v).coll x j = d.coll x j := (rfl)
@[simp] theorem Dev.setFld_read_astSet (d : Dev) (r : Reg) (hi lo v : Nat) (x j : Nat) :
    (d.setFld r hi lo v).astSet x j = d.astSet x j := (rfl)
@[simp] theorem Dev.setFld_read_kv (d : Dev) (r : Reg) (hi lo v : Nat) (x j : Nat) :
    (d.setFld r hi lo v).kv x j = d.kv x j := (rfl)
@[simp] theorem Dev.setFld_read_dp (d : Dev) (r : Reg) (hi lo v : Nat) (x : Nat) : (d.setFld r hi lo v).dp x = d.dp x := (rfl)
@[simp] theorem Dev.setFld_read_link (d : Dev) (r : Reg) (hi lo v : Nat) (j : Nat × Nat) :
    (d.setFld r hi lo v).link j = d.link j := (rfl)
@[simp] theorem Dev.setFld_read_cs (d : Dev) (r : Reg) (hi lo v : Nat) (x j : Nat) :
    (d.setFld r hi lo v).cs x j = d.cs x j := (rfl)
@[simp] theorem Dev.setFld_read_vc (d : Dev) (r : Reg) (hi lo v : Nat) (x : Nat) : (d.setFld r hi lo v).vc x = d.vc x := (rfl)

/-! ## setPort -/

@[simp] theorem Dev.setPort_regs (d : Dev) (n : Nat) (p : Port) : (d.setPort n p).regs = d.regs := (rfl)
@[simp] theorem Dev.setPort_latches (d : Dev) (n : Nat) (p : Port) : (d.setPort n p).latches = d.latches := (rfl)
@[simp] theorem Dev.setPort_mem (d : Dev) (n : Nat) (p : Port) : (d.setPort n p).mem = d.mem := (rfl)
@[simp] theorem Dev.setPort_sem (d : Dev) (n : Nat) (p : Port) : (d.setPort n p).sem = d.sem := (rfl)
@[simp] theorem Dev.setPort_semSat (d : Dev) (n : Nat) (p : Port) : (d.setPort n p).semSat = d.semSat := (rfl)
@[simp] theorem Dev.setPort_ctr (d : Dev) (n : Nat) (p : Port) : (d.setPort n p).ctr = d.ctr := (rfl)
@[simp] theorem Dev.setPort_lim (d : Dev) (n : Nat) (p : Port) : (d.setPort n p).lim = d.lim := (rfl)
@[simp] theorem Dev.setPort_slotTab (d : Dev) (n : Nat) (p : Port) : (d.setPort n p).slotTab = d.slotTab := (rfl)
@[simp] theorem Dev.setPort_lflag (d : Dev) (n : Nat) (p : Port) : (d.setPort n p).lflag = d.lflag := (rfl)
@[simp] theorem Dev.setPort_kvtPoison (d : Dev) (n : Nat) (p : Port) : (d.setPort n p).kvtPoison = d.kvtPoison := (rfl)
@[simp] theorem Dev.setPort_semPoison (d : Dev) (n : Nat) (p : Port) : (d.setPort n p).semPoison = d.semPoison := (rfl)
@[simp] theorem Dev.setPort_created (d : Dev) (n : Nat) (p : Port) : (d.setPort n p).created = d.created := (rfl)
@[simp] theorem Dev.setPort_kvt (d : Dev) (n : Nat) (p : Port) : (d.setPort n p).kvt = d.kvt := (rfl)
@[simp] theorem Dev.setPort_taken (d : Dev) (n : Nat) (p : Port) : (d.setPort n p).taken = d.taken := (rfl)
@[simp] theorem Dev.setPort_fetching (d : Dev) (n : Nat) (p : Port) : (d.setPort n p).fetching = d.fetching := (rfl)
@[simp] theorem Dev.setPort_spillRun (d : Dev) (n : Nat) (p : Port) : (d.setPort n p).spillRun = d.spillRun := (rfl)
@[simp] theorem Dev.setPort_ast (d : Dev) (n : Nat) (p : Port) : (d.setPort n p).ast = d.ast := (rfl)
@[simp] theorem Dev.setPort_sfuValid (d : Dev) (n : Nat) (p : Port) : (d.setPort n p).sfuValid = d.sfuValid := (rfl)
@[simp] theorem Dev.setPort_comaValid (d : Dev) (n : Nat) (p : Port) : (d.setPort n p).comaValid = d.comaValid := (rfl)
@[simp] theorem Dev.setPort_tblValid (d : Dev) (n : Nat) (p : Port) : (d.setPort n p).tblValid = d.tblValid := (rfl)
@[simp] theorem Dev.setPort_tblUsers (d : Dev) (n : Nat) (p : Port) : (d.setPort n p).tblUsers = d.tblUsers := (rfl)
@[simp] theorem Dev.setPort_tblLoose (d : Dev) (n : Nat) (p : Port) : (d.setPort n p).tblLoose = d.tblLoose := (rfl)
@[simp] theorem Dev.setPort_cores (d : Dev) (n : Nat) (p : Port) : (d.setPort n p).cores = d.cores := (rfl)
@[simp] theorem Dev.setPort_mismatch (d : Dev) (n : Nat) (p : Port) : (d.setPort n p).mismatch = d.mismatch := (rfl)
@[simp] theorem Dev.setPort_fenced (d : Dev) (n : Nat) (p : Port) : (d.setPort n p).fenced = d.fenced := (rfl)
@[simp] theorem Dev.setPort_tabs (d : Dev) (n : Nat) (p : Port) : (d.setPort n p).tabs = d.tabs := (rfl)
@[simp] theorem Dev.setPort_peerRel (d : Dev) (n : Nat) (p : Port) : (d.setPort n p).peerRel = d.peerRel := (rfl)
@[simp] theorem Dev.setPort_corrected (d : Dev) (n : Nat) (p : Port) : (d.setPort n p).corrected = d.corrected := (rfl)
@[simp] theorem Dev.setPort_order (d : Dev) (n : Nat) (p : Port) : (d.setPort n p).order = d.order := (rfl)
@[simp] theorem Dev.setPort_openRows (d : Dev) (n : Nat) (p : Port) : (d.setPort n p).openRows = d.openRows := (rfl)
@[simp] theorem Dev.setPort_codecTurn (d : Dev) (n : Nat) (p : Port) : (d.setPort n p).codecTurn = d.codecTurn := (rfl)
@[simp] theorem Dev.setPort_dpw (d : Dev) (n : Nat) (p : Port) : (d.setPort n p).dpw = d.dpw := (rfl)
@[simp] theorem Dev.setPort_links (d : Dev) (n : Nat) (p : Port) : (d.setPort n p).links = d.links := (rfl)
@[simp] theorem Dev.setPort_colls (d : Dev) (n : Nat) (p : Port) : (d.setPort n p).colls = d.colls := (rfl)
@[simp] theorem Dev.setPort_pw (d : Dev) (n : Nat) (p : Port) : (d.setPort n p).pw = d.pw := (rfl)
@[simp] theorem Dev.setPort_time (d : Dev) (n : Nat) (p : Port) : (d.setPort n p).time = d.time := (rfl)
@[simp] theorem Dev.setPort_codec (d : Dev) (n : Nat) (p : Port) : (d.setPort n p).codec = d.codec := (rfl)
@[simp] theorem Dev.setPort_tlm (d : Dev) (n : Nat) (p : Port) : (d.setPort n p).tlm = d.tlm := (rfl)
@[simp] theorem Dev.setPort_sec (d : Dev) (n : Nat) (p : Port) : (d.setPort n p).sec = d.sec := (rfl)
@[simp] theorem Dev.setPort_boot (d : Dev) (n : Nat) (p : Port) : (d.setPort n p).boot = d.boot := (rfl)
@[simp] theorem Dev.setPort_out (d : Dev) (n : Nat) (p : Port) : (d.setPort n p).out = d.out := (rfl)
@[simp] theorem Dev.setPort_fresh (d : Dev) (n : Nat) (p : Port) : (d.setPort n p).fresh = d.fresh := (rfl)
@[simp] theorem Dev.setPort_read_reg (d : Dev) (n : Nat) (p : Port) (y : Reg) : (d.setPort n p).reg y = d.reg y := (rfl)
@[simp] theorem Dev.setPort_read_rd (d : Dev) (n : Nat) (p : Port) (y : Reg) : (d.setPort n p).rd y = d.rd y := (rfl)
@[simp] theorem Dev.setPort_read_path (d : Dev) (n : Nat) (p : Port) (t : TlmPath) : (d.setPort n p).path t = d.path t := (rfl)
@[simp] theorem Dev.setPort_read_coll (d : Dev) (n : Nat) (p : Port) (x j : Nat) : (d.setPort n p).coll x j = d.coll x j := (rfl)
@[simp] theorem Dev.setPort_read_astSet (d : Dev) (n : Nat) (p : Port) (x j : Nat) :
    (d.setPort n p).astSet x j = d.astSet x j := (rfl)
@[simp] theorem Dev.setPort_read_kv (d : Dev) (n : Nat) (p : Port) (x j : Nat) : (d.setPort n p).kv x j = d.kv x j := (rfl)
@[simp] theorem Dev.setPort_read_dp (d : Dev) (n : Nat) (p : Port) (x : Nat) : (d.setPort n p).dp x = d.dp x := (rfl)
@[simp] theorem Dev.setPort_read_link (d : Dev) (n : Nat) (p : Port) (j : Nat × Nat) : (d.setPort n p).link j = d.link j := (rfl)
@[simp] theorem Dev.setPort_read_cs (d : Dev) (n : Nat) (p : Port) (x j : Nat) : (d.setPort n p).cs x j = d.cs x j := (rfl)
@[simp] theorem Dev.setPort_read_vc (d : Dev) (n : Nat) (p : Port) (x : Nat) : (d.setPort n p).vc x = d.vc x := (rfl)
theorem Dev.port_setPort (d : Dev) (n : Nat) (p : Port) (m : Nat) : (d.setPort n p).port m = if n = m then p else d.port m :=
  look_put _ _ _ _ _
@[simp] theorem Dev.port_setPort_self (d : Dev) (n : Nat) (p : Port) : (d.setPort n p).port n = p :=
  look_put_self _ _ _ _

/-! ## emit -/

@[simp] theorem Dev.emit_regs (d : Dev) (o : Out) : (d.emit o).regs = d.regs := (rfl)
@[simp] theorem Dev.emit_latches (d : Dev) (o : Out) : (d.emit o).latches = d.latches := (rfl)
@[simp] theorem Dev.emit_mem (d : Dev) (o : Out) : (d.emit o).mem = d.mem := (rfl)
@[simp] theorem Dev.emit_sem (d : Dev) (o : Out) : (d.emit o).sem = d.sem := (rfl)
@[simp] theorem Dev.emit_semSat (d : Dev) (o : Out) : (d.emit o).semSat = d.semSat := (rfl)
@[simp] theorem Dev.emit_ctr (d : Dev) (o : Out) : (d.emit o).ctr = d.ctr := (rfl)
@[simp] theorem Dev.emit_lim (d : Dev) (o : Out) : (d.emit o).lim = d.lim := (rfl)
@[simp] theorem Dev.emit_slotTab (d : Dev) (o : Out) : (d.emit o).slotTab = d.slotTab := (rfl)
@[simp] theorem Dev.emit_lflag (d : Dev) (o : Out) : (d.emit o).lflag = d.lflag := (rfl)
@[simp] theorem Dev.emit_kvtPoison (d : Dev) (o : Out) : (d.emit o).kvtPoison = d.kvtPoison := (rfl)
@[simp] theorem Dev.emit_semPoison (d : Dev) (o : Out) : (d.emit o).semPoison = d.semPoison := (rfl)
@[simp] theorem Dev.emit_created (d : Dev) (o : Out) : (d.emit o).created = d.created := (rfl)
@[simp] theorem Dev.emit_kvt (d : Dev) (o : Out) : (d.emit o).kvt = d.kvt := (rfl)
@[simp] theorem Dev.emit_taken (d : Dev) (o : Out) : (d.emit o).taken = d.taken := (rfl)
@[simp] theorem Dev.emit_fetching (d : Dev) (o : Out) : (d.emit o).fetching = d.fetching := (rfl)
@[simp] theorem Dev.emit_spillRun (d : Dev) (o : Out) : (d.emit o).spillRun = d.spillRun := (rfl)
@[simp] theorem Dev.emit_ast (d : Dev) (o : Out) : (d.emit o).ast = d.ast := (rfl)
@[simp] theorem Dev.emit_sfuValid (d : Dev) (o : Out) : (d.emit o).sfuValid = d.sfuValid := (rfl)
@[simp] theorem Dev.emit_comaValid (d : Dev) (o : Out) : (d.emit o).comaValid = d.comaValid := (rfl)
@[simp] theorem Dev.emit_tblValid (d : Dev) (o : Out) : (d.emit o).tblValid = d.tblValid := (rfl)
@[simp] theorem Dev.emit_tblUsers (d : Dev) (o : Out) : (d.emit o).tblUsers = d.tblUsers := (rfl)
@[simp] theorem Dev.emit_tblLoose (d : Dev) (o : Out) : (d.emit o).tblLoose = d.tblLoose := (rfl)
@[simp] theorem Dev.emit_cores (d : Dev) (o : Out) : (d.emit o).cores = d.cores := (rfl)
@[simp] theorem Dev.emit_mismatch (d : Dev) (o : Out) : (d.emit o).mismatch = d.mismatch := (rfl)
@[simp] theorem Dev.emit_fenced (d : Dev) (o : Out) : (d.emit o).fenced = d.fenced := (rfl)
@[simp] theorem Dev.emit_tabs (d : Dev) (o : Out) : (d.emit o).tabs = d.tabs := (rfl)
@[simp] theorem Dev.emit_peerRel (d : Dev) (o : Out) : (d.emit o).peerRel = d.peerRel := (rfl)
@[simp] theorem Dev.emit_corrected (d : Dev) (o : Out) : (d.emit o).corrected = d.corrected := (rfl)
@[simp] theorem Dev.emit_order (d : Dev) (o : Out) : (d.emit o).order = d.order := (rfl)
@[simp] theorem Dev.emit_openRows (d : Dev) (o : Out) : (d.emit o).openRows = d.openRows := (rfl)
@[simp] theorem Dev.emit_codecTurn (d : Dev) (o : Out) : (d.emit o).codecTurn = d.codecTurn := (rfl)
@[simp] theorem Dev.emit_dpw (d : Dev) (o : Out) : (d.emit o).dpw = d.dpw := (rfl)
@[simp] theorem Dev.emit_links (d : Dev) (o : Out) : (d.emit o).links = d.links := (rfl)
@[simp] theorem Dev.emit_colls (d : Dev) (o : Out) : (d.emit o).colls = d.colls := (rfl)
@[simp] theorem Dev.emit_ports (d : Dev) (o : Out) : (d.emit o).ports = d.ports := (rfl)
@[simp] theorem Dev.emit_pw (d : Dev) (o : Out) : (d.emit o).pw = d.pw := (rfl)
@[simp] theorem Dev.emit_time (d : Dev) (o : Out) : (d.emit o).time = d.time := (rfl)
@[simp] theorem Dev.emit_codec (d : Dev) (o : Out) : (d.emit o).codec = d.codec := (rfl)
@[simp] theorem Dev.emit_tlm (d : Dev) (o : Out) : (d.emit o).tlm = d.tlm := (rfl)
@[simp] theorem Dev.emit_sec (d : Dev) (o : Out) : (d.emit o).sec = d.sec := (rfl)
@[simp] theorem Dev.emit_boot (d : Dev) (o : Out) : (d.emit o).boot = d.boot := (rfl)
@[simp] theorem Dev.emit_fresh (d : Dev) (o : Out) : (d.emit o).fresh = d.fresh := (rfl)
@[simp] theorem Dev.emit_read_reg (d : Dev) (o : Out) (y : Reg) : (d.emit o).reg y = d.reg y := (rfl)
@[simp] theorem Dev.emit_read_rd (d : Dev) (o : Out) (y : Reg) : (d.emit o).rd y = d.rd y := (rfl)
@[simp] theorem Dev.emit_read_port (d : Dev) (o : Out) (m : Nat) : (d.emit o).port m = d.port m := (rfl)
@[simp] theorem Dev.emit_read_path (d : Dev) (o : Out) (t : TlmPath) : (d.emit o).path t = d.path t := (rfl)
@[simp] theorem Dev.emit_read_coll (d : Dev) (o : Out) (x j : Nat) : (d.emit o).coll x j = d.coll x j := (rfl)
@[simp] theorem Dev.emit_read_astSet (d : Dev) (o : Out) (x j : Nat) : (d.emit o).astSet x j = d.astSet x j := (rfl)
@[simp] theorem Dev.emit_read_kv (d : Dev) (o : Out) (x j : Nat) : (d.emit o).kv x j = d.kv x j := (rfl)
@[simp] theorem Dev.emit_read_dp (d : Dev) (o : Out) (x : Nat) : (d.emit o).dp x = d.dp x := (rfl)
@[simp] theorem Dev.emit_read_link (d : Dev) (o : Out) (j : Nat × Nat) : (d.emit o).link j = d.link j := (rfl)
@[simp] theorem Dev.emit_read_cs (d : Dev) (o : Out) (x j : Nat) : (d.emit o).cs x j = d.cs x j := (rfl)
@[simp] theorem Dev.emit_read_vc (d : Dev) (o : Out) (x : Nat) : (d.emit o).vc x = d.vc x := (rfl)

/-! ## setPath -/

@[simp] theorem Dev.setPath_regs (d : Dev) (p : TlmPath) (q : Path) : (d.setPath p q).regs = d.regs := (rfl)
@[simp] theorem Dev.setPath_latches (d : Dev) (p : TlmPath) (q : Path) : (d.setPath p q).latches = d.latches := (rfl)
@[simp] theorem Dev.setPath_mem (d : Dev) (p : TlmPath) (q : Path) : (d.setPath p q).mem = d.mem := (rfl)
@[simp] theorem Dev.setPath_sem (d : Dev) (p : TlmPath) (q : Path) : (d.setPath p q).sem = d.sem := (rfl)
@[simp] theorem Dev.setPath_semSat (d : Dev) (p : TlmPath) (q : Path) : (d.setPath p q).semSat = d.semSat := (rfl)
@[simp] theorem Dev.setPath_ctr (d : Dev) (p : TlmPath) (q : Path) : (d.setPath p q).ctr = d.ctr := (rfl)
@[simp] theorem Dev.setPath_lim (d : Dev) (p : TlmPath) (q : Path) : (d.setPath p q).lim = d.lim := (rfl)
@[simp] theorem Dev.setPath_slotTab (d : Dev) (p : TlmPath) (q : Path) : (d.setPath p q).slotTab = d.slotTab := (rfl)
@[simp] theorem Dev.setPath_lflag (d : Dev) (p : TlmPath) (q : Path) : (d.setPath p q).lflag = d.lflag := (rfl)
@[simp] theorem Dev.setPath_kvtPoison (d : Dev) (p : TlmPath) (q : Path) : (d.setPath p q).kvtPoison = d.kvtPoison := (rfl)
@[simp] theorem Dev.setPath_semPoison (d : Dev) (p : TlmPath) (q : Path) : (d.setPath p q).semPoison = d.semPoison := (rfl)
@[simp] theorem Dev.setPath_created (d : Dev) (p : TlmPath) (q : Path) : (d.setPath p q).created = d.created := (rfl)
@[simp] theorem Dev.setPath_kvt (d : Dev) (p : TlmPath) (q : Path) : (d.setPath p q).kvt = d.kvt := (rfl)
@[simp] theorem Dev.setPath_taken (d : Dev) (p : TlmPath) (q : Path) : (d.setPath p q).taken = d.taken := (rfl)
@[simp] theorem Dev.setPath_fetching (d : Dev) (p : TlmPath) (q : Path) : (d.setPath p q).fetching = d.fetching := (rfl)
@[simp] theorem Dev.setPath_spillRun (d : Dev) (p : TlmPath) (q : Path) : (d.setPath p q).spillRun = d.spillRun := (rfl)
@[simp] theorem Dev.setPath_ast (d : Dev) (p : TlmPath) (q : Path) : (d.setPath p q).ast = d.ast := (rfl)
@[simp] theorem Dev.setPath_sfuValid (d : Dev) (p : TlmPath) (q : Path) : (d.setPath p q).sfuValid = d.sfuValid := (rfl)
@[simp] theorem Dev.setPath_comaValid (d : Dev) (p : TlmPath) (q : Path) : (d.setPath p q).comaValid = d.comaValid := (rfl)
@[simp] theorem Dev.setPath_tblValid (d : Dev) (p : TlmPath) (q : Path) : (d.setPath p q).tblValid = d.tblValid := (rfl)
@[simp] theorem Dev.setPath_tblUsers (d : Dev) (p : TlmPath) (q : Path) : (d.setPath p q).tblUsers = d.tblUsers := (rfl)
@[simp] theorem Dev.setPath_tblLoose (d : Dev) (p : TlmPath) (q : Path) : (d.setPath p q).tblLoose = d.tblLoose := (rfl)
@[simp] theorem Dev.setPath_cores (d : Dev) (p : TlmPath) (q : Path) : (d.setPath p q).cores = d.cores := (rfl)
@[simp] theorem Dev.setPath_mismatch (d : Dev) (p : TlmPath) (q : Path) : (d.setPath p q).mismatch = d.mismatch := (rfl)
@[simp] theorem Dev.setPath_fenced (d : Dev) (p : TlmPath) (q : Path) : (d.setPath p q).fenced = d.fenced := (rfl)
@[simp] theorem Dev.setPath_tabs (d : Dev) (p : TlmPath) (q : Path) : (d.setPath p q).tabs = d.tabs := (rfl)
@[simp] theorem Dev.setPath_peerRel (d : Dev) (p : TlmPath) (q : Path) : (d.setPath p q).peerRel = d.peerRel := (rfl)
@[simp] theorem Dev.setPath_corrected (d : Dev) (p : TlmPath) (q : Path) : (d.setPath p q).corrected = d.corrected := (rfl)
@[simp] theorem Dev.setPath_order (d : Dev) (p : TlmPath) (q : Path) : (d.setPath p q).order = d.order := (rfl)
@[simp] theorem Dev.setPath_openRows (d : Dev) (p : TlmPath) (q : Path) : (d.setPath p q).openRows = d.openRows := (rfl)
@[simp] theorem Dev.setPath_codecTurn (d : Dev) (p : TlmPath) (q : Path) : (d.setPath p q).codecTurn = d.codecTurn := (rfl)
@[simp] theorem Dev.setPath_dpw (d : Dev) (p : TlmPath) (q : Path) : (d.setPath p q).dpw = d.dpw := (rfl)
@[simp] theorem Dev.setPath_links (d : Dev) (p : TlmPath) (q : Path) : (d.setPath p q).links = d.links := (rfl)
@[simp] theorem Dev.setPath_colls (d : Dev) (p : TlmPath) (q : Path) : (d.setPath p q).colls = d.colls := (rfl)
@[simp] theorem Dev.setPath_ports (d : Dev) (p : TlmPath) (q : Path) : (d.setPath p q).ports = d.ports := (rfl)
@[simp] theorem Dev.setPath_pw (d : Dev) (p : TlmPath) (q : Path) : (d.setPath p q).pw = d.pw := (rfl)
@[simp] theorem Dev.setPath_time (d : Dev) (p : TlmPath) (q : Path) : (d.setPath p q).time = d.time := (rfl)
@[simp] theorem Dev.setPath_codec (d : Dev) (p : TlmPath) (q : Path) : (d.setPath p q).codec = d.codec := (rfl)
@[simp] theorem Dev.setPath_sec (d : Dev) (p : TlmPath) (q : Path) : (d.setPath p q).sec = d.sec := (rfl)
@[simp] theorem Dev.setPath_boot (d : Dev) (p : TlmPath) (q : Path) : (d.setPath p q).boot = d.boot := (rfl)
@[simp] theorem Dev.setPath_out (d : Dev) (p : TlmPath) (q : Path) : (d.setPath p q).out = d.out := (rfl)
@[simp] theorem Dev.setPath_fresh (d : Dev) (p : TlmPath) (q : Path) : (d.setPath p q).fresh = d.fresh := (rfl)
@[simp] theorem Dev.setPath_read_reg (d : Dev) (p : TlmPath) (q : Path) (y : Reg) : (d.setPath p q).reg y = d.reg y := (rfl)
@[simp] theorem Dev.setPath_read_rd (d : Dev) (p : TlmPath) (q : Path) (y : Reg) : (d.setPath p q).rd y = d.rd y := (rfl)
@[simp] theorem Dev.setPath_read_port (d : Dev) (p : TlmPath) (q : Path) (m : Nat) : (d.setPath p q).port m = d.port m := (rfl)
@[simp] theorem Dev.setPath_read_coll (d : Dev) (p : TlmPath) (q : Path) (x j : Nat) :
    (d.setPath p q).coll x j = d.coll x j := (rfl)
@[simp] theorem Dev.setPath_read_astSet (d : Dev) (p : TlmPath) (q : Path) (x j : Nat) :
    (d.setPath p q).astSet x j = d.astSet x j := (rfl)
@[simp] theorem Dev.setPath_read_kv (d : Dev) (p : TlmPath) (q : Path) (x j : Nat) : (d.setPath p q).kv x j = d.kv x j := (rfl)
@[simp] theorem Dev.setPath_read_dp (d : Dev) (p : TlmPath) (q : Path) (x : Nat) : (d.setPath p q).dp x = d.dp x := (rfl)
@[simp] theorem Dev.setPath_read_link (d : Dev) (p : TlmPath) (q : Path) (j : Nat × Nat) :
    (d.setPath p q).link j = d.link j := (rfl)
@[simp] theorem Dev.setPath_read_cs (d : Dev) (p : TlmPath) (q : Path) (x j : Nat) : (d.setPath p q).cs x j = d.cs x j := (rfl)
@[simp] theorem Dev.setPath_read_vc (d : Dev) (p : TlmPath) (q : Path) (x : Nat) : (d.setPath p q).vc x = d.vc x := (rfl)
theorem Dev.path_setPath (d : Dev) (p : TlmPath) (q : Path) (t : TlmPath) :
    (d.setPath p q).path t = if p = t then q else d.path t :=
  look_put _ _ _ _ _
@[simp] theorem Dev.path_setPath_self (d : Dev) (p : TlmPath) (q : Path) : (d.setPath p q).path p = q :=
  look_put_self _ _ _ _

/-! ## setColl -/

@[simp] theorem Dev.setColl_regs (d : Dev) (die id : Nat) (c : Coll) : (d.setColl die id c).regs = d.regs := (rfl)
@[simp] theorem Dev.setColl_latches (d : Dev) (die id : Nat) (c : Coll) : (d.setColl die id c).latches = d.latches := (rfl)
@[simp] theorem Dev.setColl_mem (d : Dev) (die id : Nat) (c : Coll) : (d.setColl die id c).mem = d.mem := (rfl)
@[simp] theorem Dev.setColl_sem (d : Dev) (die id : Nat) (c : Coll) : (d.setColl die id c).sem = d.sem := (rfl)
@[simp] theorem Dev.setColl_semSat (d : Dev) (die id : Nat) (c : Coll) : (d.setColl die id c).semSat = d.semSat := (rfl)
@[simp] theorem Dev.setColl_ctr (d : Dev) (die id : Nat) (c : Coll) : (d.setColl die id c).ctr = d.ctr := (rfl)
@[simp] theorem Dev.setColl_lim (d : Dev) (die id : Nat) (c : Coll) : (d.setColl die id c).lim = d.lim := (rfl)
@[simp] theorem Dev.setColl_slotTab (d : Dev) (die id : Nat) (c : Coll) : (d.setColl die id c).slotTab = d.slotTab := (rfl)
@[simp] theorem Dev.setColl_lflag (d : Dev) (die id : Nat) (c : Coll) : (d.setColl die id c).lflag = d.lflag := (rfl)
@[simp] theorem Dev.setColl_kvtPoison (d : Dev) (die id : Nat) (c : Coll) : (d.setColl die id c).kvtPoison = d.kvtPoison := (rfl)
@[simp] theorem Dev.setColl_semPoison (d : Dev) (die id : Nat) (c : Coll) : (d.setColl die id c).semPoison = d.semPoison := (rfl)
@[simp] theorem Dev.setColl_created (d : Dev) (die id : Nat) (c : Coll) : (d.setColl die id c).created = d.created := (rfl)
@[simp] theorem Dev.setColl_kvt (d : Dev) (die id : Nat) (c : Coll) : (d.setColl die id c).kvt = d.kvt := (rfl)
@[simp] theorem Dev.setColl_taken (d : Dev) (die id : Nat) (c : Coll) : (d.setColl die id c).taken = d.taken := (rfl)
@[simp] theorem Dev.setColl_fetching (d : Dev) (die id : Nat) (c : Coll) : (d.setColl die id c).fetching = d.fetching := (rfl)
@[simp] theorem Dev.setColl_spillRun (d : Dev) (die id : Nat) (c : Coll) : (d.setColl die id c).spillRun = d.spillRun := (rfl)
@[simp] theorem Dev.setColl_ast (d : Dev) (die id : Nat) (c : Coll) : (d.setColl die id c).ast = d.ast := (rfl)
@[simp] theorem Dev.setColl_sfuValid (d : Dev) (die id : Nat) (c : Coll) : (d.setColl die id c).sfuValid = d.sfuValid := (rfl)
@[simp] theorem Dev.setColl_comaValid (d : Dev) (die id : Nat) (c : Coll) : (d.setColl die id c).comaValid = d.comaValid := (rfl)
@[simp] theorem Dev.setColl_tblValid (d : Dev) (die id : Nat) (c : Coll) : (d.setColl die id c).tblValid = d.tblValid := (rfl)
@[simp] theorem Dev.setColl_tblUsers (d : Dev) (die id : Nat) (c : Coll) : (d.setColl die id c).tblUsers = d.tblUsers := (rfl)
@[simp] theorem Dev.setColl_tblLoose (d : Dev) (die id : Nat) (c : Coll) : (d.setColl die id c).tblLoose = d.tblLoose := (rfl)
@[simp] theorem Dev.setColl_cores (d : Dev) (die id : Nat) (c : Coll) : (d.setColl die id c).cores = d.cores := (rfl)
@[simp] theorem Dev.setColl_mismatch (d : Dev) (die id : Nat) (c : Coll) : (d.setColl die id c).mismatch = d.mismatch := (rfl)
@[simp] theorem Dev.setColl_fenced (d : Dev) (die id : Nat) (c : Coll) : (d.setColl die id c).fenced = d.fenced := (rfl)
@[simp] theorem Dev.setColl_tabs (d : Dev) (die id : Nat) (c : Coll) : (d.setColl die id c).tabs = d.tabs := (rfl)
@[simp] theorem Dev.setColl_peerRel (d : Dev) (die id : Nat) (c : Coll) : (d.setColl die id c).peerRel = d.peerRel := (rfl)
@[simp] theorem Dev.setColl_corrected (d : Dev) (die id : Nat) (c : Coll) : (d.setColl die id c).corrected = d.corrected := (rfl)
@[simp] theorem Dev.setColl_order (d : Dev) (die id : Nat) (c : Coll) : (d.setColl die id c).order = d.order := (rfl)
@[simp] theorem Dev.setColl_openRows (d : Dev) (die id : Nat) (c : Coll) : (d.setColl die id c).openRows = d.openRows := (rfl)
@[simp] theorem Dev.setColl_codecTurn (d : Dev) (die id : Nat) (c : Coll) : (d.setColl die id c).codecTurn = d.codecTurn := (rfl)
@[simp] theorem Dev.setColl_dpw (d : Dev) (die id : Nat) (c : Coll) : (d.setColl die id c).dpw = d.dpw := (rfl)
@[simp] theorem Dev.setColl_links (d : Dev) (die id : Nat) (c : Coll) : (d.setColl die id c).links = d.links := (rfl)
@[simp] theorem Dev.setColl_ports (d : Dev) (die id : Nat) (c : Coll) : (d.setColl die id c).ports = d.ports := (rfl)
@[simp] theorem Dev.setColl_pw (d : Dev) (die id : Nat) (c : Coll) : (d.setColl die id c).pw = d.pw := (rfl)
@[simp] theorem Dev.setColl_time (d : Dev) (die id : Nat) (c : Coll) : (d.setColl die id c).time = d.time := (rfl)
@[simp] theorem Dev.setColl_codec (d : Dev) (die id : Nat) (c : Coll) : (d.setColl die id c).codec = d.codec := (rfl)
@[simp] theorem Dev.setColl_tlm (d : Dev) (die id : Nat) (c : Coll) : (d.setColl die id c).tlm = d.tlm := (rfl)
@[simp] theorem Dev.setColl_sec (d : Dev) (die id : Nat) (c : Coll) : (d.setColl die id c).sec = d.sec := (rfl)
@[simp] theorem Dev.setColl_boot (d : Dev) (die id : Nat) (c : Coll) : (d.setColl die id c).boot = d.boot := (rfl)
@[simp] theorem Dev.setColl_out (d : Dev) (die id : Nat) (c : Coll) : (d.setColl die id c).out = d.out := (rfl)
@[simp] theorem Dev.setColl_fresh (d : Dev) (die id : Nat) (c : Coll) : (d.setColl die id c).fresh = d.fresh := (rfl)
@[simp] theorem Dev.setColl_read_reg (d : Dev) (die id : Nat) (c : Coll) (y : Reg) : (d.setColl die id c).reg y = d.reg y := (rfl)
@[simp] theorem Dev.setColl_read_rd (d : Dev) (die id : Nat) (c : Coll) (y : Reg) : (d.setColl die id c).rd y = d.rd y := (rfl)
@[simp] theorem Dev.setColl_read_port (d : Dev) (die id : Nat) (c : Coll) (m : Nat) :
    (d.setColl die id c).port m = d.port m := (rfl)
@[simp] theorem Dev.setColl_read_path (d : Dev) (die id : Nat) (c : Coll) (t : TlmPath) :
    (d.setColl die id c).path t = d.path t := (rfl)
@[simp] theorem Dev.setColl_read_astSet (d : Dev) (die id : Nat) (c : Coll) (x j : Nat) :
    (d.setColl die id c).astSet x j = d.astSet x j := (rfl)
@[simp] theorem Dev.setColl_read_kv (d : Dev) (die id : Nat) (c : Coll) (x j : Nat) :
    (d.setColl die id c).kv x j = d.kv x j := (rfl)
@[simp] theorem Dev.setColl_read_dp (d : Dev) (die id : Nat) (c : Coll) (x : Nat) : (d.setColl die id c).dp x = d.dp x := (rfl)
@[simp] theorem Dev.setColl_read_link (d : Dev) (die id : Nat) (c : Coll) (j : Nat × Nat) :
    (d.setColl die id c).link j = d.link j := (rfl)
@[simp] theorem Dev.setColl_read_cs (d : Dev) (die id : Nat) (c : Coll) (x j : Nat) :
    (d.setColl die id c).cs x j = d.cs x j := (rfl)
@[simp] theorem Dev.setColl_read_vc (d : Dev) (die id : Nat) (c : Coll) (x : Nat) : (d.setColl die id c).vc x = d.vc x := (rfl)
theorem Dev.coll_setColl (d : Dev) (die id : Nat) (c : Coll) (x j : Nat) :
    (d.setColl die id c).coll x j = if (die, id) = (x, j) then c else d.coll x j :=
  look_put _ _ _ _ _
@[simp] theorem Dev.coll_setColl_self (d : Dev) (die id : Nat) (c : Coll) : (d.setColl die id c).coll die id = c :=
  look_put_self _ _ _ _

/-! ## setAst -/

@[simp] theorem Dev.setAst_regs (d : Dev) (die slot : Nat) (a : AstSet) : (d.setAst die slot a).regs = d.regs := (rfl)
@[simp] theorem Dev.setAst_latches (d : Dev) (die slot : Nat) (a : AstSet) : (d.setAst die slot a).latches = d.latches := (rfl)
@[simp] theorem Dev.setAst_mem (d : Dev) (die slot : Nat) (a : AstSet) : (d.setAst die slot a).mem = d.mem := (rfl)
@[simp] theorem Dev.setAst_sem (d : Dev) (die slot : Nat) (a : AstSet) : (d.setAst die slot a).sem = d.sem := (rfl)
@[simp] theorem Dev.setAst_semSat (d : Dev) (die slot : Nat) (a : AstSet) : (d.setAst die slot a).semSat = d.semSat := (rfl)
@[simp] theorem Dev.setAst_ctr (d : Dev) (die slot : Nat) (a : AstSet) : (d.setAst die slot a).ctr = d.ctr := (rfl)
@[simp] theorem Dev.setAst_lim (d : Dev) (die slot : Nat) (a : AstSet) : (d.setAst die slot a).lim = d.lim := (rfl)
@[simp] theorem Dev.setAst_slotTab (d : Dev) (die slot : Nat) (a : AstSet) : (d.setAst die slot a).slotTab = d.slotTab := (rfl)
@[simp] theorem Dev.setAst_lflag (d : Dev) (die slot : Nat) (a : AstSet) : (d.setAst die slot a).lflag = d.lflag := (rfl)
@[simp] theorem Dev.setAst_kvtPoison (d : Dev) (die slot : Nat) (a : AstSet) : (d.setAst die slot a).kvtPoison = d.kvtPoison := (rfl)
@[simp] theorem Dev.setAst_semPoison (d : Dev) (die slot : Nat) (a : AstSet) : (d.setAst die slot a).semPoison = d.semPoison := (rfl)
@[simp] theorem Dev.setAst_created (d : Dev) (die slot : Nat) (a : AstSet) : (d.setAst die slot a).created = d.created := (rfl)
@[simp] theorem Dev.setAst_kvt (d : Dev) (die slot : Nat) (a : AstSet) : (d.setAst die slot a).kvt = d.kvt := (rfl)
@[simp] theorem Dev.setAst_taken (d : Dev) (die slot : Nat) (a : AstSet) : (d.setAst die slot a).taken = d.taken := (rfl)
@[simp] theorem Dev.setAst_fetching (d : Dev) (die slot : Nat) (a : AstSet) : (d.setAst die slot a).fetching = d.fetching := (rfl)
@[simp] theorem Dev.setAst_spillRun (d : Dev) (die slot : Nat) (a : AstSet) : (d.setAst die slot a).spillRun = d.spillRun := (rfl)
@[simp] theorem Dev.setAst_sfuValid (d : Dev) (die slot : Nat) (a : AstSet) : (d.setAst die slot a).sfuValid = d.sfuValid := (rfl)
@[simp] theorem Dev.setAst_comaValid (d : Dev) (die slot : Nat) (a : AstSet) :
    (d.setAst die slot a).comaValid = d.comaValid := (rfl)
@[simp] theorem Dev.setAst_tblValid (d : Dev) (die slot : Nat) (a : AstSet) : (d.setAst die slot a).tblValid = d.tblValid := (rfl)
@[simp] theorem Dev.setAst_tblUsers (d : Dev) (die slot : Nat) (a : AstSet) : (d.setAst die slot a).tblUsers = d.tblUsers := (rfl)
@[simp] theorem Dev.setAst_tblLoose (d : Dev) (die slot : Nat) (a : AstSet) : (d.setAst die slot a).tblLoose = d.tblLoose := (rfl)
@[simp] theorem Dev.setAst_cores (d : Dev) (die slot : Nat) (a : AstSet) : (d.setAst die slot a).cores = d.cores := (rfl)
@[simp] theorem Dev.setAst_mismatch (d : Dev) (die slot : Nat) (a : AstSet) : (d.setAst die slot a).mismatch = d.mismatch := (rfl)
@[simp] theorem Dev.setAst_fenced (d : Dev) (die slot : Nat) (a : AstSet) : (d.setAst die slot a).fenced = d.fenced := (rfl)
@[simp] theorem Dev.setAst_tabs (d : Dev) (die slot : Nat) (a : AstSet) : (d.setAst die slot a).tabs = d.tabs := (rfl)
@[simp] theorem Dev.setAst_peerRel (d : Dev) (die slot : Nat) (a : AstSet) : (d.setAst die slot a).peerRel = d.peerRel := (rfl)
@[simp] theorem Dev.setAst_corrected (d : Dev) (die slot : Nat) (a : AstSet) :
    (d.setAst die slot a).corrected = d.corrected := (rfl)
@[simp] theorem Dev.setAst_order (d : Dev) (die slot : Nat) (a : AstSet) : (d.setAst die slot a).order = d.order := (rfl)
@[simp] theorem Dev.setAst_openRows (d : Dev) (die slot : Nat) (a : AstSet) : (d.setAst die slot a).openRows = d.openRows := (rfl)
@[simp] theorem Dev.setAst_codecTurn (d : Dev) (die slot : Nat) (a : AstSet) :
    (d.setAst die slot a).codecTurn = d.codecTurn := (rfl)
@[simp] theorem Dev.setAst_dpw (d : Dev) (die slot : Nat) (a : AstSet) : (d.setAst die slot a).dpw = d.dpw := (rfl)
@[simp] theorem Dev.setAst_links (d : Dev) (die slot : Nat) (a : AstSet) : (d.setAst die slot a).links = d.links := (rfl)
@[simp] theorem Dev.setAst_colls (d : Dev) (die slot : Nat) (a : AstSet) : (d.setAst die slot a).colls = d.colls := (rfl)
@[simp] theorem Dev.setAst_ports (d : Dev) (die slot : Nat) (a : AstSet) : (d.setAst die slot a).ports = d.ports := (rfl)
@[simp] theorem Dev.setAst_pw (d : Dev) (die slot : Nat) (a : AstSet) : (d.setAst die slot a).pw = d.pw := (rfl)
@[simp] theorem Dev.setAst_time (d : Dev) (die slot : Nat) (a : AstSet) : (d.setAst die slot a).time = d.time := (rfl)
@[simp] theorem Dev.setAst_codec (d : Dev) (die slot : Nat) (a : AstSet) : (d.setAst die slot a).codec = d.codec := (rfl)
@[simp] theorem Dev.setAst_tlm (d : Dev) (die slot : Nat) (a : AstSet) : (d.setAst die slot a).tlm = d.tlm := (rfl)
@[simp] theorem Dev.setAst_sec (d : Dev) (die slot : Nat) (a : AstSet) : (d.setAst die slot a).sec = d.sec := (rfl)
@[simp] theorem Dev.setAst_boot (d : Dev) (die slot : Nat) (a : AstSet) : (d.setAst die slot a).boot = d.boot := (rfl)
@[simp] theorem Dev.setAst_out (d : Dev) (die slot : Nat) (a : AstSet) : (d.setAst die slot a).out = d.out := (rfl)
@[simp] theorem Dev.setAst_fresh (d : Dev) (die slot : Nat) (a : AstSet) : (d.setAst die slot a).fresh = d.fresh := (rfl)
@[simp] theorem Dev.setAst_read_reg (d : Dev) (die slot : Nat) (a : AstSet) (y : Reg) :
    (d.setAst die slot a).reg y = d.reg y := (rfl)
@[simp] theorem Dev.setAst_read_rd (d : Dev) (die slot : Nat) (a : AstSet) (y : Reg) :
    (d.setAst die slot a).rd y = d.rd y := (rfl)
@[simp] theorem Dev.setAst_read_port (d : Dev) (die slot : Nat) (a : AstSet) (m : Nat) :
    (d.setAst die slot a).port m = d.port m := (rfl)
@[simp] theorem Dev.setAst_read_path (d : Dev) (die slot : Nat) (a : AstSet) (t : TlmPath) :
    (d.setAst die slot a).path t = d.path t := (rfl)
@[simp] theorem Dev.setAst_read_coll (d : Dev) (die slot : Nat) (a : AstSet) (x j : Nat) :
    (d.setAst die slot a).coll x j = d.coll x j := (rfl)
@[simp] theorem Dev.setAst_read_kv (d : Dev) (die slot : Nat) (a : AstSet) (x j : Nat) :
    (d.setAst die slot a).kv x j = d.kv x j := (rfl)
@[simp] theorem Dev.setAst_read_dp (d : Dev) (die slot : Nat) (a : AstSet) (x : Nat) :
    (d.setAst die slot a).dp x = d.dp x := (rfl)
@[simp] theorem Dev.setAst_read_link (d : Dev) (die slot : Nat) (a : AstSet) (j : Nat × Nat) :
    (d.setAst die slot a).link j = d.link j := (rfl)
@[simp] theorem Dev.setAst_read_cs (d : Dev) (die slot : Nat) (a : AstSet) (x j : Nat) :
    (d.setAst die slot a).cs x j = d.cs x j := (rfl)
@[simp] theorem Dev.setAst_read_vc (d : Dev) (die slot : Nat) (a : AstSet) (x : Nat) :
    (d.setAst die slot a).vc x = d.vc x := (rfl)
theorem Dev.astSet_setAst (d : Dev) (die slot : Nat) (a : AstSet) (x j : Nat) :
    (d.setAst die slot a).astSet x j = if (die, slot) = (x, j) then a else d.astSet x j :=
  look_put _ _ _ _ _
@[simp] theorem Dev.astSet_setAst_self (d : Dev) (die slot : Nat) (a : AstSet) : (d.setAst die slot a).astSet die slot = a :=
  look_put_self _ _ _ _

/-! ## setKv -/

@[simp] theorem Dev.setKv_regs (d : Dev) (die i : Nat) (e : KvtEnt) : (d.setKv die i e).regs = d.regs := (rfl)
@[simp] theorem Dev.setKv_latches (d : Dev) (die i : Nat) (e : KvtEnt) : (d.setKv die i e).latches = d.latches := (rfl)
@[simp] theorem Dev.setKv_mem (d : Dev) (die i : Nat) (e : KvtEnt) : (d.setKv die i e).mem = d.mem := (rfl)
@[simp] theorem Dev.setKv_sem (d : Dev) (die i : Nat) (e : KvtEnt) : (d.setKv die i e).sem = d.sem := (rfl)
@[simp] theorem Dev.setKv_semSat (d : Dev) (die i : Nat) (e : KvtEnt) : (d.setKv die i e).semSat = d.semSat := (rfl)
@[simp] theorem Dev.setKv_ctr (d : Dev) (die i : Nat) (e : KvtEnt) : (d.setKv die i e).ctr = d.ctr := (rfl)
@[simp] theorem Dev.setKv_lim (d : Dev) (die i : Nat) (e : KvtEnt) : (d.setKv die i e).lim = d.lim := (rfl)
@[simp] theorem Dev.setKv_slotTab (d : Dev) (die i : Nat) (e : KvtEnt) : (d.setKv die i e).slotTab = d.slotTab := (rfl)
@[simp] theorem Dev.setKv_lflag (d : Dev) (die i : Nat) (e : KvtEnt) : (d.setKv die i e).lflag = d.lflag := (rfl)
@[simp] theorem Dev.setKv_kvtPoison (d : Dev) (die i : Nat) (e : KvtEnt) : (d.setKv die i e).kvtPoison = d.kvtPoison := (rfl)
@[simp] theorem Dev.setKv_semPoison (d : Dev) (die i : Nat) (e : KvtEnt) : (d.setKv die i e).semPoison = d.semPoison := (rfl)
@[simp] theorem Dev.setKv_created (d : Dev) (die i : Nat) (e : KvtEnt) : (d.setKv die i e).created = d.created := (rfl)
@[simp] theorem Dev.setKv_taken (d : Dev) (die i : Nat) (e : KvtEnt) : (d.setKv die i e).taken = d.taken := (rfl)
@[simp] theorem Dev.setKv_fetching (d : Dev) (die i : Nat) (e : KvtEnt) : (d.setKv die i e).fetching = d.fetching := (rfl)
@[simp] theorem Dev.setKv_spillRun (d : Dev) (die i : Nat) (e : KvtEnt) : (d.setKv die i e).spillRun = d.spillRun := (rfl)
@[simp] theorem Dev.setKv_ast (d : Dev) (die i : Nat) (e : KvtEnt) : (d.setKv die i e).ast = d.ast := (rfl)
@[simp] theorem Dev.setKv_sfuValid (d : Dev) (die i : Nat) (e : KvtEnt) : (d.setKv die i e).sfuValid = d.sfuValid := (rfl)
@[simp] theorem Dev.setKv_comaValid (d : Dev) (die i : Nat) (e : KvtEnt) : (d.setKv die i e).comaValid = d.comaValid := (rfl)
@[simp] theorem Dev.setKv_tblValid (d : Dev) (die i : Nat) (e : KvtEnt) : (d.setKv die i e).tblValid = d.tblValid := (rfl)
@[simp] theorem Dev.setKv_tblUsers (d : Dev) (die i : Nat) (e : KvtEnt) : (d.setKv die i e).tblUsers = d.tblUsers := (rfl)
@[simp] theorem Dev.setKv_tblLoose (d : Dev) (die i : Nat) (e : KvtEnt) : (d.setKv die i e).tblLoose = d.tblLoose := (rfl)
@[simp] theorem Dev.setKv_cores (d : Dev) (die i : Nat) (e : KvtEnt) : (d.setKv die i e).cores = d.cores := (rfl)
@[simp] theorem Dev.setKv_mismatch (d : Dev) (die i : Nat) (e : KvtEnt) : (d.setKv die i e).mismatch = d.mismatch := (rfl)
@[simp] theorem Dev.setKv_fenced (d : Dev) (die i : Nat) (e : KvtEnt) : (d.setKv die i e).fenced = d.fenced := (rfl)
@[simp] theorem Dev.setKv_tabs (d : Dev) (die i : Nat) (e : KvtEnt) : (d.setKv die i e).tabs = d.tabs := (rfl)
@[simp] theorem Dev.setKv_peerRel (d : Dev) (die i : Nat) (e : KvtEnt) : (d.setKv die i e).peerRel = d.peerRel := (rfl)
@[simp] theorem Dev.setKv_corrected (d : Dev) (die i : Nat) (e : KvtEnt) : (d.setKv die i e).corrected = d.corrected := (rfl)
@[simp] theorem Dev.setKv_order (d : Dev) (die i : Nat) (e : KvtEnt) : (d.setKv die i e).order = d.order := (rfl)
@[simp] theorem Dev.setKv_openRows (d : Dev) (die i : Nat) (e : KvtEnt) : (d.setKv die i e).openRows = d.openRows := (rfl)
@[simp] theorem Dev.setKv_codecTurn (d : Dev) (die i : Nat) (e : KvtEnt) : (d.setKv die i e).codecTurn = d.codecTurn := (rfl)
@[simp] theorem Dev.setKv_dpw (d : Dev) (die i : Nat) (e : KvtEnt) : (d.setKv die i e).dpw = d.dpw := (rfl)
@[simp] theorem Dev.setKv_links (d : Dev) (die i : Nat) (e : KvtEnt) : (d.setKv die i e).links = d.links := (rfl)
@[simp] theorem Dev.setKv_colls (d : Dev) (die i : Nat) (e : KvtEnt) : (d.setKv die i e).colls = d.colls := (rfl)
@[simp] theorem Dev.setKv_ports (d : Dev) (die i : Nat) (e : KvtEnt) : (d.setKv die i e).ports = d.ports := (rfl)
@[simp] theorem Dev.setKv_pw (d : Dev) (die i : Nat) (e : KvtEnt) : (d.setKv die i e).pw = d.pw := (rfl)
@[simp] theorem Dev.setKv_time (d : Dev) (die i : Nat) (e : KvtEnt) : (d.setKv die i e).time = d.time := (rfl)
@[simp] theorem Dev.setKv_codec (d : Dev) (die i : Nat) (e : KvtEnt) : (d.setKv die i e).codec = d.codec := (rfl)
@[simp] theorem Dev.setKv_tlm (d : Dev) (die i : Nat) (e : KvtEnt) : (d.setKv die i e).tlm = d.tlm := (rfl)
@[simp] theorem Dev.setKv_sec (d : Dev) (die i : Nat) (e : KvtEnt) : (d.setKv die i e).sec = d.sec := (rfl)
@[simp] theorem Dev.setKv_boot (d : Dev) (die i : Nat) (e : KvtEnt) : (d.setKv die i e).boot = d.boot := (rfl)
@[simp] theorem Dev.setKv_out (d : Dev) (die i : Nat) (e : KvtEnt) : (d.setKv die i e).out = d.out := (rfl)
@[simp] theorem Dev.setKv_fresh (d : Dev) (die i : Nat) (e : KvtEnt) : (d.setKv die i e).fresh = d.fresh := (rfl)
@[simp] theorem Dev.setKv_read_reg (d : Dev) (die i : Nat) (e : KvtEnt) (y : Reg) : (d.setKv die i e).reg y = d.reg y := (rfl)
@[simp] theorem Dev.setKv_read_rd (d : Dev) (die i : Nat) (e : KvtEnt) (y : Reg) : (d.setKv die i e).rd y = d.rd y := (rfl)
@[simp] theorem Dev.setKv_read_port (d : Dev) (die i : Nat) (e : KvtEnt) (m : Nat) : (d.setKv die i e).port m = d.port m := (rfl)
@[simp] theorem Dev.setKv_read_path (d : Dev) (die i : Nat) (e : KvtEnt) (t : TlmPath) :
    (d.setKv die i e).path t = d.path t := (rfl)
@[simp] theorem Dev.setKv_read_coll (d : Dev) (die i : Nat) (e : KvtEnt) (x j : Nat) :
    (d.setKv die i e).coll x j = d.coll x j := (rfl)
@[simp] theorem Dev.setKv_read_astSet (d : Dev) (die i : Nat) (e : KvtEnt) (x j : Nat) :
    (d.setKv die i e).astSet x j = d.astSet x j := (rfl)
@[simp] theorem Dev.setKv_read_dp (d : Dev) (die i : Nat) (e : KvtEnt) (x : Nat) : (d.setKv die i e).dp x = d.dp x := (rfl)
@[simp] theorem Dev.setKv_read_link (d : Dev) (die i : Nat) (e : KvtEnt) (j : Nat × Nat) :
    (d.setKv die i e).link j = d.link j := (rfl)
@[simp] theorem Dev.setKv_read_cs (d : Dev) (die i : Nat) (e : KvtEnt) (x j : Nat) : (d.setKv die i e).cs x j = d.cs x j := (rfl)
@[simp] theorem Dev.setKv_read_vc (d : Dev) (die i : Nat) (e : KvtEnt) (x : Nat) : (d.setKv die i e).vc x = d.vc x := (rfl)
theorem Dev.kv_setKv (d : Dev) (die i : Nat) (e : KvtEnt) (x j : Nat) :
    (d.setKv die i e).kv x j = if (die, i) = (x, j) then e else d.kv x j :=
  look_put _ _ _ _ _
@[simp] theorem Dev.kv_setKv_self (d : Dev) (die i : Nat) (e : KvtEnt) : (d.setKv die i e).kv die i = e :=
  look_put_self _ _ _ _

/-! ## setDp -/

@[simp] theorem Dev.setDp_regs (d : Dev) (die : Nat) (q : DiePw) : (d.setDp die q).regs = d.regs := (rfl)
@[simp] theorem Dev.setDp_latches (d : Dev) (die : Nat) (q : DiePw) : (d.setDp die q).latches = d.latches := (rfl)
@[simp] theorem Dev.setDp_mem (d : Dev) (die : Nat) (q : DiePw) : (d.setDp die q).mem = d.mem := (rfl)
@[simp] theorem Dev.setDp_sem (d : Dev) (die : Nat) (q : DiePw) : (d.setDp die q).sem = d.sem := (rfl)
@[simp] theorem Dev.setDp_semSat (d : Dev) (die : Nat) (q : DiePw) : (d.setDp die q).semSat = d.semSat := (rfl)
@[simp] theorem Dev.setDp_ctr (d : Dev) (die : Nat) (q : DiePw) : (d.setDp die q).ctr = d.ctr := (rfl)
@[simp] theorem Dev.setDp_lim (d : Dev) (die : Nat) (q : DiePw) : (d.setDp die q).lim = d.lim := (rfl)
@[simp] theorem Dev.setDp_slotTab (d : Dev) (die : Nat) (q : DiePw) : (d.setDp die q).slotTab = d.slotTab := (rfl)
@[simp] theorem Dev.setDp_lflag (d : Dev) (die : Nat) (q : DiePw) : (d.setDp die q).lflag = d.lflag := (rfl)
@[simp] theorem Dev.setDp_kvtPoison (d : Dev) (die : Nat) (q : DiePw) : (d.setDp die q).kvtPoison = d.kvtPoison := (rfl)
@[simp] theorem Dev.setDp_semPoison (d : Dev) (die : Nat) (q : DiePw) : (d.setDp die q).semPoison = d.semPoison := (rfl)
@[simp] theorem Dev.setDp_created (d : Dev) (die : Nat) (q : DiePw) : (d.setDp die q).created = d.created := (rfl)
@[simp] theorem Dev.setDp_kvt (d : Dev) (die : Nat) (q : DiePw) : (d.setDp die q).kvt = d.kvt := (rfl)
@[simp] theorem Dev.setDp_taken (d : Dev) (die : Nat) (q : DiePw) : (d.setDp die q).taken = d.taken := (rfl)
@[simp] theorem Dev.setDp_fetching (d : Dev) (die : Nat) (q : DiePw) : (d.setDp die q).fetching = d.fetching := (rfl)
@[simp] theorem Dev.setDp_spillRun (d : Dev) (die : Nat) (q : DiePw) : (d.setDp die q).spillRun = d.spillRun := (rfl)
@[simp] theorem Dev.setDp_ast (d : Dev) (die : Nat) (q : DiePw) : (d.setDp die q).ast = d.ast := (rfl)
@[simp] theorem Dev.setDp_sfuValid (d : Dev) (die : Nat) (q : DiePw) : (d.setDp die q).sfuValid = d.sfuValid := (rfl)
@[simp] theorem Dev.setDp_comaValid (d : Dev) (die : Nat) (q : DiePw) : (d.setDp die q).comaValid = d.comaValid := (rfl)
@[simp] theorem Dev.setDp_tblValid (d : Dev) (die : Nat) (q : DiePw) : (d.setDp die q).tblValid = d.tblValid := (rfl)
@[simp] theorem Dev.setDp_tblUsers (d : Dev) (die : Nat) (q : DiePw) : (d.setDp die q).tblUsers = d.tblUsers := (rfl)
@[simp] theorem Dev.setDp_tblLoose (d : Dev) (die : Nat) (q : DiePw) : (d.setDp die q).tblLoose = d.tblLoose := (rfl)
@[simp] theorem Dev.setDp_cores (d : Dev) (die : Nat) (q : DiePw) : (d.setDp die q).cores = d.cores := (rfl)
@[simp] theorem Dev.setDp_mismatch (d : Dev) (die : Nat) (q : DiePw) : (d.setDp die q).mismatch = d.mismatch := (rfl)
@[simp] theorem Dev.setDp_fenced (d : Dev) (die : Nat) (q : DiePw) : (d.setDp die q).fenced = d.fenced := (rfl)
@[simp] theorem Dev.setDp_tabs (d : Dev) (die : Nat) (q : DiePw) : (d.setDp die q).tabs = d.tabs := (rfl)
@[simp] theorem Dev.setDp_peerRel (d : Dev) (die : Nat) (q : DiePw) : (d.setDp die q).peerRel = d.peerRel := (rfl)
@[simp] theorem Dev.setDp_corrected (d : Dev) (die : Nat) (q : DiePw) : (d.setDp die q).corrected = d.corrected := (rfl)
@[simp] theorem Dev.setDp_order (d : Dev) (die : Nat) (q : DiePw) : (d.setDp die q).order = d.order := (rfl)
@[simp] theorem Dev.setDp_openRows (d : Dev) (die : Nat) (q : DiePw) : (d.setDp die q).openRows = d.openRows := (rfl)
@[simp] theorem Dev.setDp_codecTurn (d : Dev) (die : Nat) (q : DiePw) : (d.setDp die q).codecTurn = d.codecTurn := (rfl)
@[simp] theorem Dev.setDp_links (d : Dev) (die : Nat) (q : DiePw) : (d.setDp die q).links = d.links := (rfl)
@[simp] theorem Dev.setDp_colls (d : Dev) (die : Nat) (q : DiePw) : (d.setDp die q).colls = d.colls := (rfl)
@[simp] theorem Dev.setDp_ports (d : Dev) (die : Nat) (q : DiePw) : (d.setDp die q).ports = d.ports := (rfl)
@[simp] theorem Dev.setDp_pw (d : Dev) (die : Nat) (q : DiePw) : (d.setDp die q).pw = d.pw := (rfl)
@[simp] theorem Dev.setDp_time (d : Dev) (die : Nat) (q : DiePw) : (d.setDp die q).time = d.time := (rfl)
@[simp] theorem Dev.setDp_codec (d : Dev) (die : Nat) (q : DiePw) : (d.setDp die q).codec = d.codec := (rfl)
@[simp] theorem Dev.setDp_tlm (d : Dev) (die : Nat) (q : DiePw) : (d.setDp die q).tlm = d.tlm := (rfl)
@[simp] theorem Dev.setDp_sec (d : Dev) (die : Nat) (q : DiePw) : (d.setDp die q).sec = d.sec := (rfl)
@[simp] theorem Dev.setDp_boot (d : Dev) (die : Nat) (q : DiePw) : (d.setDp die q).boot = d.boot := (rfl)
@[simp] theorem Dev.setDp_out (d : Dev) (die : Nat) (q : DiePw) : (d.setDp die q).out = d.out := (rfl)
@[simp] theorem Dev.setDp_fresh (d : Dev) (die : Nat) (q : DiePw) : (d.setDp die q).fresh = d.fresh := (rfl)
@[simp] theorem Dev.setDp_read_reg (d : Dev) (die : Nat) (q : DiePw) (y : Reg) : (d.setDp die q).reg y = d.reg y := (rfl)
@[simp] theorem Dev.setDp_read_rd (d : Dev) (die : Nat) (q : DiePw) (y : Reg) : (d.setDp die q).rd y = d.rd y := (rfl)
@[simp] theorem Dev.setDp_read_port (d : Dev) (die : Nat) (q : DiePw) (m : Nat) : (d.setDp die q).port m = d.port m := (rfl)
@[simp] theorem Dev.setDp_read_path (d : Dev) (die : Nat) (q : DiePw) (t : TlmPath) : (d.setDp die q).path t = d.path t := (rfl)
@[simp] theorem Dev.setDp_read_coll (d : Dev) (die : Nat) (q : DiePw) (x j : Nat) : (d.setDp die q).coll x j = d.coll x j := (rfl)
@[simp] theorem Dev.setDp_read_astSet (d : Dev) (die : Nat) (q : DiePw) (x j : Nat) :
    (d.setDp die q).astSet x j = d.astSet x j := (rfl)
@[simp] theorem Dev.setDp_read_kv (d : Dev) (die : Nat) (q : DiePw) (x j : Nat) : (d.setDp die q).kv x j = d.kv x j := (rfl)
@[simp] theorem Dev.setDp_read_link (d : Dev) (die : Nat) (q : DiePw) (j : Nat × Nat) : (d.setDp die q).link j = d.link j := (rfl)
@[simp] theorem Dev.setDp_read_cs (d : Dev) (die : Nat) (q : DiePw) (x j : Nat) : (d.setDp die q).cs x j = d.cs x j := (rfl)
@[simp] theorem Dev.setDp_read_vc (d : Dev) (die : Nat) (q : DiePw) (x : Nat) : (d.setDp die q).vc x = d.vc x := (rfl)
theorem Dev.dp_setDp (d : Dev) (die : Nat) (q : DiePw) (x : Nat) : (d.setDp die q).dp x = if die = x then q else d.dp x :=
  look_put _ _ _ _ _
@[simp] theorem Dev.dp_setDp_self (d : Dev) (die : Nat) (q : DiePw) : (d.setDp die q).dp die = q :=
  look_put_self _ _ _ _

/-! ## setLink -/

@[simp] theorem Dev.setLink_regs (d : Dev) (k : Nat × Nat) (l : Link) : (d.setLink k l).regs = d.regs := (rfl)
@[simp] theorem Dev.setLink_latches (d : Dev) (k : Nat × Nat) (l : Link) : (d.setLink k l).latches = d.latches := (rfl)
@[simp] theorem Dev.setLink_mem (d : Dev) (k : Nat × Nat) (l : Link) : (d.setLink k l).mem = d.mem := (rfl)
@[simp] theorem Dev.setLink_sem (d : Dev) (k : Nat × Nat) (l : Link) : (d.setLink k l).sem = d.sem := (rfl)
@[simp] theorem Dev.setLink_semSat (d : Dev) (k : Nat × Nat) (l : Link) : (d.setLink k l).semSat = d.semSat := (rfl)
@[simp] theorem Dev.setLink_ctr (d : Dev) (k : Nat × Nat) (l : Link) : (d.setLink k l).ctr = d.ctr := (rfl)
@[simp] theorem Dev.setLink_lim (d : Dev) (k : Nat × Nat) (l : Link) : (d.setLink k l).lim = d.lim := (rfl)
@[simp] theorem Dev.setLink_slotTab (d : Dev) (k : Nat × Nat) (l : Link) : (d.setLink k l).slotTab = d.slotTab := (rfl)
@[simp] theorem Dev.setLink_lflag (d : Dev) (k : Nat × Nat) (l : Link) : (d.setLink k l).lflag = d.lflag := (rfl)
@[simp] theorem Dev.setLink_kvtPoison (d : Dev) (k : Nat × Nat) (l : Link) : (d.setLink k l).kvtPoison = d.kvtPoison := (rfl)
@[simp] theorem Dev.setLink_semPoison (d : Dev) (k : Nat × Nat) (l : Link) : (d.setLink k l).semPoison = d.semPoison := (rfl)
@[simp] theorem Dev.setLink_created (d : Dev) (k : Nat × Nat) (l : Link) : (d.setLink k l).created = d.created := (rfl)
@[simp] theorem Dev.setLink_kvt (d : Dev) (k : Nat × Nat) (l : Link) : (d.setLink k l).kvt = d.kvt := (rfl)
@[simp] theorem Dev.setLink_taken (d : Dev) (k : Nat × Nat) (l : Link) : (d.setLink k l).taken = d.taken := (rfl)
@[simp] theorem Dev.setLink_fetching (d : Dev) (k : Nat × Nat) (l : Link) : (d.setLink k l).fetching = d.fetching := (rfl)
@[simp] theorem Dev.setLink_spillRun (d : Dev) (k : Nat × Nat) (l : Link) : (d.setLink k l).spillRun = d.spillRun := (rfl)
@[simp] theorem Dev.setLink_ast (d : Dev) (k : Nat × Nat) (l : Link) : (d.setLink k l).ast = d.ast := (rfl)
@[simp] theorem Dev.setLink_sfuValid (d : Dev) (k : Nat × Nat) (l : Link) : (d.setLink k l).sfuValid = d.sfuValid := (rfl)
@[simp] theorem Dev.setLink_comaValid (d : Dev) (k : Nat × Nat) (l : Link) : (d.setLink k l).comaValid = d.comaValid := (rfl)
@[simp] theorem Dev.setLink_tblValid (d : Dev) (k : Nat × Nat) (l : Link) : (d.setLink k l).tblValid = d.tblValid := (rfl)
@[simp] theorem Dev.setLink_tblUsers (d : Dev) (k : Nat × Nat) (l : Link) : (d.setLink k l).tblUsers = d.tblUsers := (rfl)
@[simp] theorem Dev.setLink_tblLoose (d : Dev) (k : Nat × Nat) (l : Link) : (d.setLink k l).tblLoose = d.tblLoose := (rfl)
@[simp] theorem Dev.setLink_cores (d : Dev) (k : Nat × Nat) (l : Link) : (d.setLink k l).cores = d.cores := (rfl)
@[simp] theorem Dev.setLink_mismatch (d : Dev) (k : Nat × Nat) (l : Link) : (d.setLink k l).mismatch = d.mismatch := (rfl)
@[simp] theorem Dev.setLink_fenced (d : Dev) (k : Nat × Nat) (l : Link) : (d.setLink k l).fenced = d.fenced := (rfl)
@[simp] theorem Dev.setLink_tabs (d : Dev) (k : Nat × Nat) (l : Link) : (d.setLink k l).tabs = d.tabs := (rfl)
@[simp] theorem Dev.setLink_peerRel (d : Dev) (k : Nat × Nat) (l : Link) : (d.setLink k l).peerRel = d.peerRel := (rfl)
@[simp] theorem Dev.setLink_corrected (d : Dev) (k : Nat × Nat) (l : Link) : (d.setLink k l).corrected = d.corrected := (rfl)
@[simp] theorem Dev.setLink_order (d : Dev) (k : Nat × Nat) (l : Link) : (d.setLink k l).order = d.order := (rfl)
@[simp] theorem Dev.setLink_openRows (d : Dev) (k : Nat × Nat) (l : Link) : (d.setLink k l).openRows = d.openRows := (rfl)
@[simp] theorem Dev.setLink_codecTurn (d : Dev) (k : Nat × Nat) (l : Link) : (d.setLink k l).codecTurn = d.codecTurn := (rfl)
@[simp] theorem Dev.setLink_dpw (d : Dev) (k : Nat × Nat) (l : Link) : (d.setLink k l).dpw = d.dpw := (rfl)
@[simp] theorem Dev.setLink_colls (d : Dev) (k : Nat × Nat) (l : Link) : (d.setLink k l).colls = d.colls := (rfl)
@[simp] theorem Dev.setLink_ports (d : Dev) (k : Nat × Nat) (l : Link) : (d.setLink k l).ports = d.ports := (rfl)
@[simp] theorem Dev.setLink_pw (d : Dev) (k : Nat × Nat) (l : Link) : (d.setLink k l).pw = d.pw := (rfl)
@[simp] theorem Dev.setLink_time (d : Dev) (k : Nat × Nat) (l : Link) : (d.setLink k l).time = d.time := (rfl)
@[simp] theorem Dev.setLink_codec (d : Dev) (k : Nat × Nat) (l : Link) : (d.setLink k l).codec = d.codec := (rfl)
@[simp] theorem Dev.setLink_tlm (d : Dev) (k : Nat × Nat) (l : Link) : (d.setLink k l).tlm = d.tlm := (rfl)
@[simp] theorem Dev.setLink_sec (d : Dev) (k : Nat × Nat) (l : Link) : (d.setLink k l).sec = d.sec := (rfl)
@[simp] theorem Dev.setLink_boot (d : Dev) (k : Nat × Nat) (l : Link) : (d.setLink k l).boot = d.boot := (rfl)
@[simp] theorem Dev.setLink_out (d : Dev) (k : Nat × Nat) (l : Link) : (d.setLink k l).out = d.out := (rfl)
@[simp] theorem Dev.setLink_fresh (d : Dev) (k : Nat × Nat) (l : Link) : (d.setLink k l).fresh = d.fresh := (rfl)
@[simp] theorem Dev.setLink_read_reg (d : Dev) (k : Nat × Nat) (l : Link) (y : Reg) : (d.setLink k l).reg y = d.reg y := (rfl)
@[simp] theorem Dev.setLink_read_rd (d : Dev) (k : Nat × Nat) (l : Link) (y : Reg) : (d.setLink k l).rd y = d.rd y := (rfl)
@[simp] theorem Dev.setLink_read_port (d : Dev) (k : Nat × Nat) (l : Link) (m : Nat) : (d.setLink k l).port m = d.port m := (rfl)
@[simp] theorem Dev.setLink_read_path (d : Dev) (k : Nat × Nat) (l : Link) (t : TlmPath) :
    (d.setLink k l).path t = d.path t := (rfl)
@[simp] theorem Dev.setLink_read_coll (d : Dev) (k : Nat × Nat) (l : Link) (x j : Nat) :
    (d.setLink k l).coll x j = d.coll x j := (rfl)
@[simp] theorem Dev.setLink_read_astSet (d : Dev) (k : Nat × Nat) (l : Link) (x j : Nat) :
    (d.setLink k l).astSet x j = d.astSet x j := (rfl)
@[simp] theorem Dev.setLink_read_kv (d : Dev) (k : Nat × Nat) (l : Link) (x j : Nat) : (d.setLink k l).kv x j = d.kv x j := (rfl)
@[simp] theorem Dev.setLink_read_dp (d : Dev) (k : Nat × Nat) (l : Link) (x : Nat) : (d.setLink k l).dp x = d.dp x := (rfl)
@[simp] theorem Dev.setLink_read_cs (d : Dev) (k : Nat × Nat) (l : Link) (x j : Nat) : (d.setLink k l).cs x j = d.cs x j := (rfl)
@[simp] theorem Dev.setLink_read_vc (d : Dev) (k : Nat × Nat) (l : Link) (x : Nat) : (d.setLink k l).vc x = d.vc x := (rfl)
theorem Dev.link_setLink (d : Dev) (k : Nat × Nat) (l : Link) (j : Nat × Nat) :
    (d.setLink k l).link j = if k = j then l else d.link j :=
  look_put _ _ _ _ _
@[simp] theorem Dev.link_setLink_self (d : Dev) (k : Nat × Nat) (l : Link) : (d.setLink k l).link k = l :=
  look_put_self _ _ _ _

/-! ## setCs -/

@[simp] theorem Dev.setCs_regs (d : Dev) (die c : Nat) (s : CoreSt) : (d.setCs die c s).regs = d.regs := (rfl)
@[simp] theorem Dev.setCs_latches (d : Dev) (die c : Nat) (s : CoreSt) : (d.setCs die c s).latches = d.latches := (rfl)
@[simp] theorem Dev.setCs_mem (d : Dev) (die c : Nat) (s : CoreSt) : (d.setCs die c s).mem = d.mem := (rfl)
@[simp] theorem Dev.setCs_sem (d : Dev) (die c : Nat) (s : CoreSt) : (d.setCs die c s).sem = d.sem := (rfl)
@[simp] theorem Dev.setCs_semSat (d : Dev) (die c : Nat) (s : CoreSt) : (d.setCs die c s).semSat = d.semSat := (rfl)
@[simp] theorem Dev.setCs_ctr (d : Dev) (die c : Nat) (s : CoreSt) : (d.setCs die c s).ctr = d.ctr := (rfl)
@[simp] theorem Dev.setCs_lim (d : Dev) (die c : Nat) (s : CoreSt) : (d.setCs die c s).lim = d.lim := (rfl)
@[simp] theorem Dev.setCs_slotTab (d : Dev) (die c : Nat) (s : CoreSt) : (d.setCs die c s).slotTab = d.slotTab := (rfl)
@[simp] theorem Dev.setCs_lflag (d : Dev) (die c : Nat) (s : CoreSt) : (d.setCs die c s).lflag = d.lflag := (rfl)
@[simp] theorem Dev.setCs_kvtPoison (d : Dev) (die c : Nat) (s : CoreSt) : (d.setCs die c s).kvtPoison = d.kvtPoison := (rfl)
@[simp] theorem Dev.setCs_semPoison (d : Dev) (die c : Nat) (s : CoreSt) : (d.setCs die c s).semPoison = d.semPoison := (rfl)
@[simp] theorem Dev.setCs_created (d : Dev) (die c : Nat) (s : CoreSt) : (d.setCs die c s).created = d.created := (rfl)
@[simp] theorem Dev.setCs_kvt (d : Dev) (die c : Nat) (s : CoreSt) : (d.setCs die c s).kvt = d.kvt := (rfl)
@[simp] theorem Dev.setCs_taken (d : Dev) (die c : Nat) (s : CoreSt) : (d.setCs die c s).taken = d.taken := (rfl)
@[simp] theorem Dev.setCs_fetching (d : Dev) (die c : Nat) (s : CoreSt) : (d.setCs die c s).fetching = d.fetching := (rfl)
@[simp] theorem Dev.setCs_spillRun (d : Dev) (die c : Nat) (s : CoreSt) : (d.setCs die c s).spillRun = d.spillRun := (rfl)
@[simp] theorem Dev.setCs_ast (d : Dev) (die c : Nat) (s : CoreSt) : (d.setCs die c s).ast = d.ast := (rfl)
@[simp] theorem Dev.setCs_sfuValid (d : Dev) (die c : Nat) (s : CoreSt) : (d.setCs die c s).sfuValid = d.sfuValid := (rfl)
@[simp] theorem Dev.setCs_comaValid (d : Dev) (die c : Nat) (s : CoreSt) : (d.setCs die c s).comaValid = d.comaValid := (rfl)
@[simp] theorem Dev.setCs_tblValid (d : Dev) (die c : Nat) (s : CoreSt) : (d.setCs die c s).tblValid = d.tblValid := (rfl)
@[simp] theorem Dev.setCs_tblUsers (d : Dev) (die c : Nat) (s : CoreSt) : (d.setCs die c s).tblUsers = d.tblUsers := (rfl)
@[simp] theorem Dev.setCs_tblLoose (d : Dev) (die c : Nat) (s : CoreSt) : (d.setCs die c s).tblLoose = d.tblLoose := (rfl)
@[simp] theorem Dev.setCs_mismatch (d : Dev) (die c : Nat) (s : CoreSt) : (d.setCs die c s).mismatch = d.mismatch := (rfl)
@[simp] theorem Dev.setCs_fenced (d : Dev) (die c : Nat) (s : CoreSt) : (d.setCs die c s).fenced = d.fenced := (rfl)
@[simp] theorem Dev.setCs_tabs (d : Dev) (die c : Nat) (s : CoreSt) : (d.setCs die c s).tabs = d.tabs := (rfl)
@[simp] theorem Dev.setCs_peerRel (d : Dev) (die c : Nat) (s : CoreSt) : (d.setCs die c s).peerRel = d.peerRel := (rfl)
@[simp] theorem Dev.setCs_corrected (d : Dev) (die c : Nat) (s : CoreSt) : (d.setCs die c s).corrected = d.corrected := (rfl)
@[simp] theorem Dev.setCs_order (d : Dev) (die c : Nat) (s : CoreSt) : (d.setCs die c s).order = d.order := (rfl)
@[simp] theorem Dev.setCs_openRows (d : Dev) (die c : Nat) (s : CoreSt) : (d.setCs die c s).openRows = d.openRows := (rfl)
@[simp] theorem Dev.setCs_codecTurn (d : Dev) (die c : Nat) (s : CoreSt) : (d.setCs die c s).codecTurn = d.codecTurn := (rfl)
@[simp] theorem Dev.setCs_dpw (d : Dev) (die c : Nat) (s : CoreSt) : (d.setCs die c s).dpw = d.dpw := (rfl)
@[simp] theorem Dev.setCs_links (d : Dev) (die c : Nat) (s : CoreSt) : (d.setCs die c s).links = d.links := (rfl)
@[simp] theorem Dev.setCs_colls (d : Dev) (die c : Nat) (s : CoreSt) : (d.setCs die c s).colls = d.colls := (rfl)
@[simp] theorem Dev.setCs_ports (d : Dev) (die c : Nat) (s : CoreSt) : (d.setCs die c s).ports = d.ports := (rfl)
@[simp] theorem Dev.setCs_pw (d : Dev) (die c : Nat) (s : CoreSt) : (d.setCs die c s).pw = d.pw := (rfl)
@[simp] theorem Dev.setCs_time (d : Dev) (die c : Nat) (s : CoreSt) : (d.setCs die c s).time = d.time := (rfl)
@[simp] theorem Dev.setCs_codec (d : Dev) (die c : Nat) (s : CoreSt) : (d.setCs die c s).codec = d.codec := (rfl)
@[simp] theorem Dev.setCs_tlm (d : Dev) (die c : Nat) (s : CoreSt) : (d.setCs die c s).tlm = d.tlm := (rfl)
@[simp] theorem Dev.setCs_sec (d : Dev) (die c : Nat) (s : CoreSt) : (d.setCs die c s).sec = d.sec := (rfl)
@[simp] theorem Dev.setCs_boot (d : Dev) (die c : Nat) (s : CoreSt) : (d.setCs die c s).boot = d.boot := (rfl)
@[simp] theorem Dev.setCs_out (d : Dev) (die c : Nat) (s : CoreSt) : (d.setCs die c s).out = d.out := (rfl)
@[simp] theorem Dev.setCs_fresh (d : Dev) (die c : Nat) (s : CoreSt) : (d.setCs die c s).fresh = d.fresh := (rfl)
@[simp] theorem Dev.setCs_read_reg (d : Dev) (die c : Nat) (s : CoreSt) (y : Reg) : (d.setCs die c s).reg y = d.reg y := (rfl)
@[simp] theorem Dev.setCs_read_rd (d : Dev) (die c : Nat) (s : CoreSt) (y : Reg) : (d.setCs die c s).rd y = d.rd y := (rfl)
@[simp] theorem Dev.setCs_read_port (d : Dev) (die c : Nat) (s : CoreSt) (m : Nat) : (d.setCs die c s).port m = d.port m := (rfl)
@[simp] theorem Dev.setCs_read_path (d : Dev) (die c : Nat) (s : CoreSt) (t : TlmPath) :
    (d.setCs die c s).path t = d.path t := (rfl)
@[simp] theorem Dev.setCs_read_coll (d : Dev) (die c : Nat) (s : CoreSt) (x j : Nat) :
    (d.setCs die c s).coll x j = d.coll x j := (rfl)
@[simp] theorem Dev.setCs_read_astSet (d : Dev) (die c : Nat) (s : CoreSt) (x j : Nat) :
    (d.setCs die c s).astSet x j = d.astSet x j := (rfl)
@[simp] theorem Dev.setCs_read_kv (d : Dev) (die c : Nat) (s : CoreSt) (x j : Nat) : (d.setCs die c s).kv x j = d.kv x j := (rfl)
@[simp] theorem Dev.setCs_read_dp (d : Dev) (die c : Nat) (s : CoreSt) (x : Nat) : (d.setCs die c s).dp x = d.dp x := (rfl)
@[simp] theorem Dev.setCs_read_link (d : Dev) (die c : Nat) (s : CoreSt) (j : Nat × Nat) :
    (d.setCs die c s).link j = d.link j := (rfl)
@[simp] theorem Dev.setCs_read_vc (d : Dev) (die c : Nat) (s : CoreSt) (x : Nat) : (d.setCs die c s).vc x = d.vc x := (rfl)
theorem Dev.cs_setCs (d : Dev) (die c : Nat) (s : CoreSt) (x j : Nat) :
    (d.setCs die c s).cs x j = if (die, c) = (x, j) then s else d.cs x j :=
  look_put _ _ _ _ _
@[simp] theorem Dev.cs_setCs_self (d : Dev) (die c : Nat) (s : CoreSt) : (d.setCs die c s).cs die c = s :=
  look_put_self _ _ _ _

/-! ## setVc -/

@[simp] theorem Dev.setVc_regs (d : Dev) (die : Nat) (v : Codec) : (d.setVc die v).regs = d.regs := (rfl)
@[simp] theorem Dev.setVc_latches (d : Dev) (die : Nat) (v : Codec) : (d.setVc die v).latches = d.latches := (rfl)
@[simp] theorem Dev.setVc_mem (d : Dev) (die : Nat) (v : Codec) : (d.setVc die v).mem = d.mem := (rfl)
@[simp] theorem Dev.setVc_sem (d : Dev) (die : Nat) (v : Codec) : (d.setVc die v).sem = d.sem := (rfl)
@[simp] theorem Dev.setVc_semSat (d : Dev) (die : Nat) (v : Codec) : (d.setVc die v).semSat = d.semSat := (rfl)
@[simp] theorem Dev.setVc_ctr (d : Dev) (die : Nat) (v : Codec) : (d.setVc die v).ctr = d.ctr := (rfl)
@[simp] theorem Dev.setVc_lim (d : Dev) (die : Nat) (v : Codec) : (d.setVc die v).lim = d.lim := (rfl)
@[simp] theorem Dev.setVc_slotTab (d : Dev) (die : Nat) (v : Codec) : (d.setVc die v).slotTab = d.slotTab := (rfl)
@[simp] theorem Dev.setVc_lflag (d : Dev) (die : Nat) (v : Codec) : (d.setVc die v).lflag = d.lflag := (rfl)
@[simp] theorem Dev.setVc_kvtPoison (d : Dev) (die : Nat) (v : Codec) : (d.setVc die v).kvtPoison = d.kvtPoison := (rfl)
@[simp] theorem Dev.setVc_semPoison (d : Dev) (die : Nat) (v : Codec) : (d.setVc die v).semPoison = d.semPoison := (rfl)
@[simp] theorem Dev.setVc_created (d : Dev) (die : Nat) (v : Codec) : (d.setVc die v).created = d.created := (rfl)
@[simp] theorem Dev.setVc_kvt (d : Dev) (die : Nat) (v : Codec) : (d.setVc die v).kvt = d.kvt := (rfl)
@[simp] theorem Dev.setVc_taken (d : Dev) (die : Nat) (v : Codec) : (d.setVc die v).taken = d.taken := (rfl)
@[simp] theorem Dev.setVc_fetching (d : Dev) (die : Nat) (v : Codec) : (d.setVc die v).fetching = d.fetching := (rfl)
@[simp] theorem Dev.setVc_spillRun (d : Dev) (die : Nat) (v : Codec) : (d.setVc die v).spillRun = d.spillRun := (rfl)
@[simp] theorem Dev.setVc_ast (d : Dev) (die : Nat) (v : Codec) : (d.setVc die v).ast = d.ast := (rfl)
@[simp] theorem Dev.setVc_sfuValid (d : Dev) (die : Nat) (v : Codec) : (d.setVc die v).sfuValid = d.sfuValid := (rfl)
@[simp] theorem Dev.setVc_comaValid (d : Dev) (die : Nat) (v : Codec) : (d.setVc die v).comaValid = d.comaValid := (rfl)
@[simp] theorem Dev.setVc_tblValid (d : Dev) (die : Nat) (v : Codec) : (d.setVc die v).tblValid = d.tblValid := (rfl)
@[simp] theorem Dev.setVc_tblUsers (d : Dev) (die : Nat) (v : Codec) : (d.setVc die v).tblUsers = d.tblUsers := (rfl)
@[simp] theorem Dev.setVc_tblLoose (d : Dev) (die : Nat) (v : Codec) : (d.setVc die v).tblLoose = d.tblLoose := (rfl)
@[simp] theorem Dev.setVc_cores (d : Dev) (die : Nat) (v : Codec) : (d.setVc die v).cores = d.cores := (rfl)
@[simp] theorem Dev.setVc_mismatch (d : Dev) (die : Nat) (v : Codec) : (d.setVc die v).mismatch = d.mismatch := (rfl)
@[simp] theorem Dev.setVc_fenced (d : Dev) (die : Nat) (v : Codec) : (d.setVc die v).fenced = d.fenced := (rfl)
@[simp] theorem Dev.setVc_tabs (d : Dev) (die : Nat) (v : Codec) : (d.setVc die v).tabs = d.tabs := (rfl)
@[simp] theorem Dev.setVc_peerRel (d : Dev) (die : Nat) (v : Codec) : (d.setVc die v).peerRel = d.peerRel := (rfl)
@[simp] theorem Dev.setVc_corrected (d : Dev) (die : Nat) (v : Codec) : (d.setVc die v).corrected = d.corrected := (rfl)
@[simp] theorem Dev.setVc_order (d : Dev) (die : Nat) (v : Codec) : (d.setVc die v).order = d.order := (rfl)
@[simp] theorem Dev.setVc_openRows (d : Dev) (die : Nat) (v : Codec) : (d.setVc die v).openRows = d.openRows := (rfl)
@[simp] theorem Dev.setVc_codecTurn (d : Dev) (die : Nat) (v : Codec) : (d.setVc die v).codecTurn = d.codecTurn := (rfl)
@[simp] theorem Dev.setVc_dpw (d : Dev) (die : Nat) (v : Codec) : (d.setVc die v).dpw = d.dpw := (rfl)
@[simp] theorem Dev.setVc_links (d : Dev) (die : Nat) (v : Codec) : (d.setVc die v).links = d.links := (rfl)
@[simp] theorem Dev.setVc_colls (d : Dev) (die : Nat) (v : Codec) : (d.setVc die v).colls = d.colls := (rfl)
@[simp] theorem Dev.setVc_ports (d : Dev) (die : Nat) (v : Codec) : (d.setVc die v).ports = d.ports := (rfl)
@[simp] theorem Dev.setVc_pw (d : Dev) (die : Nat) (v : Codec) : (d.setVc die v).pw = d.pw := (rfl)
@[simp] theorem Dev.setVc_time (d : Dev) (die : Nat) (v : Codec) : (d.setVc die v).time = d.time := (rfl)
@[simp] theorem Dev.setVc_tlm (d : Dev) (die : Nat) (v : Codec) : (d.setVc die v).tlm = d.tlm := (rfl)
@[simp] theorem Dev.setVc_sec (d : Dev) (die : Nat) (v : Codec) : (d.setVc die v).sec = d.sec := (rfl)
@[simp] theorem Dev.setVc_boot (d : Dev) (die : Nat) (v : Codec) : (d.setVc die v).boot = d.boot := (rfl)
@[simp] theorem Dev.setVc_out (d : Dev) (die : Nat) (v : Codec) : (d.setVc die v).out = d.out := (rfl)
@[simp] theorem Dev.setVc_fresh (d : Dev) (die : Nat) (v : Codec) : (d.setVc die v).fresh = d.fresh := (rfl)
@[simp] theorem Dev.setVc_read_reg (d : Dev) (die : Nat) (v : Codec) (y : Reg) : (d.setVc die v).reg y = d.reg y := (rfl)
@[simp] theorem Dev.setVc_read_rd (d : Dev) (die : Nat) (v : Codec) (y : Reg) : (d.setVc die v).rd y = d.rd y := (rfl)
@[simp] theorem Dev.setVc_read_port (d : Dev) (die : Nat) (v : Codec) (m : Nat) : (d.setVc die v).port m = d.port m := (rfl)
@[simp] theorem Dev.setVc_read_path (d : Dev) (die : Nat) (v : Codec) (t : TlmPath) : (d.setVc die v).path t = d.path t := (rfl)
@[simp] theorem Dev.setVc_read_coll (d : Dev) (die : Nat) (v : Codec) (x j : Nat) : (d.setVc die v).coll x j = d.coll x j := (rfl)
@[simp] theorem Dev.setVc_read_astSet (d : Dev) (die : Nat) (v : Codec) (x j : Nat) :
    (d.setVc die v).astSet x j = d.astSet x j := (rfl)
@[simp] theorem Dev.setVc_read_kv (d : Dev) (die : Nat) (v : Codec) (x j : Nat) : (d.setVc die v).kv x j = d.kv x j := (rfl)
@[simp] theorem Dev.setVc_read_dp (d : Dev) (die : Nat) (v : Codec) (x : Nat) : (d.setVc die v).dp x = d.dp x := (rfl)
@[simp] theorem Dev.setVc_read_link (d : Dev) (die : Nat) (v : Codec) (j : Nat × Nat) : (d.setVc die v).link j = d.link j := (rfl)
@[simp] theorem Dev.setVc_read_cs (d : Dev) (die : Nat) (v : Codec) (x j : Nat) : (d.setVc die v).cs x j = d.cs x j := (rfl)
theorem Dev.vc_setVc (d : Dev) (die : Nat) (v : Codec) (x : Nat) : (d.setVc die v).vc x = if die = x then v else d.vc x :=
  look_put _ _ _ _ _
@[simp] theorem Dev.vc_setVc_self (d : Dev) (die : Nat) (v : Codec) : (d.setVc die v).vc die = v :=
  look_put_self _ _ _ _

end Sys2Proof.Machine
end

