-- ==== Sys2Proof/Laws/MemDevice.lean ====
section
/-! SUPPORT. What each operation does to the memories: those that touch none leave them as they are, the others keep
their canonical form. -/

namespace Sys2Proof.Machine
open Sys2Proof

@[simp] theorem Dev.mem_ite (c : Prop) [Decidable c] (a b : Dev) : (if c then a else b).mem = if c then a.mem else b.mem :=
  apply_ite Dev.mem c a b

@[simp] theorem Mems.wf_ite (c : Prop) [Decidable c] (a b : Mems) (ha : a.wf = true) (hb : b.wf = true) :
    (if c then a else b).wf = true := by split <;> assumption

theorem ite_wf (b : Prop) [Decidable b] {x y : Dev} (hx : x.mem.wf = true) (hy : y.mem.wf = true) :
    (if b then x else y).mem.wf = true := by
  split <;> assumption

@[simp] theorem foldl_mem {α : Type} (g : Dev → α → Dev) (h : ∀ x e, (g x e).mem = x.mem) (l : List α) (d : Dev) :
    (l.foldl g d).mem = d.mem := by
  induction l generalizing d with
  | nil => rfl
  | cons e t ih => rw [List.foldl_cons, ih, h]

theorem foldl_wf {α : Type} (g : Dev → α → Dev) (h : ∀ x e, x.mem.wf = true → (g x e).mem.wf = true) (l : List α)
    {d : Dev} (hd : d.mem.wf = true) : (l.foldl g d).mem.wf = true := by
  induction l generalizing d with
  | nil => exact hd
  | cons e t ih => exact ih (h d e hd)

@[simp] theorem Dev.draw_mem (d : Dev) :
    (Dev.draw d).2.mem = d.mem := by simp [Dev.draw]

@[simp] theorem pageMsg_mem (d : Dev) (pg : Page) :
    (pageMsg d pg).mem = d.mem := by rw [pageMsg]; (repeat' split) <;> simp_all

@[simp] theorem irqRise_mem (d : Dev) (pg : Page) (b : Nat) :
    (irqRise d pg b).mem = d.mem := by simp [irqRise]

@[simp] theorem Dev.inc_mem (d : Dev) (r : Reg) (n : Nat) :
    (Dev.inc d r n).mem = d.mem := by simp [Dev.inc]

theorem Dev.inc_wf (d : Dev) (r : Reg) (n : Nat) (h : d.mem.wf = true) : (d.inc r n).mem.wf = true := by
  rw [Dev.inc_mem]; exact h

@[simp] theorem Dev.inc64_mem (d : Dev) (r : Reg) (n : Nat) :
    (Dev.inc64 d r n).mem = d.mem := by simp [Dev.inc64]

@[simp] theorem Dev.resetPages_mem (d : Dev) (p : Page → Bool) :
    (Dev.resetPages d p).mem = d.mem := by simp [Dev.resetPages]

@[simp] theorem applyInit_mem (d : Dev) (base slot kind rel ix v : Nat) : (applyInit d base slot kind rel ix v).mem = d.mem := by
  unfold applyInit
  split <;> first | rfl | (split <;> simp)

@[simp] theorem clearSet_mem (d : Dev) (dies : List Nat) (slot : Nat) :
    (clearSet d dies slot).mem = d.mem := by simp [clearSet]

@[simp] theorem idle_mem (d : Dev) (pg : Page) :
    (idle d pg).mem = d.mem := by simp [idle]

@[simp] theorem idleCores_mem (d : Dev) (n : Nat) :
    (idleCores d n).mem = d.mem := by simp [idleCores]

@[simp] theorem scramble_wf (d : Dev) (ss : List Span) (h : d.mem.wf = true) : (scramble d ss).mem.wf = true :=
  foldl_wf _ (fun _ _ hx => Mems.put_wf _ _ _ hx) ss h

@[simp] theorem dropMarks_mem (d : Dev) (ss : List Span) : (dropMarks d ss).mem = d.mem := (rfl)

@[simp] theorem carryMarks_mem (d : Dev) (src dst : List Span) : (carryMarks d src dst).mem = d.mem := (rfl)

@[simp] theorem countOpens_mem (d : Dev) (ss : List Span) : (countOpens d ss).mem = d.mem := by
  unfold countOpens
  refine foldl_mem _ (fun x e => ?_) _ _
  dsimp only
  split
  · rfl
  · rw [Dev.inc64_mem, Dev.inc64_mem]

@[simp] theorem wildPages_wf (d : Dev) (die : Nat) (l : List Nat) (h : d.mem.wf = true) : (wildPages d die l).mem.wf = true := by
  unfold wildPages
  refine foldl_wf _ (fun x e hx => ?_) l h
  dsimp only
  split
  · rw [Dev.setKv_mem]
    exact hx
  · exact scramble_wf _ _ hx

@[simp] theorem semGood_mem (d : Dev) (die slot i : Nat) : (semGood d die slot i).mem = d.mem := (rfl)

@[simp] theorem poisonWord_wf (d : Dev) (die c : Nat) (w : TableWord) (h : d.mem.wf = true) : (poisonWord d die c w).mem.wf = true := by
  cases w <;> simp [poisonWord, h]

@[simp] theorem dropCopies_mem (d : Dev) (dies : List Nat) (slot : Nat) : (dropCopies d dies slot).mem = d.mem := (rfl)

@[simp] theorem dropFlits_mem (d : Dev) (who : Nat × Nat → Bool) :
    (dropFlits d who).mem = d.mem := by simp [dropFlits]

@[simp] theorem kvRelease_mem (d : Dev) (die : Nat) (i : Nat) :
    (kvRelease d die i).mem = d.mem := by simp [kvRelease]

@[simp] theorem spillNext_mem (d : Dev) (die : Nat) :
    (spillNext d die).mem = d.mem := by rw [spillNext]; (repeat' split) <;> simp_all

@[simp] theorem kvUnpin_mem (d : Dev) (die i : Nat) : (kvUnpin d die i).mem = d.mem := by
  unfold kvUnpin
  extract_lets e
  split <;> simp

@[simp] theorem kvUnpinAll_mem (d : Dev) (die : Nat) (l : List Nat) :
    (kvUnpinAll d die l).mem = d.mem := by simp [kvUnpinAll]

@[simp] theorem quitCore_wf (x : Dev) (e : (Nat × Nat) × CoreSt) (h : x.mem.wf = true) : (quitCore x e).mem.wf = true := by
  have hy : ∀ l, (scramble (kvUnpinAll x e.1.1 l) e.2.stale).mem.wf = true := fun l => scramble_wf _ _ (by rw [kvUnpinAll_mem]; exact h)
  unfold quitCore
  dsimp only
  cases e.2.flight with
  | none => exact hy _
  | some f => exact ite_wf _ (wildPages_wf _ _ _ (scramble_wf _ _ (hy _))) (hy _)

@[simp] theorem quitCores_wf (d : Dev) (dies : List Nat) (h : d.mem.wf = true) : (quitCores d dies).mem.wf = true := by
  unfold quitCores
  exact foldl_wf _ (fun x e hx => ite_wf _ (quitCore_wf _ _ hx) hx) _ h

@[simp] theorem stopCores_wf (d : Dev) (n : Nat) (h : d.mem.wf = true) : (stopCores d n).mem.wf = true := by
  unfold stopCores
  rw [foldl_mem _ spillNext_mem, Dev.setPort_mem]
  have hq : (quitCores (idleCores d n) (partDies (d.port n))).mem.wf = true := by simp [h]
  split
  · rw [dropCopies_mem]
    simpa using hq
  · simpa using hq

@[simp] theorem cqWrite_wf (d : Dev) (n : Nat) (r : CqRec) (h : d.mem.wf = true) :
    (cqWrite d n r).mem.wf = true := by rw [cqWrite]; (repeat' split) <;> simp_all

@[simp] theorem complete_wf (d : Dev) (n : Nat) (r : CqRec) (h : d.mem.wf = true) :
    (complete d n r).mem.wf = true := by rw [complete]; (repeat' split) <;> simp_all

@[simp] theorem entryDone_wf (d : Dev) (n : Nat) (q : Nat) (entry : Nat) (status : Nat) (tag : Nat) (notify : Bool) (late : Bool) (h : d.mem.wf = true) :
    (entryDone d n q entry status tag notify late).mem.wf = true := by rw [entryDone]; (repeat' split) <;> simp_all

@[simp] theorem fencesDone_wf (d : Dev) (n q entry : Nat) (h : d.mem.wf = true) : (fencesDone d n q entry).mem.wf = true := by
  simp only [fencesDone]
  exact foldl_wf _ (fun x e hx => by simp [hx]) _ (by simpa using h)

@[simp] theorem entryOver_wf (d : Dev) (n : Nat) (q : Nat) (entry : Nat) (status : Nat) (tag : Nat) (notify : Bool) (late : Bool) (h : d.mem.wf = true) :
    (entryOver d n q entry status tag notify late).mem.wf = true := by rw [entryOver]; (repeat' split) <;> simp_all

@[simp] theorem jobOver_wf (d : Dev) (n : Nat) (j : Job) (status : Nat) (late : Bool) (h : d.mem.wf = true) :
    (jobOver d n j status late).mem.wf = true := by rw [jobOver]; (repeat' split) <;> simp_all

@[simp] theorem writeRecipe_wf (d : Dev) (n : Nat) (r : RecipeReq) (h : d.mem.wf = true) :
    (writeRecipe d n r).mem.wf = true := by rw [writeRecipe]; (repeat' split) <;> simp_all

@[simp] theorem recipesDue_wf (d : Dev) (n : Nat) (h : d.mem.wf = true) : (recipesDue d n).mem.wf = true := by
  simp only [recipesDue]
  exact foldl_wf _ (fun x e hx => by simp [hx]) _ (by simpa using h)

@[simp] theorem idleHbmc_mem (d : Dev) (n : Nat) :
    (idleHbmc d n).mem = d.mem := by simp [idleHbmc]

@[simp] theorem switchOver_mem (d : Dev) (n : Nat) :
    (switchOver d n).mem = d.mem := by simp [switchOver]

@[simp] theorem considerYield_mem (d : Dev) (n : Nat) (pend : List (Nat × Nat)) :
    (considerYield d n pend).mem = d.mem := by rw [considerYield]; (repeat' split) <;> simp_all

@[simp] theorem beginStep_mem (d : Dev) (n : Nat) : (beginStep d n).mem = d.mem := by
  have hr : ∀ (l : List TideRun) (b : Nat) (x : Dev), (l.foldl (fun x t => x.inc (R.TIDE_RESTART (b + t.ent.die) 0) 1) x).mem = x.mem :=
    fun l b x => foldl_mem _ (fun y e => Dev.inc_mem _ _ _) l x
  unfold beginStep
  dsimp only
  split
  · simp
  · rw [considerYield_mem]
    split
    · rw [hr, Dev.setPort_mem]
      exact switchOver_mem d n
    · rw [Dev.setPort_mem]
      exact switchOver_mem d n

@[simp] theorem ringWrite_wf (d : Dev) (n : Nat) (rec : Nat) (h : d.mem.wf = true) :
    (ringWrite d n rec).mem.wf = true := by rw [ringWrite]; (repeat' split) <;> simp_all

/-- A path that is no host's log ring touches no memory. -/
theorem pathAppend_mem (d : Dev) (p : TlmPath) (rec : Nat) (hp : ∀ n, p ≠ .host n) : (pathAppend d p rec).mem = d.mem := by
  unfold pathAppend
  split
  · rfl
  · cases p with
    | host n => exact absurd rfl (hp n)
    | _ => dsimp only; split <;> simp only [Dev.setFld_mem, Dev.setPath_mem]

@[simp] theorem pathAppend_wf (d : Dev) (p : TlmPath) (rec : Nat) (h : d.mem.wf = true) : (pathAppend d p rec).mem.wf = true := by
  cases p with
  | host n =>
    unfold pathAppend
    dsimp only
    exact ite_wf _ h (ite_wf _ (by simpa using ite_wf _ (by simp [h]) (by simp [h])) (ite_wf _ (by simp [h]) (by simp [h])))
  | _ => simp [pathAppend_mem, h]

theorem pathAlarm_mem (d : Dev) (p : TlmPath) (rec : Nat) (hp : ∀ n, p ≠ .host n) : (pathAlarm d p rec).mem = d.mem := by
  cases p with
  | host n => exact absurd rfl (hp n)
  | _ => simp [pathAlarm]

@[simp] theorem pathAlarm_wf (d : Dev) (p : TlmPath) (rec : Nat) (h : d.mem.wf = true) : (pathAlarm d p rec).mem.wf = true := by
  cases p with
  | host n =>
    unfold pathAlarm
    dsimp only
    exact ite_wf _ h (ite_wf _ (by simp [h]) (ite_wf _ (by simp [h]) (by simp [h])))
  | _ => simp [pathAlarm_mem, h]

theorem pathEnter_mem (d : Dev) (p : TlmPath) (rec : Nat) (hp : ∀ n, p ≠ .host n) : (pathEnter d p rec).mem = d.mem := by
  unfold pathEnter
  split <;> simp [pathAppend_mem _ _ _ hp, pathAlarm_mem _ _ _ hp]

@[simp] theorem pathEnter_wf (d : Dev) (p : TlmPath) (rec : Nat) (h : d.mem.wf = true) : (pathEnter d p rec).mem.wf = true := by
  unfold pathEnter
  split <;> simp [h]

theorem keyRecord_mem (d : Dev) (p : TlmPath) (rec : Nat) (hp : ∀ n, p ≠ .host n) : (keyRecord d p rec).mem = d.mem := by
  unfold keyRecord
  dsimp only
  (repeat' split) <;> simp [pathEnter_mem _ _ _ hp]

@[simp] theorem keyRecord_wf (d : Dev) (p : TlmPath) (rec : Nat) (h : d.mem.wf = true) : (keyRecord d p rec).mem.wf = true := by
  unfold keyRecord
  dsimp only
  (repeat' split) <;> simp [h]

theorem pathPost_mem (d : Dev) (p : TlmPath) (rec : Nat) (hp : ∀ n, p ≠ .host n) : (pathPost d p rec).mem = d.mem := by
  unfold pathPost
  (repeat' split) <;> simp [pathEnter_mem _ _ _ hp, keyRecord_mem _ _ _ hp]

@[simp] theorem pathPost_wf (d : Dev) (p : TlmPath) (rec : Nat) (h : d.mem.wf = true) : (pathPost d p rec).mem.wf = true := by
  unfold pathPost
  (repeat' split) <;> simp [h]

theorem firstPath_ne (source : Nat) (n : Fin 4) : firstPath source ≠ .host n := by
  unfold firstPath
  split <;> simp

/-- A record posted goes to its die or aggregator first: no memory is touched. -/
@[simp] theorem postRecord_mem (d : Dev) (sev source code data : Nat) : (postRecord d sev source code data).mem = d.mem :=
  pathPost_mem _ _ _ (firstPath_ne source)

@[simp] theorem postFault_mem (d : Dev) (pg : Page) (code : Nat) (info0 : Nat) (info1 : Nat) :
    (postFault d pg code info0 info1).mem = d.mem := by simp [postFault]

@[simp] theorem copyRange_wf (p : Port) (slot : Nat) (out : Bool) (x : Dev) (e : LiveRange × Nat) (h : x.mem.wf = true) :
    (copyRange p slot out x e).mem.wf = true := by
  unfold copyRange
  dsimp only
  (repeat' split) <;> simp [h]

@[simp] theorem copyLive_wf (d : Dev) (p : Port) (slot : Nat) (pl : List (LiveRange × Nat)) (out : Bool) (h : d.mem.wf = true) :
    (copyLive d p slot pl out).mem.wf = true :=
  foldl_wf _ (fun _ e hx => copyRange_wf p slot out _ e hx) pl h

theorem saveLive_wf (d : Dev) (n slot : Nat) (e : Dev) (h : d.mem.wf = true) (he : saveLive d n slot = .ok e) : e.mem.wf = true := by
  unfold saveLive at he
  dsimp only at he
  split at he
  · cases he
  · split at he
    · cases he
    · cases he
      simp [h]

@[simp] theorem saveOutgoing_wf (d : Dev) (n : Nat) (h : d.mem.wf = true) : (saveOutgoing d n).mem.wf = true := by
  unfold saveOutgoing
  dsimp only
  split
  · exact h
  · split
    · rename_i he
      simp [saveLive_wf _ _ _ _ h he]
    · simp [h]

@[simp] theorem bellSpent_mem (d : Dev) (n : Nat) : (bellSpent d n).mem = d.mem := by
  unfold bellSpent
  dsimp only
  split <;> rfl

@[simp] theorem dropEmpty_wf (d : Dev) (n : Nat) (h : d.mem.wf = true) : (dropEmpty d n).mem.wf = true := by
  have hj : ∀ (l : List Job) (x : Dev), x.mem.wf = true → (l.foldl (fun x j => jobOver (x.inc (R.HQ_REJ_CNT n) 1) n j 0x010E false) x).mem.wf = true :=
    fun l x hx => foldl_wf _ (fun y e hy => by simp [hy]) l hx
  unfold dropEmpty
  dsimp only
  split
  · exact hj _ _ (by simpa using h)
  · rw [bellSpent_mem]
    exact hj _ _ (by simpa using h)

@[simp] theorem Img.apply_mem (g : Img) (slot : Nat) : (g.apply slot).mem = g.dev.mem := by
  unfold Img.apply
  dsimp only
  simp

@[simp] theorem loadNow_wf (d : Dev) (n : Nat) (r : LoadReq) (h : d.mem.wf = true) : (loadNow d n r).mem.wf = true := by
  unfold loadNow
  dsimp only
  split <;> simp [h]

@[simp] theorem loadAll_wf (d : Dev) (n : Nat) (h : d.mem.wf = true) : (loadAll d n).mem.wf = true := by
  simp only [loadAll]
  exact foldl_wf _ (fun x e hx => by simp [hx]) _ (by simpa using h)

@[simp] theorem wake_mem (d : Dev) (n : Nat) : (wake d n).mem = d.mem := by
  unfold wake
  split <;> rfl

@[simp] theorem schedule_wf (d : Dev) (n : Nat) (h : d.mem.wf = true) : (schedule d n).mem.wf = true := by
  have hd : (dropEmpty (loadAll (recipesDue d n) n) n).mem.wf = true := dropEmpty_wf _ _ (loadAll_wf _ _ (recipesDue_wf _ _ h))
  have hs := saveOutgoing_wf _ n hd
  unfold schedule
  dsimp only
  refine ite_wf _ h (ite_wf _ (ite_wf _ h (by simp [h])) ?_)
  split
  · exact hd
  · exact ite_wf _ hd (ite_wf _ (by simpa using hd) (by simpa using hs))

@[simp] theorem stepOver_wf (d : Dev) (n : Nat) (h : d.mem.wf = true) :
    (stepOver d n).mem.wf = true := by rw [stepOver]; (repeat' split) <;> simp_all

@[simp] theorem epochOn_mem (d : Dev) (n : Nat) : (epochOn d n).mem = d.mem := by simp [epochOn]

@[simp] theorem faultRun_wf (d : Dev) (n code : Nat) (late : Bool) (h : d.mem.wf = true) : (faultRun d n code late).mem.wf = true := by
  have hs := stopCores_wf d n h
  have he : (if stepOn (d.port n) = true then epochOn (stopCores d n) n else stopCores d n).mem.wf = true :=
    ite_wf _ (by simpa using hs) hs
  unfold faultRun
  dsimp only
  split
  · exact he
  · simp only [stepOver_wf, jobOver_wf, Dev.setPort_mem, he]

@[simp] theorem failIncoming_wf (d : Dev) (n code : Nat) (h : d.mem.wf = true) : (failIncoming d n code).mem.wf = true := by
  have hq : ∀ (l : List ((Nat × Nat) × CoreSt)) (x : Dev), x.mem.wf = true → (l.foldl quitCore x).mem.wf = true :=
    fun l x hx => foldl_wf _ (fun y e hy => quitCore_wf y e hy) l hx
  have hp : (postFault (switchOver d n) (.hq0 n) code 0 0).mem.wf = true := by simp [h]
  unfold failIncoming
  dsimp only
  split
  · exact h
  · refine stepOver_wf _ _ (jobOver_wf _ _ _ _ _ ?_)
    rw [Dev.setPort_mem]
    split
    · rw [dropCopies_mem]
      exact hq _ _ hp
    · exact hp

theorem Moved.run_wf (m : Moved) (d : Dev) (n : Nat) (k : Dev → Dev) (h : d.mem.wf = true)
    (hk : ∀ x, m = .done x → (k x).mem.wf = true) : (m.run d n k).mem.wf = true := by
  cases m with
  | fault pg code info1 => simp [Moved.run, h]
  | done x => exact hk x rfl

@[simp] theorem fwuSay_mem (d : Dev) (n : Nat) (status : Nat) (err : Nat) :
    (fwuSay d n status err).mem = d.mem := by simp [fwuSay]

@[simp] theorem setSession_mem (d : Dev) (s : Option Session) :
    (setSession d s).mem = d.mem := by unfold setSession; (repeat' split) <;> simp_all

@[simp] theorem abortSession_wf (d : Dev) (n : Nat) (h : d.mem.wf = true) : (abortSession d n).mem.wf = true := by
  simp [abortSession, h]

@[simp] theorem busyCycles_mem (op : OpSpec) (die : Nat) (c : Nat) (f : Flight) (d : Dev) :
    (busyCycles op die c f d).mem = d.mem := by simp [busyCycles]

@[simp] theorem dropTokens_mem (d : Dev) (die : Nat) (id : Nat) :
    (dropTokens d die id).mem = d.mem := by simp [dropTokens]

@[simp] theorem restartReceive_mem (d : Dev) (c : Nat) (cf : CollFlight) :
    (restartReceive d c cf).mem = d.mem := by unfold restartReceive; dsimp only; (repeat' split) <;> simp_all

@[simp] theorem setSem_mem (d : Dev) (die : Nat) (slot : Nat) (i : Nat) (v : Nat) :
    (setSem d die slot i v).mem = d.mem := by simp [setSem]

@[simp] theorem postRegFrom_mem (d : Dev) (source : Nat) (sev : Nat) (r : Reg) (b : Nat) :
    (postRegFrom d source sev r b).mem = d.mem := by simp [postRegFrom]

@[simp] theorem postReg_mem (d : Dev) (sev : Nat) (r : Reg) (b : Nat) :
    (postReg d sev r b).mem = d.mem := by simp [postReg]

@[simp] theorem semRelease_mem (d : Dev) (die : Nat) (slot : Nat) (i : Nat) (n : Nat) :
    (semRelease d die slot i n).mem = d.mem := by simp [semRelease]

end Sys2Proof.Machine
end

