-- ==== Sys2Proof/Laws/MemCore.lean ====
section
/-! SUPPORT. What a core's command does to the memories, from issue to work. -/

namespace Sys2Proof.Machine
open Sys2Proof

@[simp] theorem killCore_wf (d : Dev) (slot : Nat) (die : Nat) (c : Nat) (residue : Bool) (h : d.mem.wf = true) :
    (killCore d slot die c residue).mem.wf = true := by rw [killCore]; (repeat' split) <;> simp_all

@[simp] theorem killMember_wf (d : Dev) (slot die id : Nat) (residue : Bool) (h : d.mem.wf = true) :
    (killMember d slot die id residue).mem.wf = true := by
  simp only [killMember, Dev.inc_mem, Dev.setColl_mem, dropTokens_mem]
  exact foldl_wf _ (fun x e hx => by simp [hx]) _ h

@[simp] theorem sendNogo_mem (d : Dev) (p : Port) (die : Nat) (cf : CollFlight) :
    (sendNogo d p die cf).mem = d.mem := by simp [sendNogo]

@[simp] theorem killAt_wf (d : Dev) (n : Nat) (slot : Nat) (die : Nat) (c : Nat) (residue : Bool) (h : d.mem.wf = true) :
    (killAt d n slot die c residue).mem.wf = true := by rw [killAt]; (repeat' split) <;> simp_all

@[simp] theorem fenceEngine_mem (d : Dev) (die : Nat) (c : Nat) (phys : Nat) :
    (fenceEngine d die c phys).1.mem = d.mem := by rw [fenceEngine]; (repeat' split) <;> simp_all

@[simp] theorem secondMismatch_mem (d : Dev) (die : Nat) (c : Nat) (u : ResUnit) :
    (secondMismatch d die c u).1.mem = d.mem := by unfold secondMismatch; (repeat' split) <;> simp

@[simp] theorem collFault_mem (d : Dev) (p : Port) (die : Nat) (own : Nat × Nat → Bool) (cf : CollFlight) (heard : Option Nat) :
    (collFault d p die own cf heard).mem = d.mem := by simp [collFault]

@[simp] theorem cmdStop_wf (d : Dev) (h : Here) (die c : Nat) (s : Stop) (hd : d.mem.wf = true) : (cmdStop d h die c s).mem.wf = true := by
  simp only [cmdStop]
  split <;> simp [hd]

@[simp] theorem markFailed_mem (d : Dev) (die : Nat) (c : Nat) :
    (markFailed d die c).mem = d.mem := by simp [markFailed]

@[simp] theorem dropSuspended_wf (d : Dev) (n : Nat) (h : d.mem.wf = true) : (dropSuspended d n).mem.wf = true := by
  refine foldl_wf _ (fun x i hx => ?_) _ h
  split
  · exact hx
  · exact foldl_wf _ (fun y e hy => by simp [hy]) _ hx

@[simp] theorem faultAll_wf (d : Dev) (n code : Nat) (h : d.mem.wf = true) : (faultAll d n code).mem.wf = true := by
  unfold faultAll
  exact foldl_wf _ (fun x e hx => by simp [hx]) _ (by simp [h])

@[simp] theorem noSpare_wf (d : Dev) (n : Nat) (die : Nat) (c : Nat) (h : d.mem.wf = true) :
    (noSpare d n die c).mem.wf = true := by rw [noSpare]; (repeat' split) <;> simp_all

@[simp] theorem residueHit_wf (d : Dev) (h : Here) (die c : Nat) (nk : Bool) (u : ResUnit) (hd : d.mem.wf = true) :
    (residueHit d h die c nk u).mem.wf = true := by
  unfold residueHit
  extract_lets d0 last now second d1 m
  have h0 : d0.mem.wf = true := by
    dsimp only [d0]
    split <;> simp [hd]
  have h1 : m.1.mem.wf = true := by
    have : d1.mem.wf = true := h0
    dsimp only [m]
    split
    · simp [this]
    · exact this
  clear_value m
  repeat' split
  · exact noSpare_wf _ _ _ _ h1
  · exact cmdStop_wf _ _ _ _ _ h1
  · exact cmdStop_wf _ _ _ _ _ h1
  · exact killAt_wf _ _ _ _ _ _ h1

@[simp] theorem upsetAlarm_mem (d : Dev) (die : Nat) (a2 : Upset) :
    (upsetAlarm d die a2).mem = d.mem := by unfold upsetAlarm; (repeat' split) <;> simp_all

@[simp] theorem countEvent_mem (d : Dev) (r : Reg) :
    (countEvent d r).mem = d.mem := by simp [countEvent]

@[simp] theorem applyUpset_wf (d : Dev) (die c : Nat) (u : Upset) (h : d.mem.wf = true) : (applyUpset d die c u).mem.wf = true := by
  unfold applyUpset
  split <;> simp [h]

@[simp] theorem nameTables_mem (d : Dev) (die : Nat) (slot : Nat) (ids : List Nat) : (nameTables d die slot ids).mem = d.mem := (rfl)

@[simp] theorem moveMarks_mem (die slot : Nat) (f : Flight) (d : Dev) : (moveMarks die slot f d).mem = d.mem := by
  unfold moveMarks
  split <;> rfl

@[simp] theorem Dev.countAst_mem (d : Dev) (die slot : Nat) (a : AstSet) : (d.countAst die slot a).mem = d.mem := by
  simp [Dev.countAst]

/-- What an opcode adds at its issue, at its start, after its work and at its commit keeps the canonical form. -/
structure OpSpec.Keeps (op : OpSpec) : Prop where
  atIssue : ∀ x d, d.mem.wf = true → (op.atIssue x d).1.mem.wf = true
  atStart : ∀ x d, d.mem.wf = true → (op.atStart x d).mem.wf = true
  sends : ∀ x f d, d.mem.wf = true → (op.sends x f d).mem.wf = true
  fill : ∀ x f d, d.mem.wf = true → (op.fill x f d).2.mem.wf = true
  atCommit : ∀ x f d, d.mem.wf = true → (op.atCommit x f d).mem.wf = true

theorem runWork_wf (op : OpSpec) (ho : op.Keeps) (h : Here) (die c : Nat) (u : Upset) (f : Flight) (d : Dev) (hd : d.mem.wf = true) :
    (runWork op h die c u f d).mem.wf = true := by
  unfold runWork
  extract_lets d0' d0 x cs d00
  have h0 : d00.mem.wf = true := by
    rw [countOpens_mem, nameTables_mem]
    exact applyUpset_wf _ _ _ _ hd
  clear_value d0' d0 cs x d00
  split
  · extract_lets dq d1
    have hq : dq.mem.wf = true := ite_wf _ h0 (by rw [upsetAlarm_mem]; exact h0)
    exact cmdStop_wf _ _ _ _ _ (by rw [moveMarks_mem, busyCycles_mem, Dev.setCs_mem]; exact hq)
  · rename_i f1 _
    extract_lets d1 d2 d3
    have h3 : d3.mem.wf = true := ho.sends _ _ _ (by rw [moveMarks_mem, busyCycles_mem, Dev.setCs_mem, upsetAlarm_mem]; exact h0)
    clear_value d3
    split
    · exact ite_wf _ (residueHit_wf _ _ _ _ _ _ h3) h3
    · exact h3

theorem startMoves_wf (op : OpSpec) (ho : op.Keeps) (h : Here) (die c : Nat) (u : Upset) (f : Flight) (d : Dev) (hd : d.mem.wf = true) :
    (startMoves op h die c u f d).mem.wf = true :=
  ite_wf _ (runWork_wf op ho _ _ _ _ _ _ hd) hd

@[simp] theorem fetchStart_mem (d : Dev) (die : Nat) (i : Nat) :
    (fetchStart d die i).mem = d.mem := by simp [fetchStart]

@[simp] theorem kvMiss_mem (d : Dev) (die : Nat) (l : List Nat) :
    (kvMiss d die l).mem = d.mem := by simp [kvMiss]

theorem startPinned_wf (op : OpSpec) (ho : op.Keeps) (h : Here) (die c : Nat) (u : Upset) (f : Flight) (d : Dev) (hd : d.mem.wf = true) :
    (startPinned op h die c u f d).mem.wf = true := by
  unfold startPinned
  extract_lets missing waits d1 a d2
  have h1 : d1.mem.wf = true := by simp [d1, hd]
  have h2 : d2.mem.wf = true := ite_wf _ (by simpa using h1) h1
  exact ite_wf _ (startMoves_wf op ho _ _ _ _ _ _ hd) (by simpa using h2)

@[simp] theorem kvPin_mem (d : Dev) (die : Nat) (i : Nat) (who : Nat × Nat) :
    (kvPin d die i who).mem = d.mem := by simp [kvPin]

theorem pinSlot_wf (op : OpSpec) (ho : op.Keeps) (h : Here) (die c : Nat) (u : Upset) (f : Flight) (d : Dev) (hd : d.mem.wf = true) :
    (pinSlot op h die c u f d).mem.wf = true := by
  unfold pinSlot
  extract_lets new d1 bad f1 _ d2
  have h1 : d1.mem.wf = true := by
    rw [foldl_mem _ (fun y i => kvPin_mem y die i _)]
    exact hd
  have h2 : d2.mem.wf = true := by
    rw [Dev.setCs_mem]
    exact h1
  clear_value d1 d2 f1
  exact ite_wf _ (cmdStop_wf _ _ _ _ _ h2) (ite_wf _ (startPinned_wf op ho _ _ _ _ _ _ h1) h2)

theorem startWork_wf (op : OpSpec) (ho : op.Keeps) (h : Here) (die c : Nat) (u : Upset) (f : Flight) (d : Dev) (hd : d.mem.wf = true) :
    (startWork op h die c u f d).mem.wf = true := by
  unfold startWork
  extract_lets x d1 cs list f1
  have h1 : d1.mem.wf = true := ho.atStart _ _ hd
  clear_value d1
  refine ite_wf _ (startPinned_wf op ho _ _ _ _ _ _ h1) (ite_wf _ (pinSlot_wf op ho _ _ _ _ _ _ h1) ?_)
  rw [Dev.setCs_mem]
  exact h1

@[simp] theorem commitTcu_mem (d : Dev) (die : Nat) (f : Flight) :
    (commitTcu d die f).mem = d.mem := by simp [commitTcu]

@[simp] theorem hostSends_wf (x : Ctx) (f : Flight) (d : Dev) (h : d.mem.wf = true) : (hostSends x f d).mem.wf = true := by
  unfold hostSends
  extract_lets early places d1 d2
  have h1 : d1.mem.wf = true := Mems.foldr_write_wf _ _ _ _ h
  have h2 : d2.mem.wf = true := ite_wf _ (scramble_wf _ _ h1) h1
  rw [Dev.setCs_mem]
  exact h2

@[simp] theorem noteCounted_mem (x : Ctx) (acc : Bool) (r : Region) (out : Region) (d : Dev) :
    (noteCounted x acc r out d).mem = d.mem := by simp [noteCounted]

@[simp] theorem keepSent_mem (d : Dev) (k : Nat × Nat) (f : Flit) :
    (keepSent d k f).mem = d.mem := by simp [keepSent]

@[simp] theorem crossControl_mem (d : Dev) (k : Nat × Nat) :
    (crossControl d k).mem = d.mem := by simp [crossControl]

@[simp] theorem credited_mem (d : Dev) (f : Flit) :
    (credited d f).mem = d.mem := by rw [credited]; (repeat' split) <;> simp_all

@[simp] theorem returnCredits_mem (d : Dev) (k : Nat × Nat) :
    (returnCredits d k).mem = d.mem := by simp [returnCredits]

@[simp] theorem sendOne_mem (k : Nat × Nat) (d : Dev) (f : Flit) :
    (sendOne k d f).mem = d.mem := by simp [sendOne]

@[simp] theorem pumpLink_mem (d : Dev) (k : Nat × Nat) :
    (pumpLink d k).mem = d.mem := by simp [pumpLink]

@[simp] theorem sendFlits_mem (d : Dev) (src : Nat) (dst : Nat) (fs : List Flit) :
    (sendFlits d src dst fs).mem = d.mem := by simp [sendFlits]

@[simp] theorem stepSends_wf (sent : Nat) (x : Ctx) (f : Flight) (d : Dev) (h : d.mem.wf = true) :
    (stepSends sent x f d).mem.wf = true := by rw [stepSends]; (repeat' split) <;> simp_all

@[simp] theorem taintFlights_mem (d : Dev) (hit : Nat × Nat → Flight → Bool) :
    (taintFlights d hit).mem = d.mem := by simp [taintFlights]

@[simp] theorem namersTaint_mem (d : Dev) (die : Nat) (ids : List Nat) :
    (namersTaint d die ids).mem = d.mem := by simp [namersTaint]

@[simp] theorem setCtr_mem (d : Dev) (die : Nat) (slot : Nat) (i : Nat) (v : Nat) :
    (setCtr d die slot i v).mem = d.mem := by simp [setCtr]

@[simp] theorem toTierOne_mem (d : Dev) (die : Nat) (i : Nat) : (toTierOne d die i).mem = d.mem := by
  simp [toTierOne]

@[simp] theorem pickFree_mem {α : Type} (d : Dev) (l : List α) :
    (pickFree d l).2.mem = d.mem := by simp [pickFree]

@[simp] theorem takeCores_mem (d : Dev) (k : Nat) (l : List Nat) : (takeCores d k l).2.mem = d.mem := by
  induction k generalizing d l with
  | zero => rfl
  | succ k ih =>
    have h := pickFree_mem d l
    unfold takeCores
    split <;> simp_all

@[simp] theorem startPicture_mem (d : Dev) (i : Nat) (n : Nat) :
    (startPicture d i n).mem = d.mem := by simp [startPicture]

@[simp] theorem shareFrom_mem (f i : Nat) (d : Dev) : (shareFrom f i d).mem = d.mem := by
  induction f generalizing i d with
  | zero => rfl
  | succ f ih =>
    rw [shareFrom]
    split
    · exact ih _ _
    · dsimp only
      split
      · rfl
      · rw [ih, startPicture_mem]

@[simp] theorem shareCores_mem (d : Dev) :
    (shareCores d).mem = d.mem := by simp [shareCores]

@[simp] theorem handOverSlot_mem (d : Dev) (die : Nat) (s : Nat) :
    (handOverSlot d die s).mem = d.mem := by simp [handOverSlot]

/-- An opcode that adds nothing of its own before its commit. -/
theorem keeps_plain (op : OpSpec) (h1 : op.atIssue = fun _ d => (d, false)) (h2 : op.sends = fun _ _ d => d)
    (h3 : op.fill = fun _ f d => (f, d)) (h4 : ∀ x f d, (op.atCommit x f d).mem = d.mem) (h5 : op.atStart = fun _ d => d := by rfl) : op.Keeps :=
  ⟨fun x d h => by rw [h1]; exact h, fun x d h => by rw [h5]; exact h, fun x f d h => by rw [h2]; exact h,
   fun x f d h => by rw [h3]; exact h, fun x f d h => by rw [h4]; exact h⟩

/-- A step command: it sends flits after its work. -/
theorem keeps_step (op : OpSpec) (i : Nat) (h1 : op.atIssue = fun _ d => (d, false)) (h2 : op.sends = stepSends i)
    (h3 : op.fill = fun _ f d => (f, d)) (h4 : ∀ x f d, (op.atCommit x f d).mem = d.mem) (h5 : op.atStart = fun _ d => d := by rfl) : op.Keeps :=
  ⟨fun x d h => by rw [h1]; exact h, fun x d h => by rw [h5]; exact h, fun x f d h => by rw [h2]; exact stepSends_wf _ _ _ _ h,
   fun x f d h => by rw [h3]; exact h, fun x f d h => by rw [h4]; exact h⟩

@[simp] theorem pumpDie_mem (d : Dev) (die : Nat) : (pumpDie d die).mem = d.mem :=
  foldl_mem _ (fun _ _ => (pumpLink_mem _ _).trans (pumpLink_mem _ _)) _ d

theorem opMarker_keeps : opMarker.Keeps := by
  refine ⟨fun x d h => ?_, fun _ _ h => h, fun _ _ _ h => h, fun _ _ _ h => h, fun _ _ _ h => h⟩
  dsimp only [opMarker]
  generalize List.range 3 = l
  refine ite_wf _ ?_ ?_
  · rw [pumpDie_mem]
    refine foldl_wf _ (fun y i hy => ?_) l ?_
    · split <;> exact hy
    · rw [Dev.setCs_mem]
      exact h
  · rw [Dev.setCs_mem]
    exact h

theorem opCtrFetch_keeps : opCtrFetch.Keeps :=
  ⟨fun _ _ h => h, fun _ _ h => h, fun _ _ _ h => h, fun x f d h => by rw [show (opCtrFetch.fill x f d).2.mem = d.mem from setCtr_mem _ _ _ _ _]; exact h,
   fun _ _ _ h => h⟩

theorem opStepEnd_keeps : opStepEnd.Keeps := by
  refine keeps_plain _ rfl rfl rfl (fun x f d => ?_)
  dsimp only [opStepEnd]
  split
  · exact (pumpDie_mem _ _).trans (idle_mem _ _)
  · exact idle_mem _ _

theorem opSePut_keeps : opSePut.Keeps := by
  refine ⟨fun _ _ h => h, fun _ _ h => h, fun x f d h => ?_, fun _ _ _ h => h, fun x f d h => ite_wf _ h h⟩
  rw [show (opSePut.sends x f d).mem = d.mem from (sendFlits_mem _ _ _ _).trans (Dev.setCs_mem _ _ _ _)]
  exact h

theorem opSeCopy_keeps : opSeCopy.Keeps := by
  refine ⟨fun _ _ h => h, fun _ _ h => h, fun x f d h => hostSends_wf _ _ _ h, fun _ _ _ h => h, fun x f d h => ?_⟩
  dsimp only [opSeCopy]
  split <;> (try rw [Dev.inc64_mem]) <;> split <;> (try rw [Dev.inc64_mem]) <;> exact h

theorem opTcuTblLoad_keeps : opTcuTblLoad.Keeps := by
  refine ⟨fun _ _ h => h, fun x d h => ?_, fun _ _ _ h => h, fun _ _ _ h => h, fun x f d h => ?_⟩
  · dsimp only [opTcuTblLoad]
    rw [namersTaint_mem]
    exact h
  · dsimp only [opTcuTblLoad]
    rw [namersTaint_mem]
    exact h

theorem opKvCopy_keeps : opKvCopy.Keeps := by
  refine ⟨fun x d h => ?_, fun _ _ h => h, fun _ _ _ h => h, fun _ _ _ h => h, fun x f d h => ?_⟩
  · dsimp only [opKvCopy]
    split
    · rw [Dev.setKv_mem]; exact h
    · rw [Dev.inc_mem]; exact h
  · dsimp only [opKvCopy]
    rw [spillNext_mem, toTierOne_mem]
    refine ite_wf _ ?_ h
    rw [Dev.setKv_mem]; exact h

theorem opVeSfu_keeps : opVeSfu.Keeps := by
  refine keeps_plain _ rfl rfl rfl (fun x f d => ?_)
  dsimp only [opVeSfu]
  split <;> first | rfl | exact Dev.inc_mem _ _ _

theorem opVeSfuLoad_keeps : opVeSfuLoad.Keeps := by
  refine keeps_plain _ rfl rfl rfl (fun x f d => ?_)
  dsimp only [opVeSfuLoad]
  split <;> rfl

theorem opPxeIn_keeps : opPxeIn.Keeps := by
  refine keeps_plain _ rfl rfl rfl (fun x f d => ?_)
  dsimp only [opPxeIn]
  split
  · rw [Dev.setVc_mem, Dev.inc64_mem]
  · exact Dev.inc64_mem _ _ _

theorem opPxeOut_keeps : opPxeOut.Keeps := by
  refine keeps_plain _ rfl rfl rfl (fun x f d => ?_)
  dsimp only [opPxeOut]
  split
  · rw [foldl_mem _ (fun y s => handOverSlot_mem y x.die s), Dev.inc_mem, Dev.inc64_mem]
  · rw [Dev.inc_mem, Dev.inc64_mem]

theorem opComaLoad_keeps : opComaLoad.Keeps := by
  refine keeps_plain _ rfl rfl rfl (fun x f d => ?_)
  dsimp only [opComaLoad]
  split <;> rfl

theorem opAstPush_keeps : opAstPush.Keeps := by
  refine keeps_plain _ rfl rfl rfl (fun x f d => ?_)
  dsimp only [opAstPush]
  rw [commitTcu_mem, Dev.countAst_mem]

theorem opAstPop_keeps : opAstPop.Keeps := by
  refine keeps_plain _ rfl rfl rfl (fun x f d => ?_)
  dsimp only [opAstPop]
  rw [commitTcu_mem, Dev.setAst_mem]

/-- Every opcode's own part keeps the canonical form. -/
theorem specs_keep : ∀ o ∈ specs, o.Keeps := by
  have plain : ∀ op : OpSpec, op.atIssue = (fun _ d => (d, false)) → op.sends = (fun _ _ d => d) →
      op.fill = (fun _ f d => (f, d)) → op.atCommit = (fun _ _ d => d) → (h5 : op.atStart = fun _ d => d := by rfl) → op.Keeps :=
    fun op h1 h2 h3 h4 h5 => keeps_plain op h1 h2 h3 (fun x f d => by rw [h4]) h5
  simp only [specs, List.forall_mem_cons]
  refine ⟨plain _ rfl rfl rfl rfl, opMarker_keeps, opCtrFetch_keeps, opStepEnd_keeps,
    keeps_plain _ rfl rfl rfl (fun _ _ _ => noteCounted_mem _ _ _ _ _), plain _ rfl rfl rfl rfl, plain _ rfl rfl rfl rfl,
    plain _ rfl rfl rfl rfl, plain _ rfl rfl rfl rfl, plain _ rfl rfl rfl rfl, plain _ rfl rfl rfl rfl, plain _ rfl rfl rfl rfl,
    plain _ rfl rfl rfl rfl, opVeSfu_keeps, opVeSfuLoad_keeps, plain _ rfl rfl rfl rfl, plain _ rfl rfl rfl rfl,
    keeps_plain _ rfl rfl rfl (fun _ _ _ => (spillNext_mem _ _).trans (toTierOne_mem _ _ _)), opKvCopy_keeps, plain _ rfl rfl rfl rfl, opPxeIn_keeps, opPxeOut_keeps,
    opComaLoad_keeps, keeps_plain _ rfl rfl rfl (fun _ _ _ => noteCounted_mem _ _ _ _ _), plain _ rfl rfl rfl rfl,
    plain _ rfl rfl rfl rfl, plain _ rfl rfl rfl rfl, plain _ rfl rfl rfl rfl, opAstPush_keeps, opAstPop_keeps, plain _ rfl rfl rfl rfl,
    opSeCopy_keeps, opSePut_keeps, opTcuTblLoad_keeps, keeps_plain _ rfl rfl rfl (fun _ _ _ => commitTcu_mem _ _ _),
    keeps_plain _ rfl rfl rfl (fun _ _ _ => commitTcu_mem _ _ _), keeps_step _ 2 rfl rfl rfl (fun _ _ _ => rfl),
    keeps_step _ 1 rfl rfl rfl (fun _ _ _ => rfl), keeps_step _ 2 rfl rfl rfl (fun _ _ _ => rfl),
    keeps_step _ 1 rfl rfl rfl (fun _ _ _ => noteCounted_mem _ _ _ _ _), fun _ h => nomatch h⟩

theorem specOf_keeps {c : Cmd} {o : OpSpec} (h : specOf c = some o) : o.Keeps := specs_keep o (List.mem_of_find?_eq_some h)

theorem inFlight_keeps {d : Dev} {die c : Nat} {ph : Phase} {h : Here} {f : Flight} {o : OpSpec}
    (hi : inFlight d die c ph = some (h, f, o)) : o.Keeps := by
  unfold inFlight at hi
  split at hi
  · cases hi
  · split at hi
    · cases hi
    · split at hi
      · obtain ⟨o', ho, he⟩ := Option.map_eq_some_iff.1 hi
        cases he
        exact specOf_keeps ho
      · cases hi

@[simp] theorem acquireSlot_wf (k : CoreIx) (u : Upset) (d : Dev) (h : d.mem.wf = true) : (acquireSlot k u d).mem.wf = true := by
  unfold acquireSlot
  dsimp only
  split
  · exact h
  · rename_i hi
    refine ite_wf _ h (ite_wf _ (cmdStop_wf _ _ _ _ _ h) (ite_wf _ (startWork_wf _ (inFlight_keeps hi) _ _ _ _ _ _ h) (ite_wf _ ?_ h)))
    rw [Dev.inc_mem, Dev.setCs_mem]
    exact h

@[simp] theorem acquireTimeout_wf (k : CoreIx) (late : Bool) (d : Dev) (h : d.mem.wf = true) : (acquireTimeout k late d).mem.wf = true := by
  unfold acquireTimeout
  dsimp only
  (repeat' split) <;> simp [h]

end Sys2Proof.Machine
end

