-- ==== Sys2Proof/Laws/MemPlan.lean ====
section
/-! SUPPORT. What stacks, power rows, BAR2, prologues and telemetry do to the memories. -/

namespace Sys2Proof.Machine
open Sys2Proof

@[simp] theorem runBundle_mem (d : Dev) (b : Bool) :
    (runBundle d b).mem = d.mem := by simp [runBundle]

@[simp] theorem activationOver_mem (d : Dev) :
    (activationOver d).mem = d.mem := by simp [activationOver]

@[simp] theorem ownerSay_mem (d : Dev) (status : Nat) :
    (ownerSay d status).mem = d.mem := by rw [ownerSay]; (repeat' split) <;> simp_all

@[simp] theorem blowFuses_mem (d : Dev) (b : Bool) : (blowFuses d b).mem = d.mem := rfl

@[simp] theorem activationCommit_mem (d : Dev) :
    (activationCommit d).mem = d.mem := by simp [activationCommit]

@[simp] theorem addEnergy_mem (d : Dev) (key : Nat) (e : Nat) :
    (addEnergy d key e).mem = d.mem := by simp [addEnergy]

@[simp] theorem alarmRelease_wf (p : TlmPath) (d : Dev) (h : d.mem.wf = true) :
    (alarmRelease p d).mem.wf = true := by rw [alarmRelease]; (repeat' split) <;> simp_all

@[simp] theorem decidePtp_mem (d : Dev) :
    (decidePtp d).mem = d.mem := by rw [decidePtp]; (repeat' split) <;> simp_all

@[simp] theorem announceRx_mem (p : Nat) (a : Announce) (d : Dev) :
    (announceRx p a d).mem = d.mem := by simp [announceRx]

@[simp] theorem announceTimeout_mem (p : Nat) (late : Bool) (d : Dev) :
    (announceTimeout p late d).mem = d.mem := by simp [announceTimeout]

@[simp] theorem freeKeys_mem {κ : Type} (d : Dev) (ks : List κ) (m : Nat) :
    (freeKeys d ks m).2.mem = d.mem := by simp [freeKeys]

@[simp] theorem ptpSend_mem (d : Dev) (p : Nat) (kind : Nat) (body : List Nat) :
    (ptpSend d p kind body).mem = d.mem := by simp [ptpSend]

@[simp] theorem announceTx_mem (p : Nat) (d : Dev) :
    (announceTx p d).mem = d.mem := by simp [announceTx]

@[simp] theorem flagBit_mem (d : Dev) (sev : Nat) (r : Reg) (b : Nat) :
    (flagBit d sev r b).mem = d.mem := by simp [flagBit]

@[simp] theorem thermPin_mem (before d : Dev) : (thermPin before d).mem = d.mem := by
  unfold thermPin
  split <;> simp

@[simp] theorem arbCycle_mem (fracs : List Nat) (temps : List Nat) (d : Dev) :
    (arbCycle fracs temps d).mem = d.mem := by simp [arbCycle]

@[simp] theorem beginChange_mem (d : Dev) (die : Nat) (pt : Nat) :
    (beginChange d die pt).mem = d.mem := by simp [beginChange]

@[simp] theorem askPoint_mem (d : Dev) (die : Nat) (pt : Nat) :
    (askPoint d die pt).mem = d.mem := by simp [askPoint]

@[simp] theorem taintReaders_mem (d : Dev) (die : Nat) (c : Nat) (ss : List Span) :
    (taintReaders d die c ss).mem = d.mem := by simp [taintReaders]

theorem moveBytes_wf {d e : Dev} {die : Nat} {pg : Page} {src dst : Region} {n : Nat} (h : d.mem.wf = true)
    (he : moveBytes d die pg src dst n = .done e) : e.mem.wf = true := by
  unfold moveBytes at he
  split at he
  · cases he
  · split at he
    · cases he
    · split at he
      · cases he
      · extract_lets span d1 open' d2 hit d3 d4 at he
        have h1 : d1.mem.wf = true := Mems.foldl_write_wf Wr.space Wr.addr Wr.data (dst.writes d 0 (src.bytes d 0 n)) h
        have h2 : d2.mem.wf = true := ite_wf _ (scramble_wf _ _ h1) (by rw [carryMarks_mem]; exact h1)
        have h3 : d3.mem.wf = true := by
          rw [countOpens_mem, taintFlights_mem, taintReaders_mem]
          exact h2
        clear_value d3
        have h4 : d4.mem.wf = true := ite_wf _ (by simpa using h3) h3
        clear_value d4
        obtain rfl := Moved.done.inj he
        exact ite_wf _ (by simpa using h4) h4

/-- One piece of a stack transfer. -/
def astPiece (die : Nat) (a : AstSet) (n : Nat) (out : Bool) (acc : Moved × Nat) (q : Nat × Nat) : Moved × Nat :=
  match acc.1 with
  | .fault pg c i => (.fault pg c i, acc.2)
  | .done x =>
    (if out then moveBytes x die (.ast die) (astAt a die acc.2 q.2 n) (astHome x a n acc.2 q.2) q.2
      else moveBytes x die (.ast die) (astHome x a n acc.2 q.2) (astAt a die acc.2 q.2 n) q.2, acc.2 + q.2)

theorem astPieces_wf (die : Nat) (a : AstSet) (n : Nat) (out : Bool) (l : List (Nat × Nat)) (acc : Moved × Nat)
    (ha : ∀ x, acc.1 = .done x → x.mem.wf = true) : ∀ x, (l.foldl (astPiece die a n out) acc).1 = .done x → x.mem.wf = true := by
  induction l generalizing acc with
  | nil => exact ha
  | cons q t ih =>
    refine ih _ (fun x hx => ?_)
    unfold astPiece at hx
    split at hx
    · cases hx
    · rename_i y hy
      dsimp only at hx
      split at hx
      · exact moveBytes_wf (ha y hy) hx
      · exact moveBytes_wf (ha y hy) hx

theorem astMove_wf {d e : Dev} {die : Nat} {a : AstSet} {n lo hi : Nat} {out : Bool} (h : d.mem.wf = true)
    (he : astMove d die a n lo hi out = .done e) : e.mem.wf = true :=
  astPieces_wf die a n out _ (.done d, lo) (fun x hx => by cases hx; exact h) e he

theorem astFetch_wf (d : Dev) (die slot n lo : Nat) (k : Dev → Dev) (h : d.mem.wf = true)
    (hk : ∀ x, x.mem.wf = true → (k x).mem.wf = true) : (astFetch d die slot n lo k).mem.wf = true := by
  unfold astFetch
  dsimp only
  split
  · exact hk _ h
  · exact Moved.run_wf _ _ _ _ h (fun x hx => hk _ (by simpa using astMove_wf h hx))

theorem astSpill_wf (d : Dev) (die slot n hi : Nat) (k : Dev → Dev) (h : d.mem.wf = true)
    (hk : ∀ x, x.mem.wf = true → (k x).mem.wf = true) : (astSpill d die slot n hi k).mem.wf = true := by
  unfold astSpill
  dsimp only
  split
  · exact hk _ h
  · exact Moved.run_wf _ _ _ _ h (fun x hx => hk _ (by simpa using astMove_wf h hx))

theorem proceed_wf (op : OpSpec) (ho : op.Keeps) (h : Here) (die c : Nat) (u : Upset) (d : Dev) (hd : d.mem.wf = true) :
    (proceed op h die c u d).mem.wf = true := by
  unfold proceed
  split
  · exact hd
  · refine ite_wf _ hd ?_
    dsimp only
    exact ite_wf _ (startMoves_wf op ho _ _ _ _ _ _ hd) (by simpa using hd)

@[simp] theorem astTransfer_wf (k : CoreIx) (u : Upset) (d : Dev) (h : d.mem.wf = true) : (astTransfer k u d).mem.wf = true := by
  unfold astTransfer
  dsimp only
  split
  · exact h
  · rename_i hr f op hi
    have hd : d.draw.2.mem.wf = true := by rw [Dev.draw_mem]; exact h
    generalize d.draw = q at hd ⊢
    have hg : ∀ y, y.mem.wf = true → (proceed op hr k.die.val k.core.val u y).mem.wf = true :=
      fun y hy => proceed_wf _ (inFlight_keeps hi) _ _ _ _ _ hy
    exact ite_wf _ h (ite_wf _ (astSpill_wf _ _ _ _ _ _ hd hg) (astFetch_wf _ _ _ _ _ _ hd hg))

@[simp] theorem inputBit_mem (d : Dev) (b : Nat) (v : Bool) :
    (inputBit d b v).mem = d.mem := by simp [inputBit]

@[simp] theorem beginHandover_mem (d : Dev) :
    (beginHandover d).mem = d.mem := by simp [beginHandover]

@[simp] theorem fallBack_mem (d : Dev) :
    (fallBack d).mem = d.mem := by simp [fallBack]

@[simp] theorem linksOff_mem (d : Dev) (r : Nat) :
    (linksOff d r).mem = d.mem := by simp [linksOff]

@[simp] theorem clearRow_wf (d : Dev) (r : Nat) (h : d.mem.wf = true) :
    (clearRow d r).mem.wf = true := by rw [clearRow]; (repeat' split) <;> simp_all

@[simp] theorem emptyDie_wf (d : Dev) (die : Nat) (h : d.mem.wf = true) : (emptyDie d die).mem.wf = true := h

@[simp] theorem dropStreams_mem (d : Dev) (die : Nat) : (dropStreams d die).mem = d.mem := by simp [dropStreams]

@[simp] theorem deadDie_wf (d : Dev) (die : Nat) (h : d.mem.wf = true) : (deadDie d die).mem.wf = true := by
  have h1 : (dropStreams (emptyDie d die) die).mem.wf = true := (congrArg Mems.wf (dropStreams_mem _ _)).trans (emptyDie_wf d die h)
  unfold deadDie
  refine (congrArg Mems.wf (?_ : _ = (dropStreams (emptyDie d die) die).mem)).trans h1
  exact (foldl_mem _ (fun x r => Dev.wr_mem x r _) _ _).trans (Dev.resetPages_mem _ _)

@[simp] theorem rowOff_wf (d : Dev) (r : Nat) (h : d.mem.wf = true) : (rowOff d r).mem.wf = true := by
  have h1 : (clearRow ((rowDies r).foldl deadDie d) r).mem.wf = true := clearRow_wf _ _ (foldl_wf _ (fun x e hx => deadDie_wf x e hx) _ h)
  unfold rowOff
  simpa using h1

@[simp] theorem dropSession_wf (d : Dev) (n : Nat) (h : d.mem.wf = true) : (dropSession d n).mem.wf = true := by
  unfold dropSession
  (repeat' split) <;> simp [h]

@[simp] theorem setPwrgd_mem (d : Dev) (v : Bool) :
    (setPwrgd d v).mem = d.mem := by simp [setPwrgd]

@[simp] theorem railOff_wf (d : Dev) (h : d.mem.wf = true) : (railOff d).mem.wf = true := by
  unfold railOff
  extract_lets d1 d2 d3 d4 kept
  have h1 : d1.mem.wf = true := foldl_wf _ (fun x e hx => by simp [hx]) _ h
  have h2 : d2.mem.wf = true := foldl_wf _ (fun x e hx => by simp [hx]) _ h1
  simp [d4, d3, h2]

@[simp] theorem setStep_mem (d : Dev) (v : Nat) :
    (setStep d v).mem = d.mem := by simp [setStep]

@[simp] theorem brownOut_wf (code : Nat) (d : Dev) (h : d.mem.wf = true) : (brownOut code d).mem.wf = true := by
  unfold brownOut
  split
  · exact h
  · extract_lets r d1 d2
    have h1 : d1.mem.wf = true := foldl_wf _ (fun x e hx => by split <;> simp [hx]) _ h
    clear_value d1
    simp [d2, h1]

@[simp] theorem powerOff_wf (d : Dev) (h : d.mem.wf = true) : (powerOff d).mem.wf = true := by
  simp only [Mems.wf, Bool.and_eq_true] at h
  simp [powerOff, Mems.wf, h.1.2, h.2, canonical, rising]

@[simp] theorem auxChange_wf (aux : Bool) (main : Bool) (d : Dev) (h : d.mem.wf = true) :
    (auxChange aux main d).mem.wf = true := by rw [auxChange]; (repeat' split) <;> simp_all

@[simp] theorem auxUp_mem (aux : Bool) (main : Bool) (d : Dev) :
    (auxUp aux main d).mem = d.mem := by simp [auxUp]

@[simp] theorem looseRecipe_mem (n slot : Nat) (ents : List Nat) (d : Dev) : (looseRecipe n slot ents d).mem = d.mem := by
  unfold looseRecipe
  dsimp only
  split <;> rfl

@[simp] theorem recipesMet_mem (n : Nat) (w : Span) (before d : Dev) : (recipesMet n w before d).mem = d.mem := by
  unfold recipesMet
  exact foldl_mem _ (fun x i => by dsimp only; split <;> simp only [looseRecipe_mem]) _ d

@[simp] theorem barServe_wf (n : Nat) (d : Dev) (r : BarReq) (h : d.mem.wf = true) : (barServe n d r).mem.wf = true := by
  unfold barServe
  extract_lets s bad d0
  have h0 : d0.mem.wf = true := by
    rw [countOpens_mem]
    exact ite_wf _ (by rw [taintFlights_mem]; exact h) h
  clear_value d0 s bad
  cases r with
  | read a len => exact ite_wf _ h0 h0
  | write a bs =>
    dsimp only
    rw [recipesMet_mem]
    have h1 : (dropMarks { d0 with mem := d0.mem.write .hbm s.base bs } [s]).mem.wf = true := Mems.write_wf _ _ _ h0
    exact ite_wf _ (scramble_wf _ _ h1) h1

@[simp] theorem barGo_wf (n : Nat) (l : List BarReq) (d : Dev) (h : d.mem.wf = true) : (barGo n l d).mem.wf = true := by
  induction l generalizing d with
  | nil => exact h
  | cons r t ih =>
    rw [barGo]
    split
    · exact ih _ (barServe_wf _ _ _ h)
    · exact h

@[simp] theorem barJoin_mem (n : Nat) (r : BarReq) (d : Dev) :
    (barJoin n r d).mem = d.mem := by simp [barJoin]

@[simp] theorem barRelease_wf (n : Nat) (d : Dev) (h : d.mem.wf = true) :
    (barRelease n d).mem.wf = true := by rw [barRelease]; (repeat' split) <;> simp_all

@[simp] theorem barRequest_wf (n : Nat) (r : BarReq) (d : Dev) (h : d.mem.wf = true) :
    (barRequest n r d).mem.wf = true := by unfold barRequest; dsimp only; (repeat' split) <;> simp_all

@[simp] theorem prologue_mem (d : Dev) (h : Here) (die c : Nat) : (prologue d h die c).mem = d.mem := by
  unfold prologue
  extract_lets
  split <;> simp

@[simp] theorem fireOne_wf (d : Dev) (n : Nat) (slot : Nat) (die : Nat) (part : Nat) (ix : Nat) (t : TideEnt) (h : d.mem.wf = true) :
    (fireOne d n slot die part ix t).mem.wf = true := by rw [fireOne]; (repeat' split) <;> simp_all

@[simp] theorem fireTides_wf (d : Dev) (h : Here) (die c : Nat) (hd : d.mem.wf = true) : (fireTides d h die c).mem.wf = true := by
  unfold fireTides
  exact foldl_wf _ (fun x e hx => by split <;> simp [hx]) _ hd

theorem begun_wf (op : OpSpec) (ho : op.Keeps) (h : Here) (x : Ctx) (hd : x.dev.mem.wf = true) : (begun op h x).1.mem.wf = true := by
  unfold begun
  split
  · exact hd
  · exact ho.atIssue _ _ (by simp [hd])

@[simp] theorem blockDone_mem (d : Dev) :
    (blockDone d).mem = d.mem := by rw [blockDone]; (repeat' split) <;> simp_all

@[simp] theorem boundaryReached_wf (n : Nat) (d : Dev) (h : d.mem.wf = true) : (boundaryReached n d).mem.wf = true := by
  have h0 : (epochOn d n).mem.wf = true := by rw [epochOn_mem]; exact h
  unfold boundaryReached
  generalize epochOn d n = e at h0 ⊢
  dsimp only
  split
  · exact h
  · exact ite_wf _ h (stepOver_wf _ _ (ite_wf _ (by rw [Dev.setPort_mem]; exact h0) (jobOver_wf _ _ _ _ _ h0)))

@[simp] theorem bucketSample_mem (mw : Nat) (d : Dev) :
    (bucketSample mw d).mem = d.mem := by simp [bucketSample]

theorem keyEnd_eq (p : TlmPath) (d : Dev) (k : BurstKey) : keyEnd p d k =
    (pathEnter (k.held.foldl (fun x r => pathEnter x p r) d) p
      (stamped (mkRecord (pathNs d p) k.sev k.source 1 k.code (min k.counted 0xFFFF)) k.stamp)).inc64 (tlmCoal p) k.counted := (rfl)

@[simp] theorem keyEnd_wf (p : TlmPath) (d : Dev) (k : BurstKey) (h : d.mem.wf = true) : (keyEnd p d k).mem.wf = true := by
  rw [keyEnd_eq, Dev.inc64_mem]
  exact pathEnter_wf _ _ _ (foldl_wf _ (fun x e hx => pathEnter_wf x p e hx) _ h)

@[simp] theorem ownRecord_wf (d : Dev) (p : TlmPath) (code : Nat) (data : Nat) (h : d.mem.wf = true) :
    (ownRecord d p code data).mem.wf = true := by rw [ownRecord]; (repeat' split) <;> simp_all

@[simp] theorem timeMark_wf (d : Dev) (p : TlmPath) (h : d.mem.wf = true) :
    (timeMark d p).mem.wf = true := by rw [timeMark]; (repeat' split) <;> simp_all

@[simp] theorem dropSummary_wf (d : Dev) (p : TlmPath) (h : d.mem.wf = true) :
    (dropSummary d p).mem.wf = true := by rw [dropSummary]; (repeat' split) <;> simp_all

@[simp] theorem burstEnd_wf (p : TlmPath) (d : Dev) (h : d.mem.wf = true) : (burstEnd p d).mem.wf = true := by
  unfold burstEnd
  dsimp only
  split
  · exact h
  · exact timeMark_wf _ _ (dropSummary_wf _ _ (foldl_wf _ (fun x e hx => by simp [hx]) _ (by simp [h])))

@[simp] theorem calUpdate_mem (meanInput : Nat) (modelled : Nat) (d : Dev) :
    (calUpdate meanInput modelled d).mem = d.mem := by simp [calUpdate]

@[simp] theorem changeDone_mem (die : Nat) (d : Dev) :
    (changeDone die d).mem = d.mem := by rw [changeDone]; (repeat' split) <;> simp_all

@[simp] theorem killBroadcast_wf (d : Dev) (n : Nat) (h : d.mem.wf = true) : (killBroadcast d n).mem.wf = true := by
  unfold killBroadcast
  dsimp only
  split
  · exact h
  · rw [Dev.inc_mem, Dev.inc_mem, Dev.setPort_mem]
    exact foldl_wf _ (fun x e hx => by (repeat' split) <;> simp [hx]) _ h

@[simp] theorem classZeroBell_wf (d : Dev) (n : Nat) (earlier : Bool) (h : d.mem.wf = true) : (classZeroBell d n earlier).mem.wf = true := by
  have h1 : ∀ p : Port, (d.setPort n p).mem.wf = true := fun p => by rw [Dev.setPort_mem]; exact h
  unfold classZeroBell
  dsimp only
  refine ite_wf _ h ?_
  split
  · exact killBroadcast_wf _ _ (h1 _)
  · exact killBroadcast_wf _ _ (h1 _)
  · rw [Dev.inc_mem, Dev.setPort_mem, switchOver_mem]
    exact h1 _
  · exact h1 _

@[simp] theorem clearCounters_mem (d : Dev) (pg : Page) :
    (clearCounters d pg).mem = d.mem := by simp [clearCounters]

@[simp] theorem partResp_mem (d : Dev) (n : Nat) (status : Nat) :
    (partResp d n status).mem = d.mem := by simp [partResp]

@[simp] theorem settleRow_mem (d : Dev) (r : Nat) :
    (settleRow d r).mem = d.mem := by simp [settleRow]

@[simp] theorem clearDone_wf (n : Nat) (d : Dev) (h : d.mem.wf = true) : (clearDone n d).mem.wf = true := by
  have h1 : ∀ (p : Port) (rs : List Nat), (rs.foldl clearRow (d.setPort n p)).mem.wf = true := fun p rs =>
    foldl_wf _ (fun x e hx => by simp [hx]) _ (by simpa using h)
  unfold clearDone
  dsimp only
  split
  · exact h
  · split <;> simp [h1]

@[simp] theorem clearFault_mem (d : Dev) (pg : Page) :
    (clearFault d pg).mem = d.mem := by simp [clearFault]

@[simp] theorem clearTcu_mem (d : Dev) (die : Nat) :
    (clearTcu d die).mem = d.mem := by simp [clearTcu]

@[simp] theorem ppsRise_mem (d : Dev) :
    (ppsRise d).mem = d.mem := by simp [ppsRise]

@[simp] theorem secondBegins_mem (d : Dev) :
    (secondBegins d).mem = d.mem := by simp [secondBegins]

@[simp] theorem frameRise_mem (d : Dev) :
    (frameRise d).mem = d.mem := by simp [frameRise]

@[simp] theorem markAll_wf (d : Dev) (h : d.mem.wf = true) : (markAll d).mem.wf = true :=
  foldl_wf _ (fun x e hx => by simp [hx]) _ h

@[simp] theorem stepTo_wf (d : Dev) (now : Nat) (h : d.mem.wf = true) :
    (stepTo d now).mem.wf = true := by rw [stepTo]; (repeat' split) <;> simp_all

@[simp] theorem todValue_mem (d : Dev) (sec : Nat) : (todValue d sec).2.mem = d.mem := by
  unfold todValue
  split <;> rfl

@[simp] theorem todApply_wf (d : Dev) (h : d.mem.wf = true) : (todApply d).mem.wf = true := by
  have ht : ∀ (v : Dev) (t : TimeSt), ({ v with time := t }.setFld R.TIME_STAT 6 6 1).mem = v.mem := fun _ _ => rfl
  have hi : ∀ e : Dev, e.mem.wf = true → (if inHandover e then e else idle e .timeG).mem.wf = true :=
    fun e he => ite_wf _ he (by rw [idle_mem]; exact he)
  unfold todApply
  split
  · exact h
  · refine hi _ (stepTo_wf _ _ ?_)
    rw [ht, todValue_mem]
    exact h

@[simp] theorem fanOut_wf (d : Dev) (rec : Nat) (h : d.mem.wf = true) : (fanOut d rec).mem.wf = true := by
  unfold fanOut
  exact pathPost_wf _ _ _ (foldl_wf _ (fun x e hx => by split <;> simp [hx]) _ h)

@[simp] theorem drainPath_wf (d : Dev) (p : TlmPath) (h : d.mem.wf = true) : (drainPath d p).mem.wf = true := by
  unfold drainPath
  split
  · split
    · exact h
    · exact ite_wf _ (ringWrite_wf _ _ _ (by rw [Dev.setPath_mem]; exact h)) h
  · split
    · exact h
    · extract_lets d1
      have h1 : d1.mem.wf = true := (congrArg Mems.wf (Dev.setPath_mem d _ _)).trans h
      clear_value d1
      split
      · exact pathPost_wf _ _ _ h1
      · exact fanOut_wf _ _ h1
      · rw [Dev.emit_mem, Dev.setPath_mem]
        exact h

@[simp] theorem tick_mem (d : Dev) :
    (tick d).mem = d.mem := by simp [tick]

@[simp] theorem clockEdge_wf (d : Dev) (h : d.mem.wf = true) : (clockEdge d).mem.wf = true := by
  unfold clockEdge
  extract_lets d1 d2
  have h1 : d1.mem.wf = true := by simp [d1, h]
  have h2 : d2.mem.wf = true := foldl_wf _ (fun x e hx => by simp [hx]) _ (ite_wf _ (by simp [h1]) h1)
  exact foldl_wf _ (fun x n hx => ite_wf _ hx (by simp [hx])) _ h2

end Sys2Proof.Machine
end

