-- ==== Sys2Proof/Laws/MemBlocks.lean ====
section
/-! SUPPORT. What commits, links, codecs and the pages of a die do to the memories. -/

namespace Sys2Proof.Machine
open Sys2Proof

@[simp] theorem collTimeout_wf (die id : Nat) (late : Bool) (d : Dev) (h : d.mem.wf = true) : (collTimeout die id late d).mem.wf = true := by
  unfold collTimeout
  split
  · exact h
  · split
    · exact h
    · dsimp only
      refine cmdStop_wf _ _ _ _ _ ?_
      split <;> exact h

@[simp] theorem setPathSt_mem (d : Dev) (die : Nat) (i : Nat) (v : Nat × Bool) :
    (setPathSt d die i v).mem = d.mem := by simp [setPathSt]

@[simp] theorem collision_mem (d : Dev) (die : Nat) (i : Nat) :
    (collision d die i).mem = d.mem := by simp [collision]

@[simp] theorem unhold_mem (d : Dev) (die : Nat) (i : Nat) :
    (unhold d die i).mem = d.mem := by simp [unhold]

@[simp] theorem commitFlags_mem (op : OpSpec) (h : Here) (die : Nat) (c : Nat) (f : Flight) (d : Dev) :
    (commitFlags op h die c f d).mem = d.mem := by simp [commitFlags]

@[simp] theorem kvReject_mem (d : Dev) (die : Nat) :
    (kvReject d die).mem = d.mem := by simp [kvReject]

@[simp] theorem kvRef_mem (d : Dev) (die : Nat) (i : Nat) :
    (kvRef d die i).mem = d.mem := by simp [kvRef]

@[simp] theorem spillCheck_mem (d : Dev) (die : Nat) :
    (spillCheck d die).mem = d.mem := by simp [spillCheck]

/-- What a page's entry being taken can open. -/
theorem openPlaces_wf (b : Bool) (die i : Nat) (x : Dev) (h : x.mem.wf = true) :
    (if b then scramble x (kvPlaces x die i) else x).mem.wf = true := ite_wf _ (scramble_wf _ _ h) h

@[simp] theorem kvAlloc_wf (d : Dev) (die slot i : Nat) (hd : d.mem.wf = true) : (kvAlloc d die slot i).mem.wf = true := by
  unfold kvAlloc
  extract_lets e new open'
  split
  · simp [hd]
  · have h := pickFree_mem d (freeFrames d die)
    split
    · rename_i f d1 heq
      rw [heq] at h
      rw [spillCheck_mem]
      exact openPlaces_wf _ _ _ _ ((congrArg Mems.wf h).trans hd)
    · rename_i d1 heq
      rw [heq] at h
      rw [spillCheck_mem]
      refine openPlaces_wf _ _ _ _ (Dev.inc_wf _ _ _ ?_)
      rw [Dev.setKv_mem]
      exact (congrArg Mems.wf h).trans hd

@[simp] theorem kvDeref_mem (d : Dev) (die : Nat) (i : Nat) :
    (kvDeref d die i).mem = d.mem := by simp [kvDeref]

@[simp] theorem kvOp_wf (d : Dev) (die : Nat) (slot : Nat) (t : TailEnt) (h : d.mem.wf = true) :
    (kvOp d die slot t).mem.wf = true := by rw [kvOp]; (repeat' split) <;> simp_all

@[simp] theorem ctrAdd_mem (d : Dev) (die : Nat) (slot : Nat) (i : Nat) (n : Nat) :
    (ctrAdd d die slot i n).mem = d.mem := by simp [ctrAdd]

@[simp] theorem publish_wf (h : Here) (die : Nat) (d : Dev) (t : TailEnt) (hd : d.mem.wf = true) : (publish h die d t).mem.wf = true := by
  unfold publish
  split <;> simp [hd]

@[simp] theorem commitVector_mem (die : Nat) (c : Nat) (f : Flight) (d : Dev) :
    (commitVector die c f d).mem = d.mem := by simp [commitVector]

@[simp] theorem lateMaps_mem (d : Dev) (ss : List Span) :
    (lateMaps d ss).mem = d.mem := by simp [lateMaps]

@[simp] theorem meetTides_wf (x : Ctx) (f : Flight) (d : Dev) (h : d.mem.wf = true) :
    (meetTides x f d).mem.wf = true := by rw [meetTides]; (repeat' split) <;> simp_all

@[simp] theorem commitOutputs_wf (op : OpSpec) (x : Ctx) (f : Flight) (d : Dev) (h : d.mem.wf = true) :
    (commitOutputs op x f d).mem.wf = true := by
  unfold commitOutputs
  extract_lets d0 d1 outs
  have h0 : d0.mem.wf = true := by
    rw [show d0.mem = d.mem.clearPoison f.written from rfl, Mems.clearPoison_wf]
    exact h
  clear_value d0
  have h1 : d1.mem.wf = true := ite_wf _ (scramble_wf _ _ h0)
    (scramble_wf _ _ (Mems.foldr_write_wf Wr.space Wr.addr Wr.data f.writes h0))
  clear_value d1
  rw [lateMaps_mem]
  refine meetTides_wf _ _ _ ?_
  rw [taintReaders_mem]
  refine wildPages_wf _ _ _ ?_
  rw [dropMarks_mem]
  exact h1

theorem commitCmd_wf (op : OpSpec) (ho : op.Keeps) (h : Here) (die c : Nat) (f : Flight) (d : Dev) (hd : d.mem.wf = true) :
    (commitCmd op h die c f d).mem.wf = true := by
  unfold commitCmd
  extract_lets x tail
  have h0 := ho.fill x f d hd
  split
  rename_i f1 d0 heq
  rw [heq] at h0
  extract_lets d1 d2 d3 d4
  have h1 : d1.mem.wf = true := foldl_wf _ (fun y e hy => by simp [hy]) _ (by simpa using h0)
  have h2 : d2.mem.wf = true := by simp only [d2]; split <;> simp [h1]
  have h3 : d3.mem.wf = true := by simpa [d3] using h2
  have h4 : d4.mem.wf = true := ho.atCommit _ _ _ (commitOutputs_wf _ _ _ _ h3)
  simpa using h4

@[simp] theorem commitIfReady_mem (d : Dev) :
    (commitIfReady d).mem = d.mem := by simp [commitIfReady]

theorem stalledSlot_wf (op : OpSpec) (ho : op.Keeps) (h : Here) (die c : Nat) (f : Flight) (d : Dev) (hd : d.mem.wf = true) :
    (stalledSlot op h die c f d).mem.wf = true :=
  ite_wf _ (proceed_wf op ho _ _ _ _ _ hd) (pinSlot_wf op ho _ _ _ _ _ _ hd)

@[simp] theorem commitSlot_wf (k : CoreIx) (d : Dev) (h : d.mem.wf = true) : (commitSlot k d).mem.wf = true := by
  unfold commitSlot
  extract_lets die c
  split
  · rename_i hi
    exact ite_wf _ h (ite_wf _ (cmdStop_wf _ _ _ _ _ h) (commitCmd_wf _ (inFlight_keeps hi) _ _ _ _ _ h))
  · rename_i hi
    exact ite_wf _ (stalledSlot_wf _ (inFlight_keeps hi) _ _ _ _ _ h) h
  · exact h

@[simp] theorem consume_mem (d : Dev) (die : Nat) (used : Nat) :
    (consume d die used).mem = d.mem := by simp [consume]

@[simp] theorem controlToken_mem (d : Dev) (rows : Nat) (src : Nat) (dst : Nat) :
    (controlToken d rows src dst).mem = d.mem := by simp [controlToken]

@[simp] theorem stopRow_wf (code : Nat) (info0 : Nat) (d : Dev) (r : Nat) (h : d.mem.wf = true) :
    (stopRow code info0 d r).mem.wf = true := by rw [stopRow]; (repeat' split) <;> simp_all

@[simp] theorem stopAll_wf (code info0 : Nat) (d : Dev) (h : d.mem.wf = true) : (stopAll code info0 d).mem.wf = true :=
  foldl_wf _ (fun x e hx => by simp [hx]) _ h

@[simp] theorem coolantSample_wf (inlet outlet flow : Nat) (lowFlow2s : Bool) (absent1s : Nat) (d : Dev) (h : d.mem.wf = true) :
    (coolantSample inlet outlet flow lowFlow2s absent1s d).mem.wf = true := by
  unfold coolantSample
  split
  · exact h
  · dsimp only
    rw [thermPin_mem]
    have h1 : ∀ e : Dev, e.mem.wf = true → (if bit (coolBits inlet flow lowFlow2s) 3 then stopAll 0x0704 (2 ^ 31) e else e).mem.wf = true := by
      intro e he
      split <;> simp [he]
    refine h1 _ (foldl_wf _ (fun x e hx => by (repeat' split) <;> simp [hx]) _ (by simp [h]))

@[simp] theorem cqDrain_wf (d : Dev) (n : Nat) (l : List CqRec) (h : d.mem.wf = true) : (cqDrain d n l).mem.wf = true := by
  induction l generalizing d with
  | nil => simp [cqDrain, h]
  | cons r t ih =>
    rw [cqDrain]
    split
    · simp [h]
    · exact ih _ (by simp [h])

@[simp] theorem cqHead_wf (n : Nat) (head : Nat) (d : Dev) (h : d.mem.wf = true) :
    (cqHead n head d).mem.wf = true := by rw [cqHead]; (repeat' split) <;> simp_all

@[simp] theorem cutEnd_mem (die : Nat) (d : Dev) :
    (cutEnd die d).mem = d.mem := by simp [cutEnd]

@[simp] theorem debugDeny_mem (d : Dev) :
    (debugDeny d).mem = d.mem := by simp [debugDeny]

@[simp] theorem debugLock_mem (d : Dev) :
    (debugLock d).mem = d.mem := by simp [debugLock]

@[simp] theorem debugUnlock_mem (d : Dev) :
    (debugUnlock d).mem = d.mem := by simp [debugUnlock]

@[simp] theorem setDec_mem (d : Dev) (die : Nat) (v : Nat) :
    (setDec d die v).mem = d.mem := by simp [setDec]

@[simp] theorem decAttach_mem (die : Nat) (d : Dev) :
    (decAttach die d).mem = d.mem := by rw [decAttach]; (repeat' split) <;> simp_all

@[simp] theorem decDetach_mem (die : Nat) (d : Dev) :
    (decDetach die d).mem = d.mem := by simp [decDetach]

@[simp] theorem decFailed_mem (d : Dev) (die : Nat) (source : Nat) :
    (decFailed d die source).mem = d.mem := by simp [decFailed]

@[simp] theorem ringSem_mem (d : Dev) (die : Nat) (ctrl : Reg) :
    (ringSem d die ctrl).mem = d.mem := by rw [ringSem]; (repeat' split) <;> simp_all

@[simp] theorem decHandOver_wf (d : Dev) (die : Nat) (slot : Nat) (loose : Bool) (p : DecPicture) (h : d.mem.wf = true) :
    (decHandOver d die slot loose p).mem.wf = true := by rw [decHandOver]; (repeat' split) <;> simp_all

@[simp] theorem decOutcome_wf (d : Dev) (die : Nat) (slot : Nat) (dirty : Bool) (o : DecOutcome) (h : d.mem.wf = true) :
    (decOutcome d die slot dirty o).mem.wf = true := by unfold decOutcome; (repeat' split) <;> simp_all

@[simp] theorem decideStep_wf (d : Dev) (die : Nat) (id : Nat) (h : d.mem.wf = true) :
    (decideStep d die id).mem.wf = true := by rw [decideStep]; (repeat' split) <;> simp_all

@[simp] theorem decodePicture_wf (die : Nat) (o : DecOutcome) (d : Dev) (h : d.mem.wf = true) :
    (decodePicture die o d).mem.wf = true := by unfold decodePicture; dsimp only; (repeat' split) <;> simp_all

@[simp] theorem delayReq_mem (p : Nat) (unicast : Bool) (seq : Nat) (d : Dev) :
    (delayReq p unicast seq d).mem = d.mem := by simp [delayReq]

@[simp] theorem payloadWritten_mem (d : Dev) (f : Flit) :
    (payloadWritten d f).mem = d.mem := by simp [payloadWritten]

@[simp] theorem takeStep_wf (d : Dev) (die : Nat) (f : Flit) (hd : d.mem.wf = true) : (takeStep d die f).mem.wf = true := by
  unfold takeStep
  dsimp only
  (repeat' split) <;> simp [hd]

@[simp] theorem deliver_wf (d : Dev) (die : Nat) (f : Flit) (h : d.mem.wf = true) :
    (deliver d die f).mem.wf = true := by rw [deliver]; (repeat' split) <;> simp_all

@[simp] theorem dieStage_mem (d : Dev) (die : Nat) (stage : Nat) (cause : Nat) :
    (dieStage d die stage cause).mem = d.mem := by simp [dieStage]

@[simp] theorem disturb_wf (d : Dev) (ss : List Span) (h : d.mem.wf = true) :
    (disturb d ss).mem.wf = true := by rw [disturb]; (repeat' split) <;> simp_all

@[simp] theorem doneToken_wf (die : Nat) (id : Nat) (sender : Nat) (d : Dev) (h : d.mem.wf = true) :
    (doneToken die id sender d).mem.wf = true := by rw [doneToken]; (repeat' split) <;> simp_all

@[simp] theorem takeEntries_mem (d : Dev) (k : Nat) (l : List QEntry) : (takeEntries d k l).2.mem = d.mem := by
  induction k generalizing d l with
  | zero => rfl
  | succ k ih => cases l <;> simp [takeEntries, ih]

@[simp] theorem doorbell_wf (n : Nat) (q : Nat) (tail : Nat) (given : List QEntry) (d : Dev) (h : d.mem.wf = true) :
    (doorbell n q tail given d).mem.wf = true := by rw [doorbell]; (repeat' split) <;> simp_all

@[simp] theorem drainEnd_mem (n : Nat) (d : Dev) :
    (drainEnd n d).mem = d.mem := by rw [drainEnd]; (repeat' split) <;> simp_all

@[simp] theorem drawKey_mem (d : Dev) (dies : List Nat) :
    (drawKey d dies).mem = d.mem := by simp [drawKey]

@[simp] theorem droopDetect_mem (die : Nat) (d : Dev) :
    (droopDetect die d).mem = d.mem := by simp [droopDetect]

@[simp] theorem droopRecover_mem (die : Nat) (long : Bool) (d : Dev) :
    (droopRecover die long d).mem = d.mem := by simp [droopRecover]

@[simp] theorem setEnc_mem (d : Dev) (die : Nat) (v : Nat) :
    (setEnc d die v).mem = d.mem := by simp [setEnc]

@[simp] theorem listen_mem (d : Dev) (die : Nat) (i : Nat) :
    (listen d die i).mem = d.mem := by simp [listen]

@[simp] theorem encAttach_mem (die : Nat) (d : Dev) :
    (encAttach die d).mem = d.mem := by rw [encAttach]; (repeat' split) <;> simp_all

@[simp] theorem encOver_mem (d : Dev) (die : Nat) :
    (encOver d die).mem = d.mem := by simp [encOver]

@[simp] theorem releaseSlot_mem (d : Dev) (die : Nat) (s : Nat) :
    (releaseSlot d die s).mem = d.mem := by simp [releaseSlot]

@[simp] theorem releaseAll_mem (d : Dev) (die : Nat) : (releaseAll d die).mem = d.mem :=
  foldl_mem _ (fun x (q : OutPic) => releaseSlot_mem x die q.slot) _ _

@[simp] theorem encDetach_mem (die : Nat) (d : Dev) :
    (encDetach die d).mem = d.mem := by simp [encDetach]

@[simp] theorem stopIfAsked_mem (d : Dev) (die : Nat) :
    (stopIfAsked d die).mem = d.mem := by simp [stopIfAsked]

@[simp] theorem noteLatency_mem (d : Dev) (die : Nat) (q : OutPic) (latencyNs : Nat) :
    (noteLatency d die q latencyNs).mem = d.mem := by simp [noteLatency]

@[simp] theorem emitPacket_mem (d : Dev) (die : Nat) (o : Out) : (emitPacket d die o).mem = d.mem := by
  rw [emitPacket]; split <;> rfl

@[simp] theorem sendPacket_mem (d : Dev) (die : Nat) (mk : Nat → Out) :
    (sendPacket d die mk).mem = d.mem := by simp [sendPacket]

@[simp] theorem notePacket_mem (d : Dev) (die n : Nat) : (notePacket d die n).mem = d.mem := by
  unfold notePacket
  split <;> rfl

@[simp] theorem rtpSend_mem (d : Dev) (die : Nat) (ts : Nat) (nals : List (List Byte)) : (rtpSend d die ts nals).mem = d.mem := by
  unfold rtpSend
  refine foldl_mem _ (fun x e => ?_) _ _
  rw [notePacket_mem, sendPacket_mem]

@[simp] theorem ringAppend_wf (d : Dev) (die : Nat) (bs : List Byte) (h : d.mem.wf = true) : (ringAppend d die bs).mem.wf = true := by
  have key : ∀ (l : List (Nat × Nat)) (acc : Mems × List Byte), acc.1.wf = true →
      (l.foldl (fun (acc : Mems × List Byte) q =>
        (acc.1.write .hbm (dieSpan die q.1 q.2).base (acc.2.take (dieSpan die q.1 q.2).len), acc.2.drop q.2)) acc).1.wf = true := by
    intro l
    induction l with
    | nil => exact fun _ h => h
    | cons q t ih => exact fun acc ha => ih _ (Mems.write_wf _ _ _ ha)
  unfold ringAppend
  extract_lets size wp
  refine ite_wf _ ?_ ?_
  · rw [Dev.wr_mem, Dev.draw_mem]
    exact scramble_wf _ _ h
  · rw [Dev.wr_mem, countOpens_mem, dropMarks_mem]
    exact key _ _ h

@[simp] theorem ringStore_wf (d : Dev) (die : Nat) (au : List Byte) (h : d.mem.wf = true) :
    (ringStore d die au).mem.wf = true := by rw [ringStore]; (repeat' split) <;> simp_all

@[simp] theorem encodePicture_wf (die : Nat) (latencyNs : Nat) (d : Dev) (h : d.mem.wf = true) :
    (encodePicture die latencyNs d).mem.wf = true := by unfold encodePicture; dsimp only; (repeat' split) <;> simp_all

@[simp] theorem endHandover_mem (d : Dev) :
    (endHandover d).mem = d.mem := by simp [endHandover]

@[simp] theorem energyUpdate_mem (input : Nat) (dies : List (List (DieWork × Nat))) (d : Dev) :
    (energyUpdate input dies d).mem = d.mem := by simp [energyUpdate]

theorem Mems.clearTm_wf {m : Mems} (p : Host.Cell → Bool) (q : List Nat) (h : m.wf = true) :
    ({ m with tm := m.tm.filter p, tmPoison := q } : Mems).wf = true := by
  simp only [Mems.wf, Bool.and_eq_true] at h ⊢
  simp [canonical_filter, h]

@[simp] theorem enterNew_wf (d : Dev) (n die : Nat) (h : d.mem.wf = true) : (enterNew d n die).mem.wf = true := by
  have h1 : ∀ b : Bool, (if b then saveOutgoing d n else d).mem.wf = true := by
    intro b
    split <;> simp [h]
  have hc : ∀ e : Dev, e.mem.wf = true →
      (({ e.mem with tm := clearCells e.mem.tm (tmBase die 0) (tmBase (die + 1) 0) } : Mems).wf = true) := fun e he =>
    clearTm_wf (tmBase die 0) (tmBase (die + 1) 0) he
  unfold enterNew
  extract_lets first d1 d2 all
  have h2 : d2.mem.wf = true := scramble_wf _ _ (h1 _)
  clear_value d2
  rw [dropMarks_mem]
  exact hc d2 h2

@[simp] theorem eraseDone_wf (d : Dev) (h : d.mem.wf = true) : (eraseDone d).mem.wf = true := by
  unfold eraseDone
  (repeat' split) <;> simp [h]

@[simp] theorem faultClr_mem (pg : Page) (d : Dev) :
    (faultClr pg d).mem = d.mem := by simp [faultClr]

@[simp] theorem faultToken_mem (die : Nat) (id : Nat) (sender : Nat) (d : Dev) :
    (faultToken die id sender d).mem = d.mem := by rw [faultToken]; (repeat' split) <;> simp_all

@[simp] theorem fenceEntry_wf (n : Nat) (q : Nat) (d : Dev) (u : Queue) (e : QEntry) (ix : Nat) (h : d.mem.wf = true) :
    (fenceEntry n q d u e ix).mem.wf = true := by rw [fenceEntry]; (repeat' split) <;> simp_all

@[simp] theorem proceedAll_wf (d : Dev) (die : Nat) (h : d.mem.wf = true) : (proceedAll d die).mem.wf = true := by
  refine foldl_wf _ (fun x c hx => ?_) _ h
  split
  · rename_i hi
    exact proceed_wf _ (inFlight_keeps hi) _ _ _ _ _ hx
  · exact hx

@[simp] theorem tableFault_wf (pg : Page) (die : Nat) (d : Dev) (h : d.mem.wf = true) : (tableFault pg die d).mem.wf = true :=
  Moved.run_wf _ _ _ _ h (fun _ hx => Moved.noConfusion hx)

@[simp] theorem fetchDone_wf (die i : Nat) (d : Dev) (h : d.mem.wf = true) : (fetchDone die i d).mem.wf = true := by
  unfold fetchDone
  extract_lets e d0
  have h0 : d0.mem.wf = true := h
  clear_value d0
  refine ite_wf _ h (ite_wf _ (tableFault_wf _ _ _ h) (ite_wf _ h0 ?_))
  have hp := pickFree_mem d0 (freeFrames d0 die)
  split
  · exact h
  · rename_i fr d1 heq
    rw [heq] at hp
    have h1 : d1.mem.wf = true := by rw [show d1.mem = d0.mem from hp]; exact h0
    dsimp only
    refine ite_wf _ h (Moved.run_wf _ _ _ _ h1 (fun x hx => proceedAll_wf _ _ ?_))
    have hx := moveBytes_wf h1 hx
    rw [Dev.setKv_mem]
    exact hx

@[simp] theorem firstIssue_mem (d : Dev) (n : Nat) :
    (firstIssue d n).mem = d.mem := by rw [firstIssue]; (repeat' split) <;> simp_all

@[simp] theorem linkDown_wf (d : Dev) (src p : Nat) (h : d.mem.wf = true) : (linkDown d src p).mem.wf = true := by
  unfold linkDown
  extract_lets k d1 d2 dst waits own d3 members d4 d5
  have h2 : d2.mem.wf = true := by simp [d2, d1, h]
  clear_value d2
  have h3 : d3.mem.wf = true := foldl_wf _ (fun x e hx => by simp [hx]) _ h2
  clear_value d3
  have h4 : d4.mem.wf = true := by
    refine foldl_wf _ (fun x e hx => ?_) _ h3
    split <;> simp [hx]
  clear_value d4
  have h5 : d5.mem.wf = true := by rw [Dev.setLink_mem]; exact h4
  clear_value d5
  split
  · exact ite_wf _ (by simp [h5]) h5
  · exact h5

@[simp] theorem nakFlit_wf (d : Dev) (die : Nat) (p : Nat) (k : Nat × Nat) (seq : Nat) (h : d.mem.wf = true) :
    (nakFlit d die p k seq).mem.wf = true := by rw [nakFlit]; (repeat' split) <;> simp_all

@[simp] theorem flitRx_wf (die : Nat) (p : Nat) (err : Option (Nat × Byte)) (d : Dev) (h : d.mem.wf = true) :
    (flitRx die p err d).mem.wf = true := by rw [flitRx]; (repeat' split) <;> simp_all

@[simp] theorem followPaths_mem (d : Dev) (die : Nat) :
    (followPaths d die).mem = d.mem := by simp [followPaths]

@[simp] theorem framePulse_mem (d : Dev) :
    (framePulse d).mem = d.mem := by rw [framePulse]; (repeat' split) <;> simp_all

@[simp] theorem netReply_mem (d : Dev) (i : Nat) (f : NetFrame) :
    (netReply d i f).mem = d.mem := by simp [netReply]

@[simp] theorem frameRx_mem (i : Nat) (f : NetFrame) (full : Bool) (d : Dev) :
    (frameRx i f full d).mem = d.mem := by unfold frameRx; (repeat' split) <;> simp_all

@[simp] theorem freeAst_wf (d : Dev) (die : Nat) (h : d.mem.wf = true) : (freeAst d die).mem.wf = true := by
  refine foldl_wf _ (fun x e hx => ?_) _ h
  dsimp only
  rw [Dev.setAst_mem, freeKeys_mem]
  exact scramble_wf _ _ hx

@[simp] theorem freeFails_mem (d : Dev) (r : Nat) :
    (freeFails d r).2.mem = d.mem := by simp [freeFails]

@[simp] theorem freeEntries_mem (d : Dev) (die : Nat) : (freeEntries d die).mem = d.mem := by
  unfold freeEntries
  generalize (List.range 32768).map (fun i => (die, i)) = ks
  simp only [freeKeys]

@[simp] theorem freeKvt_wf (d : Dev) (die : Nat) (h : d.mem.wf = true) : (freeKvt d die).mem.wf = true := by
  rw [freeKvt, freeEntries_mem]
  exact scramble_wf d (kvSpans d die) h

@[simp] theorem freeLim_mem (d : Dev) (die : Nat) : (freeLim d die).mem = d.mem := by
  unfold freeLim
  generalize setKeys die 64 = ks
  simp only [freeKeys]

@[simp] theorem freeSets_mem (d : Dev) (die : Nat) : (freeSets d die).mem = d.mem := by
  refine foldl_mem _ (fun x e => ?_) _ _
  dsimp only
  rw [Dev.setAst_mem, freeKeys_mem]

@[simp] theorem freePage_mem (d : Dev) (pg : Page) : (freePage d pg).mem = d.mem := by
  refine foldl_mem _ (fun x e => foldl_mem _ (fun y i => ?_) _ _) _ _
  split <;> simp

@[simp] theorem freeSem_mem (d : Dev) (die : Nat) : (freeSem d die).mem = d.mem := by
  unfold freeSem
  generalize setKeys die 4096 = ks
  generalize setKeys die 64 = kt
  simp only [freeKeys]

@[simp] theorem freeTables_wf (d : Dev) (die : Nat) (h : d.mem.wf = true) : (freeTables d die).mem.wf = true := by
  unfold freeTables
  generalize setKeys die 512 = ks
  generalize setKeys die 64 = kt
  generalize [(⟨.sfu, sfuBase die 0 0 0, 64 * 64 * 256⟩ : Span), ⟨.coma, comaBase die 0 0, 64 * 8 * 256⟩] = ss
  simp only [freeKeys]
  refine scramble_wf _ _ ?_
  exact h

@[simp] theorem settlePath_mem (d : Dev) (p : TlmPath) :
    (settlePath d p).mem = d.mem := by simp [settlePath]

@[simp] theorem freshDie_wf (d : Dev) (die : Nat) (h : d.mem.wf = true) : (freshDie d die).mem.wf = true := by
  have hs : ∀ (x : Dev) (s : SecSt), ({ x with sec := s } : Dev).mem = x.mem := fun _ _ => rfl
  have hst : ∀ x : Dev, (if h : die < 16 then settlePath x (.die ⟨die, h⟩) else x).mem = x.mem := by
    intro x
    split
    · rw [settlePath_mem]
    · rfl
  unfold freshDie
  extract_lets stats kept d1 d2 d3 dt d4 d5 d6 _ d7
  have h3 : d3.mem = d2.mem := foldl_mem _ (fun x e => Dev.wr_mem _ _ _) _ _
  have h1 : d1.mem = (emptyDie d die).mem := by rw [clearTcu_mem, dropStreams_mem]
  have h4 : d4.mem = dt.mem := foldl_mem _ (fun x e => clearCounters_mem _ _) _ _
  have h5 : d5.mem = d4.mem := by
    rw [Dev.wr_mem]
    exact foldl_mem _ (fun x e => Dev.wr_mem _ _ _) _ _
  have h7 : d7.mem = d6.mem := Dev.setDp_mem _ _ _
  have h2 : d2.mem = d1.mem := Dev.resetPages_mem _ _
  have h6 : d6.mem = d5.mem := askPoint_mem _ _ _
  have h8 := hst d3
  rw [foldl_mem _ (fun x e => clearFault_mem _ _) _ _, hs, h7, h6, h5, h4, show dt.mem = d3.mem from h8, h3, h2, h1]
  exact emptyDie_wf d die h

@[simp] theorem freshEnergy_mem (d : Dev) (n : Nat) :
    (freshEnergy d n).mem = d.mem := by simp [freshEnergy]

@[simp] theorem emptyPath_mem (d : Dev) (p : TlmPath) : (emptyPath d p).mem = d.mem := by
  rw [emptyPath, settlePath_mem, Dev.setPath_mem]

@[simp] theorem freshHost_mem (d : Dev) (n : Nat) : (freshHost d n).mem = d.mem := by
  unfold freshHost
  extract_lets p d1
  rw [Dev.setPort_mem, emptyPath_mem]
  exact (clearFault_mem _ _).trans (Dev.resetPages_mem _ _)

@[simp] theorem freshNonce_mem (d : Dev) :
    (freshNonce d).mem = d.mem := by simp [freshNonce]

end Sys2Proof.Machine
end

