-- ==== Sys2Proof/Laws/MemHost.lean ====
section
/-! SUPPORT. What firmware, ports, start-up and register pages do to the memories. -/

namespace Sys2Proof.Machine
open Sys2Proof

@[simp] theorem fwuAbort_wf (n : Nat) (d : Dev) (h : d.mem.wf = true) : (fwuAbort n d).mem.wf = true := by
  unfold fwuAbort
  (repeat' split) <;> simp [h]

@[simp] theorem fwuErr_mem (d : Dev) (n : Nat) (err : Nat) :
    (fwuErr d n err).mem = d.mem := by simp [fwuErr]

theorem withSession_wf (d : Dev) (n : Nat) (k : Session → Dev) (h : d.mem.wf = true) (hk : ∀ s, (k s).mem.wf = true) :
    (withSession d n k).mem.wf = true := by
  unfold withSession
  (repeat' split) <;> simp [h, hk]

theorem withSession_mem (d : Dev) (n : Nat) (k : Session → Dev) (hk : ∀ s, (k s).mem = d.mem) : (withSession d n k).mem = d.mem := by
  unfold withSession
  (repeat' split) <;> simp [hk]

@[simp] theorem reloadCopy_mem (i : Nat) (d : Dev) :
    (reloadCopy i d).mem = d.mem := by simp [reloadCopy]

@[simp] theorem freeArea_wf (d : Dev) (die : Nat) (h : d.mem.wf = true) : (freeArea d die).mem.wf = true := by
  unfold freeArea
  extract_lets d1
  have h1 : d1.mem.wf = true := by
    rw [freePage_mem]
    refine freeTables_wf _ _ ?_
    rw [freeSets_mem, freeEntries_mem, freeLim_mem, freeSem_mem]
    exact h
  clear_value d1
  dsimp only
  rw [Dev.wr_mem, Dev.draw_mem]
  exact h1

@[simp] theorem restoreDie_wf (d : Dev) (n : Nat) (die : Nat) (h : d.mem.wf = true) :
    (restoreDie d n die).mem.wf = true := by unfold restoreDie; dsimp only; (repeat' split) <;> simp_all

@[simp] theorem leaveNew_wf (d : Dev) (n die : Nat) (h : d.mem.wf = true) : (leaveNew d n die).mem.wf = true := by
  unfold leaveNew
  extract_lets _ d1 d0 pages _ d2 d3 d4
  have h1 : d1.mem.wf = true := by rw [clearTcu_mem]; exact h
  clear_value d1
  have h0 : d0.mem.wf = true := ite_wf _ (freeArea_wf _ _ h1) h1
  clear_value d0
  have h2 : d2.mem.wf = true := by
    refine foldl_wf freePage (fun x e hx => by rw [freePage_mem]; exact hx) pages ?_
    rw [Dev.setDp_mem]
    exact h0
  clear_value d2
  have h3 : d3.mem.wf = true := h2
  clear_value d3
  have h4 : d4.mem.wf = true := by
    dsimp only [d4]
    generalize List.range 256 = l
    refine foldl_wf _ (fun x e hx => ?_) l h3
    exact hx
  clear_value d4
  exact restoreDie_wf _ _ _ (by rw [reloadCopy_mem]; exact h4)

@[simp] theorem selfRefresh_mem (d : Dev) (die : Nat) (v : Nat) :
    (selfRefresh d die v).mem = d.mem := by simp [selfRefresh]

@[simp] theorem unconverge_mem (d : Dev) :
    (unconverge d).mem = d.mem := by simp [unconverge]

@[simp] theorem toHalf_wf (d : Dev) (die : Nat) (h : d.mem.wf = true) :
    (toHalf d die).mem.wf = true := by rw [toHalf]; (repeat' split) <;> simp_all

@[simp] theorem fwuActivate_wf (n : Nat) (d : Dev) (h : d.mem.wf = true) : (fwuActivate n d).mem.wf = true := by
  unfold fwuActivate
  refine withSession_wf _ _ _ h (fun s => ?_)
  dsimp only
  split
  · exact h
  · simpa using foldl_wf toHalf (fun x e hx => by simp [hx]) (List.range 16) h

@[simp] theorem fwuOpen_mem (n : Nat) (d : Dev) :
    (fwuOpen n d).mem = d.mem := by simp [fwuOpen]

@[simp] theorem verifyFault_mem (d : Dev) (n : Nat) (code : Nat) :
    (verifyFault d n code).mem = d.mem := by simp [verifyFault]

@[simp] theorem fwuVerify_mem (n : Nat) (d : Dev) : (fwuVerify n d).mem = d.mem := by
  unfold fwuVerify
  refine withSession_mem _ _ _ (fun s => ?_)
  extract_lets
  (repeat' split) <;> simp

@[simp] theorem fwuWrite_wf (n : Nat) (data : Option (List Byte)) (d : Dev) (h : d.mem.wf = true) : (fwuWrite n data d).mem.wf = true := by
  unfold fwuWrite
  refine withSession_wf _ _ _ h (fun s => ?_)
  extract_lets
  (repeat' split) <;> simp [h]

@[simp] theorem gapEnd_mem (n : Nat) (d : Dev) :
    (gapEnd n d).mem = d.mem := by simp [gapEnd]

@[simp] theorem grantPart_wf (d : Dev) (n : Nat) (rows : Nat) (h : d.mem.wf = true) : (grantPart d n rows).mem.wf = true := by
  unfold grantPart
  dsimp only
  have key : ∀ (l : List Nat) (x : Dev), x.mem.wf = true → (l.foldl freshDie x).mem.wf = true := fun l x hx =>
    foldl_wf freshDie (fun x e hx => freshDie_wf _ _ hx) l hx
  simp [key, h]

@[simp] theorem haltChange_mem (d : Dev) (die : Nat) :
    (haltChange d die).mem = d.mem := by simp [haltChange]

@[simp] theorem handOver_mem (p : Proc) (d : Dev) :
    (handOver p d).mem = d.mem := by rw [handOver]; (repeat' split) <;> simp_all

@[simp] theorem handover_mem (die : Nat) (d : Dev) :
    (handover die d).mem = d.mem := by simp [handover]

@[simp] theorem rowStage_wf (stage : Nat) (cause : Nat → Nat) (d : Dev) (r : Nat) (h : d.mem.wf = true) :
    (rowStage stage cause d r).mem.wf = true := by rw [rowStage]; (repeat' split) <;> simp_all

@[simp] theorem trainRow_wf (fails : List DieFail) (d : Dev) (r : Nat) (h : d.mem.wf = true) : (trainRow fails d r).mem.wf = true := by
  unfold trainRow
  split
  · exact h
  · exact rowStage_wf _ _ _ _ (clearRow_wf _ _ (foldl_wf _ (fun x e hx => by simp [hx]) _ h))

@[simp] theorem showMargin_mem (d : Dev) : (showMargin d).mem = d.mem := by rw [showMargin, Dev.setFld_mem]

@[simp] theorem hbmTraining_wf (fails : List DieFail) (d : Dev) (h : d.mem.wf = true) : (hbmTraining fails d).mem.wf = true := by
  unfold hbmTraining
  split
  · exact h
  · have := foldl_wf (trainRow fails) (fun x e hx => by simp [hx]) (List.range 4) h
    simpa using this

@[simp] theorem healthConfirm_mem (i : HealthReport) (d : Dev) :
    (healthConfirm i d).mem = d.mem := by simp [healthConfirm]

@[simp] theorem holdoverEnds_mem (d : Dev) :
    (holdoverEnds d).mem = d.mem := by rw [holdoverEnds]; (repeat' split) <;> simp_all

@[simp] theorem hostPoint_mem (n : Nat) (die : Nat) (pt : Nat) (d : Dev) :
    (hostPoint n die pt d).mem = d.mem := by simp [hostPoint]

@[simp] theorem trainPort_mem (d : Dev) (n : Nat) :
    (trainPort d n).mem = d.mem := by simp [trainPort]

@[simp] theorem hostPortStart_mem (d : Dev) :
    (hostPortStart d).mem = d.mem := by simp [hostPortStart]

@[simp] theorem hostTierFail_wf (r : HostReader) (f : HostFail) (d : Dev) (h : d.mem.wf = true) : (hostTierFail r f d).mem.wf = true := by
  unfold hostTierFail
  extract_lets late info d1
  have h1 : d1.mem.wf = true := by
    dsimp only [d1]
    split <;> simp [h]
  clear_value d1
  split
  · (repeat' split) <;> simp [h, h1]
  · dsimp only
    (repeat' split) <;> simp [h, h1]

@[simp] theorem idlePlans_mem (d : Dev) (dies : List Nat) :
    (idlePlans d dies).mem = d.mem := by simp [idlePlans]

@[simp] theorem inputSample_wf (mv : Nat) (current : Nat) (d : Dev) (h : d.mem.wf = true) :
    (inputSample mv current d).mem.wf = true := by rw [inputSample]; (repeat' split) <;> simp_all

@[simp] theorem irqEnable_mem (pg : Page) (v : Nat) (d : Dev) :
    (irqEnable pg v d).mem = d.mem := by simp [irqEnable]

@[simp] theorem irqForce_mem (pg : Page) (v : Nat) (d : Dev) :
    (irqForce pg v d).mem = d.mem := by simp [irqForce]

theorem issue_wf (op : OpSpec) (ho : op.Keeps) (h : Here) (die c : Nat) (u : Upset) (cmd : Cmd) (d : Dev) (hd : d.mem.wf = true) :
    (issue op h die c u cmd d).mem.wf = true := by
  unfold issue
  extract_lets x acq b f d2
  split
  · simp [hd]
  · have h1 : b.1.mem.wf = true := begun_wf op ho h x hd
    have h2 : d2.mem.wf = true := by simpa [d2, afterIssue] using h1
    refine ite_wf _ (by simp [hd]) (ite_wf _ h1 ?_)
    rw [firstIssue_mem]
    exact ite_wf _ (by simpa using h2) (startWork_wf op ho _ _ _ _ _ _ h2)

theorem issueRow_wf (op : OpSpec) (ho : op.Keeps) (k : CoreIx) (u : Upset) (d : Dev) (hd : d.mem.wf = true) :
    (issueRow op k u d).mem.wf = true := by
  unfold issueRow
  extract_lets die c
  split
  · exact hd
  · refine ite_wf _ hd ?_
    split
    · exact cmdStop_wf _ _ _ _ _ hd
    · dsimp only
      exact ite_wf _ (cmdStop_wf _ _ _ _ _ hd) (ite_wf _ (cmdStop_wf _ _ _ _ _ hd)
        (ite_wf _ (ite_wf _ hd (issue_wf op ho _ _ _ _ _ _ hd)) hd))

@[simp] theorem refuseOutside_wf (die pg : Nat) (d : Dev) (h : d.mem.wf = true) : (refuseOutside die pg d).mem.wf = true := by
  simp [refuseOutside, h]

@[simp] theorem jtagRun_wf (op : JtagOp) (d : Dev) (h : d.mem.wf = true) : (jtagRun op d).mem.wf = true := by
  unfold jtagRun; dsimp only; (repeat' split) <;> simp_all

@[simp] theorem keepDown_mem (d : Dev) (k : Nat × Nat) :
    (keepDown d k).mem = d.mem := by simp [keepDown]

@[simp] theorem leaveForClear_mem (d : Dev) (die : Nat) :
    (leaveForClear d die).mem = d.mem := by simp [leaveForClear]

@[simp] theorem leaveMoon_wf (n : Nat) (d : Dev) (die : Nat) (h : d.mem.wf = true) :
    (leaveMoon n d die).mem.wf = true := by rw [leaveMoon]; (repeat' split) <;> simp_all

@[simp] theorem leavePages_mem (d : Dev) (dies : List Nat) (slot : Nat) :
    (leavePages d dies slot).mem = d.mem := by simp [leavePages]

@[simp] theorem lflagClr_mem (die : Nat) (v : Nat) (d : Dev) :
    (lflagClr die v d).mem = d.mem := by simp [lflagClr]

@[simp] theorem relisten_mem (d : Dev) (i : Nat) :
    (relisten d i).mem = d.mem := by simp [relisten]

@[simp] theorem linkChange_mem (i : Nat) (up : Bool) (d : Dev) :
    (linkChange i up d).mem = d.mem := by simp [linkChange]

@[simp] theorem teardown_wf (d : Dev) (n : Nat) (h : d.mem.wf = true) : (teardown d n).mem.wf = true := by
  have hi : ∀ (b : Bool) (x : Dev) (l : List Nat), x.mem.wf = true → (if b then idlePlans x l else x).mem.wf = true := fun b x l hx =>
    ite_wf _ (by rw [idlePlans_mem]; exact hx) hx
  have hf : ∀ (b : Bool) (x : Dev), x.mem.wf = true → (if b then postFault x (.hq0 n) 0x0904 0 0 else x).mem.wf = true := fun b x hx =>
    ite_wf _ (by simp [hx]) hx
  have hr : ∀ (l : List Nat) (x : Dev), (l.foldl (fun (x : Dev) r => x.setFld R.PART_ROW_OK r r 0) x).mem = x.mem := fun l x =>
    foldl_mem _ (fun _ _ => Dev.setFld_mem _ _ _ _ _) _ _
  unfold teardown
  refine ite_wf _ h ?_
  dsimp only
  rw [partResp_mem, Dev.inc_mem, hr, Dev.setPort_mem, freshHost_mem]
  refine foldl_wf _ (fun x e hx => by rw [leaveForClear_mem]; exact freshDie_wf _ _ hx) _ (faultAll_wf _ _ _ (hf _ _ (hi _ _ _ ?_)))
  exact dropSession_wf _ _ h

@[simp] theorem portEvent_wf (n : Nat) (d3 : Bool) (d : Dev) (h : d.mem.wf = true) :
    (portEvent n d3 d).mem.wf = true := by rw [portEvent]; (repeat' split) <;> simp_all

@[simp] theorem linkLost_wf (n : Nat) (d : Dev) (h : d.mem.wf = true) :
    (linkLost n d).mem.wf = true := by rw [linkLost]; (repeat' split) <;> simp_all

@[simp] theorem trainLink_mem (rs : List TrainResult) (d : Dev) (t : TrainResult) :
    (trainLink rs d t).mem = d.mem := by simp [trainLink]

@[simp] theorem linkTraining_mem (rs : List TrainResult) (d : Dev) : (linkTraining rs d).mem = d.mem := by
  unfold linkTraining
  (repeat' split) <;> simp

@[simp] theorem listenEnd_mem (die : Nat) (i : Nat) (d : Dev) :
    (listenEnd die i d).mem = d.mem := by simp [listenEnd]

@[simp] theorem outstanding_mem (d : Dev) (n : Nat) (q : Nat) (ix : Nat) :
    (outstanding d n q ix).mem = d.mem := by simp [outstanding]

@[simp] theorem loadEntry_wf (n : Nat) (q : Nat) (d : Dev) (u : Queue) (e : QEntry) (ix : Nat) (h : d.mem.wf = true) :
    (loadEntry n q d u e ix).mem.wf = true := by rw [loadEntry]; (repeat' split) <;> simp_all

@[simp] theorem restart_wf (cause : Nat) (d : Dev) (h : d.mem.wf = true) :
    (restart cause d).mem.wf = true := by rw [restart]; (repeat' split) <;> simp_all

@[simp] theorem lockstep_wf (d : Dev) (h : d.mem.wf = true) :
    (lockstep d).mem.wf = true := by rw [lockstep]; (repeat' split) <;> simp_all

@[simp] theorem mainRestored_mem (d : Dev) :
    (mainRestored d).mem = d.mem := by simp [mainRestored]

@[simp] theorem marginProbe_mem (die : Nat) (p : Nat) (margin : Nat) (d : Dev) :
    (marginProbe die p margin d).mem = d.mem := by simp [marginProbe]

@[simp] theorem metadataTx_mem (p : Nat) (d : Dev) :
    (metadataTx p d).mem = d.mem := by simp [metadataTx]

@[simp] theorem readSeen_mem (who : Requester) (r : Reg) (d : Dev) :
    (readSeen who r d).2.mem = d.mem := by unfold readSeen; dsimp only; (repeat' split) <;> simp_all

@[simp] theorem readAt_mem (who : Requester) (a : Nat) (d : Dev) :
    (readAt who a d).2.mem = d.mem := by rw [readAt]; (repeat' split) <;> simp_all

@[simp] theorem mgmtRead_wf (p : MgmtPlace) (d : Dev) (h : d.mem.wf = true) : (mgmtRead p d).mem.wf = true := by
  unfold mgmtRead; dsimp only; (repeat' split) <;> simp_all

@[simp] theorem mgmtReset_wf (d : Dev) (h : d.mem.wf = true) :
    (mgmtReset d).mem.wf = true := by rw [mgmtReset]; (repeat' split) <;> simp_all

@[simp] theorem overrun_mem (old new : Dev) (die : Nat) : (overrun old new die).mem = new.mem := by
  unfold overrun
  dsimp only
  split <;> simp

@[simp] theorem plainWrite_mem (d : Dev) (r : Reg) (v : Nat) :
    (plainWrite d r v).mem = d.mem := by rw [plainWrite]; (repeat' split) <;> simp_all

@[simp] theorem writeVc_wf (die : Nat) (off : Nat) (v : Nat) (d : Dev) (h : d.mem.wf = true) :
    (writeVc die off v d).mem.wf = true := by unfold writeVc; dsimp only; (repeat' split) <;> simp_all

@[simp] theorem moonWake_mem (die : Nat) (d : Dev) :
    (moonWake die d).mem = d.mem := by rw [moonWake]; (repeat' split) <;> simp_all

@[simp] theorem writePwrDie_wf (n : Nat) (die : Nat) (off : Nat) (v : Nat) (d : Dev) (h : d.mem.wf = true) :
    (writePwrDie n die off v d).mem.wf = true := by rw [writePwrDie]; (repeat' split) <;> simp_all

@[simp] theorem writeSec_mem (off : Nat) (v : Nat) (d : Dev) :
    (writeSec off v d).mem = d.mem := by simp [writeSec]

@[simp] theorem rampRow_wf (fails : List DieFail) (d : Dev) (r : Nat) (h : d.mem.wf = true) : (rampRow fails d r).mem.wf = true := by
  unfold rampRow
  refine rowStage_wf _ _ _ _ (foldl_wf _ (fun x e hx => by simp [hx]) _ ?_)
  rw [Dev.setFld_mem, Dev.setFld_mem]
  exact foldl_wf _ (fun x e hx => by simp [hx]) _ h

@[simp] theorem testCore_mem (d : Dev) (f : CoreFail) : (testCore d f).1.mem = d.mem := by
  have key : ∀ (l : List (Fin 34)) (acc : Dev × Bool), (l.foldl (fun (acc : Dev × Bool) e =>
      let x := fenceEngine acc.1 f.core.die.val f.core.core.val e.val
      (x.1, acc.2 && x.2)) acc).1.mem = acc.1.mem := by
    intro l
    induction l with
    | nil => exact fun _ => rfl
    | cons e t ih => exact fun acc => (ih _).trans (fenceEngine_mem _ _ _ _)
  unfold testCore
  dsimp only
  split
  · exact key _ _
  · rw [markFailed_mem]
    exact key _ _

@[simp] theorem testRow_wf (fails : List DieFail) (cores : List CoreFail) (d : Dev) (r : Nat) (h : d.mem.wf = true) :
    (testRow fails cores d r).mem.wf = true := by
  have key : ∀ (l : List CoreFail) (acc : Dev × List (Nat × Nat)), (l.foldl (fun (acc : Dev × List (Nat × Nat)) f =>
      let x := testCore acc.1 f
      (x.1, (f.core.die.val, x.2) :: acc.2)) acc).1.mem = acc.1.mem := by
    intro l
    induction l with
    | nil => exact fun _ => rfl
    | cons e t ih => exact fun acc => (ih _).trans (testCore_mem _ _)
  unfold testRow
  split
  · exact h
  · refine rowStage_wf _ _ _ _ ?_
    rw [key]
    exact foldl_wf _ (fun x e hx => by simp [hx]) _ h

@[simp] theorem rowBringup_wf (r : Nat) (fails : List DieFail) (cores : List CoreFail) (d : Dev) (h : d.mem.wf = true) :
    (rowBringup r fails cores d).mem.wf = true := by
  unfold rowBringup
  split
  · exact h
  · rw [idle_mem, settleRow_mem]
    exact testRow_wf _ _ _ _ (trainRow_wf _ _ _ (rampRow_wf _ _ _ h))

@[simp] theorem writeDie_wf (off : Nat) (v : Nat) (d : Dev) (h : d.mem.wf = true) :
    (writeDie off v d).mem.wf = true := by unfold writeDie; dsimp only; (repeat' split) <;> simp_all

@[simp] theorem ringLeft_mem (n : Nat) (old new : Dev) : (ringLeft n old new).mem = new.mem := by
  unfold ringLeft
  split <;> simp

@[simp] theorem tlmEnable_wf (n : Nat) (on : Bool) (d : Dev) (h : d.mem.wf = true) :
    (tlmEnable n on d).mem.wf = true := by rw [tlmEnable]; (repeat' split) <;> simp_all

@[simp] theorem writeTlmHost_wf (n : Nat) (off : Nat) (v : Nat) (d : Dev) (h : d.mem.wf = true) :
    (writeTlmHost n off v d).mem.wf = true := by rw [writeTlmHost]; (repeat' split) <;> simp_all

@[simp] theorem writeEntry_mem (d : Dev) (die : Nat) (off : Nat) (v : Nat) :
    (writeEntry d die off v).mem = d.mem := by simp [writeEntry]

@[simp] theorem looseStacks_wf (d : Dev) (die : Nat) (h : d.mem.wf = true) : (looseStacks d die).mem.wf = true := by
  unfold looseStacks
  extract_lets d1
  have h1 : d1.mem.wf = true := freeAst_wf _ _ h
  clear_value d1
  exact h1

@[simp] theorem openBlock_wf (d : Dev) (pg : Page) (h : d.mem.wf = true) : (openBlock d pg).mem.wf = true := by
  unfold openBlock
  extract_lets d1
  have h1 : d1.mem.wf = true := by rw [freePage_mem]; exact h
  clear_value d1
  split
  · rw [freeSem_mem]; exact h1
  · rw [freeEntries_mem]; exact disturb_wf _ _ h1
  · exact disturb_wf _ _ h1
  · refine looseStacks_wf _ _ ?_
    rw [freeSets_mem]; exact h1
  · exact h1

@[simp] theorem writeKvt_wf (die off v : Nat) (d : Dev) (h : d.mem.wf = true) : (writeKvt die off v d).mem.wf = true := by
  have hs : ∀ (b : Bool) (x : Dev) (ss : List Span), x.mem.wf = true → (if b then freeEntries (disturb x ss) die else x).mem.wf = true :=
    fun b x ss hx => ite_wf _ (by rw [freeEntries_mem]; exact disturb_wf _ _ hx) hx
  have hc : ∀ (b : Bool) (x : Dev) (ss : List Span), x.mem.wf = true → (if b then scramble x ss else x).mem.wf = true := fun b x ss hx =>
    ite_wf _ (scramble_wf _ _ hx) hx
  unfold writeKvt
  refine ite_wf _ (hs _ _ _ (hc _ _ _ ?_)) (ite_wf _ (hs _ _ _ ?_) (ite_wf _ (hs _ _ _ ?_) ?_))
  · rw [Dev.wr_mem]
    exact hc _ _ _ h
  · rw [writeEntry_mem]
    exact h
  · rw [plainWrite_mem]
    exact h
  · dsimp only
    refine ite_wf _ (openBlock_wf _ _ ?_) ?_ <;> (rw [plainWrite_mem]; exact h)

@[simp] theorem writePwr_mem (off : Nat) (v : Nat) (d : Dev) :
    (writePwr off v d).mem = d.mem := by simp [writePwr]

@[simp] theorem writePxe_wf (die : Nat) (off : Nat) (v : Nat) (d : Dev) (h : d.mem.wf = true) :
    (writePxe die off v d).mem.wf = true := by
  unfold writePxe
  extract_lets d1
  have h1 : d1.mem.wf = true := by rw [plainWrite_mem]; exact h
  clear_value d1
  exact ite_wf _ h1 (ite_wf _ (disturb_wf _ _ h1) (openBlock_wf _ _ h1))

@[simp] theorem writeSem_wf (die : Nat) (off : Nat) (v : Nat) (d : Dev) (h : d.mem.wf = true) : (writeSem die off v d).mem.wf = true := by
  have hs : ∀ (b : Bool) (x : Dev), x.mem = d.mem → (if b then freeSem x die else x).mem.wf = true := fun b x hx =>
    ite_wf _ (by rw [freeSem_mem, hx]; exact h) (by rw [hx]; exact h)
  unfold writeSem
  dsimp only
  refine ite_wf _ (hs _ _ ?_) (ite_wf _ (hs _ _ ?_) (ite_wf _ (hs _ _ ?_) (ite_wf _ (hs _ _ rfl) ?_)))
  · split <;> simp
  · exact foldl_mem (fun (x : Dev) (j : Nat) => { x with slotTab := put x.slotTab _ _ }) (fun _ _ => rfl) _ _
  · simp
  · refine ite_wf _ (openBlock_wf _ _ ?_) ?_ <;> (rw [plainWrite_mem]; exact h)

@[simp] theorem writeFwu_wf (n : Nat) (off : Nat) (v : Nat) (d : Dev) (h : d.mem.wf = true) :
    (writeFwu n off v d).mem.wf = true := by rw [writeFwu]; (repeat' split) <;> simp_all

@[simp] theorem writeNet_mem (off : Nat) (v : Nat) (d : Dev) :
    (writeNet off v d).mem = d.mem := by simp [writeNet]

@[simp] theorem writeTcu_mem (die : Nat) (t : Nat) (off : Nat) (v : Nat) (d : Dev) :
    (writeTcu die t off v d).mem = d.mem := by simp [writeTcu]

@[simp] theorem writeFwuGlobal_mem (off : Nat) (v : Nat) (d : Dev) :
    (writeFwuGlobal off v d).mem = d.mem := by simp [writeFwuGlobal]

@[simp] theorem timeLoose_mem (d : Dev) :
    (timeLoose d).mem = d.mem := by simp [timeLoose]

@[simp] theorem todArm_mem (d : Dev) :
    (todArm d).mem = d.mem := by simp [todArm]

@[simp] theorem writeTime_mem (off : Nat) (v : Nat) (d : Dev) :
    (writeTime off v d).mem = d.mem := by unfold writeTime; (repeat' split) <;> simp_all

@[simp] theorem writeHbmc_wf (die : Nat) (s : Nat) (off : Nat) (v : Nat) (d : Dev) (h : d.mem.wf = true) :
    (writeHbmc die s off v d).mem.wf = true := by rw [writeHbmc]; (repeat' split) <;> simp_all

end Sys2Proof.Machine
end

