-- ==== Sys2Proof/Laws/Memory.lean ====
section
/-! SUPPORT. What the remaining writes and commands do to the memories. -/

namespace Sys2Proof.Machine
open Sys2Proof

@[simp] theorem protApply_mem (n : Nat) (die : Nat) (d : Dev) :
    (protApply n die d).mem = d.mem := by simp [protApply]

@[simp] theorem writeSecDie_mem (n : Nat) (die : Nat) (off : Nat) (v : Nat) (d : Dev) :
    (writeSecDie n die off v d).mem = d.mem := by simp [writeSecDie]

@[simp] theorem resetSp_wf (die : Nat) (d : Dev) (h : d.mem.wf = true) :
    (resetSp die d).mem.wf = true := by rw [resetSp]; (repeat' split) <;> simp_all

@[simp] theorem writeAst_wf (die : Nat) (off : Nat) (v : Nat) (d : Dev) (h : d.mem.wf = true) : (writeAst die off v d).mem.wf = true := by
  unfold writeAst
  extract_lets slot a low busy old set y
  clear_value busy old
  have hs : ∀ b : AstSet, (set b).mem.wf = true := by
    intro b
    dsimp only [set]
    have hb : (d.setAst die slot b).mem.wf = true := by rw [Dev.setAst_mem]; exact h
    generalize d.setAst die slot b = y at hb ⊢
    cases busy
    · exact hb
    · refine looseStacks_wf _ _ ?_
      exact disturb_wf _ _ hb
  clear_value set
  split
  iterate 7 exact hs _
  · refine ite_wf _ (resetSp_wf _ _ h) ?_
    cases busy
    · exact h
    · exact looseStacks_wf _ _ h
  · have hp : y.mem.wf = true := by
      dsimp only [y]
      rw [plainWrite_mem]
      exact h
    clear_value y
    cases busy
    · exact hp
    · rw [if_pos rfl]
      exact openBlock_wf y (.ast die) hp

@[simp] theorem writeInline_mem (n : Nat) (off : Nat) (v : Nat) (d : Dev) :
    (writeInline n off v d).mem = d.mem := by simp [writeInline]

@[simp] theorem looseHost_mem (p : Port) (d : Dev) : (looseHost p d).mem = d.mem := (rfl)

@[simp] theorem writeWindow_wf (n : Nat) (off : Nat) (v : Nat) (d : Dev) (h : d.mem.wf = true) :
    (writeWindow n off v d).mem.wf = true := by
  unfold writeWindow
  extract_lets p i w low w1 used d1
  have h1 : d1.mem.wf = true := by
    dsimp only [d1]
    rw [Dev.setPort_mem]
    exact h
  clear_value d1
  exact ite_wf _ (scramble_wf _ _ (by rw [looseHost_mem]; exact h1)) h1

@[simp] theorem writeCqBase_mem (n : Nat) (off : Nat) (v : Nat) (d : Dev) :
    (writeCqBase n off v d).mem = d.mem := by simp [writeCqBase]

@[simp] theorem writeSave_wf (n : Nat) (off : Nat) (v : Nat) (d : Dev) (h : d.mem.wf = true) :
    (writeSave n off v d).mem.wf = true := by unfold writeSave; (repeat' split) <;> simp_all

@[simp] theorem writeQcfg_mem (n : Nat) (v : Nat) (d : Dev) :
    (writeQcfg n v d).mem = d.mem := by unfold writeQcfg; dsimp only; (repeat' split) <;> simp_all

@[simp] theorem partRelease_wf (n : Nat) (d : Dev) (h : d.mem.wf = true) :
    (partRelease n d).mem.wf = true := by rw [partRelease]; (repeat' split) <;> simp_all

@[simp] theorem partCreate_wf (n : Nat) (rows : Nat) (d : Dev) (h : d.mem.wf = true) : (partCreate n rows d).mem.wf = true := by
  unfold partCreate
  dsimp only
  (repeat' split) <;> simp [h]

@[simp] theorem writeQbase_mem (n : Nat) (off : Nat) (v : Nat) (d : Dev) :
    (writeQbase n off v d).mem = d.mem := by unfold writeQbase; dsimp only; (repeat' split) <;> simp_all

@[simp] theorem writeDoorbell_wf (n : Nat) (q : Nat) (v : Nat) (d : Dev) (h : d.mem.wf = true) :
    (writeDoorbell n q v d).mem.wf = true := by rw [writeDoorbell]; (repeat' split) <;> simp_all

@[simp] theorem writeHq_wf (n : Nat) (off : Nat) (v : Nat) (d : Dev) (h : d.mem.wf = true) :
    (writeHq n off v d).mem.wf = true := by unfold writeHq; (repeat' split) <;> simp_all

@[simp] theorem writeBlock_wf (who : Requester) (pg : Page) (off : Nat) (v : Nat) (d : Dev) (h : d.mem.wf = true) :
    (writeBlock who pg off v d).mem.wf = true := by unfold writeBlock; (repeat' split) <;> simp_all

@[simp] theorem writeHeader_mem (pg : Page) (off : Nat) (v : Nat) (d : Dev) :
    (writeHeader pg off v d).mem = d.mem := by unfold writeHeader; (repeat' split) <;> simp_all

@[simp] theorem writeReg_wf (who : Requester) (r : Reg) (v : Nat) (d : Dev) (h : d.mem.wf = true) :
    (writeReg who r v d).mem.wf = true := by rw [writeReg]; (repeat' split) <;> simp_all

theorem reach_wf (who : Requester) (r : Reg) (k : Dev → Dev) (d : Dev) (h : d.mem.wf = true) (hk : (k d).mem.wf = true) :
    (reach who r k d).mem.wf = true := by
  unfold reach
  (repeat' split) <;> simp [h, hk]

theorem reach_mem (who : Requester) (r : Reg) (k : Dev → Dev) (d : Dev) (hk : (k d).mem = d.mem) : (reach who r k d).mem = d.mem := by
  unfold reach
  (repeat' split) <;> simp [hk]

theorem reachOwner_wf (die : Nat) (r : Reg) (k : Dev → Dev) (d : Dev) (h : d.mem.wf = true) (hk : (k d).mem.wf = true) :
    (reachOwner die r k d).mem.wf = true := by
  unfold reachOwner
  split
  · exact reach_wf _ _ _ _ h hk
  · exact h

@[simp] theorem writeAt_wf (who : Requester) (a v be : Nat) (d : Dev) (h : d.mem.wf = true) : (writeAt who a v be d).mem.wf = true := by
  unfold writeAt
  split
  · exact h
  · split
    · exact h
    · exact reach_wf _ _ _ _ h (writeReg_wf _ _ _ _ h)

@[simp] theorem mgmtWrite_wf (p : MgmtPlace) (v : Nat) (d : Dev) (h : d.mem.wf = true) :
    (mgmtWrite p v d).mem.wf = true := by unfold mgmtWrite; dsimp only; (repeat' split) <;> simp_all

@[simp] theorem moonEnter_wf (die : Nat) (d : Dev) (h : d.mem.wf = true) :
    (moonEnter die d).mem.wf = true := by unfold moonEnter; dsimp only; (repeat' split) <;> simp_all

@[simp] theorem moonExit_wf (n : Nat) (d : Dev) (h : d.mem.wf = true) : (moonExit n d).mem.wf = true := by
  unfold moonExit
  extract_lets p d1 q d2
  have h1 : d1.mem.wf = true := foldl_wf _ (fun x e hx => by simp [hx]) _ h
  have h2 : d2.mem.wf = true := by simp [d2, h1]
  exact ite_wf _ h (by simp [h2])

@[simp] theorem mpTpStart_wf (d : Dev) (h : d.mem.wf = true) : (mpTpStart d).mem.wf = true := by
  unfold mpTpStart
  refine ite_wf _ h ?_
  rw [setStep_mem]
  refine ite_wf _ (by simpa using h) ?_
  exact foldl_wf timeMark (fun x e hx => timeMark_wf _ _ hx) _ h

@[simp] theorem nogoToken_wf (die : Nat) (id : Nat) (d : Dev) (h : d.mem.wf = true) :
    (nogoToken die id d).mem.wf = true := by unfold nogoToken; dsimp only; (repeat' split) <;> simp_all

@[simp] theorem ovenReady_mem (d : Dev) :
    (ovenReady d).mem = d.mem := by simp [ovenReady]

@[simp] theorem overtemp_wf (die : Nat) (d : Dev) (h : d.mem.wf = true) :
    (overtemp die d).mem.wf = true := by rw [overtemp]; (repeat' split) <;> simp_all

@[simp] theorem overvolt_wf (d : Dev) (h : d.mem.wf = true) :
    (overvolt d).mem.wf = true := by rw [overvolt]; (repeat' split) <;> simp_all

@[simp] theorem peerRelease_wf (die : Nat) (d : Dev) (h : d.mem.wf = true) : (peerRelease die d).mem.wf = true := by
  unfold peerRelease; dsimp only; (repeat' split) <;> simp_all

@[simp] theorem phaseFail_wf (r : Nat) (d : Dev) (h : d.mem.wf = true) :
    (phaseFail r d).mem.wf = true := by rw [phaseFail]; (repeat' split) <;> simp_all

@[simp] theorem ppsOut_mem (d : Dev) :
    (ppsOut d).mem = d.mem := by simp [ppsOut]

theorem prefetchDone_wf (d : Dev) (die n i : Nat) (t : TideEnt) (k : Dev → Dev) (h : d.mem.wf = true)
    (hk : ∀ x, x.mem.wf = true → (k x).mem.wf = true) : (prefetchDone d die n i t k).mem.wf = true := by
  unfold prefetchDone
  extract_lets e sz state addr dst raise served
  have hr : ∀ x fr, x.mem.wf = true → (raise x fr).mem.wf = true := by
    intro x fr hx
    dsimp only [raise]
    exact ite_wf _ (hk _ (by rw [Dev.setKv_mem]; exact hx))
      (Moved.run_wf _ _ _ _ hx (fun y hy => hk _ (by rw [Dev.setKv_mem]; exact moveBytes_wf hx hy)))
  clear_value raise
  refine ite_wf _ (hk _ h) (ite_wf _ (ite_wf _ (hr _ _ h) h) ?_)
  have hp := pickFree_mem d (freeFrames d die)
  split
  · exact h
  · rename_i fr d1 heq
    rw [heq] at hp
    have h1 : d1.mem.wf = true := by rw [show d1.mem = d.mem from hp]; exact h
    refine ite_wf _ h (Moved.run_wf _ _ _ _ h1 (fun y hy => hr _ _ ?_))
    have hy := moveBytes_wf h1 hy
    exact hy

@[simp] theorem prepare_wf (die : Nat) (id : Nat) (d : Dev) (h : d.mem.wf = true) :
    (prepare die id d).mem.wf = true := by unfold prepare; dsimp only; (repeat' split) <;> simp_all

@[simp] theorem protDone_wf (die : Nat) (d : Dev) (h : d.mem.wf = true) : (protDone die d).mem.wf = true := by
  unfold protDone
  split
  · exact h
  · dsimp only
    simp only [idle_mem, Dev.setFld_mem]
    simp only [Mems.wf, Bool.and_eq_true] at h ⊢
    simp_all [canonical_filter]

@[simp] theorem pulseEnd_mem (frame : Bool) (d : Dev) :
    (pulseEnd frame d).mem = d.mem := by simp [pulseEnd]

@[simp] theorem rampWindow_mem (die : Nat) (frac : Nat) (held : Nat) (throttled : Nat) (d : Dev) :
    (rampWindow die frac held throttled d).mem = d.mem := by rw [rampWindow]; (repeat' split) <;> simp_all

@[simp] theorem readWords_mem (who : Requester) (k a : Nat) (d : Dev) : (readWords who k a d).2.mem = d.mem := by
  induction k generalizing a d with
  | zero => rfl
  | succ k ih =>
    rw [readWords]
    dsimp only
    rw [ih, readAt_mem]

@[simp] theorem readBytes_mem (who : Requester) (a : Nat) (n : Nat) (d : Dev) :
    (readBytes who a n d).2.mem = d.mem := by simp [readBytes]

theorem readEntry_wf (op n q : Nat) (k : Dev → Queue → QEntry → Nat → Dev) (d : Dev) (h : d.mem.wf = true)
    (hk : ∀ x u e ix, x.mem.wf = true → (k x u e ix).mem.wf = true) : (readEntry op n q k d).mem.wf = true := by
  unfold readEntry
  dsimp only
  split
  · exact h
  · split
    · exact h
    · split
      · exact h
      · split
        · simp [h]
        · exact hk _ _ _ _ (by simp [h])

@[simp] theorem recipeEntryIn_wf (n : Nat) (q : Nat) (d : Dev) (u : Queue) (e : QEntry) (ix : Nat) (h : d.mem.wf = true) :
    (recipeEntryIn n q d u e ix).mem.wf = true := by rw [recipeEntryIn]; (repeat' split) <;> simp_all

@[simp] theorem servoPhase_wf (d : Dev) (phase : Int) (h : d.mem.wf = true) :
    (servoPhase d phase).mem.wf = true := by unfold servoPhase; (repeat' split) <;> simp_all

@[simp] theorem servoTakes_wf (phase : Int) (d : Dev) (h : d.mem.wf = true) :
    (servoTakes phase d).mem.wf = true := by rw [servoTakes]; (repeat' split) <;> simp_all

@[simp] theorem ppsEdge_wf (phase : Int) (ref10 : Bool) (d : Dev) (h : d.mem.wf = true) : (ppsEdge phase ref10 d).mem.wf = true := by
  unfold ppsEdge
  extract_lets d1 d2
  have h1 : d1.mem.wf = true := by
    dsimp only [d1]
    rw [Dev.setFld_mem, Dev.setFld_mem]
    exact h
  clear_value d1
  have h2 : d2.mem.wf = true := ite_wf _ (servoTakes_wf _ _ h1) h1
  clear_value d2
  exact ite_wf _ (todApply_wf _ h2) h2

@[simp] theorem refEdge_wf (src : RefSource) (phase : Int) (ref10 : Bool) (d : Dev) (h : d.mem.wf = true) :
    (refEdge src phase ref10 d).mem.wf = true := by
  unfold refEdge
  refine ite_wf _ h ?_
  split
  · exact ite_wf _ (servoTakes_wf _ _ (by rw [Dev.setFld_mem]; exact h)) h
  · exact ppsEdge_wf _ _ _ h
  · exact Dev.inc_wf _ _ _ h

@[simp] theorem refLoss_wf (late : Bool) (ref10 : Bool) (d : Dev) (h : d.mem.wf = true) : (refLoss late ref10 d).mem.wf = true := by
  have hi : ∀ (b : Bool) (v : Dev) (t : TimeSt), v.mem.wf = true → (if b then { v with time := t } else v).mem.wf = true := by
    intro b v t hv
    cases b <;> exact hv
  have h0 : (d.setFld R.TIME_STAT 4 4 (b2n ref10)).mem.wf = true := by rw [Dev.setFld_mem]; exact h
  unfold refLoss
  generalize d.setFld R.TIME_STAT 4 4 (b2n ref10) = d0 at h0 ⊢
  refine ite_wf _ h (ite_wf _ h0 ?_)
  extract_lets uses d1 d2 d3
  have h1 : d1.mem.wf = true := hi uses d0 (servoLoss d0.time) h0
  clear_value d1
  refine ite_wf _ ?_ (by rw [Dev.setFld_mem]; exact h1)
  have h2 : d2.mem.wf = true := Dev.inc_wf _ _ _ h1
  clear_value d2
  have h3 : d3.mem.wf = true := hi uses d2 (servoEdge d2.time 60 true) h2
  clear_value d3
  exact ite_wf _ (todApply_wf _ h3) h3

@[simp] theorem reload_mem (copy : Nat) (d : Dev) :
    (reload copy d).mem = d.mem := by simp [reload]

@[simp] theorem resetPin_wf (d : Dev) (h : d.mem.wf = true) :
    (resetPin d).mem.wf = true := by rw [resetPin]; (repeat' split) <;> simp_all

theorem restoreLive_wf (d : Dev) (n : Nat) (slot : Nat) (at' : Nat → Nat) (e : Dev) (h : d.mem.wf = true)
    (he : restoreLive d n slot at' = .ok e) : e.mem.wf = true := by
  unfold restoreLive at he
  dsimp only at he
  split at he
  · cases he; exact h
  · split at he
    · cases he
    · obtain rfl := Except.ok.inj he
      exact copyLive_wf _ _ _ _ _ h

theorem restoreTarget_wf (d : Dev) (n : Nat) (e : Dev) (h : d.mem.wf = true) (he : restoreTarget d n = .ok e) : e.mem.wf = true := by
  unfold restoreTarget at he
  dsimp only at he
  split at he
  · cases he; exact h
  · split at he
    · exact restoreLive_wf _ _ _ _ _ h he
    · split at he
      · exact restoreLive_wf _ _ _ _ _ h he
      · cases he; exact h

@[simp] theorem restoreDone_wf (n : Nat) (m : Mode) (resuming : Bool) (d : Dev) (h : d.mem.wf = true) :
    (restoreDone n m resuming d).mem.wf = true := by
  unfold restoreDone
  refine ite_wf _ h ?_
  split
  · rename_i he
    simpa using restoreTarget_wf _ _ _ h he
  · exact failIncoming_wf _ _ _ h

@[simp] theorem rowPowerUp_wf (r : Nat) (fails : List DieFail) (d : Dev) (h : d.mem.wf = true) :
    (rowPowerUp r fails d).mem.wf = true := by rw [rowPowerUp]; (repeat' split) <;> simp_all

@[simp] theorem rtcpReport_mem (die : Nat) (d : Dev) :
    (rtcpReport die d).mem = d.mem := by simp [rtcpReport]

@[simp] theorem runStepEntry_wf (n : Nat) (q : Nat) (d : Dev) (u : Queue) (e : QEntry) (ix : Nat) (h : d.mem.wf = true) :
    (runStepEntry n q d u e ix).mem.wf = true := by rw [runStepEntry]; (repeat' split) <;> simp_all

@[simp] theorem suspendStep_wf (d : Dev) (n : Nat) (h : d.mem.wf = true) : (suspendStep d n).mem.wf = true := by
  unfold suspendStep
  dsimp only
  split
  · exact h
  · split
    · refine jobOver_wf _ _ _ _ _ ?_
      rw [Dev.setPort_mem]
      exact foldl_wf _ (fun x e hx => by split <;> simp [hx]) _ (by simp [h])
    · rename_i he
      simpa using saveLive_wf _ _ _ _ h he

@[simp] theorem saveDone_wf (n : Nat) (d : Dev) (h : d.mem.wf = true) :
    (saveDone n d).mem.wf = true := by rw [saveDone]; (repeat' split) <;> simp_all

@[simp] theorem scrubFind_wf (d : Dev) (die : Nat) (hbm : Bool) (base : Nat) (size : Nat) (a5 : ScrubFind) (h : d.mem.wf = true) :
    (scrubFind d die hbm base size a5).mem.wf = true := by unfold scrubFind; (repeat' split) <;> simp_all

@[simp] theorem scrubHbm_wf (die : Nat) (pass : Bool) (f : ScrubFind) (d : Dev) (h : d.mem.wf = true) :
    (scrubHbm die pass f d).mem.wf = true := by rw [scrubHbm]; (repeat' split) <;> simp_all

@[simp] theorem scrubSram_wf (die : Nat) (c : Nat) (pass : Bool) (f : ScrubFind) (d : Dev) (h : d.mem.wf = true) :
    (scrubSram die c pass f d).mem.wf = true := by rw [scrubSram]; (repeat' split) <;> simp_all

@[simp] theorem selfTest_wf (fails : List DieFail) (cores : List CoreFail) (d : Dev) (h : d.mem.wf = true) :
    (selfTest fails cores d).mem.wf = true := by
  unfold selfTest
  split
  · exact h
  · have := foldl_wf (testRow fails cores) (fun x e hx => by simp [hx]) (List.range 4) h
    simpa using this

@[simp] theorem send2110_mem (d : Dev) (die : Nat) (ts : Nat) (whole : Bool) (ps : List (List Byte)) :
    (send2110 d die ts whole ps).mem = d.mem := by simp [send2110]

@[simp] theorem completeCommit_mem (d : Dev) (b : Bool) : (completeCommit d b).mem = d.mem := by
  rw [completeCommit]; split <;> simp

@[simp] theorem tellCutOff_wf (d : Dev) (h : d.mem.wf = true) : (tellCutOff d).mem.wf = true := by
  unfold tellCutOff
  refine ite_wf _ (Dev.inc_wf _ _ _ ?_) h
  simp [h]

@[simp] theorem spBoot_wf (d : Dev) (h : d.mem.wf = true) : (spBoot d).mem.wf = true := by
  unfold spBoot
  dsimp only
  split
  · exact h
  · split <;> simp [h]

@[simp] theorem spdmAnswer_mem (d : Dev) (n : Nat) (code : Nat) (body : List Nat) :
    (spdmAnswer d n code body).mem = d.mem := by simp [spdmAnswer]

@[simp] theorem spdmRequest_mem (n : Nat) (before : Nat) (after : Nat) (code : Nat) (body : Dev → List Nat) (d : Dev) :
    (spdmRequest n before after code body d).mem = d.mem := by simp [spdmRequest]

theorem spdmSlot_mem (n slot : Nat) (k : Dev → Dev) (d : Dev) (hk : (k d).mem = d.mem) : (spdmSlot n slot k d).mem = d.mem := by
  unfold spdmSlot
  (repeat' split) <;> simp [hk]

@[simp] theorem spillSwitch_wf (die i : Nat) (d : Dev) (h : d.mem.wf = true) : (spillSwitch die i d).mem.wf = true := by
  unfold spillSwitch
  dsimp only
  refine ite_wf _ h (ite_wf _ (tableFault_wf _ _ _ h) (ite_wf _ ?_ (ite_wf _ h (Moved.run_wf _ _ _ _ h (fun x hx => ?_)))))
  · rw [spillNext_mem]
    refine Dev.inc_wf _ _ _ ?_
    rw [Dev.setKv_mem]
    exact h
  · have hx := moveBytes_wf h hx
    rw [spillNext_mem, Dev.inc_mem, Dev.setKv_mem]
    exact hx

@[simp] theorem st2110Picture_mem (die : Nat) (d : Dev) :
    (st2110Picture die d).mem = d.mem := by rw [st2110Picture]; (repeat' split) <;> simp_all

@[simp] theorem syncTx_mem (p : Nat) (d : Dev) :
    (syncTx p d).mem = d.mem := by simp [syncTx]

/-- What a completed entry's release does to the memories. -/
theorem tideOver_wf (b : Bool) (y : Dev) (die slot sem : Nat) (h : y.mem.wf = true) :
    (spillNext (proceedAll (if b then unhold (semRelease y die slot sem 1) die sem else y) die) die).mem.wf = true := by
  rw [spillNext_mem]
  exact proceedAll_wf _ _ (ite_wf _ (by rw [unhold_mem, semRelease_mem]; exact h) h)

@[simp] theorem tideComplete_wf (n i : Nat) (d : Dev) (h : d.mem.wf = true) : (tideComplete n i d).mem.wf = true := by
  unfold tideComplete
  extract_lets p
  split
  · rename_i t _
    extract_lets die slot met overs src
    have ho : ∀ x, x.mem.wf = true → (overs x).mem.wf = true := by
      intro x hx
      refine tideOver_wf _ _ _ _ _ (Dev.inc_wf _ _ _ ?_)
      rw [Dev.setPort_mem]
      exact ite_wf _ (scramble_wf _ _ hx) hx
    clear_value overs
    refine ite_wf _ h (ite_wf _ h (ite_wf _ (tableFault_wf _ _ _ h) ?_))
    split
    · exact Moved.run_wf _ _ _ _ h (fun x hx => ho _ (moveBytes_wf h hx))
    · exact prefetchDone_wf _ _ _ _ _ _ h ho
    · exact astSpill_wf _ _ _ _ _ _ h ho
    · exact astFetch_wf _ _ _ _ _ _ h ho
    · exact ho _ h
  · exact h

@[simp] theorem tpHandover_mem (done : Bool) (d : Dev) :
    (tpHandover done d).mem = d.mem := by simp [tpHandover]

@[simp] theorem unloadEntry_wf (n : Nat) (q : Nat) (d : Dev) (u : Queue) (e : QEntry) (ix : Nat) (h : d.mem.wf = true) :
    (unloadEntry n q d u e ix).mem.wf = true := by rw [unloadEntry]; (repeat' split) <;> simp_all

@[simp] theorem watchdog_wf (n : Nat) (late : Bool) (d : Dev) (h : d.mem.wf = true) :
    (watchdog n late d).mem.wf = true := by rw [watchdog]; (repeat' split) <;> simp_all

@[simp] theorem wrapMark_wf (p : TlmPath) (d : Dev) (h : d.mem.wf = true) :
    (wrapMark p d).mem.wf = true := by rw [wrapMark]; (repeat' split) <;> simp_all

@[simp] theorem yieldReached_wf (n : Nat) (d : Dev) (h : d.mem.wf = true) : (yieldReached n d).mem.wf = true := by
  unfold yieldReached
  dsimp only
  (repeat' split) <;> simp [h]

end Sys2Proof.Machine
end

