-- ==== Sys2Proof/WellFormed.lean ====
section
/-! DEFINITION. Which commands can come from outside: every operand fits the field, message or range the
spec gives it. exec has a meaning for every command; statements that need a bound name this predicate. -/

namespace Sys2Proof

/-- A number of w bits. -/
def fits (w n : Nat) : Bool := decide (n < 2 ^ w)

/-- An address of a die's memory: 64 cores of 16 MiB (R16), or 96 GiB of HBM (R18). -/
def Upset.memAddr (hbm : Bool) (a : Nat) : Bool :=
  if hbm then decide (a < 0x18_0000_0000) else decide (a < 0x4000_0000)

/-- A word of a core's tables, of a KVT entry or of a semaphore that exists: 8 plan slots of 8 SFU slots of 256 bytes (R130), of a
coma table of 256 bytes (R167), 32,768 entries (R148), 4,096 semaphores a plan slot (R50). -/
def TableWord.wf : TableWord → Bool
  | .buffer => true
  | .sfu a => decide (a < 16384)
  | .coma a => decide (a < 2048)
  | .kvt i => decide (i < 32768)
  | .sem slot i => decide (slot < 8) && decide (i < 4096)

/-- The address of an uncorrectable error lies in the memory it is said to be in (R388). -/
def Upset.wf : Upset → Bool
  | .uncorrected hbm a => Upset.memAddr hbm a
  | .table _ w => w.wf
  | _ => true

/-- What a scrubber finds lies in the memory it walks (R387). -/
def ScrubFind.wf (hbm : Bool) : ScrubFind → Bool
  | .uncorrected a => Upset.memAddr hbm a
  | _ => true

/-- An entry's fields at their widths (R295). -/
def QEntry.wf (e : QEntry) : Bool :=
  fits 8 e.op && fits 8 e.slot && fits 8 e.flags && fits 32 e.count && fits 64 e.tag && fits 64 e.arg0 && fits 64 e.arg1

/-- A page that exists: 16 dies, 64 cores, 2 stacks, 4 ports, 2 TCUs, 4 hosts (R435). -/
def Page.wf : Page → Bool
  | .hq0 n | .hq1 n | .tlmH n | .fwuH n => decide (n < 4)
  | .dieD d | .pwrD d | .coreDie d | .kvt d | .ast d | .pxe d | .sem d | .vcD d | .tlmD d | .secD d => decide (d < 16)
  | .hbmc d s => decide (d < 16) && decide (s < 2)
  | .jlink d p => decide (d < 16) && decide (p < 4)
  | .core d c => decide (d < 16) && decide (c < 64)
  | .tcu d t => decide (d < 16) && decide (t < 2)
  | _ => true

/-- A failure's causes fit DIE_ST_FAIL (R452). -/
def DieFail.wf (f : DieFail) : Bool := fits 9 f.cause

/-- A training result (R264): 80 data and 4 spare lanes a direction, a 16-bit margin. -/
def TrainResult.wf (r : TrainResult) : Bool := r.badLanes.all (fun l => decide (l < 84)) && fits 16 r.margin

/-- A data set at the widths of its message (R351). -/
def Announce.wf (a : Announce) : Bool :=
  fits 8 a.domain && fits 64 a.sender && fits 64 a.identity && fits 8 a.priority1 && fits 8 a.clockClass && fits 8 a.accuracy &&
    fits 16 a.variance && fits 8 a.priority2 && fits 16 a.steps && fits 8 a.timeSource

/-- A picture's samples have its bit depth, at most 10 (R359). -/
def DecPicture.wf (p : DecPicture) : Bool :=
  fits 8 p.profile && fits 8 p.level && fits 16 p.w && fits 16 p.h && fits 32 p.used && (p.depth == 8 || p.depth == 10) &&
    p.code.all (fits p.depth)
def DecOutcome.wf : DecOutcome → Bool
  | .picture p => p.wf
  | .error used | .poisoned used => fits 32 used

/-- Addresses and port numbers of a frame. -/
def NetFrame.wf : NetFrame → Bool
  | .group ip udp src => fits 32 ip && fits 16 udp && fits 32 src
  | .arp target sender mac => fits 32 target && fits 32 sender && fits 48 mac
  | .icmpEcho src dst payload => fits 32 src && fits 32 dst && decide (payload.length ≤ 1472)
  | _ => true

/-- A management message's 32-bit register address, or a 2 MiB page of HBM (R407, R446). -/
def MgmtPlace.wf : MgmtPlace → Bool
  | .reg a => fits 32 a
  | .memory _ page => decide (page < 49152)

/-- A JTAG memory access names a 2 MiB page of HBM (R407). -/
def JtagOp.wf : JtagOp → Bool
  | .memory _ _ page => decide (page < 49152)
  | _ => true

/-- Sixteen values, one a die. -/
def perDie (w : Nat) (l : List Nat) : Bool := decide (l.length = 16) && l.all (fits w)

/-- A BAR2 request fits one PCIe request: at most 4 KiB, at an offset of 16 dies (R285). -/
def barWf (addr len : Nat) : Bool := fits 41 addr && decide (0 < len) && decide (len ≤ 4096)

/-- A command as it can come. -/
def Instr.wf : Instr → Bool
  | .nop _ u | .layerMarker _ u | .ctrFetch _ u | .stepEnd _ u | .mm _ u | .veEw _ u | .veRed _ u | .veNorm _ u
  | .veSoftmax _ u | .veCombine _ u | .veQuant _ u | .veQuantEf _ u | .veDwconv _ u | .veSfu _ u | .veSfuLoad _ u
  | .attPart _ u | .attPin _ u | .kvWrite _ u | .kvCopy _ u | .conv _ u | .pxeIn _ u | .pxeOut _ u | .comaLoad _ u
  | .bwMm _ u | .bwAdapt _ u | .bwAtt _ u | .bwNorm _ u | .bwSoftmax _ u | .astPush _ u | .astPop _ u | .update _ u
  | .seCopy _ u | .sePut _ u | .tcuTblLoad _ u | .tcuPack _ u | .tcuUnpack _ u | .clRs _ u | .clAg _ u | .mmRs _ u
  | .agMm _ u | .semAcquire _ u | .astDemandTransferDone _ u => u.wf
  | .linkFlitRx _ _ err => (match err with | none => true | some e => decide (e.1 < 272) && decide (e.2 ≠ 0))
  | .marginProbe _ _ margin => fits 16 margin
  | .collPrepare _ id | .collDoneToken _ id _ | .collNogo _ id | .collFaultToken _ id _ | .collTimeout _ id _ => fits 16 id
  | .linkTraining rs => rs.all TrainResult.wf
  | .sqDoorbell _ _ tail entries => fits 16 tail && entries.all QEntry.wf
  | .hqCqHead _ head => fits 32 head
  | .partCreate _ rows => fits 4 rows
  | .bar2Read _ addr len => barWf addr len
  | .bar2Write _ addr data => barWf addr data.length
  | .parbCycle fracs temps => perDie 5 fracs && perDie 16 temps
  | .energyUpdate _ dies => decide (dies.length = 16)
  | .ptpAnnounceRx _ a => a.wf
  | .delayReqRx _ _ seq => fits 16 seq
  | .decodePicture _ o => o.wf
  | .netFrameRx _ f _ => f.wf
  | .scrubSram _ _ f => f.wf false
  | .scrubHbm _ _ f => f.wf true
  | .getCertificate _ slot | .challenge _ slot => decide (slot < 8)
  | .getMeasurements _ index => fits 8 index
  | .spdmUnsupported _ code => fits 8 code
  | .jtagInstruction op => op.wf
  | .fwuWrite _ data => (match data with | none => true | some bs => decide (bs.length ≤ 65536))
  | .faultClr _ pg => pg.wf
  | .irqEn _ pg v | .irqSet _ pg v => pg.wf && fits 32 v
  | .coreLflagClr _ _ v => fits 32 v
  | .loReadLatch _ p => fits 32 p.addr && decide (0 < p.len) && decide (p.len ≤ 4096)
  | .registerWrite _ addr v _ => fits 32 addr && fits 32 v
  | .mgmtRegRead p => p.wf
  | .mgmtRegWrite p v => p.wf && fits 32 v
  | .rowBringup r fails cores => fails.all (fun f => f.wf && decide (f.die.val / 4 = r.val)) &&
      cores.all (fun c => decide (c.core.die.val / 4 = r.val))
  | .rowPowerUp r fails => fails.all (fun f => f.wf && decide (f.die.val / 4 = r.val))
  | .hbmTraining fails => fails.all DieFail.wf
  | .selfTest fails _ => fails.all DieFail.wf
  | .coolantSample inlet outlet flow _ absent => fits 16 inlet && fits 16 outlet && fits 16 flow && fits 4 absent
  | .semTimeout .. | .commit .. | .kvSpillSwitch .. | .kvDemandFetchDone .. | .tideComplete .. | .peerSemRelease ..
  | .hostTierTimeout .. | .rampWindow .. | .runStep .. | .loadPlan .. | .unloadPlan .. | .setRecipe .. | .fence ..
  | .stepBoundary .. | .yieldSuspended .. | .eclipseDrainEnd .. | .eclipseSaveDone .. | .eclipseRestoreDone ..
  | .resumeSuspended .. | .stepWatchdog .. | .partRelease .. | .functionLevelReset .. | .hotReset .. | .hostLinkDown ..
  | .d3hotEntry .. | .partClearDone .. | .bucketSample .. | .inputSample .. | .pwrOvervolt | .mainInputRestored
  | .rowPhaseFail .. | .auxInputChange .. | .calUpdate .. | .pwrOvertemp .. | .pwrDiePt .. | .clockHandover ..
  | .vfChangeDone .. | .droopDetect .. | .droopRecover .. | .issueCutEnd .. | .moonEnter .. | .pwrMoonWake ..
  | .moonExitDone .. | .refEdge .. | .refLoss .. | .holdoverExpiry | .devtimeReload .. | .todArm | .todApply | .ppsOut
  | .framePulse | .pulseEnd .. | .announceTimeout .. | .syncTx .. | .announceTx .. | .metadataTlvTx .. | .tpHandover ..
  | .vcDecAttach .. | .vcDecDetach .. | .vcEncAttach .. | .vcEncDetach .. | .encodePicture .. | .st2110Picture ..
  | .rtcpSenderReport .. | .mcastListenEnd .. | .netLinkChange .. | .tlmBurstEnd .. | .tlmAlarmRelease ..
  | .tlmTimeMark .. | .getVersion .. | .getCapabilities .. | .negotiateAlgorithms .. | .getDigests .. | .debugUnlock
  | .debugLock | .dbgNonceRead | .protApply .. | .protApplyDone .. | .fwuOpen .. | .fwuEraseDone | .fwuBlockDone
  | .fwuVerify .. | .fwuActivate .. | .fwuAbort .. | .imageHandover .. | .healthConfirm .. | .healthTimeout
  | .astResetSp .. | .tlmEnable .. | .mgmtReset | .resetN | .mpLockstep | .auxPowerUp .. | .spBoot | .mpTpStart
  | .hostPortStart | .ovenReady | .irqMessageGapEnd .. | .planSwitchRestoreDone .. => true

end Sys2Proof
end

