-- ==== Sys2Proof/Tests/Slice0.lean ====
section
/-! SUPPORT. Tests: the well-formedness smoke, each core row on a command that works, worked examples of the spec, and for the clauses of each
statement a state that meets their hypotheses. -/

namespace Sys2Proof.Tests
open Sys2Proof Sys2Proof.Machine
set_option Elab.async false
set_option linter.unusedVariables false

/-- Bytes laid into HBM one after the other. -/
def lay (l : List (Nat × Nat × Nat)) (m : Mems) : Mems := l.foldl (fun (m : Mems) e => m.write .hbm e.1 (leBytes e.2.1 e.2.2)) m

/-- The record of a command at an address. -/
def record (a : Nat) (c : Cmd) : List (Nat × Nat × Nat) :=
  let w := c.toWords
  [(a, 4, w.w0), (a + 4, 8, w.eng), (a + 12, 4, w.w3), (a + 16, 8, w.d0), (a + 24, 8, w.d1), (a + 32, 8, w.d2),
   (a + 40, 8, w.d3), (a + 48, 8, w.d4), (a + 56, 8, w.d5)]

/-- A plan image at offset 0 of die 0: section 0 at 4096, section 1 at 8192; core 0 has the commands given. -/
def image (cs : List Cmd) (tail : List TailEnt) : List (Nat × Nat × Nat) :=
  [(0x80, 8, 4096), (0x88, 8, 4096), (0x90, 8, 8192), (0x98, 8, 64), (4096, 8, 1024), (4104, 4, cs.length)] ++
    (cs.zipIdx.flatMap (fun e => record (4096 + 1024 + 64 * e.2) e.1)) ++
    (tail.zipIdx.map (fun e => (8192 + 8 * e.2, 8, e.1.toNat)))

def job : Job := { queue := 1, entry := 0, cls := 1, slot := 0, left := 1, notify := false, tag := 0 }

def port0 : Port := { up := true, valid := true, rows := 1, slots := [(0, { loaded := true, len := 0x10000 })], mode := .running, run := some job }

/-- Partition 0 over row 0 runs a plan whose core 0 of die 0 stands at the first of the commands given. -/
def running (cs : List Cmd) (tail : List TailEnt) : Dev :=
  let d : Dev := {}
  { d with mem := lay (image cs tail) d.mem, ports := [(0, port0)] }

/-- A command without operands. -/
def bare (opcode : Nat) : Cmd := ⟨opcode, 0, 0, 0, 0, false, false, false, 0, 0, 0, 0, 0, 0, 0, 0, 0, 0⟩

def core0 : CoreIx := ⟨0, 0⟩


/-- A descriptor of the core's own tile memory: n units of 64 bytes from unit b. -/
def tmd (b n : Nat) : Nat := 2 ^ 61 + 2 ^ 30 * b + n
/-- A descriptor of the plan's HBM range. -/
def hbd (b n : Nat) : Nat := 3 * 2 ^ 61 + 2 ^ 30 * b + n

/-- A command of shape 1 × 1 × 1 in one format, its six descriptors 16 units each of the core's tile memory. -/
def plain (opcode f eng mask : Nat) : Cmd :=
  { bare opcode with
    fmtA := f, fmtB := f, fmtOut := f, eng := eng, outMask := mask, d0 := tmd 0 16, d1 := tmd 16 16, d2 := tmd 32 16
    d3 := tmd 48 16, d4 := tmd 64 16, d5 := tmd 80 16 }

/-- The command's work is done: the row has an attempt of it that ends without a fault. -/
def canDo (op : OpSpec) (c : Cmd) (g : Dev → Dev := id) : Bool := (attemptOf op (g (running [c] [])) core0).isSome

/-- Besides, its row leaves the core with that work done, memory as the work found it and its outputs and flags waiting. -/
def ready (op : OpSpec) (c : Cmd) (g : Dev → Dev := id) : Bool :=
  let d := g (running [c] [])
  match attemptOf op d core0, coreRows.find? (fun r => r.1.opcode == op.opcode && r.1.mine c) with
  | some (_, y, f), some r =>
    match exec (r.2 core0 .clean) { pending := [], dev := d } with
    | .next e => (e.dev.cs 0 0).phase == .worked && decide (e.dev.mem = y.mem) &&
        ((e.dev.cs 0 0).flight.map (fun g => (g.writes, g.flags, g.outs)) == some (f.writes, f.flags, f.outs))
    | _ => false
  | _, _ => false



/-- A shape of m rows, n columns, depth k. -/
def shape (m n k : Nat) : Nat := (m - 1) + 2 ^ 11 * (n - 1) + 2 ^ 22 * (k - 1)

/-- Numbers laid into the tile memory of core 0 of die 0. -/
def tile (l : List (Nat × Nat × Nat)) (d : Dev) : Dev :=
  { d with mem := l.foldl (fun (m : Mems) e => m.write .tm e.1 (leBytes e.2.1 e.2.2)) d.mem }
/-- Numbers laid into the HBM of die 0. -/
def hbm (l : List (Nat × Nat × Nat)) (d : Dev) : Dev := { d with mem := lay l d.mem }

/-- Pages of 4 KiB; page 0 in core 0's tile memory, page 1 in frame 256. -/
def paged (d : Dev) : Dev :=
  { d.wr (R.KVT_CFG 0) 1 with
    kvt := [((0, 0), { state := kvValid, refcnt := 1, addr := 256, frame := 255 }),
      ((0, 1), { state := kvValid, refcnt := 1, tier := 1, addr := 256, frame := 256 })] }
/-- The descriptor of a page, moved in the slots of 0x3FFE. -/
def page (i n : Nat) : Nat := 5 * 2 ^ 61 + 2 ^ 30 * (0x3FFE * 2 ^ 15 + i) + n

/-- A coma entry of one tap, and the tile record at unit b of a frame of one position. -/
def coma (b : Nat) (d : Dev) : Dev :=
  let d1 := tile ([10, 12, 14, 16, 18, 20, 22, 24, 26, 34, 36, 38, 40].map (fun o => (64 * b + o, 2, 1))) d
  { d1 with comaValid := [(0, 0, 0)], mem := d1.mem.write .coma 0 (List.replicate 6 1) }

/-- A step record at unit 80: member count 4, its operation, the size sent, core 0. -/
def ring (op : Nat) : Dev → Dev := tile [(5120 + 3, 1, 4), (5120 + 5, 1, op), (5120 + 8, 4, 1024), (5120 + 32, 8, 1)]

/-- The plan's HBM range, and a stack of 1 MiB with nothing on it. -/
def ranged (d : Dev) : Dev :=
  { (d.wr (R.HBMC_PLAN_BASE_LO 0 0 0) 0x200000).wr (R.HBMC_PLAN_SIZE_LO 0 0 0) 0x200000 with
    ast := [((0, 0), { base := 0x400000, hbmSize := 0x100000, limit := 0x100000 })] }

/-- A stored block of one binary32 element, as a number. -/
def oneBlock : Nat := ofLe (encodeBlock [] 0 0 false false [0, 0, 0x80, 0x3F]).bytes
/-- The stack holds that block's record. -/
def pushed (d : Dev) : Dev :=
  let c := bare 0x245
  { hbm [(0x400000, 12, oneBlock), (0x400040, 64, ofLe (trailer { c with eng := 0 } 4 64))] (ranged d) with
    ast := [((0, 0), { base := 0x400000, hbmSize := 0x100000, limit := 0x100000, sp := 128, peak := 128 })] }

/-- A recipe table whose layer 1 has a variant with an empty segment record. -/
def recipes : Dev → Dev :=
  hbm [(0xF0, 8, 12288), (0xF8, 8, 128), (12288, 2, 1), (12296, 2, 0x301), (12308, 4, 64)]

/-- Frame rings of one 2 × 2 slot, with the PXE. -/
def rings (d : Dev) : Dev :=
  let d1 := (d.wr (R.PXE_IN_GEOM 0) 0x20002).wr (R.PXE_OUT_GEOM 0) 0x20002
  { (d1.wr (R.PXE_IN_PITCH 0) 64).wr (R.PXE_OUT_PITCH 0) 64 with codec := [(0, { inSlots := [(0, .withPxe)] })] }

/-! Every core row does the work of a command -/

theorem test_nop_can_work : ready opNop (plain 0x0 0 0 0) = true := by decide +kernel
theorem test_layerMarker_can_work : ready opMarker (plain 0 0 (2 ^ 56) 0) recipes = true := by decide +kernel
theorem test_ctrFetch_can_work : ready opCtrFetch (plain 0x1 0 (2 ^ 42) 4) = true := by decide +kernel
theorem test_stepEnd_can_work : ready opStepEnd (bare 2) = true := by decide +kernel
theorem test_mm_can_work : ready opMm (plain 0x40 0 0 4) = true := by decide +kernel
theorem test_veEw_can_work : ready opVeEw (plain 0x100 0 0 4) = true := by decide +kernel
theorem test_veRed_can_work : ready opVeRed (plain 0x101 0 0 4) = true := by decide +kernel
theorem test_veNorm_can_work : ready opVeNorm (plain 0x102 0 0 4) = true := by decide +kernel
theorem test_veSoftmax_can_work : ready opVeSoftmax (plain 0x103 0 0 4) = true := by decide +kernel
theorem test_veCombine_can_work : ready opVeCombine (plain 0x104 0 0 20) = true := by decide +kernel
theorem test_veQuant_can_work : ready opVeQuant { plain 0x105 0 0 12 with fmtOut := 4 } = true := by decide +kernel
theorem test_veQuantEf_can_work : ready opVeQuantEf { plain 0x106 0 0 28 with fmtOut := 4 } = true := by decide +kernel
theorem test_veDwconv_can_work : ready opVeDwconv (plain 0x107 0 0 4) (coma 16) = true := by decide +kernel
theorem test_veSfu_can_work : ready opVeSfu (plain 0x108 0 0 4) = true := by decide +kernel
theorem test_veSfuLoad_can_work : ready opVeSfuLoad (plain 0x109 0 0 0) = true := by decide +kernel
theorem test_attPart_can_work : ready opAttPart { plain 0x1C0 0 0 20 with fmtB := 2 } paged = true := by decide +kernel
theorem test_attPin_can_work : ready opAttPin (plain 0x1C1 0 0 0) paged = true := by decide +kernel
theorem test_kvWrite_can_work : ready opKvWrite { plain 0x1C2 0 0 8 with fmtB := 2, d3 := page 1 64 } paged = true := by decide +kernel
theorem test_kvCopy_can_work : canDo opKvCopy { plain 0x1C3 0 0 6 with d0 := page 0 64, d2 := page 1 64 } paged = true := by decide +kernel
theorem test_conv_can_work : ready opConv (plain 0x200 0 0 4) (coma 48) = true := by decide +kernel
theorem test_pxeIn_can_work : ready opPxeIn (plain 0x201 0 0 4) (fun d => rings (coma 48 d)) = true := by decide +kernel
theorem test_pxeOut_can_work : ready opPxeOut (plain 0x202 0 0 0) (fun d => rings (coma 48 d)) = true := by decide +kernel
theorem test_comaLoad_can_work : ready opComaLoad (plain 0x203 0 0 0) = true := by decide +kernel
theorem test_bwMm_can_work : ready opBwMm (plain 0x240 0 0 4) = true := by decide +kernel
theorem test_bwAdapt_can_work : ready opBwAdapt (plain 0x241 0 0 4) = true := by decide +kernel
theorem test_bwAtt_can_work : ready opBwAtt { plain 0x242 0 0 36 with fmtB := 2, d5 := tmd 80 64 } paged = true := by decide +kernel
theorem test_bwNorm_can_work : ready opBwNorm (plain 0x243 0 0 20) = true := by decide +kernel
theorem test_bwSoftmax_can_work : ready opBwSoftmax (plain 0x244 0 0 4) = true := by decide +kernel
theorem test_astPush_can_work : ready opAstPush { plain 0x245 0 0 4 with d2 := 6 * 2 ^ 61 } ranged = true := by decide +kernel
theorem test_astPop_can_work : ready opAstPop { plain 0x246 0 0 4 with d0 := 6 * 2 ^ 61 } pushed = true := by decide +kernel
theorem test_update_can_work : canDo opUpdate { plain 0x247 0 (shape 1 32 32) 59 with d0 := tmd 0 32, d1 := tmd 32 32, d2 := tmd 64 64, d3 := tmd 128 192 } = true := by decide +kernel
theorem test_seCopy_can_work : ready opSeCopy (plain 0x180 0 0 4) = true := by decide +kernel
theorem test_sePut_can_work : ready opSePut { plain 0x181 0 (0x3FFE * 2 ^ 50 + 2 ^ 46) 4 with d2 := 2 ^ 61 + tmd 32 16 } = true := by decide +kernel
theorem test_tcuTblLoad_can_work : ready opTcuTblLoad (plain 0x2C0 0 0 0) = true := by decide +kernel
theorem test_tcuPack_can_work : ready opTcuPack { plain 0x2C1 0 0 12 with d2 := hbd 0 16 } (fun d => tile [(1024, 2, 0x3FFE)] (ranged d)) = true := by decide +kernel
theorem test_tcuUnpack_can_work : ready opTcuUnpack { plain 0x2C2 0 0 4 with d0 := hbd 0 16 } (fun d => tile [(1024, 2, 0x3FFE)] (hbm [(0x200000, 12, oneBlock)] (ranged d))) = true := by decide +kernel
theorem test_clRs_can_work : ready opClRs (plain 0x280 0 0 12) (ring 0) = true := by decide +kernel
theorem test_clAg_can_work : ready opClAg (plain 0x281 0 0 8) (ring 3) = true := by decide +kernel
theorem test_mmRs_can_work : ready opMmRs (plain 0x282 0 0 20) (ring 0) = true := by decide +kernel
theorem test_agMm_can_work : ready opAgMm (plain 0x283 0 0 12) (ring 3) = true := by decide +kernel

/-! Witnesses of the statements -/

/-- What a command answers at a device, when it answers a next state. -/
def after (i : Instr) (d : Dev) (P : Dev → Bool) : Bool :=
  match exec i { pending := [], dev := d } with
  | .next e => P e.dev
  | _ => false
/-- The command leaves the device as it was. -/
def idles (i : Instr) (d : Dev) : Bool := after i d (fun e => decide (e = d))

/-- Core 0 of die 0 in a phase with a command in flight. -/
def at0 (ph : Phase) (f : Flight) (d : Dev) : Dev := { d with cores := [((0, 0), { phase := ph, flight := some f })] }

/-- A command that has done its work, with a write waiting. -/
def done0 (c : Cmd) (ws : List Wr) : Dev :=
  at0 .worked { cmd := c, worked := true, writes := ws, flags := { sat := 1 } } (running [c] [])

/-- A NOP that has done its work, with one tail entry. -/
def nop1 (t : TailEnt) (fl : Flags) : Dev :=
  let c := { bare 0 with tailCount := 1 }
  at0 .worked { cmd := c, worked := true, flags := fl } (running [c] [t])
def mayNop (t : TailEnt) (fl : Flags) (P : Dev → Bool) : Bool :=
  let d := nop1 t fl
  match inFlight d 0 0 .worked with
  | some (h, f, op) => op.opcode == 0 && mayCommit d h 0 0 f && f.cmd.tailCount == 1 && !tailPoisoned d h 0 f &&
      decide (tailAt d h.p h.ps (f.cmd.tailIndex + b2n f.cmd.acq) = t) && after (.commit core0) d P
  | none => false

/-- A CTR_FETCH of counter 1 by 4 that has done its work; the counter and its limit. -/
def fetch (v lim : Nat) : Dev :=
  let c := plain 1 0 (2 ^ 58 + 4 * 2 ^ 42) 4
  { at0 .worked { cmd := c, worked := true } (running [c] []) with ctr := [((0, 0, 1), v)], lim := [((0, 0, 1), lim)] }
def mayFetch (v lim : Nat) (P : Dev → Bool) : Bool :=
  let d := fetch v lim
  match inFlight d 0 0 .worked with
  | some (h, f, op) => op.opcode == 1 && mayCommit d h 0 0 f && f.cmd.tailCount == 0 && !f.taint && f.loose.isEmpty && f.wild.isEmpty && h.p.tides.isEmpty && f.cmd.outMask == 0b000100 &&
      descSpace f.cmd.d2 == 1 && after (.commit core0) d P
  | none => false
/-- A core that waits in its acquire of n of semaphore 3, with the operand of R53. -/
def waiting (opcode n operand have' : Nat) : Dev :=
  let c := { plain opcode 0 0 4 with acq := true }
  { at0 .waitAcq { cmd := c } (running [c] [⟨1, 3, n, operand⟩]) with sem := [((0, 0, 3), have')] }
def waits (d : Dev) (P : Here → Flight → OpSpec → TailEnt → Bool) : Bool :=
  match inFlight d 0 0 .waitAcq with
  | some (h, f, op) => ownsSlot d 0 h.job.slot 0 && P h f op (tailAt d h.p h.ps f.cmd.tailIndex)
  | none => false
/-- A tide entry of die 0. -/
def entry (kind sem : Nat) : TideEnt :=
  { kind := kind, die := 0, core := 0, semEn := true, cmd := 0, xfer := 0x3FFE, sem := sem, arg := 0, src := tmd 0 16, dst := tmd 16 16 }
def tiding (e : TideEnt) (d : Dev) : Dev :=
  d.setPort 0 { d.port 0 with tides := [{ slot := 0, part := 0, index := 0, ent := e }] }

theorem witness_CommitShowsTheWork :
    (let d := done0 (plain 0x100 0 0 4) [⟨.tm, 2048, [7]⟩]
     match inFlight d 0 0 .worked with
     | some (h, f, op) =>
       mayCommit d h 0 0 f && f.cmd.tailCount == 0 && !f.taint && f.loose.isEmpty && f.wild.isEmpty && h.p.tides.isEmpty && f.cmd.outMask == op.mask ⟨d, h.n, h.job.slot, 0, 0, f.cmd⟩ &&
         after (.commit core0) d (fun e => e.mem.byte .tm 2048 == 7 && e.rd (R.CORE_FLAG_LAST_LO 0 0) == 0x40000 && e.rd (R.CORE_FLAG_LAST_HI 0 0) == 0x10000 &&
           (e.cs 0 0).phase == .ready && (e.cs 0 0).idx == 1)
     | none => false) = true := by decide +kernel

theorem witness_CommitShowsTheWork_stepEnd :
    (let d := done0 (bare 2) []
     match inFlight d 0 0 .worked with
     | some (h, f, op) => mayCommit d h 0 0 f && f.cmd.tailCount == 0 && !f.taint && f.loose.isEmpty && f.wild.isEmpty && h.p.tides.isEmpty && f.cmd.outMask == op.mask ⟨d, h.n, h.job.slot, 0, 0, f.cmd⟩ &&
         after (.commit core0) d (fun e => (e.cs 0 0).phase == .ended)
     | none => false) = true := by decide +kernel

theorem witness_CommitOfTailsAndFetches_release :
    mayNop ⟨2, 4095, 65535, 0⟩ {} (fun e => semCount e 0 0 4095 == 65535) = true := by decide +kernel
theorem witness_CommitOfTailsAndFetches_add :
    mayNop ⟨3, 63, 5, 0⟩ {} (fun e => ctrVal e 0 0 63 == 5) = true := by decide +kernel
theorem witness_CommitOfTailsAndFetches_set :
    mayNop ⟨4, 0, 0, 0xFFFFFFFF⟩ {} (fun e => ctrVal e 0 0 0 == 0xFFFFFFFF) = true := by decide +kernel
theorem witness_CommitOfTailsAndFetches_timeout :
    mayNop ⟨2, 1, 1, 0⟩ { timeout := true } (fun e => semCount e 0 0 1 == 0) = true := by decide +kernel

theorem witness_CommitOfTailsAndFetches_poisoned :
    (let d := { nop1 ⟨2, 4095, 1, 0⟩ {} with semPoison := [(0, 0, 4095)] }; match inFlight d 0 0 .worked with | some (h, f, _) => mayCommit d h 0 0 f && tailPoisoned d h 0 f | none => false) = true := by decide +kernel
theorem witness_CommitOfTailsAndFetches_fetch :
    mayFetch 6 10 (fun e => e.mem.num .tm 2048 4 == 6 && ctrVal e 0 0 1 == 10) = true := by decide +kernel
theorem witness_CommitOfTailsAndFetches_exhausted :
    mayFetch 7 10 (fun e => e.mem.num .tm 2048 4 == 2 ^ 31 + 7 && ctrVal e 0 0 1 == 7) = true := by decide +kernel

theorem witness_AcquiresTakeOrTimeOut_take :
    (let d := waiting 0x100 2 0 2
     waits d (fun h f op t => !semBad d 0 0 t.target && decide (t.value ≤ semCount d 0 0 t.target) &&
       (startOf op h ⟨setSem d 0 0 t.target (semCount d 0 0 t.target - t.value), h.n, 0, 0, 0, f.cmd⟩
         { f with acquired := some (t.target, t.value) }).isSome) &&
     after (.semAcquire core0 .clean) d (fun e => semCount e 0 0 3 == 0 && (e.cs 0 0).phase == .worked)) = true := by decide +kernel
theorem witness_AcquiresTakeOrTimeOut_wait :
    (let d := waiting 0x100 2 0 1
     waits d (fun h f _ t => !semBad d 0 0 t.target && decide (semCount d 0 0 t.target < t.value) && !(tidePending h 0 t.target && !f.flags.tideMiss)) &&
     idles (.semAcquire core0 .clean) d) = true := by decide +kernel

theorem witness_AcquiresTakeOrTimeOut_miss :
    (let d := tiding (entry 0 3) (waiting 0x100 2 0 1)
     waits d (fun h f _ t => !semBad d 0 0 t.target && decide (semCount d 0 0 t.target < t.value) && tidePending h 0 t.target && !f.flags.tideMiss) &&
     after (.semAcquire core0 .clean) d (fun e => e.rd (R.TIDE_MISS_CNT 0 0) == 1 &&
       ((e.cs 0 0).flight.map (·.flags.tideMiss)) == some true)) = true := by decide +kernel
theorem witness_AcquiresTakeOrTimeOut_poisoned :
    (let d := { waiting 0x100 2 0 2 with semPoison := [(0, 0, 3)] }; waits d (fun _ _ _ t => semBad d 0 0 t.target)) = true := by decide +kernel
theorem witness_AcquiresTakeOrTimeOut_endless :
    (let d := waiting 0 1 0x80000000 0
     waits d (fun _ _ _ t => t.operand % 65536 == 0) && idles (.semTimeout core0 false) d) = true := by decide +kernel
theorem witness_AcquiresTakeOrTimeOut_nop :
    (let d := waiting 0 1 0x80000001 1
     waits d (fun _ f _ t => t.operand % 65536 != 0 && decide (t.value ≤ semCount d 0 0 t.target) && bit t.operand 31 &&
       f.cmd.opcode == 0) &&
     after (.semTimeout core0 true) d (fun e => (e.cs 0 0).phase == .worked && semCount e 0 0 3 == 1 &&
       e.rd (R.SEM_TIMEOUT_CNT 0) == 1 && e.rd (R.SEM_LATE_CNT 0) == 1)) = true := by decide +kernel
theorem witness_AcquiresTakeOrTimeOut_fault :
    (let d := waiting 0x100 1 1 0
     waits d (fun _ f _ t => t.operand % 65536 != 0 && !(bit t.operand 31 && f.cmd.opcode == 0))) = true := by decide +kernel


/-- The conditions of Movable. -/
def movable (d : Dev) (src dst : Region) (n : Nat) : Bool :=
  decide (n ≤ src.bound) && decide (n ≤ dst.bound) && !src.poisoned d 0 n &&
  !([src, dst] : List Region).any (fun r => r.space == .host && (d.port r.port).hostLoose) &&
  !beingWritten d 16 64 ((src.pieces d 0 n).map (fun q => (⟨src.space, q.1, q.2⟩ : Span)) ++
    (dst.pieces d 0 n).map (fun q => (⟨dst.space, q.1, q.2⟩ : Span)))

/-- An identifier owns a slot of every HBM channel of die 0. -/
def slots (xfer : Nat) : Dev → Dev :=
  hbm ([(0xC0, 8, 0x8000), (0xC8, 8, 0x4000)] ++ (List.range 64).map (fun ch => (0x8000 + 256 * ch + 2, 2, xfer)))

/-- Port 0 has one window of 1 MiB. -/
def windowed (d : Dev) : Dev := d.setPort 0 { d.port 0 with windows := [(0, 0x10000, 0x100000)] }

/-- Page 1 is being spilled. -/
def spilling (pins : Nat) : Dev :=
  let d := paged (windowed (slots 0x3FFD (running [] [])))
  { d.setKv 0 1 { d.kv 0 1 with state := kvSpilling, pins := pins } with taken := [(0, 255), (0, 256)] }
theorem witness_SpillMovesThePageHome_idle :
    (let d := paged (running [] []); (d.kv 0 1).state != kvSpilling && idles (.kvSpillSwitch 0 1) d) = true := by decide +kernel
theorem witness_SpillMovesThePageHome_abort :
    (let d := spilling 1; let e0 := d.kv 0 1; e0.state == kvSpilling && !d.kvtPoison.contains (0, 1) && ((e0.pinnedInSpill || e0.pins != 0)) && after (.kvSpillSwitch 0 1) d (fun e => (e.kv 0 1).tier == 1 && (e.kv 0 1).frame == 256 && decide (e.mem = d.mem) && decide (e.taken = d.taken) && e.rd (R.KVT_SPILL_ABORT 0) == 1)) = true := by decide +kernel
theorem witness_SpillMovesThePageHome_move :
    (let d := spilling 0; let e0 := d.kv 0 1; let f := frameRegion d 0 e0.frame; let n := kvPageSize d 0; e0.state == kvSpilling && !d.kvtPoison.contains (0, 1) && !e0.pinnedInSpill && e0.pins == 0 && dcServed d f n && movable d f (kvHome d 0 1) n) = true := by decide +kernel

theorem witness_SpillMovesThePageHome_poisoned :
    (let d := { spilling 0 with kvtPoison := [(0, 1)] }; (d.kv 0 1).state == kvSpilling && d.kvtPoison.contains (0, 1)) = true := by decide +kernel

/-- Page 1 lives in host memory and is being fetched into a pool of cnt frames. -/
def fetching (cnt : Nat) : Dev :=
  let d := paged (windowed (slots 0x3FFD (running [] [])))
  let d1 := ((d.setKv 0 1 { d.kv 0 1 with tier := 2, addr := 0, frame := 0 }).wr (R.KVT_FRAME_CNT 0) cnt).wr (R.KVT_FRAME_BASE_LO 0) 0x1000000
  { d1 with fetching := [(0, 1)], kvt := d1.kvt.filter (fun e => e.1.2 == 1) }
theorem witness_FetchBringsThePageIn_idle :
    (let d := paged (running [] []); !d.fetching.contains (0, 1) && idles (.kvDemandFetchDone 0 1) d) = true := by decide +kernel
theorem witness_FetchBringsThePageIn_full :
    (let d := fetching 0; let e0 := d.kv 0 1; d.fetching.contains (0, 1) && !d.kvtPoison.contains (0, 1) && e0.tier == 2 && e0.state != kvFree && (freeFrames d 0).isEmpty && idles (.kvDemandFetchDone 0 1) d) = true := by decide +kernel
theorem witness_FetchBringsThePageIn_move :
    (let d := fetching 2; let e0 := d.kv 0 1; let n := kvPageSize d 0; d.fetching.contains (0, 1) && !d.kvtPoison.contains (0, 1) && e0.tier == 2 && e0.state != kvFree && !(freeFrames d 0).isEmpty && (freeFrames d 0).all (fun fr => dcServed d (frameRegion d 0 fr) n && movable d (kvHome d 0 1) (frameRegion d 0 fr) n)) = true := by decide +kernel

theorem witness_FetchBringsThePageIn_poisoned :
    (let d := { fetching 2 with kvtPoison := [(0, 1)] }; d.fetching.contains (0, 1) && d.kvtPoison.contains (0, 1)) = true := by decide +kernel

/-- A core that waits for the stack: a push of one block on a full stack, or a pop of a record that was spilled. -/
def stacked (c : Cmd) (a : AstSet) : Dev :=
  let d := pushed (windowed (slots 0x3FFD (running [c] [])))
  { at0 .stalled { cmd := c } d with ast := [((0, 0), a)] }
def pushing : Dev :=
  stacked { plain 0x245 0 0 4 with d2 := 6 * 2 ^ 61 }
    { base := 0x400000, hbmSize := 0x1000, limit := 0x10000, sp := 0x1000, res := 0, hostBase := 0x20000 }
def popping : Dev :=
  stacked { plain 0x246 0 0 4 with d0 := 6 * 2 ^ 61 }
    { base := 0x400000, hbmSize := 0x1000, limit := 0x10000, sp := 128, spill := 128, res := 64, hostBase := 0x20000 }
def onStack (d : Dev) (P : Ctx → OpSpec → Flight → Bool) : Bool :=
  match inFlight d 0 0 .stalled with
  | some (h, f, op) => P ⟨d, h.n, h.job.slot, 0, 0, f.cmd⟩ op f
  | none => false
theorem witness_StackTransferServesTheCore_idle :
    (let d := at0 .stalled { cmd := bare 0 } (running [bare 0] []); onStack d (fun x op _ => !op.waits x) && idles (.astDemandTransferDone core0 .clean) d) = true := by decide +kernel
/-- A stack nobody writes, in the die's HBM and the port's windows, without poison, can move. -/
theorem stack_movable (d : Dev) (die n lo hi : Nat) (a : AstSet) (out : Bool) (hw : ∀ ss, beingWritten d 16 64 ss = false)
    (hp : d.mem.hbmPoison = []) (hl : (d.port n).hostLoose = false) (h0 : 0 < a.hbmSize) (hb : a.base + a.hbmSize ≤ hbmSize) (hh : a.hostBase + hi ≤ windowTotal (d.port n)) :
    StackMovable d die a n lo hi out := by
  intro v len _ h2 h3
  have hm : v % a.hbmSize < a.hbmSize := Nat.mod_lt _ h0
  cases out <;> refine ⟨?_, ?_, ?_, ?_, hw _⟩ <;>
    simp [stackEnds, astAt, astHome, Region.poisoned, Region.bound, Region.pieces, Mems.poisoned, hp, hl] <;> omega
set_option maxRecDepth 100000 in
theorem witness_StackTransferServesTheCore_push :
    (let d := pushing; let a := d.astSet 0 0; onStack d (fun x op f => op.waits x && f.cmd.opcode == 0x245 &&
      (let up := a.sp + (pushBlocks x).1.2 + 64 - a.hbmSize
       astServed d a 0 0x3FFD a.spill up && decide (0 < a.hbmSize) && decide (max a.sp up ≤ 0x1000)))) = true ∧
    StackMovable pushing 0 (pushing.astSet 0 0) 0 0 0x1000 true :=
  ⟨by decide +kernel, stack_movable _ _ _ _ _ _ _ (fun _ => rfl) rfl rfl (by decide) (by decide) (by decide)⟩
set_option maxRecDepth 100000 in
theorem witness_StackTransferServesTheCore_pop :
    (let d := popping; let a := d.astSet 0 0; onStack d (fun x op f => op.waits x && f.cmd.opcode != 0x245 &&
      astServed d a 0 0x3FFD (popNeeds d 0 a) a.res && decide (0 < a.hbmSize) && decide (a.res ≤ 0x1000))) = true ∧
    StackMovable popping 0 (popping.astSet 0 0) 0 (min (popNeeds popping 0 (popping.astSet 0 0)) ((popping.astSet 0 0).sp - (popping.astSet 0 0).hbmSize)) 0x1000 false :=
  ⟨by decide +kernel, stack_movable _ _ _ _ _ _ _ (fun _ => rfl) rfl rfl (by decide) (by decide) (by decide)⟩

def blockedTide (d : Dev) : Bool :=
  let p := d.port 0
  match p.tides[0]? with
  | none => true
  | some t => decide (p.mode = .draining) || decide (p.mode = .saving) || (decide (t.ent.kind < 4) && turnTaken d 0 64 t.ent.xfer t.order) ||
      !tideServed d 0 p t.slot t.ent
def tideOf (d : Dev) : TideRun := ((d.port 0).tides[0]?).getD { slot := 0, part := 0, index := 0, ent := entry 0 0 }
/-- A table word that an entry reads is poisoned. -/
def badTide (d : Dev) : Bool :=
  let t := tideOf d
  t.ent.semEn && semBad d 0 t.slot t.ent.sem || t.ent.kind == 1 && d.kvtPoison.contains (0, bits t.ent.arg 14 0)
theorem witness_TideEntryCompletes_none :
    (let d := running [] []; (d.port 0).tides[0]?.isNone && idles (.tideComplete 0 0) d) = true := by decide +kernel
theorem witness_TideEntryCompletes_poisonedTable :
    (let d := { tiding (entry 0 3) (running [] []) with semPoison := [(0, 0, 3)] }; let k := { tiding { entry 1 3 with arg := 1, dst := tmd 256 64 } (paged (slots 0x3FFE (running [] []))) with kvtPoison := [(0, 1)] }; !blockedTide d && badTide d && !blockedTide k && badTide k) = true := by decide +kernel
theorem witness_TideEntryCompletes_bounds :
    (let far := tmd 0x3FFF8 16; let ends := fun (e : TideEnt) (P : Region → Region → Bool) => let d := tiding e (running [] []); let p := d.port 0; !blockedTide d && !badTide d && P (tideRegion d 0 0 p e 0 e.src) (tideRegion d 0 0 p e 2 e.dst); ends { entry 0 3 with src := far } (fun src _ => decide (src.bound < src.len)) && ends { entry 0 3 with dst := far } (fun src dst => decide (src.len ≤ src.bound) && decide (dst.bound < src.len))) = true := by decide +kernel
theorem witness_TideEntryCompletes_poison :
    (let d0 := tiding (entry 0 3) (running [] []); let d := { d0 with mem := d0.mem.poison .tm 8 }; let t := tideOf d; let p := d.port 0; let src := tideRegion d 0 0 p t.ent 0 t.ent.src; !blockedTide d && !badTide d && decide (src.len ≤ src.bound) && decide (src.len ≤ (tideRegion d 0 0 p t.ent 2 t.ent.dst).bound) && src.poisoned d 0 src.len) = true := by decide +kernel
theorem witness_TideEntryCompletes_blocked :
    (let d0 := tiding (entry 0 3) (running [] []); let d := d0.setPort 0 { d0.port 0 with mode := .draining }; blockedTide d && (d.port 0).tides.length == 1 && idles (.tideComplete 0 0) d) = true := by decide +kernel
theorem witness_TideEntryCompletes_copy :
    (let d := tile [(0, 2, 77)] (tiding (entry 0 3) (running [] [])); let t := tideOf d; let p := d.port 0; let src := tideRegion d 0 0 p t.ent 0 t.ent.src; let dst := tideRegion d 0 0 p t.ent 2 t.ent.dst; !blockedTide d && !badTide d && t.ent.kind == 0 && movable d src dst src.len) = true := by decide +kernel
theorem witness_TideEntryCompletes_prefetch :
    (let d := tiding { entry 1 3 with arg := 1, dst := tmd 256 64 } (paged (slots 0x3FFE (running [] []))); !blockedTide d && !badTide d && (tideOf d).ent.kind == 1) = true := by decide +kernel
theorem witness_TideEntryCompletes_spill :
    (let d := tiding (entry 2 3) (slots 0x3FFE (running [] [])); !blockedTide d && !badTide d && (tideOf d).ent.kind == 2) = true := by decide +kernel
theorem witness_TideEntryCompletes_fetch :
    (let d := tiding (entry 3 3) (slots 0x3FFE (running [] [])); !blockedTide d && !badTide d && (tideOf d).ent.kind == 3) = true := by decide +kernel
theorem witness_TideEntryCompletes_other :
    (let d := tiding (entry 4 3) (slots 0x3FFE (running [] [])); !blockedTide d && !badTide d && (tideOf d).ent.kind == 4) = true := by decide +kernel
theorem witness_ReleasesAndHostFailures_none :
    (let d := running [] []; (d.peerRel.find? (fun e => e.2.1 == 0 && tokenRoute d (rowsAround d 0) e.1 0)).isNone && idles (.peerSemRelease 0) d) = true := by decide +kernel
theorem witness_ReleasesAndHostFailures_release :
    (let d := { (running [] []).setFld (R.JLINK_STAT 1 1) 0 0 1 with peerRel := [(0, 1, 0, 5), (1, 0, 0, 4095)], sem := [((0, 0, 4095), 65535)] }; (d.peerRel.find? (fun e => e.2.1 == 0 && tokenRoute d (rowsAround d 0) e.1 0)) == some (1, 0, 0, 4095) && !semBad d 0 0 4095 && after (.peerSemRelease 0) d (fun e => semCount e 0 0 4095 == 65535 && e.peerRel == [(0, 1, 0, 5)])) = true := by decide +kernel

theorem witness_ReleasesAndHostFailures_poisoned :
    (let d := { (running [] []).setFld (R.JLINK_STAT 1 1) 0 0 1 with peerRel := [(1, 0, 0, 4095)], semPoison := [(0, 0, 4095)] }; (d.peerRel.find? (fun e => e.2.1 == 0 && tokenRoute d (rowsAround d 0) e.1 0)) == some (1, 0, 0, 4095) && semBad d 0 0 4095 && ownerOf d 0 == some 0) = true := by decide +kernel

/-- A core whose SE_COPY reads the host tier. -/
def hostCopy (d0 : Nat) : Dev :=
  let c := { plain 0x180 0 0 4 with d0 := d0 }
  at0 .worked { cmd := c, worked := true } (running [c] [])
theorem witness_ReleasesAndHostFailures_reads :
    (let d := hostCopy (4 * 2 ^ 61); (match here d 0 0 with | some h => (match h.cs.flight with | some g => (match specOf g.cmd with | some op => readsHost d h 0 g op | none => false) | none => false) | none => false)) = true := by decide +kernel
theorem witness_ReleasesAndHostFailures_readsNot :
    (let d := hostCopy (tmd 0 16); !(match here d 0 0 with | some h => (match h.cs.flight with | some g => (match specOf g.cmd with | some op => readsHost d h 0 g op | none => false) | none => false) | none => false) && idles (.hostTierTimeout (.core core0) (.timedOut true)) d) = true := by decide +kernel
theorem witness_ReleasesAndHostFailures_tide :
    (let d := tiding { entry 0 3 with src := 4 * 2 ^ 61 } (running [] []); let t := tideOf d; (d.port 0).mode != Mode.draining && (d.port 0).mode != Mode.saving && tideReadsHost d 0 t.ent) = true := by decide +kernel
theorem witness_ReleasesAndHostFailures_tideNot :
    (let d := tiding (entry 0 3) (running [] []); let t := tideOf d; !tideReadsHost d 0 t.ent && idles (.hostTierTimeout (.tide 0 0) (.timedOut false)) d) = true := by decide +kernel
theorem witness_RampWindowSetsTheLevel_any :
    (let g := fun (f : Nat) => { (running [] []).setFld (R.PWR_GRANT 0) 4 0 16 with dpw := [(0, { pendingGrant := some 7, frac := f })], cores := [((0, 0), { cap := some (1, 2, 1) })] }; after (.rampWindow 0 16 5 9) (g 15) (fun e => e.fld (R.CORE_RAMP_LVL 0) 4 0 == 7 && e.fld (R.PWR_GRANT 0) 4 0 == 7 && (e.dp 0).pendingGrant == none && (e.dp 0).frac == 16 && e.rd64 (R.CORE_RAMP_STALL_LO 0) == 5 && decide ((e.cs 0 0).cap = some (capStep (1, 2, 1)))) && after (.rampWindow 0 16 0 0) (g 0) (fun e => e.fld (R.CORE_RAMP_LVL 0) 4 0 == 2 && (e.dp 0).frac == 1)) = true := by decide +kernel

theorem witness_RampWindowSetsTheLevel_cut :
    (let g := fun (q : DiePw) => { (running [] []).setFld (R.PWR_GRANT 0) 4 0 16 with dpw := [(0, q)] }; after (.rampWindow 0 16 0 0) (g { frac := 15, cut := true }) (fun e => (e.dp 0).frac == 8) && after (.rampWindow 0 16 0 0) (g { frac := 15, cut := true, cutTurned := true }) (fun e => (e.dp 0).frac == 16)) = true := by decide +kernel

/-- A flit of 256 bytes for die dest, on the link from die 1 to die 0, which is up. -/
def flit (vc dest : Nat) : Flit :=
  { vc := vc, xfer := 5, seq := 9, tag := 21, offset := 0, payload := List.replicate 4 7, dest := dest, space := .tm, addr := 4096, sender := (1, 0) }
def linked (f : Flit) (naks : Nat) (d : Dev) : Dev :=
  { d.setFld (R.JLINK_STAT 1 1) 0 0 1 with links := [((1, 1), { queue := [f], nakSeq := 9, naks := naks })] }
/-- Core 0 of die 0 in a step of collective 3. -/
def inStep (received : Nat) (hears : Option Nat) (decided : Bool) : Flight :=
  { cmd := plain 0x281 0 0 8, worked := true
    coll := some { id := 3, step := 0, p := 4, axisY := false, minus := false, size := 1024, tag := 21, wd := 0, cores := 1, xfer := 5,
                   sendsTo := some 1, hearsFrom := hears, received := received, unsent := 0, decided := decided } }
def stepping (received : Nat) (hears : Option Nat) (decided : Bool) : Dev :=
  at0 .worked (inStep received hears decided) (running [plain 0x281 0 0 8] [])
theorem witness_FlitIsWrittenPassedOrAskedAgain_down :
    (let d := running [] []; let k := (neighbour 0 0, opposite 0); !linkUp d k && idles (.linkFlitRx 0 0 none) d) = true := by decide +kernel
theorem witness_FlitIsWrittenPassedOrAskedAgain_empty :
    (let d := (running [] []).setFld (R.JLINK_STAT 1 1) 0 0 1; let k := (neighbour 0 0, opposite 0); linkUp d k && (nextFlit d 0 k).isNone && (d.link k).queue.isEmpty && intact (comingFlit d k).1 none && idles (.linkFlitRx 0 0 none) d) = true := by decide +kernel
set_option maxRecDepth 100000 in
theorem witness_FlitIsWrittenPassedOrAskedAgain_idleBad :
    (let d := (running [] []).setFld (R.JLINK_STAT 1 1) 0 0 1; let k := (neighbour 0 0, opposite 0); linkUp d k && (d.link k).queue.isEmpty && !intact (comingFlit d k).1 (some (3, 1))) = true := by decide +kernel
theorem witness_FlitIsWrittenPassedOrAskedAgain_write :
    (let d0 := linked (flit 2 0) 0 (running [] []); let d := { d0 with cores := [((1, 0), { phase := .worked, flight := some { cmd := bare 0x181, unacked := 2 } })] }; let k := (neighbour 0 0, opposite 0); linkUp d k && intact (comingFlit d k).1 none && (match nextFlit d 0 k with | some (f, _) => f.dest == 0 && f.vc != 1 | none => false)) = true := by decide +kernel
theorem witness_FlitIsWrittenPassedOrAskedAgain_step :
    (let d := linked (flit 1 0) 0 (stepping 0 (some 1) false); let k := (neighbour 0 0, opposite 0); linkUp d k && intact (comingFlit d k).1 none && (match nextFlit d 0 k with | some (f, _) => f.dest == 0 && f.vc == 1 && (match here d 0 0 with | some h => (match h.cs.flight with | some g => (match g.coll with | some cf => f.tag == cf.tag && decide (cf.received + f.payload.length ≤ cf.size) && decide (64 * f.offset + f.payload.length ≤ (rxRegion d h 0 0 g.cmd).bound) | none => false) | none => false) | none => false) | none => false)) = true := by decide +kernel
theorem witness_FlitIsWrittenPassedOrAskedAgain_early :
    (let d := linked (flit 1 0) 0 (running [] []); let k := (neighbour 0 0, opposite 0); linkUp d k && intact (comingFlit d k).1 none && (nextFlit d 0 k).isNone && (d.link k).queue == [flit 1 0] && after (.linkFlitRx 0 0 none) d (fun e => (e.link k).queue.isEmpty && (e.link k).held.length == 1)) = true := by decide +kernel
theorem witness_FlitIsWrittenPassedOrAskedAgain_pass :
    (let d := linked (flit 2 3) 0 (running [] []); let k := (neighbour 0 0, opposite 0); linkUp d k && intact (comingFlit d k).1 none && (match nextFlit d 0 k with | some (f, _) => f.dest != 0 | none => false)) = true := by decide +kernel
set_option maxRecDepth 100000 in
theorem witness_FlitIsWrittenPassedOrAskedAgain_nak :
    (let d := linked (flit 2 0) 14 (running [] []); let k := (neighbour 0 0, opposite 0); linkUp d k && !intact (comingFlit d k).1 (some (3, 1))) = true := by decide +kernel
set_option maxRecDepth 100000 in
theorem witness_FlitIsWrittenPassedOrAskedAgain_dead :
    (let d := linked (flit 2 0) 15 (running [] []); let k := (neighbour 0 0, opposite 0); linkUp d k && !intact (comingFlit d k).1 (some (3, 1)) && (d.link k).naks + 1 == 16) = true := by decide +kernel
theorem witness_MarginProbeReports_down :
    (let d := running [] []; !linkUp d (0, 0) && idles (.marginProbe 0 0 5) d) = true := by decide +kernel
theorem witness_MarginProbeReports_low :
    (let d := ((running [] []).setFld (R.JLINK_STAT 0 0) 0 0 1).setFld (R.JLINK_MARGIN_THR 0 0) 31 16 6; linkUp d (0, 0) && decide (5 < bits (d.rd (R.JLINK_MARGIN_THR 0 0)) 31 16) && after (.marginProbe 0 0 5) d (fun e => e.fld (R.JLINK_MARGIN 0 0) 31 16 == 5 && e.fld (R.JLINK_STAT 0 0) 2 2 == 1)) = true := by decide +kernel
theorem witness_MarginProbeReports_high :
    (let d := ((running [] []).setFld (R.JLINK_STAT 0 0) 0 0 1).setFld (R.JLINK_MARGIN_THR 0 0) 31 16 6; linkUp d (0, 0) && !decide (6 < bits (d.rd (R.JLINK_MARGIN_THR 0 0)) 31 16) && after (.marginProbe 0 0 6) d (fun e => e.fld (R.JLINK_MARGIN 0 0) 31 16 == 6 && e.fld (R.JLINK_STAT 0 0) 2 2 == 0)) = true := by decide +kernel
theorem witness_MemberPrepares_none :
    (let d := running [] []; (stepCores d 0 3).isEmpty && idles (.collPrepare 0 3) d) = true := by decide +kernel
/-- Every core the record of die 0's collective 3 names has done its part. -/
def memberReady (d : Dev) : Bool :=
  match stepCores d 0 3 with
  | [] => false
  | m :: rest => ((List.range 64).filter (fun c => bit m.2.2.cores c)).all (fun c => (m :: rest).any (fun q => q.1 == c && coreReady d 0 q))
theorem witness_MemberPrepares_early :
    (let d := stepping 0 (some 1) false; (stepCores d 0 3).length == 1 && (d.coll 0 3).prepared.isNone && !memberReady d && idles (.collPrepare 0 3) d) = true := by decide +kernel
theorem witness_MemberPrepares_ready :
    (let d := stepping 1024 (some 1) false; (stepCores d 0 3).length == 1 && (d.coll 0 3).prepared.isNone && memberReady d && after (.collPrepare 0 3) d (fun e => (e.coll 0 3).prepared == some 0 && (e.coll 1 3).due == [(0, 0)])) = true := by decide +kernel

/-- Die 0 is prepared in collective 3, holds DONE from the dies given, and die 1's is on its way. -/
def doneFrom (l : List Nat) (prepared : Option Nat) : Dev :=
  let d := stepping 1024 (some 1) false
  { (d.setFld (R.JLINK_STAT 1 1) 0 0 1) with colls := [((0, 3), { prepared := prepared, done := l.map (fun q => (q, 0)), due := [(1, 0)] })] }
def tokenIn (d : Dev) : Bool :=
  !(d.coll 0 3).nogoDue.contains 1 && tokenRoute d (rowsAround d 0) 1 0 && ((d.coll 0 3).due.find? (fun t => t.1 == 1)) == some (1, 0)
/-- The token of die 1 has arrived and changes nothing else. -/
def tokenHeld (d : Dev) : Bool :=
  after (.collDoneToken 0 3 1) d (fun e => decide (e = (controlToken d (rowsAround d 0) 1 0).setColl 0 3
    { d.coll 0 3 with due := [], done := (d.coll 0 3).done ++ [(1, 0)] }))
theorem witness_MemberCommitsOnTheLastDone_none :
    (let d := running [] []; ((d.coll 0 3).due.find? (fun t => t.1 == 1)).isNone && idles (.collDoneToken 0 3 1) d) = true := by decide +kernel
theorem witness_MemberCommitsOnTheLastDone_noRoute :
    (let d := (doneFrom [2, 3] (some 0)).setFld (R.JLINK_STAT 1 1) 0 0 0; !tokenRoute d (rowsAround d 0) 1 0 && idles (.collDoneToken 0 3 1) d) = true := by decide +kernel
theorem witness_MemberCommitsOnTheLastDone_more :
    (let d := doneFrom [2] (some 0); tokenIn d && (stepCores d 0 3).all (fun m => decide ((d.coll 0 3).done.length + 2 < m.2.2.p)) && !(stepCores d 0 3).isEmpty && tokenHeld d) = true := by decide +kernel
theorem witness_MemberCommitsOnTheLastDone_unprepared :
    (let d := doneFrom [2, 3] none; tokenIn d && (d.coll 0 3).prepared.isNone && tokenHeld d) = true := by decide +kernel
theorem witness_MemberCommitsOnTheLastDone_last :
    (let d := doneFrom [2, 3] (some 0); tokenIn d && (d.coll 0 3).prepared.isSome && !(stepCores d 0 3).isEmpty && (stepCores d 0 3).all (fun m => decide (m.2.2.p ≤ (d.coll 0 3).done.length + 2))) = true := by decide +kernel
theorem witness_TokensEndAStep_noNogo :
    (let d := { running [] [] with colls := [((0, 3), { nogoDue := [1] })] }; ((d.coll 0 3).nogoDue.find? (fun q => tokenRoute d (rowsAround d 0) q 0)).isNone && idles (.collNogo 0 3) d) = true := by decide +kernel
/-- A NOGO of die 1 has a route to die 0. -/
def nogoIn (d : Dev) : Dev := { d.setFld (R.JLINK_STAT 1 1) 0 0 1 with colls := [((0, 3), { nogoDue := [1] })] }
theorem witness_TokensEndAStep_nogoAlone :
    (let d := nogoIn (running [] []); ((d.coll 0 3).nogoDue.find? (fun q => tokenRoute d (rowsAround d 0) q 0)) == some 1 && (stepCores d 0 3).isEmpty && after (.collNogo 0 3) d (fun e => (e.coll 0 3).nogoDue.isEmpty && decide (e.mem = d.mem) && decide (e.cores = d.cores))) = true := by decide +kernel
theorem witness_TokensEndAStep_nogo :
    (let d := nogoIn (stepping 0 (some 1) false); ((d.coll 0 3).nogoDue.find? (fun q => tokenRoute d (rowsAround d 0) q 0)) == some 1 && !(stepCores d 0 3).isEmpty && ownerOf d 0 == some 0 && after (.collNogo 0 3) d (fun e => (e.cs 0 0).phase == .ready && (e.cs 0 0).rerun && (e.coll 0 3).prepared.isNone)) = true := by decide +kernel
theorem witness_TokensEndAStep_noFault :
    (let d := running [] []; let c := { d with colls := [((0, 3), { faultDue := [(1, [0, 63])] })] }; ((d.coll 0 3).faultDue.find? (fun t => t.1 == 1)).isNone && idles (.collFaultToken 0 3 1) d && !tokenRoute c (rowsAround c 0) 1 0 && idles (.collFaultToken 0 3 1) c) = true := by decide +kernel
theorem witness_TokensEndAStep_fault :
    (let d := { (running [] []).setFld (R.JLINK_STAT 1 1) 0 0 1 with colls := [((0, 3), { faultDue := [(1, [0, 63])] })] }; ((d.coll 0 3).faultDue.find? (fun t => t.1 == 1)) == some (1, [0, 63]) && tokenRoute d (rowsAround d 0) 1 0 && d.rd (R.FAULT_CODE (.core 0 63)) == 0 && after (.collFaultToken 0 3 1) d (fun e => bits (e.rd (R.FAULT_CODE (.core 0 63))) 15 0 == 0x0302)) = true := by decide +kernel
theorem witness_TokensEndAStep_noStep :
    (let d := running [] []; (uncommitted d 0 3).isEmpty && idles (.collTimeout 0 3 true) d) = true := by decide +kernel
theorem witness_TokensEndAStep_expired :
    (let d := stepping 0 (some 1) false; (uncommitted d 0 3).length == 1 && (here d 0 0).isSome && silentDie d 0 3 (uncommitted d 0 3) == some 1) = true := by decide +kernel
theorem witness_TokensEndAStep_nothingAwaited :
    (let d := doneFrom [1, 2, 3] (some 0); (uncommitted d 0 3).length == 1 && (here d 0 0).isSome && (silentDie d 0 3 (uncommitted d 0 3)).isNone) = true := by decide +kernel

/-- Partition 0 over row 0, up and idle; queue 1 of class 1 has the entries given, slot 0 a plan of class 1. -/
def queued (es : List QEntry) : Dev :=
  let d := hbm [(7, 1, 1)] (running [bare 0] [])
  let d1 := (d.setFld R.DIE_BOOT_STAT 11 8 15).setFld R.DIE_BOOT_STAT 3 0 8
  { d1.wr (R.HQ_CQ_SIZE 0) 3 with
    time := { started := true }
    ports := [(0, { port0 with mode := .idle, run := none, ranOnce := true
                               queues := [(1, { en := true, cls := 1, sizeM1 := 15, head := 15, tail := es.length % 16, entries := es })] })] }
def qe (op : Nat) : QEntry := ⟨op, 0, 1, 1, 77, 0, 0⟩
def q1 (d : Dev) : Queue := (d.port 0).queue 1
/-- The queue is enabled, the partition awake. -/
def served (d : Dev) : Bool := (d.port 0).valid && (q1 d).en && awake d 0
theorem witness_DoorbellHandsOverEntries_off :
    (let d0 := queued []; let d := d0.setPort 0 ((d0.port 0).setQueue 1 {}); (d.port 0).up && (d.port 0).valid && awake d 0 && !(q1 d).en && idles (.sqDoorbell 0 1 3 [qe 5]) d) = true := by decide +kernel
theorem witness_DoorbellHandsOverEntries_outside :
    (let d := queued []; (d.port 0).up && (d.port 0).valid && awake d 0 && (q1 d).en && decide (queueSize (q1 d) 1 ≤ 16) && after (.sqDoorbell 0 1 16 []) d (fun e => e.rd (R.HQ_REJ_CNT 0) == 1 && decide ((e.port 0).queues = (d.port 0).queues))) = true := by decide +kernel
theorem witness_DoorbellHandsOverEntries_some :
    (let d := queued [qe 5]; (d.port 0).up && (d.port 0).valid && awake d 0 && (q1 d).en && decide (1 < queueSize (q1 d) 1) && !(q1 d).loose && (1 + 16 - 15 % 16) % 16 == 2 && after (.sqDoorbell 0 1 1 [qe 1]) d (fun e => decide (q1 e = { q1 d with tail := 1, entries := [qe 5, qe 1] }) && decide ((e.port 0).jobs = (d.port 0).jobs))) = true := by decide +kernel
/-- Queue 0 of partition 0 is enabled and empty; entry 0 of the inline page is written, with an operation, for a plan of class 0 in slot 0. -/
def inlined (op : Nat) (run : Option Job) (m : Mode) : Dev :=
  let d := (hbm [(7, 1, 0)] (queued [])).wr ⟨.hq1 0, 0x40⟩ (0x10000 * 0x80 + op)
  d.setPort 0 { (d.port 0).setQueue 0 { en := true } with inl := inlineWords 0, run := run, mode := m }
def inlineSteps (d : Dev) : List QEntry := (inlineEntries d 0 0 1).filter (fun e => e.op == 1 && !entryBad d (d.port 0) 0 e)
def rings0 (d : Dev) : Bool :=
  (d.port 0).up && (d.port 0).valid && awake d 0 && ((d.port 0).queue 0).en && decide (1 < queueSize ((d.port 0).queue 0) 0) && !((d.port 0).queue 0).loose
theorem witness_DoorbellHandsOverEntries_inline :
    (let d := inlined 5 none .idle; rings0 d && (inlineSteps d).isEmpty && after (.sqDoorbell 0 0 1 []) d (fun e => (e.port 0).dbTime.isNone && ((e.port 0).queue 0).entries.length == 1)) = true := by decide +kernel
theorem witness_DoorbellHandsOverEntries_classZero :
    (let d := inlined 1 none .idle; rings0 d && !(inlineSteps d).isEmpty && (d.port 0).dbTime.isNone && after (.sqDoorbell 0 0 1 []) d (fun e => (e.port 0).dbTime == some 0)) = true := by decide +kernel
theorem witness_DoorbellHandsOverEntries_drain :
    (let d := inlined 1 (some job) .running; rings0 d && !(inlineSteps d).isEmpty && (d.port 0).dbTime.isNone && !(d.port 0).run.any (fun j => j.cls == 0) && after (.sqDoorbell 0 0 1 []) d (fun e => (e.port 0).mode == .draining)) = true := by decide +kernel
theorem witness_DoorbellHandsOverEntries_unread :
    (let d0 := inlined 1 none .idle; let d := d0.setPort 0 ((d0.port 0).setQueue 0 { (d0.port 0).queue 0 with tail := 1, entries := [qe 1], head := 0 }); rings0 d && c0Waiting d (d.port 0)) = true := by decide +kernel
theorem witness_QueueEntriesAreRead_empty :
    (let d := queued []; (d.port 0).valid && (q1 d).entries.isEmpty && idles (.runStep 0 1) d && idles (.loadPlan 0 1) d && idles (.unloadPlan 0 1) d && idles (.setRecipe 0 1) d && idles (.fence 0 1) d) = true := by decide +kernel
theorem witness_QueueEntriesAreRead_other :
    (let d := queued [qe 5]; (d.port 0).valid && (q1 d).en && (q1 d).entries == [qe 5] && idles (.runStep 0 1) d && idles (.loadPlan 0 1) d && idles (.unloadPlan 0 1) d && idles (.setRecipe 0 1) d) = true := by decide +kernel
theorem witness_QueueEntriesAreRead_runStep :
    (let d := queued [qe 1]; (d.port 0).valid && (q1 d).en && ((q1 d).entries.map (·.op)) == [1] && (q1 d).entries.all (fun e => !entryBad d (d.port 0) 1 e)) = true := by decide +kernel
theorem witness_QueueEntriesAreRead_loadPlan :
    (let d := queued [{ qe 2 with slot := 0x81 }]; (d.port 0).valid && (q1 d).en && ((q1 d).entries.map (·.op)) == [2] && (q1 d).entries.all (fun e => !entryBad d (d.port 0) 1 e)) = true := by decide +kernel
theorem witness_QueueEntriesAreRead_unloadPlan :
    (let d := queued [qe 3]; (d.port 0).valid && (q1 d).en && ((q1 d).entries.map (·.op)) == [3] && (q1 d).entries.all (fun e => !entryBad d (d.port 0) 1 e)) = true := by decide +kernel
theorem witness_QueueEntriesAreRead_setRecipe :
    (let d := recipes (queued [{ qe 4 with arg0 := 1 }]); (d.port 0).valid && (q1 d).en && ((q1 d).entries.map (·.op)) == [4] && (q1 d).entries.all (fun e => !entryBad d (d.port 0) 1 e)) = true := by decide +kernel
theorem witness_QueueEntriesAreRead_fence :
    (let d := queued [qe 5]; (d.port 0).valid && (q1 d).en && ((q1 d).entries.map (·.op)) == [5] && (q1 d).entries.all (fun e => !entryBad d (d.port 0) 1 e)) = true := by decide +kernel
theorem witness_QueueEntriesAreRead_reject :
    (let d := queued [{ qe 1 with slot := 0x87 }]; (d.port 0).valid && (q1 d).en && (q1 d).entries.all (fun e => e.op == 1 && entryBad d (d.port 0) 1 e)) = true := by decide +kernel
theorem witness_QueueEntriesAreRead_reserved :
    (let d := queued [qe 6]; (q1 d).entries.all (fun e => decide (5 < e.op) && entryBad d (d.port 0) 1 e)) = true := by decide +kernel
theorem witness_RunStepStartsAnIdlePartition_resident :
    (let d := queued [qe 1]; (d.port 0).valid && (q1 d).en && (q1 d).entries.all (fun e => e.op == 1 && !entryBad d (d.port 0) 1 e) && (q1 d).entries.length == 1 && (d.port 0).mode == Mode.idle && (d.port 0).jobs.isEmpty && (d.port 0).recipes.isEmpty && (d.port 0).loads.isEmpty && (List.range 8).all (fun i => ((d.port 0).slot i).susp.isNone) && awake d 0 && (d.port 0).dbTime.isNone && !c0Waiting d (d.port 0) && resident (d.port 0) 0) = true := by decide +kernel
theorem witness_RunStepStartsAnIdlePartition_switch :
    (let d0 := queued [qe 1]; let d := d0.setPort 0 { d0.port 0 with ranOnce := false }; (d.port 0).valid && (q1 d).en && (q1 d).entries.all (fun e => e.op == 1 && !entryBad d (d.port 0) 1 e) && (q1 d).entries.length == 1 && (d.port 0).mode == Mode.idle && (d.port 0).jobs.isEmpty && (d.port 0).recipes.isEmpty && (d.port 0).loads.isEmpty && (List.range 8).all (fun i => ((d.port 0).slot i).susp.isNone) && awake d 0 && (d.port 0).dbTime.isNone && !c0Waiting d (d.port 0) && !resident (d.port 0) 0) = true := by decide +kernel

/-- A whole image at BAR2 offset 0x100000 of a partition of no row, the smallest there is: no core has a stream. -/
def whole (d0 : Dev) : Dev :=
  let a := 0x100000
  let d := d0.setPort 0 { d0.port 0 with rows := 0 }
  hbm [(a, 4, 0x3258444D), (a + 4, 2, 1), (a + 7, 1, 1), (a + 0x80, 8, 0x1000), (a + 0x88, 8, 0x2000)] d
def loading (f : Dev → Dev) : Dev := f (queued [{ qe 2 with slot := 0x81, arg0 := 0x100000, arg1 := 0x4000 }])
theorem witness_LoadPlanChecksTheImage_good :
    (let d := loading whole; let g : Img := ⟨d, d.port 0, 0x100000, 0x4000⟩; (d.port 0).valid && (q1 d).en && (q1 d).entries.all (fun e => e.op == 2 && !entryBad d (d.port 0) 1 e) && (q1 d).entries.length == 1 && (d.port 0).mode == Mode.idle && (d.port 0).jobs.isEmpty && (d.port 0).recipes.isEmpty && (d.port 0).loads.isEmpty && (List.range 8).all (fun i => ((d.port 0).slot i).susp.isNone) && awake d 0 && g.check == none) = true := by decide +kernel
theorem witness_LoadPlanChecksTheImage_bad :
    (let d := loading id; let g : Img := ⟨d, d.port 0, 0x100000, 0x4000⟩; (d.port 0).valid && (q1 d).en && (q1 d).entries.all (fun e => e.op == 2 && !entryBad d (d.port 0) 1 e) && (q1 d).entries.length == 1 && (d.port 0).mode == Mode.idle && (d.port 0).jobs.isEmpty && (d.port 0).recipes.isEmpty && (d.port 0).loads.isEmpty && (List.range 8).all (fun i => ((d.port 0).slot i).susp.isNone) && awake d 0 && g.check == some 0x0106 && d.rd (R.FAULT_CODE (.hq0 0)) == 0) = true := by decide +kernel
theorem witness_UnloadAndRecipe_unload :
    (let d := queued [qe 3]; (d.port 0).valid && (q1 d).en && (q1 d).entries.all (fun e => e.op == 3 && !entryBad d (d.port 0) 1 e) && (q1 d).entries.length == 1 && (d.port 0).mode == Mode.idle && (d.port 0).jobs.isEmpty && (d.port 0).recipes.isEmpty && (d.port 0).loads.isEmpty && (List.range 8).all (fun i => ((d.port 0).slot i).susp.isNone) && awake d 0) = true := by decide +kernel
theorem witness_UnloadAndRecipe_recipe :
    (let d := recipes (queued [{ qe 4 with arg0 := 0x201 }]); (d.port 0).valid && (q1 d).en && (q1 d).entries.all (fun e => e.op == 4 && !entryBad d (d.port 0) 1 e) && (q1 d).entries.length == 1 && (d.port 0).mode == Mode.idle && (d.port 0).jobs.isEmpty && (d.port 0).recipes.isEmpty && (d.port 0).loads.isEmpty && (List.range 8).all (fun i => ((d.port 0).slot i).susp.isNone) && awake d 0 && (d.port 0).recipes.isEmpty && recipeEntry d (d.port 0) ((d.port 0).slot 0) 1 == some 12296) = true := by decide +kernel
theorem witness_UnloadAndRecipe_waits :
    (let g := fun (m : Mode) (moon : Nat) => let d0 := (recipes (queued [{ qe 4 with arg0 := 0x201 }])).setFld (R.PWR_MOON 0) 2 0 moon; d0.setPort 0 { d0.port 0 with mode := m }; let run := g .saving 0; let asleep := g .idle 2; !awake asleep 0 && (q1 run).entries.all (fun e => e.op == 4 && !entryBad run (run.port 0) 1 e) && [run, asleep].all (fun d => after (.setRecipe 0 1) d (fun e => (e.port 0).recipes == [⟨1, 15, 0, 1, 2, true, 77⟩]))) = true := by decide +kernel
theorem witness_FencesAndRingHeads_complete :
    (let d := queued [qe 5]; served d && (q1 d).entries == [qe 5] && (q1 d).outstanding.isEmpty && !cqFull d 0 && (d.port 0).cqWait.isEmpty && !(d.port 0).cqLoose && decide (d.rd (R.HQ_CQ_TAIL 0) < cqSize d 0)) = true := by decide +kernel
theorem witness_FencesAndRingHeads_wait :
    (let d0 := queued [qe 5]; let d := d0.setPort 0 ((d0.port 0).setQueue 1 { q1 d0 with outstanding := [14] }); served d && (q1 d).entries == [qe 5] && !(q1 d).outstanding.isEmpty) = true := by decide +kernel
theorem witness_FencesAndRingHeads_head :
    (let d := queued []; (d.port 0).cqWait.isEmpty && after (.hqCqHead 0 65535) d (fun e => e.rd (R.HQ_CQ_HEAD 0) == 65535 && decide (e.port 0 = d.port 0) && decide (e.mem = d.mem))) = true := by decide +kernel
theorem witness_FencesAndRingHeads_drain :
    (let d0 := (queued []).wr (R.HQ_CQ_HEAD 0) 1; let d := d0.setPort 0 { d0.port 0 with cqWait := [⟨0, 1, false, 0, 9, 5, none⟩] }; let d1 := d.wr (R.HQ_CQ_HEAD 0) 2; (d.port 0).cqWait.length == 1 && cqFull d 0 && !cqFull d1 0 && !(d.port 0).cqLoose) = true := by decide +kernel

/-- Partition 0 in a mode of its job, with every core of its row in a phase. -/
def stepIn (m : Mode) (ph : Phase) (left : Nat) : Dev :=
  let d := queued []
  { d.setPort 0 { d.port 0 with mode := m, run := some { job with left := left } } with
    cores := if ph = .ready then [] else (coresOf [0, 1, 2, 3]).map (fun k => (k, { phase := ph })) }
/-- A cheap point 0 that lists core 0 of row 0 at boundary 0; every other core of the row has ended. -/
def cheap (d : Dev) : Dev :=
  { hbm [(0x120, 8, 0x10000), (0x128, 8, 8), (0x40, 2, 1)] d with
    cores := (coresOf [0, 1, 2, 3]).map (fun k => (k, { phase := if k = (0, 0) then .ready else .ended })) }
def stoodAt (d : Dev) : Bool :=
  let p := d.port 0
  (coresOf (partDies p)).all (fun k => (d.cs k.1 k.2).phase == .ended || ((d.cs k.1 k.2).phase == .ready &&
    yieldStands d p (p.slot 0) (relCore p k.1 k.2) (d.cs k.1 k.2).boundary))
theorem witness_StepsEndSuspendAndResume_notOn :
    (let d := stepIn .idle .ended 1; !onDies (d.port 0)) = true := by decide +kernel
theorem witness_StepsEndSuspendAndResume_notEnded :
    (let d := stepIn .running .ready 1; !allEnded d (d.port 0)) = true := by decide +kernel
theorem witness_StepsEndSuspendAndResume_end :
    (let d := stepIn .running .ended 2; (d.port 0).run == some { job with left := 2 } && onDies (d.port 0) && allEnded d (d.port 0)) = true := by decide +kernel
theorem witness_StepsEndSuspendAndResume_noYield :
    (let d := stepIn .running .ready 1; (d.port 0).mode != Mode.yielding) = true := by decide +kernel
theorem witness_StepsEndSuspendAndResume_yield :
    (let d0 := cheap (stepIn .yielding .ready 1); let d := d0.setPort 0 { d0.port 0 with yieldPoint := some 0 }; (d.port 0).run == some job && (d.port 0).mode == Mode.yielding && !allEnded d (d.port 0) && stoodAt d && (saveLive d 0 0).toOption.isSome) = true := by decide +kernel
theorem witness_StepsEndSuspendAndResume_notStood :
    (let d := stepIn .yielding .ready 1; (d.port 0).run == some job && !stoodAt d && idles (.yieldSuspended 0) d) = true := by decide +kernel
theorem witness_StepsEndSuspendAndResume_inFlight :
    (let d := at0 .worked { cmd := bare 0, worked := true } (stepIn .draining .ready 1); (d.port 0).run == some job && (d.cs 0 0).flight.isSome && idles (.eclipseDrainEnd 0) d) = true := by decide +kernel
theorem witness_StepsEndSuspendAndResume_noDrain :
    (let d := stepIn .running .ready 1; (d.port 0).mode != Mode.draining) = true := by decide +kernel
theorem witness_StepsEndSuspendAndResume_drain :
    (let d := stepIn .draining .ready 1; let p := d.port 0; p.run == some job && p.mode == Mode.draining && !allEnded d p && (coresOf (partDies p)).all (fun k => (d.cs k.1 k.2).flight.isNone && !mayIssue d ⟨0, p, job, p.slot 0, d.cs k.1 k.2⟩ k.1 k.2)) = true := by decide +kernel
theorem witness_StepsEndSuspendAndResume_noSave :
    (let d := stepIn .running .ready 1; (d.port 0).mode != Mode.saving) = true := by decide +kernel
theorem witness_StepsEndSuspendAndResume_save :
    (let d := stepIn .saving .ready 1; (d.port 0).run == some job && (d.port 0).mode == Mode.saving && (saveLive d 0 0).toOption.isSome) = true := by decide +kernel

/-- The partition's dies are being restored to a step, a suspended one when resuming. -/
def restoring (m : Mode) (resuming : Bool) : Dev :=
  let d := stepIn m .ended 1
  d.setPort 0 { d.port 0 with resuming := resuming, slots := [(0, { loaded := true, len := 0x10000,
                                                                    susp := if resuming then some ⟨job, [((0, 5), { idx := 3 })], [], [], []⟩ else none })] }
theorem witness_RestoresBeginAndWatchdogsEnd_idle :
    (let d := stepIn .running .ended 1; (d.port 0).mode != Mode.restoring && (d.port 0).mode != Mode.switching) = true := by decide +kernel
theorem witness_RestoresBeginAndWatchdogsEnd_eclipseRestoreDone :
    (let d := restoring .restoring false; (d.port 0).run == some job && (d.port 0).mode == Mode.restoring && (d.port 0).resuming == false && (restoreTarget d 0).toOption.isSome) = true := by decide +kernel
theorem witness_RestoresBeginAndWatchdogsEnd_planSwitchRestoreDone :
    (let d := restoring .switching false; (d.port 0).run == some job && (d.port 0).mode == Mode.switching && (d.port 0).resuming == false && (restoreTarget d 0).toOption.isSome) = true := by decide +kernel
theorem witness_RestoresBeginAndWatchdogsEnd_resumeSuspended :
    (let d := restoring .switching true; (d.port 0).run == some job && (d.port 0).mode == Mode.switching && (d.port 0).resuming == true && (restoreTarget d 0).toOption.isSome && ((d.port 0).slot 0).susp.any (fun v => v.cores.all (fun k => (partDies (d.port 0)).contains k.1.1))) = true := by decide +kernel
theorem witness_RestoresBeginAndWatchdogsEnd_off :
    (let d := stepIn .running .ended 1; d.fld (R.HQ_STEP_WD 0) 15 0 == 0) = true := by decide +kernel
theorem witness_RestoresBeginAndWatchdogsEnd_expired :
    (let d := (stepIn .running .ended 1).wr (R.HQ_STEP_WD 0) 1; onDies (d.port 0) && (coresOf (partDies (d.port 0))).any (fun k => hasIssued (d.cs k.1 k.2)) && d.fld (R.HQ_STEP_WD 0) 15 0 != 0 && allEnded d (d.port 0)) = true := by decide +kernel

theorem witness_RestoresBeginAndWatchdogsEnd_notIssued :
    (let d := (stepIn .running .ready 1).wr (R.HQ_STEP_WD 0) 1; onDies (d.port 0) && !(coresOf (partDies (d.port 0))).any (fun k => hasIssued (d.cs k.1 k.2)) && idles (.stepWatchdog 0 false) d) = true := by decide +kernel
/-- A plan whose live-range table keeps the first 64 bytes of core 0, and whose save area lies at 1 MiB. -/
def kept (d0 : Dev) : Dev :=
  let d := d0.setPort 0 { d0.port 0 with saves := [(0, 0x100000, 0x200000)], slots := [(0, { loaded := true, len := 0x10000, saved := some [] })] }
  hbm [(0x110, 8, 0x9000), (0x118, 8, 24), (0x9000, 8, 1), (0x9008, 4, 0), (0x900C, 4, 9), (0x9010, 4, 0), (0x9014, 4, 1), (0x100000, 2, 7)] d
theorem witness_RestoresBeginAndWatchdogsEnd_saved :
    (let d := kept (restoring .switching false); let b := { d with mem := d.mem.poison .hbm 0x100000 }; (match restoreTarget d 0 with | .ok e => e.mem.byte .tm 0 == 7 | _ => false) && (match restoreTarget b 0 with | .error code => code == 0x0502 | _ => false)) = true := by decide +kernel

/-- Start-up is over: four rows up, four ports up, the inputs in range, no link trained. -/
def live : Dev :=
  let d := ((({} : Dev).setFld R.DIE_BOOT_STAT 3 0 8).setFld R.DIE_BOOT_STAT 11 8 15).setFld R.PWR_STAT 1 0 3
  let d1 := ((d.wr R.PWR_IN_V 50000).setFld R.PART_ROW_OK 3 0 15).wr R.PART_ALLOW 0xFFFF
  { d1 with time := { started := true }, boot := { row := 4, pwrgd := true }, ports := (List.range 4).map (fun n => (n, { up := true })) }
/-- The links of row 0 are up. -/
def rowLinked (d : Dev) : Dev := (List.range 4).foldl (fun (x : Dev) die => (List.range 4).foldl (fun (y : Dev) p => y.setFld (R.JLINK_STAT die p) 0 0 1) x) d
/-- Partition 0 over row 0, with nothing loaded. -/
def owned : Dev := live.setPort 0 { up := true, valid := true, rows := 1 }
theorem witness_PartitionIsGrantedOrRejected_down :
    (let d : Dev := {}; !(d.port 0).up && idles (.partCreate 0 1) d) = true := by decide +kernel
theorem witness_PartitionIsGrantedOrRejected_rejected :
    (let d := live; (d.port 0).up && partStatus d 0 5 == 3 && after (.partCreate 0 5) d (fun e => e.fld (R.HQ_PART_RESP 0) 3 0 == 3 && e.rd R.PART_REJECT_CNT == 1 && decide (e.port 0 = d.port 0))) = true := by decide +kernel
theorem witness_PartitionIsGrantedOrRejected_granted :
    (let d := { rowLinked live with sem := [((3, 0, 0), 9)], cores := [((0, 0), { idx := 4 })] }; (d.port 0).up && partStatus d 0 1 == 2) = true := by decide +kernel
theorem witness_PartitionIsTornDownAndCleared_down :
    (let d : Dev := {}; !(d.port 0).up && idles (.partRelease 0) d && idles (.functionLevelReset 0) d && idles (.hotReset 0) d && idles (.hostLinkDown 0) d && idles (.d3hotEntry 0) d) = true := by decide +kernel
theorem witness_PartitionIsTornDownAndCleared_none :
    (let d := live; (d.port 0).up && !(d.port 0).valid && after (.functionLevelReset 0) d (fun e => decide (e.port 0 = d.port 0)) && after (.d3hotEntry 0) d (fun e => (e.port 0).d3hot) && after (.hostLinkDown 0) d (fun e => !(e.port 0).valid && decide (e.regs = d.regs))) = true := by decide +kernel
theorem witness_PartitionIsTornDownAndCleared_gone :
    (let d := { owned with sec := { keys := [0, 1, 2, 3, 4] } }; (d.port 0).up && (d.port 0).valid) = true := by decide +kernel
theorem witness_PartitionIsTornDownAndCleared_noClear :
    (let d := live; (d.port 0).clearing == 0 && idles (.partClearDone 0) d) = true := by decide +kernel
theorem witness_PartitionIsTornDownAndCleared_clear :
    (let d := tile [(7, 1, 9)] (hbm [(7, 1, 9), (hbmBase 4, 1, 8)] (live.setPort 0 { up := true, clearing := 1 })); (d.port 0).clearing != 0) = true := by decide +kernel
theorem witness_PartitionIsTornDownAndCleared_d3hot :
    (let d := owned.setPort 0 { owned.port 0 with d3hot := true }; (d.port 0).up && (d.port 0).valid && !(d.port 0).reached && idles (.partRelease 0) d && after (.functionLevelReset 0) d (fun e => !(e.port 0).valid)) = true := by decide +kernel
theorem witness_BarTwoReachesHbm_down :
    (let d : Dev := {}; !(d.port 0).up && idles (.bar2Read 0 0 4) d && idles (.bar2Write 0 0 [1]) d) = true := by decide +kernel
theorem witness_BarTwoReachesHbm_outside :
    (let d := owned; let p := d.port 0; p.up && !barOk p (.read (4 * hbmStride) 1) && !barOk p (.write (hbmSize - 1) [1, 2]) && after (.bar2Read 0 (4 * hbmStride) 1) d (fun e => decide (e = d.emit (.unsupportedRequest 0))) && after (.bar2Write 0 (hbmSize - 1) [1, 2]) d (fun e => decide (e = d.emit (.unsupportedRequest 0)))) = true := by decide +kernel
theorem witness_BarTwoReachesHbm_new :
    (let d := owned.setFld (R.PWR_MOON 0) 2 0 4; let p := d.port 0; p.up && p.valid && barOk p (.read 0 4) && rowUp d 0 && moonState d 0 == 4 && !awake d 0 && after (.bar2Read 0 0 4) d (fun e => (e.port 0).waking && e.rd (R.PWR_MOON_UR 0) == 1)) = true := by decide +kernel
theorem witness_BarTwoReachesHbm_waits :
    (let d := owned.setFld (R.PWR_MOON 0) 2 0 3; let p := d.port 0; p.up && p.valid && barOk p (.read 0 4) && rowUp d 0 && moonState d 0 == 3 && !awake d 0 && after (.bar2Read 0 0 4) d (fun e => (e.port 0).waking && (e.port 0).bar.length == 1)) = true := by decide +kernel
theorem witness_BarTwoReachesHbm_read :
    (let d := hbm [(hbmBase 3 + hbmSize - 4, 4, 0x01020304)] owned; let p := d.port 0; let a := 3 * hbmStride + (hbmSize - 4); p.up && p.valid && rowUp d 0 && moonState d 3 != 4 && awake d 0 && barOk p (.read a 4) && spanServed d 0x3FFE false ⟨.hbm, hbmBase 3 + hbmSize - 4, 4⟩ && (d.port 0).bar.isEmpty && !inUse d ⟨.hbm, hbmBase 3 + hbmSize - 4, 4⟩ && !bit (d.rd (R.IRQ_EN (.hbmc 3 0))) 3 && !bit (d.rd (R.IRQ_EN (.hbmc 3 1))) 3 && after (.bar2Read 0 a 4) d (fun e => e.out == .tlp 0 [4, 3, 2, 1] false :: d.out && decide (e.mem = d.mem) && decide (e.ports = d.ports))) = true := by decide +kernel
theorem witness_BarTwoReachesHbm_write :
    (let d := owned; let p := d.port 0; let a := 3 * hbmStride + (hbmSize - 4); p.up && p.valid && rowUp d 0 && moonState d 3 != 4 && awake d 0 && (stepSlots p).isEmpty && barOk p (.write a [4, 3, 2, 1]) && spanServed d 0x3FFE false ⟨.hbm, hbmBase 3 + hbmSize - 4, 4⟩ && (d.port 0).bar.isEmpty && !inUse d ⟨.hbm, hbmBase 3 + hbmSize - 4, 4⟩ && after (.bar2Write 0 a [4, 3, 2, 1]) d (fun e => decide (e.mem = d.mem.write .hbm (hbmBase 3 + hbmSize - 4) [4, 3, 2, 1]) && decide (e.ports = d.ports))) = true := by decide +kernel
theorem witness_CreationFreesThePageTable_create :
    (let d := { (rowLinked live).wr (R.KVT_MISS_CNT 3) 5 with kvt := [((3, 9), { state := 1 })], taken := [(3, 4)] }; (d.port 0).up && partStatus d 0 1 == 2) = true := by decide +kernel
theorem witness_CreationFreesThePageTable_reset :
    (let d := { owned.wr (R.KVT_MISS_CNT 3) 5 with kvt := [((3, 9), { state := 1 })], taken := [(3, 4)] }; (d.port 0).up && (d.port 0).valid) = true := by decide +kernel
theorem witness_CreationFreesThePageTable_load :
    (let d := { loading whole with kvt := [((3, 9), { state := 1 })], taken := [(3, 4)] }; (d.port 0).valid && (q1 d).en && (q1 d).entries.all (fun e => e.op == 2 && !entryBad d (d.port 0) 1 e) && (q1 d).entries.length == 1 && (d.port 0).mode == Mode.idle && (d.port 0).jobs.isEmpty && (d.port 0).recipes.isEmpty && (d.port 0).loads.isEmpty && (List.range 8).all (fun i => ((d.port 0).slot i).susp.isNone) && awake d 0) = true := by decide +kernel

/-- A device that runs with partition 0 owning row 0; what a power event finds. -/
def drops (i : Instr) (P : Dev → Dev → Bool) (d : Dev) : Bool := after i d (fun e => P d e)
def sixteen (x : Nat) : List Nat := List.replicate 16 x
def changing (q : DiePw) : Dev := owned.setDp 0 q
theorem witness_ArbiterCycleRespectsThermalCaps_idle :
    (let d : Dev := {}; let b := { owned with pw := { owned.pw with brownout := true } }; d.time.started == false && b.pw.brownout) = true := by decide +kernel
theorem witness_ArbiterCycleRespectsThermalCaps_cycle :
    (let d := owned.setFld (R.PWR_GRANT 0) 20 16 16; d.time.started && !d.pw.brownout && rowUp d 0) = true := by decide +kernel
theorem witness_PowerSamplesAndEnergyAreKept_idle :
    (let d : Dev := {}; let c := { owned with pw := { owned.pw with calRunning := true } }; d.time.started == false && !d.pw.calRunning && c.pw.calRunning) = true := by decide +kernel
theorem witness_PowerSamplesAndEnergyAreKept_bucket :
    (let d := { owned with pw := { owned.pw with bucket := 1000 } }; d.time.started && !d.pw.brownout) = true := by decide +kernel
theorem witness_PowerSamplesAndEnergyAreKept_calibrate :
    (let d := { owned with pw := { owned.pw with calRunning := true } }; d.pw.calRunning && !d.pw.brownout && decide (200000 ≤ 200000)) = true := by decide +kernel
theorem witness_PowerSamplesAndEnergyAreKept_energy :
    (let d := owned.setFld R.PWR_CAL 31 16 0x4000; let dies := List.replicate 16 [(DieWork.other, 600), (.step 3, 400)]; let parts := (List.range 16).flatMap (fun i => (dies[i]?.getD []).map (fun e => (energyKey d i e.1, 0x4000 * e.2))); d.time.started && !d.pw.brownout && decide (((5 * 2 ^ 14 : Nat) : Int) + d.pw.ioCarry ≤ ((parts.foldl (fun (x : Nat) e => x + e.2) 0 : Nat) : Int)) && after (.energyUpdate 5 dies) d (fun e => look 0 e.pw.carry 3 + 1000 * 2 ^ 14 * e.rd64 (energyReg 3) == 4 * 0x4000 * 400)) = true := by decide +kernel
theorem witness_PowerSamplesAndEnergyAreKept_ioShare :
    (let d := owned.setFld R.PWR_CAL 31 16 0x4000; let dies := List.replicate 16 [(DieWork.step 3, 5)]; let parts := (List.range 16).flatMap (fun i => (dies[i]?.getD []).map (fun e => (energyKey d i e.1, 0x4000 * e.2))); d.time.started && !d.pw.brownout && decide (((parts.foldl (fun (x : Nat) e => x + e.2) 0 : Nat) : Int) < ((2000 * 2 ^ 14 : Nat) : Int) + d.pw.ioCarry) && !(parts.filter (fun e => e.1 != 36)).isEmpty && (parts.filter (fun e => e.1 == 36)).length == 12) = true := by decide +kernel
theorem witness_PointsAndDroops_notOwner :
    (let d := owned; ownerOf d 4 != some 0 && idles (.pwrDiePt 0 4 3) d) = true := by decide +kernel
theorem witness_PointsAndDroops_during :
    (let d := changing { changing := true }; ownerOf d 0 == some 0 && (d.dp 0).changing) = true := by decide +kernel
theorem witness_PointsAndDroops_same :
    (let d := changing {}; ownerOf d 0 == some 0 && !(d.dp 0).changing && d.fld (R.PWR_DIE_PT 0) 18 16 == 7) = true := by decide +kernel
theorem witness_PointsAndDroops_begins :
    (let d := changing {}; ownerOf d 0 == some 0 && !(d.dp 0).changing && decide (moonState d 0 < 2) && d.fld (R.PWR_DIE_PT 0) 18 16 != 0) = true := by decide +kernel
theorem witness_PointsAndDroops_handover :
    (let d := changing { changing := true }; (d.dp 0).changing && !(d.dp 0).handed && !(d.dp 0).droop) = true := by decide +kernel
theorem witness_PointsAndDroops_done :
    (let d := changing { changing := true, handed := true, droop := true, target := 7 }; (d.dp 0).changing && (d.dp 0).handed && decide (d.fld (R.PWR_DIE_PT 0) 18 16 ≤ (d.dp 0).target) && (d.dp 0).nextPoint.isNone) = true := by decide +kernel
theorem witness_PointsAndDroops_paused :
    (let d := changing { changing := true, handed := true, droop := true, target := 6 }; (d.dp 0).droop && decide ((d.dp 0).target < d.fld (R.PWR_DIE_PT 0) 18 16)) = true := by decide +kernel
theorem witness_PointsAndDroops_droop :
    (let d := changing {}; !(d.dp 0).droop && decide (moonState d 0 < 3) && rowUp d 0) = true := by decide +kernel
theorem witness_PointsAndDroops_droopEnds :
    (let d := changing { droop := true, cut := true }; (d.dp 0).droop) = true := by decide +kernel

/-- A die of row 1, which no partition has, in a moon state; or partition 0 waking. -/
def moon (die m : Nat) : Dev := owned.setFld (R.PWR_MOON die) 2 0 m
/-- Die 0 of partition 0 in Quarter, with all that New needs: any exit latency tolerated and a place to save. -/
def towardNew : Dev :=
  let d := (List.range 4).foldl (fun (x : Dev) i => x.wr (R.PWR_LAT_TOL i) 40000) ((moon 0 3).wr (R.PWR_NEW_BASE_LO 0) 4096)
  tile [(0, 1, 9)] (d.setPort 0 { d.port 0 with slots := [] })
theorem witness_MoonStatesDeepenAndEnd_not :
    (let d := moon 4 2; !mayDescend d 4) = true := by decide +kernel
theorem witness_MoonStatesDeepenAndEnd_deeper :
    (let d := moon 4 1; mayDescend d 4) = true := by decide +kernel
theorem witness_MoonStatesDeepenAndEnd_new :
    (let d := towardNew; mayDescend d 0 && moonState d 0 + 1 == 4) = true := by decide +kernel
theorem witness_MoonStatesDeepenAndEnd_wakeNot :
    (let d := moon 4 1; ownerOf d 4 == none && ownerOf d 0 == some 0 && awake d 0) = true := by decide +kernel
theorem witness_MoonStatesDeepenAndEnd_wake :
    (let d := moon 0 1; ownerOf d 0 == some 0 && !awake d 0) = true := by decide +kernel
theorem witness_MoonStatesDeepenAndEnd_exit :
    (let d0 := moon 0 1; let d := d0.setPort 0 { d0.port 0 with waking := true }; (d.port 0).valid && (d.port 0).waking) = true := by decide +kernel
theorem witness_RowFaultStopsOneRow_down :
    (let d : Dev := {}; !rowUp d 3 && idles (.rowPhaseFail 3) d) = true := by decide +kernel
theorem witness_RowFaultStopsOneRow_owned :
    (let d := owned; rowUp d 0 && ownerOf d 0 == some 0) = true := by decide +kernel
theorem witness_RowFaultStopsOneRow_free :
    (let d := owned; rowUp d 3 && ownerOf d 12 == none) = true := by decide +kernel

def darkNow (e : Dev) : Bool :=
  e.pw.brownout && bootStep e == 3 && e.boot.row == 0 && !(e.port 0).valid && !(e.port 0).up && (e.port 0).run.isNone && !rowUp e 0 && !rowUp e 3
def once (b : Bool) (d : Dev) : Dev := { d with pw := { d.pw with belowOnce := b } }
def browned (b : Bool) (d : Dev) : Dev := { d with pw := { d.pw with brownout := b } }
theorem witness_InputsAreWatched_off :
    (let d : Dev := {}; bootStep d == 0 && !d.pw.brownout && !d.time.started && !rowUp d 0 && idles (.inputSample 60000 5) d && idles .mainInputRestored d && idles (.auxInputChange true true) d && idles (.pwrOvertemp 0) d && idles (.coolantSample 1 2 3 true 4) d) = true := by decide +kernel
theorem witness_InputsAreWatched_low :
    (let d := owned; bootStep d != 0 && !d.pw.belowOnce && decide (46000 ≤ d.rd R.PWR_IN_V)) = true := by decide +kernel
theorem witness_InputsAreWatched_high :
    (let d := once true owned; bootStep d != 0 && decide (44000 ≤ 44000)) = true := by decide +kernel
theorem witness_InputsAreWatched_brownout :
    (let d := once true owned; bootStep d != 0 && d.pw.belowOnce && d.boot.row != 0 && !d.pw.brownout) = true := by decide +kernel
theorem witness_InputsAreWatched_restored :
    (let d := browned true owned; let b := (browned true owned).wr R.PWR_IN_V 54001; d.pw.brownout && inRange d && !inRange b) = true := by decide +kernel
theorem witness_InputsAreWatched_aux :
    (let d := owned; bootStep d != 0) = true := by decide +kernel
theorem witness_InputsAreWatched_overtemp :
    (let d := hbm [(7, 1, 5), (hbmBase 12 + 7, 1, 5)] (tile [(7, 1, 5)] owned); rowUp d 0 && rowUp d 3) = true := by decide +kernel
theorem witness_InputsAreWatched_coolant :
    (let d := owned; d.time.started && !bit (coolBits 30 40 false) 3 && bit (coolBits 30 0 true) 3) = true := by decide +kernel

/-- Start-up at a step, the rows below one up. -/
def startAt (step row : Nat) : Dev :=
  let d := (({} : Dev).setFld R.DIE_BOOT_STAT 3 0 step).setFld R.DIE_BOOT_STAT 11 8 (2 ^ row - 1)
  let d1 := (d.setFld R.PWR_STAT 1 0 3).wr R.PWR_IN_V 46000
  { d1 with time := { started := 3 ≤ step }, boot := { row := row, pwrgd := 8 ≤ step } }
theorem witness_InputsAreWatched_overvoltEarly :
    (let d := startAt 1 0; bootStep d != 0 && d.boot.row == 0 && after .pwrOvervolt d (fun e => e.pw.brownout && e.fld R.PWR_STAT 3 3 == 1)) = true := by decide +kernel
/-- A running device whose row 3 has stopped. -/
def stopped3 : Dev := owned.setFld R.DIE_BOOT_STAT 11 8 7
theorem witness_StartUpGoesStepByStep_offAux :
    (let d : Dev := {}; bootStep d == 0) = true := by decide +kernel
theorem witness_StartUpGoesStepByStep_outOfTurn :
    (let d := startAt 8 4; bootStep d == 8 && rowUp d 3 && decide (bootStep d ≠ 5)) = true := by decide +kernel
theorem witness_StartUpGoesStepByStep_boot :
    (let d := startAt 1 0; bootStep d == 1) = true := by decide +kernel
theorem witness_StartUpGoesStepByStep_cutOff :
    (let d := { startAt 1 0 with sec := { cutOff := true } }; bootStep d == 1 && d.sec.cutOff) = true := by decide +kernel
theorem witness_StartUpGoesStepByStep_mpTp :
    (let d := startAt 2 0; bootStep d == 2 && !d.time.started) = true := by decide +kernel
theorem witness_StartUpGoesStepByStep_row :
    (let d := startAt 3 0; let d3 := startAt 3 3; bootStep d == 3 && d.boot.row == 0 && !d.pw.brownout && inRange d && d3.boot.row == 3) = true := by decide +kernel
theorem witness_StartUpGoesStepByStep_hbm :
    (let d := hbm [(7, 1, 5)] (startAt 4 4); bootStep d == 4 && rowUp d 0) = true := by decide +kernel
theorem witness_StartUpGoesStepByStep_links :
    (let d := startAt 5 4; bootStep d == 5) = true := by decide +kernel
theorem witness_StartUpGoesStepByStep_test :
    (let d := startAt 6 4; bootStep d == 6) = true := by decide +kernel
theorem witness_StartUpGoesStepByStep_ports :
    (let d := startAt 7 4; bootStep d == 7) = true := by decide +kernel
theorem witness_StartUpGoesStepByStep_bringup :
    (let d := stopped3; bootStep d == 8 && !rowUp d 3 && ownerOf d 12 == none && inRange d && (List.range 4).all (fun n => !bit (d.port n).clearing 3)) = true := by decide +kernel

def again (cause : Nat) (e : Dev) : Bool := bootStep e == 1 && e.rd R.DIE_RESET_CAUSE == cause && !(e.port 0).valid && !(e.port 0).up && !rowUp e 0
theorem witness_ResetsBeginStartUpAgain_off :
    (let d : Dev := {}; bootStep d == 0 && idles .resetN d && idles .mpLockstep d && idles .mgmtReset d) = true := by decide +kernel
theorem witness_ResetsBeginStartUpAgain_early :
    (let d := startAt 2 0; let r := startAt 15 0; bootStep d == 2 && bootStep r == 15) = true := by decide +kernel
theorem witness_ResetsBeginStartUpAgain_again :
    (let d := owned; let t := startAt 3 0; bootStep d == 8 && bootStep t == 3) = true := by decide +kernel

def asked (n : Nat) (code : Nat) (d e : Dev) : Bool :=
  (match e.out.head? with | some (.spdm m c _) => m == n && c == code | _ => false) && decide (e.mem = d.mem) && e.rd (R.SEC_SPDM_CNT n) == 1
def stage (k : Nat) : Dev := owned.setPort 0 { owned.port 0 with spdm := k }
theorem witness_AttestationAnswersInOrder_down :
    (let d : Dev := {}; !(d.port 0).up && idles (.getVersion 0) d && idles (.getCapabilities 0) d && idles (.negotiateAlgorithms 0) d && idles (.getDigests 0) d && idles (.getCertificate 0 0) d && idles (.challenge 0 0) d && idles (.getMeasurements 0 255) d && idles (.spdmUnsupported 0 5) d) = true := by decide +kernel
theorem witness_AttestationAnswersInOrder_early :
    (let d0 := stage 0; let d2 := stage 2; (d0.port 0).up && decide ((d0.port 0).spdm < 1) && decide ((d2.port 0).spdm < 3)) = true := by decide +kernel
theorem witness_AttestationAnswersInOrder_inTurn :
    (let d0 := stage 0; let d1 := stage 1; let d2 := stage 2; let d3 := stage 3; (d3.port 0).up && decide (3 ≤ (d3.port 0).spdm)) = true := by decide +kernel
theorem witness_AttestationAnswersInOrder_refused :
    (let d := stage 3; (d.port 0).up) = true := by decide +kernel
theorem witness_DebugAndProtectedMemory_off :
    (let d : Dev := {}; !d.time.started && ownerOf d 0 != some 0 && d.fld (R.SEC_PROT_STAT 0) 1 0 != 1 && idles .debugUnlock d && idles (.protApply 0 0) d && idles (.protApplyDone 0) d) = true := by decide +kernel
theorem witness_DebugAndProtectedMemory_refused :
    (let d := owned; d.time.started && (d.port 0).valid && !d.sec.unlocked) = true := by decide +kernel
theorem witness_DebugAndProtectedMemory_protected :
    (let d := { owned with sec := { owned.sec with unlocked := true, inForce := [(0, [(3, 1)])] } }; d.sec.unlocked && pageProtected d 0 3 && !pageProtected d 0 4 && d.rd (R.FAULT_CODE .secG) == 0) = true := by decide +kernel
theorem witness_DebugAndProtectedMemory_answers :
    (let d : Dev := {}; !d.sec.unlocked) = true := by decide +kernel
theorem witness_DebugAndProtectedMemory_protBusy :
    (let d := { owned with sec := { owned.sec with unlocked := true } }; canWrite d (.host 0) (.secD 0) && !darkPage d (.secD 0) && !copiedPage d (.secD 0) && d.fld (R.SEC_PROT_STAT 0) 1 0 != 1 && d.sec.unlocked) = true := by decide +kernel
theorem witness_DebugAndProtectedMemory_prot :
    (let d := owned.wr (R.SEC_PROT 0 15) 0x10000; let p := d.port 0; canWrite d (.host 0) (.secD 0) && !darkPage d (.secD 0) && !copiedPage d (.secD 0) && d.fld (R.SEC_PROT_STAT 0) 1 0 != 1 && p.run.isNone && !(partDies p).any (codecServes d) && !d.sec.unlocked) = true := by decide +kernel
theorem witness_DebugAndProtectedMemory_protAgain :
    (let d := owned.setFld (R.SEC_PROT_STAT 0) 1 0 1; canWrite d (.host 0) (.secD 0) && !darkPage d (.secD 0) && !copiedPage d (.secD 0) && d.fld (R.SEC_PROT_STAT 0) 1 0 == 1) = true := by decide +kernel
theorem witness_DebugAndProtectedMemory_protCopied :
    (let d := owned.setFld (R.PWR_MOON 0) 2 0 3; canWrite d (.host 0) (.secD 0) && !darkPage d (.secD 0) && copiedPage d (.secD 0) && idles (.protApply 1 0) d && idles (.protApply 0 4) d) = true := by decide +kernel
theorem witness_DebugAndProtectedMemory_protDone :
    (let d0 := hbm [(0x1FFFFF, 1, 5), (0x200000, 1, 6)] owned; let d := { d0 with sec := { d0.sec with applying := [(0, [(0, 1)])] } }.setFld (R.SEC_PROT_STAT 0) 1 0 1; d.fld (R.SEC_PROT_STAT 0) 1 0 == 1) = true := by decide +kernel

/-- Host 0 may update; a session of so many bytes is open. -/
def allowed (total : Nat) : Dev := (owned.setFld R.FWU_ALLOW 3 0 1).wr (R.FWU_TOTAL 0) total
def session (v : Session) (d : Dev) : Dev := { d with sec := { d.sec with session := some v } }
def handing (todo handed : List Proc) (ok : List Image) (d : Dev) : Dev :=
  { d with sec := { d.sec with activating := some 0, todo := todo, handed := handed, okImages := ok } }
theorem witness_UpdateSessionsAndActivation_down :
    (let d : Dev := {}; !(d.port 0).up && d.sec.session.isNone && d.sec.todo.isEmpty && d.sec.handed.isEmpty && d.sec.activating.isNone && idles (.fwuOpen 0) d && idles (.fwuWrite 0 none) d && idles (.fwuVerify 0) d && idles (.fwuActivate 0) d && idles .fwuEraseDone d && idles .fwuBlockDone d && idles (.fwuAbort 0) d && idles (.imageHandover .mp) d && idles (.imageHandover (.dc 3)) d && idles (.healthConfirm ⟨.mp, true⟩) d && idles (.healthConfirm ⟨.mp, false⟩) d && idles .healthTimeout d) = true := by decide +kernel
theorem witness_UpdateSessionsAndActivation_openRefused :
    (let b := session { owner := 1, total := 4096 } (allowed 4096); let a := (allowed 4096).setFld R.FWU_ALLOW 3 0 14; let z := allowed 0; let l := allowed 67104769; (b.port 0).up && b.sec.session.isSome && !bit (a.fld R.FWU_ALLOW 3 0) 0 && z.fld (R.FWU_TOTAL 0) 25 0 == 0 && decide (67104768 < l.fld (R.FWU_TOTAL 0) 25 0)) = true := by decide +kernel
theorem witness_UpdateSessionsAndActivation_open :
    (let d := allowed 67104768; (d.port 0).up && d.sec.session.isNone && d.sec.activating.isNone && bit (d.fld R.FWU_ALLOW 3 0) 0 && d.fld (R.FWU_TOTAL 0) 25 0 == 67104768) = true := by decide +kernel
theorem witness_UpdateSessionsAndActivation_erase :
    (let v : Session := { owner := 0, total := 4096, erasing := true }; let d := session v (allowed 4096); d.sec.session == some v && v.erasing && v.programming.isNone) = true := by decide +kernel
theorem witness_UpdateSessionsAndActivation_block :
    (let v : Session := { owner := 0, total := 4096, erasing := false, programming := some 0 }; let d := session v (allowed 4096); d.sec.session == some v && !v.erasing && v.programming == some 0) = true := by decide +kernel
theorem witness_UpdateSessionsAndActivation_write :
    (let v : Session := { owner := 0, total := 4096, erasing := false }; let d := (session v (allowed 4096)).wr (R.FWU_LEN 0) 4096; let bs : List Byte := List.replicate 4096 7; (d.port 0).up && d.sec.session == some v && v.owner == 0 && !v.erasing && v.programming.isNone && d.sec.activating.isNone && d.fld (R.FWU_OFF 0) 9 0 == 0 && d.fld (R.FWU_LEN 0) 16 0 == 4096) = true := by decide +kernel
theorem witness_UpdateSessionsAndActivation_verifyBad :
    (let v : Session := { owner := 0, total := 4096, erasing := false, blocks := [0] }; let d := (session v (allowed 4096)).setFld R.SEC_STAT 5 5 1; let x := { d with mem := d.mem.write .flash (slotBase (idleSlot d)) [0, 0, 0, 0] }; decide (blockCount v.total ≤ v.blocks.length) && !bundleOk x (idleSlot x)) = true := by decide +kernel
theorem witness_UpdateSessionsAndActivation_errors :
    (let v : Session := { owner := 0, total := 70000, erasing := false, blocks := [0] }; let d := (session v (allowed 70000)).wr (R.FWU_LEN 0) 4464; let at1 := d.wr (R.FWU_OFF 0) 1; let o := session { v with owner := 1 } (allowed 70000); let e := session { v with erasing := true } (allowed 70000); let answers := fun (i : Instr) (x : Dev) (c : Nat) => after i x (fun y => y.fld (R.FWU_STATUS 0) 15 8 == c && decide (y.sec = x.sec) && decide (y.mem = x.mem)); (d.port 0).reached && answers (.fwuWrite 0 none) o 0x10 && answers (.fwuVerify 0) o 0x10 && answers (.fwuActivate 0) o 0x10 && answers (.fwuWrite 0 none) d 0x13 && answers (.fwuWrite 0 none) (at1.wr (R.FWU_LEN 0) 4465) 0x12 && answers (.fwuWrite 0 none) at1 0x14 && answers (.fwuVerify 0) d 0x15 && idles (.fwuWrite 0 none) e && idles (.fwuVerify 0) e && idles (.fwuActivate 0) e) = true := by decide +kernel
theorem witness_UpdateSessionsAndActivation_activateNot :
    (let v : Session := { owner := 0, total := 4096, erasing := false }; let d := session v (allowed 4096); (d.port 0).up && d.sec.session == some v && !v.verified) = true := by decide +kernel

/-- Image entries in the flash: every type once in the slot that does not run, with digests; no image in the other. -/
def tables (d : Dev) : Dev :=
  let slot := fun (b : Bool) => (List.range 5).flatMap (fun i => (0, if b == idleSlot d then i + 1 else 9) :: (List.range 48).map (fun j => (16 + j, b2n (j == 0))) |>.map
    (fun e => (slotBase b + 0x40 + 64 * i + e.1, BitVec.ofNat 8 e.2)))
  { d with mem := { d.mem with flash := slot false ++ slot true } }
theorem witness_UpdateSessionsAndActivation_activate :
    (let v : Session := { owner := 0, total := 4096, erasing := false, blocks := [0], verified := true }; let d := tables (session v (allowed 4096)); (d.port 0).up && d.sec.session == some v && v.verified && [Image.mp, .tp, .stp, .qp, .dc].all (fun j => imageDigest d (idleSlot d) j != imageDigest d (runSlot d) j) && (List.range 16).all (fun die => decide (moonState d die < 3))) = true := by decide +kernel
theorem witness_UpdateSessionsAndActivation_hand :
    (let d := handing [.tp, .mp] [.dc 0] [] (allowed 4096); leftToHand d == [.tp, .mp] && mayConfirm d .dc && !mayConfirm d .tp && after (.imageHandover .tp) d (fun e => e.sec.handed == [.dc 0, .tp])) = true := by decide +kernel
theorem witness_UpdateSessionsAndActivation_commit :
    (let d0 := handing [] [.tp, .mp] [.tp] (session { owner := 0, total := 4096 } (allowed 4096)); let d := { d0 with mem := (d0.mem.write .flash (slotBase (idleSlot d0) + 4) [1, 0, 0, 0]).write .flash (slotBase (idleSlot d0) + 8) [3, 0] }; d.sec.activating.isSome && (leftToHand d).isEmpty && mayConfirm d .mp && d.sec.handed.all (fun j => [Image.mp, .tp].contains (procImage j)) && bundleSvn d (idleSlot d) == 3) = true := by decide +kernel
theorem witness_UpdateSessionsAndActivation_timeout :
    (let d := handing [.mp] [.dc 0] [] (session { owner := 0, total := 4096 } (allowed 4096)); d.sec.activating.isSome) = true := by decide +kernel
theorem witness_UpdateSessionsAndActivation_unhealthy :
    (let d := handing [.tp, .mp] [.dc 0] [] (session { owner := 0, total := 4096 } (allowed 4096)); let z := { d with sec := { d.sec with activating := none } }; mayConfirm d .dc && d.sec.activating.isSome && mayConfirm z .dc && idles (.healthConfirm ⟨.dc, false⟩) z && after (.healthConfirm ⟨.dc, false⟩) d (fun e => e.sec.activating.isNone && e.rd R.FWU_FALLBACK_CNT == 1)) = true := by decide +kernel
theorem witness_UpdateSessionsAndActivation_abort :
    (let v : Session := { owner := 0, total := 4096, erasing := false }; let d := session v (allowed 4096); d.sec.session == some v && v.owner == 0 && d.sec.activating.isNone && (d.port 0).up && idles (.fwuAbort 1) d) = true := by decide +kernel

/-- DEVTIME runs at 2 s with a source in force. -/
def timed (src : Nat) (t : TimeSt) : Dev :=
  { (({} : Dev).setFld R.TIME_CFG 1 0 src).setFld R.TIME_STAT 5 5 1 with time := { t with started := true, now := 2 * oneSecond, elapsed := 5 } }
def uses (d : Dev) (ref10 : Bool) : Bool := slaved d || refSrc d == 2 || (refSrc d == 1 && ref10)
/-- A set that an edge of the inputs applies is armed. -/
def armed (d : Dev) : Bool := d.time.armed.isSome && refSrc d != 0 && !slaved d
def slave (t : TimeSt) : Dev := (timed 0 { t with ptp := [(0, 1)] }).setFld R.TIME_PTP_CFG 1 0 1
theorem witness_TimeFollowsItsReference_off :
    (let d : Dev := {}; !d.time.started && d.fld R.TIME_STAT 5 5 == 0 && d.time.servo != .holdover && d.time.armed.isNone && idles (.refEdge (.pps true) 5 true) d && idles (.refEdge .master 5 true) d && idles (.refLoss ⟨true, true⟩) d && idles (.refLoss ⟨false, false⟩) d && idles .todArm d && idles (.devtimeReload 16) d && idles .holdoverExpiry d && idles .todApply d) = true := by decide +kernel
theorem witness_TimeFollowsItsReference_irregular :
    (let d := timed 1 {}; d.time.started) = true := by decide +kernel
theorem witness_TimeFollowsItsReference_unused :
    (let d := timed 1 {}; let z := timed 3 {}; d.time.started && !uses d false && !uses z true && !armed d && !armed z) = true := by decide +kernel
theorem witness_TimeFollowsItsReference_sets :
    (let d := timed 2 { armed := some 7 }; d.time.started && armed d && !armed (timed 0 { armed := some 7 })) = true := by decide +kernel
theorem witness_TimeFollowsItsReference_slew :
    (let d := timed 2 { servo := .locking, edges := 299 }; d.time.started && uses d false && !inHandover d && !armed d) = true := by decide +kernel
theorem witness_TimeFollowsItsReference_edge :
    (let d := timed 1 { servo := .locking, edges := 59 }; uses d true && !inHandover d && !armed d) = true := by decide +kernel
theorem witness_TimeFollowsItsReference_step :
    (let d := timed 2 {}; let h := d.setFld R.TIME_STAT 8 8 1; uses d false && !inHandover d && !armed d && uses h false && inHandover h && !armed h) = true := by decide +kernel
theorem witness_TimeFollowsItsReference_foreign :
    (let d := slave {}; d.time.started && slaved d && uses d false && !inHandover d && !armed d && after (.refEdge .master 5 true) d (fun e => e.fld R.TIME_STAT 6 6 == 1)) = true := by decide +kernel
theorem witness_TimeFollowsItsReference_loss :
    (let d := timed 2 { servo := .locked }; let z := timed 0 { servo := .locked }; d.time.started && d.fld R.TIME_STAT 5 5 == 1 && z.fld R.TIME_STAT 5 5 == 1 && refSrc d != 0 && !slaved d && refSrc z == 0 && after (.refLoss ⟨false, true⟩) d (fun e => e.time.servo == .holdover) && after (.refLoss ⟨true, true⟩) d (fun e => e.time.servo == .locking) && after (.refLoss ⟨false, true⟩) z (fun e => e.time.servo == .locked)) = true := by decide +kernel
theorem witness_TimeFollowsItsReference_armedLoss :
    (let d := timed 2 { servo := .locked, armed := some 7 }; let z := (timed 2 {}).setFld R.TIME_STAT 5 5 0; d.time.started && d.time.armed == some 7 && refSrc d != 0 && d.fld R.TIME_STAT 5 5 == 1 && after (.refLoss ⟨true, true⟩) d (fun e => e.time.now == 7 * oneSecond) && after (.refLoss ⟨true, true⟩) z (fun e => decide (e = z.setFld R.TIME_STAT 4 4 1)) && idles (.refEdge .master 5 true) d) = true := by decide +kernel
theorem witness_TimeFollowsItsReference_holdover :
    (let d := timed 2 { servo := .holdover }; let l := timed 2 { servo := .locking, before := .holdover }; d.time.servo == .holdover && l.time.before == .holdover) = true := by decide +kernel
theorem witness_TimeFollowsItsReference_tod :
    (let d := (timed 2 {}).wr R.TIME_TOD_SEC_LO 7; let h := d.setFld R.TIME_STAT 8 8 1; let a := timed 2 { armed := some 7 }; d.time.started && !inHandover d && inHandover h && a.time.armed == some 7) = true := by decide +kernel

/-- PTP port 0 is a master that may transmit. -/
def master (t : TimeSt) : Dev :=
  ((((timed 2 t).setFld R.TIME_STAT 6 6 1).setFld (R.NET_STAT 0) 0 0 1).wr (R.NET_IP 0) 5).setFld R.TIME_PTP_CFG 1 0 1
def isMaster (d : Dev) : Bool := ptpOn d 0 && ptpState d 0 == 0
def told (kind : Nat) (body : Dev → List Nat) (d : Dev) (e : Dev) : Bool :=
  e.out.head? == some (.ptp 0 kind (d.rd (R.NET_VLAN 0)) (d.rd (R.NET_IP 0)) (d.fld (R.NET_PTP_DSCP 0) 5 0) (body d))
def foreignMaster : Announce := ⟨0, 1, 1, 1, 6, 0x21, 0, 1, 0, 0x20⟩
theorem witness_PulsesAndPtpMessages_pps :
    (let d := timed 0 { lastPps := 1 }; let z := timed 0 { lastPps := 2 }; d.time.started && d.time.lastPps != d.time.now / oneSecond && z.time.lastPps == z.time.now / oneSecond) = true := by decide +kernel
theorem witness_PulsesAndPtpMessages_frame :
    (let d := timed 0 { fp := 0x88, lastFp := 119 }; let z := timed 0 { fp := 0x88, lastFp := 120 }; let o := timed 0 { fp := 8 }; frameIndex d.time.fp d.time.now == some 120 && d.time.started && frameIndex o.time.fp o.time.now == none) = true := by decide +kernel
theorem witness_PulsesAndPtpMessages_ends :
    (let d := timed 0 { ppsHigh := true }; d.time.ppsHigh && !d.time.fpHigh) = true := by decide +kernel
theorem witness_PulsesAndPtpMessages_silent :
    (let d := timed 0 {}; !isMaster d) = true := by decide +kernel
theorem witness_PulsesAndPtpMessages_sends :
    (let d := master {}; let o := (master {}).setFld R.TIME_CFG 4 4 1; isMaster d && !d.time.loose && !slaved d && decide (look 0 d.time.dreqUsed 0 < 8192) && o.fld R.TIME_CFG 4 4 == 1 && d.fld R.TIME_CFG 4 4 == 0) = true := by decide +kernel
theorem witness_PulsesAndPtpMessages_dropped :
    (let d := master { dreqUsed := [(0, 8192)] }; let z := master { dreqUsed := [(0, 8191)] }; isMaster d && decide (8192 ≤ look 0 d.time.dreqUsed 0) && decide (look 0 z.time.dreqUsed 0 < 8192)) = true := by decide +kernel
theorem witness_PulsesAndPtpMessages_notHeard :
    (let d := timed 0 {}; let a := { foreignMaster with domain := 9 }; !netUp d 0 && a.domain != (master {}).fld R.TIME_PTP_CFG 31 24) = true := by decide +kernel
theorem witness_PulsesAndPtpMessages_timeout :
    (let d := { master {} with time := { (master {}).time with foreign := [⟨0, foreignMaster, 2⟩] } }; !inHandover d && d.time.foreign.any (fun f => f.port == 0) && !d.time.foreign.any (fun f => f.port == 1)) = true := by decide +kernel
theorem witness_PulsesAndPtpMessages_handover :
    (let d := { (handing [.tp] [] [] (master {})).setFld R.DIE_BOOT_STAT 3 0 8 with time := (master {}).time }; let h := { (handing [] [.tp] [] (master {})).setFld R.TIME_STAT 8 8 1 with time := (master {}).time }; d.time.started && tpNext d && inHandover h && !tpNext h) = true := by decide +kernel

/-- Die 0 of partition 0 with frame rings of YUV slots, or with none. -/
def ringed (w h pitch : Nat) : Dev :=
  let d := (owned.wr (R.PXE_IN_GEOM 0) (0x10000 * h + w)).wr (R.PXE_OUT_GEOM 0) (0x10000 * h + w)
  let d1 := (d.wr (R.PXE_IN_PITCH 0) pitch).wr (R.PXE_OUT_PITCH 0) pitch
  (d1.setFld (R.PXE_IN_CTRL 0) 0 0 1).setFld (R.PXE_OUT_CTRL 0) 0 0 1
/-- The encode stream's output, live bit and slice field, and rate code 8. -/
def encodes (out live slices : Nat) (d : Dev) : Dev :=
  (((d.setFld (R.VC_ENC_CFG 0) 25 24 out).setFld (R.VC_ENC_CFG 0) 31 31 live).setFld (R.VC_ENC_CFG 0) 17 12 slices).setFld (R.VC_ENC_CFG 0) 21 18 8
def encOn (st : Nat) (d : Dev) : Dev := setEnc d 0 st
/-- Port 0 of the network is up with address 5; the stream of die 0 sends to group 9, port 7 there. -/
def netted (path : Nat × Bool) : Dev :=
  let d := encOn 2 (encodes 1 0 0 (ringed 128 128 256))
  let d1 := ((d.setFld (R.NET_STAT 0) 0 0 1).wr (R.NET_IP 0) 5).wr (R.VC_ENC_DST_A 0) 9
  { d1.setFld (R.VC_ENC_UDP 0) 31 16 7 with codec := [(0, { paths := [(0, path)] })] }
theorem witness_StreamsAttachListenAndEnd_notOwned :
    (let d := owned; ownerOf d 4 == none && idles (.vcDecAttach 4) d && idles (.vcDecDetach 4) d && idles (.vcEncAttach 4) d && idles (.vcEncDetach 4) d) = true := by decide +kernel
theorem witness_StreamsAttachListenAndEnd_decoder :
    (let d := ringed 128 128 256; let f := ringed 128 128 192; let z := ringed 126 128 256; let o := setDec d 0 2; ownerOf d 0 == some 0 && !streamOn (decStatus d 0) && sizeOk 128 128 && streamOn (decStatus o 0)) = true := by decide +kernel
theorem witness_StreamsAttachListenAndEnd_encoder :
    (let d := encodes 0 1 7 (ringed 128 128 256); let f := encodes 0 1 7 (ringed 128 128 192); let z := encodes 0 1 8 (ringed 128 128 256); let n := { d with codec := [(1, { reserved := List.range 9 })] }; !streamOn (encStatus d 0) && encConfigOk d 0 (outRing d 0) && decide (8 ≤ (freeCores d).length) && decide ((freeCores n).length < 8)) = true := by decide +kernel
theorem witness_StreamsAttachListenAndEnd_encoderEnds :
    (let d := encOn 2 (encodes 0 0 0 (ringed 128 128 256)); let q := { d with codec := [(0, { encQueue := [{ slot := 0, at' := 0 }] })] }; streamOn (encStatus d 0) && (nextToCode d 0).isNone && (nextToCode q 0).isSome && after (.vcEncDetach 0) q (fun e => encStatus e 0 == 7)) = true := by decide +kernel
theorem witness_StreamsAttachListenAndEnd_reach :
    (let d := ringed 128 128 256; let c := d.setFld (R.PWR_MOON 0) 2 0 3; let u := d.setPort 0 { d.port 0 with d3hot := true }; let there := fun (x : Dev) => canWrite x (.host 0) (.vcD 0) && !darkPage x (.vcD 0); ownerOf d 0 == some 0 && there d && !copiedPage d (.vcD 0) && ownerOf c 0 == some 0 && there c && copiedPage c (.vcD 0) && ownerOf u 0 == some 0 && !there u && idles (.vcDecAttach 0) u && idles (.vcDecDetach 0) u && idles (.vcEncAttach 0) u && idles (.vcEncDetach 0) u) = true := by decide +kernel
theorem witness_StreamsAttachListenAndEnd_listen :
    (let d := netted (1, false); let h := netted (3, true); streamOn (encStatus d 0) && (pathOf d 0 0).1 == 1 && (pathOf h 0 0).2) = true := by decide +kernel
theorem witness_StreamsAttachListenAndEnd_frames :
    (let d := netted (1, false); let o := owned.setFld (R.NET_STAT 0) 0 0 1; netUp d 0 && d.rd (R.NET_IP 0) == 5 && ((joined d 0).filter (fun q => pathGroup d q 0 == 9)) == [0] && d.fld (R.VC_ENC_UDP 0) 31 16 == 7 && netUp o 0 && o.rd (R.NET_IP 0) == 0 && (joined o 0).isEmpty && (joined d 0).all (fun q => pathGroup d q 0 != 8) && idles (.netFrameRx 0 (.group 9 8 5) false) d && idles (.netFrameRx 0 .pause true) d && idles (.netFrameRx 0 (.ptpMessage true) true) d && idles (.netFrameRx 0 (.ptpMessage false) false) d && after (.netFrameRx 0 (.ptpMessage false) true) d (fun e => e.rd (R.NET_RX_OVF 0) == 1) && after (.netFrameRx 0 (.group 9 7 6) false) d (fun e => e.fld (R.VC_ENC_STAT 0) 12 12 == 1) && after (.netFrameRx 0 (.group 9 8 6) false) d (fun e => e.fld (R.VC_ENC_STAT 0) 12 12 == 0 && e.rd (R.VC_MCAST_COLL_CNT 0) == 0 && e.rd (R.NET_RX_DISC 0) == 0) && after (.netFrameRx 0 (.group 9 7 6) false) d (fun e => e.rd (R.VC_MCAST_COLL_CNT 0) == 1 && e.rd (R.VC_MCAST_COLL_CNT 1) == 0) && after (.netFrameRx 0 (.igmpQuery true) false) o (fun e => e.rd (R.NET_RX_DISC 0) == 1)) = true := by decide +kernel
theorem witness_StreamsAttachListenAndEnd_link :
    (let d := owned; !netUp d 1 && d.boot.row != 0) = true := by decide +kernel

/-- The decode stream of die 0 has n bytes waiting; its next slot is free. -/
def decoding (n : Nat) : Dev :=
  let d := setDec (slots 0x3FFE (ringed 128 128 256)) 0 2
  { (((d.wr (R.VC_DEC_BS_SIZE 0) 0x10000).wr (R.VC_DEC_BS_WP 0) n).wr (R.VC_DEC_BS_BASE_LO 0) 0x100000).wr (R.PXE_IN_BASE_LO 0) 0x200000 with
    codec := [(0, { decCores := [0] })] }
def decReady (d : Dev) (used : Nat) : Bool :=
  let c := shareCores d
  let r := inRing d 0
  let v := c.vc 0
  let slot := v.decNext % r.count
  decide (decStatus d 0 = 2) && !v.decCores.isEmpty && decide (used ≠ 0) && decide (used ≤ bsWaiting d 0) &&
      decide (inSlot d 0 slot = .free) && edgeServed c (slotSpan r 0 slot :: bsSpans 0 (decPieces d 0 used)) && decide (moonState d 0 < 3)
/-- A Main 4:2:0 picture of 8 bits and level 5.2, of two samples. -/
def pic8 : DecPicture :=
  { av1 := false, profile := 1, level := 52, depth := 8, mono := false, w := 128, h := 128, used := 4, random := false, film := none, code := [255, 5] }
def decClean (d : Dev) : Bool := !spansPoisoned d (bsSpans 0 (decPieces d 0 4))
/-- A picture waits in output slot 0 for the stream's output. -/
def encoding (out st : Nat) : Dev :=
  { (encOn st (encodes out 0 0 (slots 0x3FFE (ringed 128 128 256)))).wr (R.PXE_OUT_BASE_LO 0) 0x200000 with
    codec := [(0, { encQueue := [{ slot := 0, at' := oneSecond }], outSlots := [(0, .withEncoder)], paths := [(0, 2, false)], encCores := [0] })] }
def encReady (d : Dev) : Bool :=
  let c := shareCores d
  streamOn (encStatus d 0) && (nextToCode d 0).isSome && spanServed c 0x3FFE false (slotSpan (outRing d 0) 0 0) &&
    spanServed d 0x3FFE false (slotSpan (outRing d 0) 0 0) && decide (moonState d 0 < 3) && (encLive d 0 || !(c.vc 0).encCores.isEmpty)
/-- The stream has a bitstream ring; whichever length the access unit has, it fits or it does not. -/
def withBs (live : Nat) (d : Dev) : Dev := ((d.wr (R.VC_ENC_BS_SIZE 0) 0x10000).wr (R.VC_ENC_BS_BASE_LO 0) 0x100000).setFld (R.VC_ENC_CFG 0) 31 31 live
def clean0 (d : Dev) : Bool := !spansPoisoned d (frameGroups (outRing d 0) 0 0).flatten
def poison0 (d : Dev) : Dev := { d with mem := d.mem.poison .hbm 0x200000 }
/-- The stream's path may send on port 0 of the network. -/
def sending (d : Dev) : Dev := d.setFld (R.NET_STAT 0) 0 0 1
/-- While no partition runs a plan every edge transfer has its slots. -/
theorem edges_served (d : Dev) (h : ∀ n, n < 4 → (d.port n).run = none) (ss : List Span) : edgeServed d ss = true := by
  have h0 : ∀ die, planOn d die = none := by
    intro die
    unfold planOn
    cases ho : ownerOf d die with
    | none => rfl
    | some n =>
      have := h n (List.mem_range.mp (List.mem_of_find?_eq_some ho))
      simp [this]
  simp [edgeServed, spanServed, channelServes, slotTableAt, h0]
  intro s _
  split <;> simp
theorem witness_PicturesPassThroughTheRings_decodeNot :
    (let d := decoding 3; !decReady d 4) = true := by decide +kernel
theorem witness_PicturesPassThroughTheRings_decodeError :
    (let d := decoding 4; decReady d 4 && decClean d && decodes (shareCores d) 0 pic8 && !decodes (shareCores d) 0 { pic8 with level := 53 } && after (.decodePicture 0 (.picture { pic8 with w := 64 })) d (fun e => (e.vc 0).decWait && e.rd (R.VC_DEC_ERR 0) == 1)) = true := by decide +kernel
theorem witness_PicturesPassThroughTheRings_decode :
    (let d := decoding 4; let v := (shareCores d).vc 0; decReady d 4 && decClean d && decodes (shareCores d) 0 pic8 && !v.decWait && !v.decLoose && v.decTaint == 0 && pic8.w == (inRing d 0).w && pic8.h == (inRing d 0).h) = true := by decide +kernel
theorem witness_PicturesPassThroughTheRings_skip :
    (let d := { decoding 4 with codec := [(0, { decCores := [0], decWait := true })] }; decReady d 4 && decClean d && decodes (shareCores d) 0 pic8 && ((shareCores d).vc 0).decWait && !pic8.random && after (.decodePicture 0 (.picture pic8)) d (fun e => e.rd (R.VC_DEC_BS_RP 0) == 4 && e.rd (R.VC_DEC_PIC 0) == 0)) = true := by decide +kernel
theorem witness_PicturesPassThroughTheRings_encodeOff :
    (let d := encoding 0 0; !streamOn (encStatus d 0) && (d.vc 0).encQueue.head?.isSome && idles (.st2110Picture 0) d) = true := by decide +kernel
theorem witness_PicturesPassThroughTheRings_encodeNot :
    (let d := encoding 2 2; let n := { encoding 0 2 with codec := [] }; streamOn (encStatus d 0) && (nextToCode d 0).isSome && encOut d 0 == 2 && idles (.encodePicture 0 9) d && streamOn (encStatus n 0) && (nextToCode n 0).isNone && idles (.encodePicture 0 9) n) = true := by decide +kernel
theorem witness_PicturesPassThroughTheRings_encodeBad :
    ([2, 7].all (fun st => let d := poison0 (encoding 1 st); encReady d && encOut d 0 != 2 && !clean0 d && encStatus d 0 == st)) = true := by decide +kernel
theorem witness_PicturesPassThroughTheRings_encode :
    ([2, 7].all (fun st => let d := encoding 0 st; encReady d && encOut d 0 == 0 && clean0 d && ringReady (shareCores d) 0 5 && d.rd64 (R.VC_ENC_BS_BASE_LO 0) == 0 && encStatus d 0 == st)) = true := by decide +kernel
theorem witness_PicturesPassThroughTheRings_sends :
    (let d := sending (encoding 1 2); encReady d && encOut d 0 == 1 && clean0 d && ringReady (shareCores d) 0 5 && pathsOn d 0 == [0] && netUp d 0 && (pathOf d 0 0).1 == 2 && !(d.vc 0).encLoose) = true := by decide +kernel
theorem witness_PicturesPassThroughTheRings_intoTheRing :
    ([0, 1].all (fun live => let d := withBs live (encoding 0 2); encReady d && encOut d 0 == 0 && clean0 d && d.rd64 (R.VC_ENC_BS_BASE_LO 0) != 0 && (encLive d 0) == (live == 1) && encStatus d 0 != 7)) = true ∧
    (∀ n, let d := withBs 1 (encoding 0 2); ringReady (shareCores d) 0 n = true) ∧
    ∀ n, let d := withBs 0 (encoding 0 2); ringReady (shareCores d) 0 n = decide (n ≤ encRoom (shareCores d) 0) := by
  refine ⟨by decide +kernel, ?_, ?_⟩ <;> intro n d
  · have hs := edges_served (shareCores d) (by intro m hm; revert m; decide +kernel)
    have hl : encLive (shareCores d) 0 = true := by decide +kernel
    simp [ringReady, hs, hl]
  · have hs := edges_served (shareCores d) (by intro m hm; revert m; decide +kernel)
    have hl : encLive (shareCores d) 0 = false := by decide +kernel
    have hb : (Dev.rd64 (shareCores d) (R.VC_ENC_BS_BASE_LO 0) == 0) = false := by decide +kernel
    simp only [ringReady, hs, hl, hb, Bool.false_or]
    split <;> simp_all
theorem witness_PicturesPassThroughTheRings_st2110 :
    ([2, 7].all (fun st => let d := sending (encoding 2 st); let b := poison0 d; encReady d && clean0 d && encReady b && !clean0 b && encOut d 0 == 2 && encStatus d 0 == st && pathsOn d 0 == [0] && netUp d 0 && (pathOf d 0 0).1 == 2)) = true := by decide +kernel
theorem witness_PicturesPassThroughTheRings_rtcp :
    (let d := netted (2, false); encOut d 0 == 1 && streamOn (encStatus d 0)) = true := by decide +kernel
theorem witness_RtpTimestampsAreFrameBoundaries_stamp :
    (let d := encoding 2 2; nextToCode d 0 == some { slot := 0, at' := oneSecond } && !(d.vc 0).encLoose && decide (frameRate (encRate d 0) = some (60, 1)) && decide (60 * 1 * oneSecond ≤ oneSecond * 60)) = true := by decide +kernel

/-- A path in a state. -/
def pathIs (p : TlmPath) (q : Path) (d : Dev) : Dev := d.setPath p q
/-- Host 0 has a log ring of 8 KiB that is on. -/
def logged (d : Dev) : Dev := ((d.wr (R.TLM_HR_SIZE 0) 8192).wr (R.TLM_HR_BASE_LO 0) 0x1000).setFld (tlmStat (.host 0)) 0 0 1
theorem witness_ScrubbersAndTelemetryPaths_asleep :
    (let d := owned.setFld (R.PWR_MOON 0) 2 0 3; !scrubs d 0 && idles (.scrubSram core0 true .corrected) d && idles (.scrubHbm 0 true (.uncorrected 5)) d) = true := by decide +kernel
theorem witness_ScrubbersAndTelemetryPaths_scrub :
    (let d := owned.setFld (R.PWR_MOON 0) 2 0 2; let k : CoreIx := ⟨0, 63⟩; scrubs d 0) = true := by decide +kernel
theorem witness_ScrubbersAndTelemetryPaths_burst :
    (let d := pathIs .bmc { burst := true, general := List.replicate 255 0 } owned; let z := pathIs .bmc { burst := true, general := List.replicate 256 0 } owned; (d.path .bmc).burst && decide (4 * generalLevel d .bmc < generalCap d .bmc) && !decide (4 * generalLevel z .bmc < generalCap z .bmc)) = true := by decide +kernel
theorem witness_ScrubbersAndTelemetryPaths_release :
    (let d := pathIs .bmc { waiting := [7], alarm := List.replicate 255 0 } owned; let z := pathIs .bmc { waiting := [7], alarm := List.replicate 256 0 } owned; (d.path .bmc).waiting == [7] && alarmRoom d .bmc && !alarmRoom z .bmc) = true := by decide +kernel
theorem witness_ScrubbersAndTelemetryPaths_alarm :
    (let r := mkRecord 0 sevAlarm 0x10 0 1 2; let d := pathIs .bmc { waiting := [r] } owned; recSev r == sevAlarm && alarmRoom d .bmc && after (.tlmAlarmRelease .bmc) d (fun e => e.out == .sideband .bmc :: d.out)) = true := by decide +kernel
theorem witness_ScrubbersAndTelemetryPaths_releaseHost :
    (let d := pathIs (.host 0) { waiting := [0x0102] } (logged owned); alarmRoom d (.host 0) && !(d.path (.host 0)).loose) = true := by decide +kernel
theorem witness_ScrubbersAndTelemetryPaths_mark :
    (let d := { owned with time := { owned.time with now := 5 * oneSecond, copies := [(16, 5 * oneSecond)] } }; pathRuns d .bmc && pathWraps d .bmc == 1 && (d.path .bmc).marked == 0 && (d.path .bmc).waiting.isEmpty && decide ((d.path .bmc).alarm.length < 256) && idles (.tlmTimeMark .bmc) owned && !pathRuns d (.host 0)) = true := by decide +kernel

/-- The CORE page of die 0, core 0; its VE_XFLAGS register. -/
def corePage : Nat := 0x2100000
def xflags (v : Nat) (d : Dev) : Dev := d.wr ⟨.core 0 0, 0x100⟩ v
def hostW (a v : Nat) : Instr := .registerWrite (.host 0) a v 15
theorem witness_WritesFollowTheAccessCodes_idle :
    (let d := owned; (regAt 0x13FFFFF).isNone && !canWrite d (.host 1) (.core 0 0) && !canWrite d .mp (.core 0 0) && idles (.registerWrite (.host 0) (corePage + 0x100) 31 14) d && idles (hostW (corePage + 0x101) 31) d && idles (hostW 0x13FFFFC 31) d && idles (.registerWrite (.host 1) (corePage + 0x100) 31 15) d && idles (.registerWrite .mp (corePage + 0x100) 31 15) d) = true := by decide +kernel
theorem witness_WritesFollowTheAccessCodes_copied :
    (let d := xflags 31 (owned.setFld (R.PWR_MOON 0) 2 0 3); canWrite d (.host 0) (.core 0 0) && !darkPage d (.core 0 0) && copiedPage d (.core 0 0)) = true := by decide +kernel
theorem witness_WritesFollowTheAccessCodes_writes :
    (let d := xflags 31 owned; regAt (corePage + 0x100) == some ⟨.core 0 0, 0x100⟩ && canWrite d (.host 0) (.core 0 0) && !darkPage d (.core 0 0) && !copiedPage d (.core 0 0)) = true := by decide +kernel
theorem witness_WritesFollowTheAccessCodes_status :
    (let d := owned.wr (R.IRQ_STAT .pwrG) 15; regAt 0x101C == some (R.IRQ_STAT .pwrG) && canWrite d .mp .pwrG) = true := by decide +kernel
theorem witness_WritesFollowTheAccessCodes_manage :
    (let z : Dev := {}; let d := startAt 2 0; let o := startAt 3 0; bootStep z == 0 && bootStep d == 2 && bootStep o == 3) = true := by decide +kernel
/-- A register of each page, at which a write now does no more than its access code says. -/
def plainRegs : List Reg := [⟨.core 0 0, 0x100⟩, ⟨.jlink 0 0, 0x4C⟩, ⟨.tlmD 0, 0x60⟩, ⟨.sem 0, 0x40⟩, ⟨.kvt 0, 0x68⟩, ⟨.pxe 0, 0x50⟩, ⟨.ast 0, 0x9C⟩, ⟨.hbmc 0 0, 0x100⟩,
  ⟨.tcu 0 0, 0x80⟩, ⟨.pwrD 0, 0x44⟩, ⟨.vcD 0, 0x4C⟩, ⟨.vcD 0, 0x84⟩, ⟨.secD 0, 0x80⟩, ⟨.hq0 0, 0x4C⟩, ⟨.tlmH 0, 0x60⟩, ⟨.fwuH 0, 0x54⟩]
/-- The same of the global pages. -/
def plainGlobals : List Reg := [⟨.pwrG, 0x50⟩, ⟨.timeG, 0x54⟩, ⟨.netG, 0x54⟩, ⟨.secG, 0x40⟩, ⟨.fwuG, 0x44⟩]
/-- The log ring of host 0 is off. -/
def unlogged (d : Dev) : Dev := d.setFld (tlmStat (.host 0)) 0 0 0
theorem witness_WritesFollowTheAccessCodes_plain :
    (let d := unlogged owned; (plainRegs.all (fun g => canWrite d (.host 0) g.page && !darkPage d g.page && !copiedPage d g.page && (rowAt g).isSome) &&
      plainGlobals.all (fun g => canWrite d .mp g.page && !darkPage d g.page && !copiedPage d g.page && (rowAt g).isSome)) = true ∧
      ∀ g ∈ plainRegs ++ plainGlobals, PlainNow d g) := by
  refine ⟨by decide +kernel, ?_⟩
  intro g hg
  simp only [plainRegs, plainGlobals, List.cons_append, List.nil_append, List.mem_cons, List.mem_nil_iff, or_false] at hg
  rcases hg with rfl | rfl | rfl | rfl | rfl | rfl | rfl | rfl | rfl | rfl | rfl | rfl | rfl | rfl | rfl | rfl | rfl | rfl | rfl | rfl | rfl <;>
    unfold PlainNow <;> decide +kernel
theorem witness_WritesFollowTheAccessCodes_stored :
    (let d := unlogged owned; canWrite d (.host 0) (.kvt 0) && !pageBusy d (.kvt 0) && d.kvt.isEmpty && (rowAt (R.KVT_CFG 0)).isSome && !pageBusy d (.sem 0) && regAt 0x1000074 == some ⟨.hq0 0, 0x74⟩ &&
      after (hostW 0x1000074 63) d (fun e => e.rd ⟨.hq0 0, 0x74⟩ == 62)) = true := by decide +kernel
theorem witness_WritesFollowTheAccessCodes_memory :
    (let d := { owned with sec := { owned.sec with inForce := [(0, [(3, 1)])] } }; bootStep d == 8 && pageProtected d 0 3 && !pageProtected d 0 4 && d.rd (R.FAULT_CODE .secG) == 0 && after (.mgmtRegWrite (.memory 0 3) 5) d (fun e => e.rd R.SEC_KEY_CNT == 1 && decide (e.mem = d.mem)) &&
      after (.mgmtRegRead (.memory 0 3)) d (fun e => e.out.head? == some (.mgmt 1 0 0 0))) = true := by decide +kernel
theorem witness_OnlyTheMpWritesGlobalPages_page :
    (let d := owned; regAt 0x4048 == some R.PART_ALLOW && isGlobal (Page.part) && !isGlobal (Page.core 0 0)) = true := by decide +kernel
theorem witness_PowerBudgetIsStoredWithinLimits_limits :
    (let d := startAt 3 0; decide (3 ≤ bootStep d) && bootStep d != 15) = true := by decide +kernel
theorem witness_ReadsLatchTheHighWord_outside :
    (let d := owned.wr ⟨.pwrG, 0x100⟩ 9; (regAt 0x13FFFFC).isNone && !canRead d (.host 1) (.core 0 0) && regAt 0x1100 == some ⟨.pwrG, 0x100⟩ && foreignEnergy (.host 1) ⟨.pwrG, 0x100⟩ && !foreignEnergy (.host 0) ⟨.pwrG, 0x100⟩ && after (.loReadLatch (.host 1) ⟨0x1100, 4⟩) d (fun e => e.out.head? == some (.regValue 0)) && after (.loReadLatch (.host 0) ⟨0x1100, 4⟩) d (fun e => e.out.head? == some (.regValue 9))) = true := by decide +kernel
theorem witness_ReadsLatchTheHighWord_latch :
    (let d := (owned.wr (R.CORE_RAMP_STALL_LO 0) 7).wr ⟨.coreDie 0, 0x4C⟩ 9; let a := 0x2013000 + 0x48; regAt a == some (R.CORE_RAMP_STALL_LO 0) && isLo (R.CORE_RAMP_STALL_LO 0) && !isLo ⟨.coreDie 0, 0x4C⟩ && isHi ⟨.coreDie 0, 0x4C⟩ && canRead d (.host 0) (.coreDie 0) && !darkPage d (.coreDie 0) && !copiedPage d (.coreDie 0) && !foreignEnergy (.host 0) (R.CORE_RAMP_STALL_LO 0) && decide (regView d (R.CORE_RAMP_STALL_LO 0) < 2 ^ 32) && after (.loReadLatch (.host 0) ⟨a, 8⟩) d (fun e => e.out.head? == some (.regValue (7 + 2 ^ 32 * 9)))) = true := by decide +kernel
theorem witness_ReadsLatchTheHighWord_plain :
    (let d := owned.wr R.PART_ALLOW 0x1234; canRead d (.host 2) .part && !foreignEnergy (.host 2) R.PART_ALLOW && !darkPage d .part && !copiedPage d .part && !isLo R.PART_ALLOW && !isHi R.PART_ALLOW && after (.loReadLatch (.host 2) ⟨0x4049, 1⟩) d (fun e => e.out.head? == some (.regValue 0x12))) = true := by decide +kernel
theorem witness_ReadsLatchTheHighWord_dark :
    (let d : Dev := {}; darkPage d (.core 0 0)) = true := by decide +kernel
theorem witness_ReadsLatchTheHighWord_manage :
    (let z : Dev := {}; let d := startAt 15 0; let o := { (startAt 3 0).wr R.PART_ALLOW 5 with latches := [((.secG, 4), 8)] }; bootStep z == 0 && bootStep d == 15 && bootStep o == 3) = true := by decide +kernel
theorem witness_PageCommandsActOnTheirPage_shut :
    (let d := owned; !canWrite d (.host 1) (.core 0 0) && idles (.faultClr (.host 1) (.core 0 0)) d && idles (.irqEn (.host 1) (.core 0 0) 15) d && idles (.irqSet (.host 1) (.core 0 0) 15) d && idles (.coreLflagClr (.host 1) 0 256) d && idles (.astResetSp 1 0) d && idles (.tlmEnable 1 true) {}) = true := by decide +kernel
theorem witness_PageCommandsActOnTheirPage_copied :
    (let d := owned.setFld (R.PWR_MOON 0) 2 0 3; canWrite d (.host 0) (.core 0 0) && !darkPage d (.core 0 0) && copiedPage d (.core 0 0)) = true := by decide +kernel
theorem witness_PageCommandsActOnTheirPage_header :
    (let d := ((owned.wr (R.FAULT_CODE .pwrG) 5).wr (R.FAULT_INFO1 .pwrG) 6).wr (R.IRQ_STAT .pwrG) 2; canWrite d .mp .pwrG && !darkPage d .pwrG && !copiedPage d .pwrG) = true := by decide +kernel
theorem witness_PageCommandsActOnTheirPage_lflag :
    (let d := { owned with lflag := [((0, 7), 5), ((0, 255), 6), ((1, 7), 8)] }; canWrite d (.host 0) (.coreDie 0) && !darkPage d (.coreDie 0) && !copiedPage d (.coreDie 0)) = true := by decide +kernel
theorem witness_PageCommandsActOnTheirPage_stack :
    (let d := { owned with ast := [((0, 0), { base := 64, sp := 9, spill := 3, res := 1 })] }; canWrite d (.host 0) (.ast 0) && !darkPage d (.ast 0) && !copiedPage d (.ast 0) && !pageBusy d (.ast 0)) = true := by decide +kernel
theorem witness_PageCommandsActOnTheirPage_ring :
    (let d := (owned.wr (R.TLM_HR_SIZE 0) 8192).setFld (tlmStat (.host 0)) 0 0 0; canWrite d (.host 0) (.tlmH 0) && !darkPage d (.tlmH 0) && !copiedPage d (.tlmH 0) && d.fld (tlmStat (.host 0)) 0 0 == 0 && d.time.started && decide (8192 ≤ ringSize d 0) && (d.path (.host 0)).waiting.isEmpty) = true := by decide +kernel
theorem witness_PageCommandsActOnTheirPage_ringOff :
    (let d := logged owned; let s := (owned.wr (R.TLM_HR_SIZE 0) 4096).setFld (tlmStat (.host 0)) 0 0 0; d.fld (tlmStat (.host 0)) 0 0 == 1 && decide (ringSize s 0 < 8192)) = true := by decide +kernel
theorem witness_PageCommandsActOnTheirPage_gap :
    (let g := fun (b : Bool) => owned.setPort 0 { owned.port 0 with irqGap := true, irqHeld := b }; !(owned.port 0).irqGap) = true := by decide +kernel

/-- The command at the boundary of core 0 is refused in decode for a reason of the statement. -/
def undecodable (op : OpSpec) (c : Cmd) (tail : List TailEnt) : Bool :=
  let d := running [c] tail
  match here d 0 0 with
  | some h => mayIssue d h 0 0 && (match fetchPlace d h.p h.ps (relCore h.p 0 0) h.cs with
    | some place =>
      let cmd := readCmd d.mem place
      let x : Ctx := ⟨d, h.n, h.job.slot, 0, 0, cmd⟩
      decide (cmd = c) && !recordBad d h.p h.ps place cmd && (!opcodeDefined cmd.opcode || (cmd.opcode == op.opcode && op.mine cmd && !op.holds x &&
        ((op.descs x).any (fun q => descSpace q.2.1 == 7) || (cmd.acq && (tailAt d h.p h.ps cmd.tailIndex).ty != 1) ||
          (tailOf d h.p h.ps cmd).any (fun t => t.ty == 0 || t.ty == 1 || 8 ≤ t.ty || ((t.ty == 3 || t.ty == 4) && 64 ≤ t.target) ||
            (t.ty == 5 && 63 ≤ t.target) || (t.ty == 7 && (t.target == 0 || 4 ≤ t.target))))))
    | none => false)
  | none => false
theorem witness_UndecodableCommandsDoNoWork_opcode :
    (undecodable opNop (bare 0x3FF) [] && undecodable opMm { plain 0x040 0 0 4 with d0 := 7 * 2 ^ 61 } [] && undecodable opNop { bare 0 with acq := true } [⟨2, 0, 1, 0⟩] && undecodable opNop { bare 0 with tailCount := 1 } [⟨0, 0, 1, 0⟩] && undecodable opNop { bare 0 with tailCount := 1 } [⟨1, 0, 1, 0⟩] && undecodable opNop { bare 0 with tailCount := 1 } [⟨8, 0, 1, 0⟩] && undecodable opNop { bare 0 with tailCount := 1 } [⟨3, 64, 1, 0⟩] && undecodable opNop { bare 0 with tailCount := 1 } [⟨5, 63, 1, 0⟩] && undecodable opNop { bare 0 with tailCount := 1 } [⟨7, 0, 1, 0⟩] && undecodable opNop { bare 0 with tailCount := 1 } [⟨7, 4, 1, 0⟩]) = true := by decide +kernel

/-- Past the end of its stream, and at a poisoned record. -/
theorem witness_UndecodableCommandsDoNoWork_record :
    (let d := running [] []; let b := { running [bare 0] [] with mem := (running [bare 0] []).mem.poison .hbm 5124 }; (match here d 0 0 with | some h => mayIssue d h 0 0 && (fetchPlace d h.p h.ps (relCore h.p 0 0) h.cs).isNone | none => false) && (match here b 0 0 with | some h => mayIssue b h 0 0 && (match fetchPlace b h.p h.ps (relCore h.p 0 0) h.cs with | some place => recordBad b h.p h.ps place (readCmd b.mem place) | none => false) | none => false)) = true := by decide +kernel

def mmAt (c : Cmd) (P : Dev → Here → Cmd → Ctx → Bool) : Bool :=
  let d := running [c] []
  match here d 0 0 with
  | some h => mayIssue d h 0 0 && (match fetchPlace d h.p h.ps (relCore h.p 0 0) h.cs with
    | some place => let cmd := readCmd d.mem place; !recordBad d h.p h.ps place cmd && cmd.opcode == 0x040 && P d h cmd ⟨d, h.n, h.job.slot, 0, 0, cmd⟩
    | none => false)
  | none => false
theorem witness_MmReachesTileMemoryOnly_space :
    (let c := { plain 0x040 0 0 4 with d0 := hbd 0 16 }; mmAt c (fun d h cmd x => tailOk cmd (tailAt d h.p h.ps cmd.tailIndex) (tailOf d h.p h.ps cmd) && (opMm.descs x).all (fun q => descSpace q.2.1 != 7) && (opMm.fmts cmd).all (· < 10) && opMm.pair cmd && opMm.out cmd && (opMm.descs x).any (fun q => descSpace q.2.1 != 1 && descSpace q.2.1 != 2))) = true := by decide +kernel

/-- An MM whose work would be done and whose engine 0 finds a mismatch, with k residue kills behind it. -/
def killed (k : Nat) (P : Here → Dev → Flight → Bool) (Q : Dev → Bool) : Bool :=
  let c := plain 0x040 0 0 4
  let d0 := running [c] []
  let d := { d0 with cores := [((0, 0), { resKills := k })] }
  match attemptOf opMm d core0 (.residue (.engine 0)) with
  | some (h, x, f) => !f.cmd.nk && unitUsed x opMm f.cmd 0 0 (.engine 0) && (x.mismatch.find? (fun e => decide (e.1 = (0, 0, .engine 0)))).isNone && P h x f &&
      after (.mm core0 (.residue (.engine 0))) d Q
  | none => false
theorem witness_FourthResidueKillFaults_kill :
    (killed 2 (fun _ x _ => decide ((x.cs 0 0).resKills < 3)) (fun e => (e.cs 0 0).phase == .ready && (e.cs 0 0).rerun && (e.cs 0 0).resKills == 3)) = true := by decide +kernel
theorem witness_FourthResidueKillFaults_fault :
    (killed 3 (fun _ x _ => decide (3 ≤ (x.cs 0 0).resKills)) (fun _ => true)) = true := by decide +kernel
theorem witness_OnlyDestructionStops_stop :
    (let s : State := { pending := [], dev := {} }; (match exec (.inputSample 60001 0) s with | .fault (.aboveAbsoluteMaximum mv) => mv == 60001 | _ => false) && (match exec (.inputSample 60000 0) s with | .next _ => true | _ => false)) = true := by decide +kernel
theorem witness_CommandRecordRoundTrip_fields :
    (let c : Cmd := { plain 0x3FF 15 5 63 with cls := 3, tailCount := 15, tailIndex := 2 ^ 24 - 1, acq := true, nk := true }; decide (c.opcode < 2 ^ 10) && decide (c.fmtA < 2 ^ 4) && decide (c.cls < 2 ^ 2) && decide (c.tailCount < 2 ^ 4) && decide (c.outMask < 2 ^ 6) && decide (c.tailIndex < 2 ^ 24) && decide (Cmd.ofWords (Cmd.toWords c) = c)) = true := by decide +kernel
theorem witness_StepKeepsMemoryCanonical_steps :
    (let s : State := { pending := [.hotReset 3], dev := {} }; decide (Sound s) && (match step s with | .next t => t.pending.isEmpty | _ => false)) = true := by decide +kernel
theorem witness_PulsesAndPtpMessages_heard :
    (let d := (master {}).setFld R.TIME_PTP_CFG 31 24 5
     d.time.started && netUp d 0 && d.rd (R.NET_IP 0) != 0 && bit (d.fld R.TIME_PTP_CFG 1 0) 0 && d.fld R.TIME_PTP_CFG 31 24 == 5) = true ∧
    ({ foreignMaster with domain := 5, sender := Config.clockIdentity + 1 } : Announce).sender ≠ Config.clockIdentity := by
  refine ⟨by decide +kernel, ?_⟩
  simp

/-! The spec's worked examples, each with the values its text gives -/

/-- What a computation of numbers answers, with its flags. -/
def num {α : Type} (x : Num α) : α × Ev := x.run {}

/-- "Conversion into short formats" of 03_number_formats.md: 460 converts to E4M3 448 without a count, 470 with one. -/
theorem test_conversion_counts_what_rounding_would_exceed :
    (let a := num (convertCode (encOf 4) false (.num false 460 0)); let b := num (convertCode (encOf 4) false (.num false 470 0))
     a.1 == 0x7E && a.2.fl.sat == 0 && b.1 == 0x7E && b.2.fl.sat == 1) = true := by
  unfold convertCode isTiny
  generalize Config.tinyBefore = t
  cases t <;> decide +kernel
/-- "Worked example: one block at FP4 × FP8" of 03_number_formats.md: the block register, the accumulator and the output. -/
theorem test_worked_block_of_fp4_by_fp8 :
    (let p := fun (a b : Nat) (s : BlockSt) => blockAdd s (elemVal 8 a) (elemVal 4 b)
     let st := p 0b0001 0x39 (p 0b1011 0x01 (p 0b0111 0x7E (.fin 0)))
     let out := num (do let v ← blockValue st 0x7F 0x7C; let acc ← accAdd (.num false (2 ^ 20) 0) v; outBytes 0 false acc)
     st == .fin 90213089280 && ofLe out.1 == 0x49800A80 && out.2.fl.sat == 0 && out.2.fl.under == 0 && !out.2.fl.nan) = true := by
  unfold outBytes convertCode isTiny
  generalize Config.tinyBefore = t
  cases t <;> decide +kernel
/-- "Worked examples" of 05_vector_and_functions.md: the reciprocal of 1.515625 and of 3.03125. -/
theorem test_worked_reciprocal :
    (let r := fun (x : Nat) => (num (do let y ← sfuRecip false (v32 x); outBytes 0 false y)).1
     ofLe (r 0x3FC20000) == 0x3F28ECD8 && ofLe (r 0x40420000) == 0x3EA8ECD8) = true := by
  unfold outBytes sfuRecip scale2 tableOut ieee ieeeCode convertCode isTiny
  generalize Config.tinyBefore = t
  cases t <;> decide +kernel
/-- "Worked example: one FP4 block" of 10_tensor_compression.md: the canonical codes of table 17. -/
theorem test_worked_code_table :
    (let lens := List.replicate 16 5 ++ List.replicate 64 8 ++ List.replicate 176 10
     let cs := codesOf lens
     cs[15]? == some (15, 5, 0b01111) && cs[16]? == some (16, 8, 0x80) && cs[79]? == some (79, 8, 0xBF) && cs[80]? == some (80, 10, 0x300) &&
       cs[255]? == some (255, 10, 0x3AF) && kraft lens == 30208) = true := by decide +kernel
/-- "Worked example: a model that reads 10 % low" of 13_power.md, in quarter watts: 200 sixteenths, 8 dies at 13 and 8 at 12. -/
theorem test_worked_grant_cycle :
    (let ls := (grantCycle (4 * (6630 - 3376)) 0 false ((List.range 16).map (fun i => ⟨i, 0, 16, 65, false⟩))).1
     (ls.filter (fun l => l.g == 13)).length == 8 && (ls.filter (fun l => l.g == 12)).length == 8) = true := by decide +kernel
/-- The example under R354 of 14_time_reference.md: the boundary before the one at n = 52,447,552,448. -/
theorem test_worked_frame_boundary :
    frameIndex 0x83 (1750000000 * oneSecond) = some 52447552447 ∧
      frameIndex 0x83 (1750000000 * oneSecond + 14933333 * 2 ^ 32 + 0x5556 * 2 ^ 16) = some 52447552448 := by decide +kernel
/-- The examples of 01_organisation.md and 18_register_pages.md: neighbours of CD6, core 17 of CD6, the AST page of CD13. -/
theorem test_worked_addresses :
    ((List.range 4).map (neighbour 6) == [7, 5, 10, 2] && pageAt 0x02D11000 == some (.core 6 17) &&
      regAt 0x03A16064 == some ⟨.ast 13, 0x64⟩ && regView {} ⟨.ast 13, 0⟩ == 0x00160D00) = true := by decide +kernel

/-! The well-formedness smoke: terms that pass, and for each check a term that it refuses -/

def refuses (l : List Instr) : Bool := l.all (fun i => !i.wf)
def announce0 : Announce := ⟨255, 2 ^ 64 - 1, 2 ^ 64 - 1, 255, 255, 255, 65535, 255, 65535, 255⟩
def entry0 : QEntry := ⟨255, 255, 255, 2 ^ 32 - 1, 2 ^ 64 - 1, 2 ^ 64 - 1, 2 ^ 64 - 1⟩

def top : DecPicture :=
  { av1 := true, profile := 255, level := 255, depth := 10, mono := true, w := 65535, h := 65535, used := 2 ^ 32 - 1, random := true, film := some [1], code := [1023] }
theorem test_wf_accepts_the_bounds :
    [Instr.nop core0 (.uncorrected true 0x17_FFFF_FFFF), .mm core0 (.uncorrected false 0x3FFF_FFFF), .linkFlitRx 0 0 (some (271, 1)),
      .marginProbe 0 0 65535, .collPrepare 0 65535, .linkTraining [⟨0, 0, [83], 5, 65535⟩], .sqDoorbell 0 1 65535 [entry0],
      .hqCqHead 0 (2 ^ 32 - 1), .partCreate 0 15, .bar2Read 0 (2 ^ 41 - 1) 4096, .bar2Write 0 0 [1], .parbCycle (List.replicate 16 31) (List.replicate 16 65535),
      .energyUpdate 5 (List.replicate 16 [(.step 7, 9), (.other, 1)]), .ptpAnnounceRx 0 announce0, .delayReqRx 0 true 65535, .decodePicture 0 (.picture top),
      .netFrameRx 0 (.group (2 ^ 32 - 1) 65535 (2 ^ 32 - 1)) false, .netFrameRx 0 (.arp (2 ^ 32 - 1) (2 ^ 32 - 1) (2 ^ 48 - 1)) false,
      .netFrameRx 0 (.icmpEcho (2 ^ 32 - 1) (2 ^ 32 - 1) [1]) true, .scrubSram core0 true (.uncorrected 0x3FFF_FFFF), .getCertificate 0 7,
      .getMeasurements 0 255, .spdmUnsupported 0 255, .jtagInstruction (.memory true 0 49151), .fwuWrite 0 (some (List.replicate 16 1)),
      .faultClr .mp (.core 15 63), .irqEn .mp (.tcu 15 1) (2 ^ 32 - 1), .coreLflagClr .mp 0 (2 ^ 32 - 1), .loReadLatch .mp ⟨2 ^ 32 - 1, 4096⟩,
      .registerWrite .mp (2 ^ 32 - 1) (2 ^ 32 - 1) 0, .mgmtRegRead (.reg (2 ^ 32 - 1)), .mgmtRegWrite (.memory 15 49151) 0, .rowBringup 3 [⟨15, 511⟩] [⟨⟨12, 0⟩, [], true, false, false⟩],
      .rowPowerUp 0 [⟨3, 511⟩], .hbmTraining [⟨0, 511⟩], .selfTest [⟨15, 0⟩] [], .coolantSample 65535 65535 65535 true 15, .debugLock].all Instr.wf = true := by decide +kernel
theorem test_wf_refuses_error_addresses :
    refuses [.nop core0 (.uncorrected true 0x18_0000_0000), .clAg core0 (.uncorrected false 0x4000_0000),
      .semAcquire core0 (.uncorrected true 0x18_0000_0000), .astDemandTransferDone core0 (.uncorrected false 0x4000_0000),
      .scrubSram core0 false (.uncorrected 0x4000_0000), .scrubHbm 0 false (.uncorrected 0x18_0000_0000)] = true := by decide +kernel
theorem test_wf_refuses_link_operands :
    refuses [.linkFlitRx 0 0 (some (272, 1)), .linkFlitRx 0 0 (some (0, 0)), .marginProbe 0 0 65536, .linkTraining [⟨0, 0, [84], 0, 0⟩],
      .linkTraining [⟨0, 0, [], 0, 65536⟩], .collPrepare 0 65536, .collDoneToken 0 65536 0, .collNogo 0 65536, .collFaultToken 0 65536 0,
      .collTimeout 0 65536 false] = true := by decide +kernel
theorem test_wf_refuses_queue_operands :
    refuses [.sqDoorbell 0 0 65536 [], .sqDoorbell 0 0 0 [{ entry0 with op := 256 }], .sqDoorbell 0 0 0 [{ entry0 with slot := 256 }],
      .sqDoorbell 0 0 0 [{ entry0 with flags := 256 }], .sqDoorbell 0 0 0 [{ entry0 with count := 2 ^ 32 }],
      .sqDoorbell 0 0 0 [{ entry0 with tag := 2 ^ 64 }], .sqDoorbell 0 0 0 [{ entry0 with arg0 := 2 ^ 64 }],
      .sqDoorbell 0 0 0 [{ entry0 with arg1 := 2 ^ 64 }], .hqCqHead 0 (2 ^ 32), .partCreate 0 16, .bar2Read 0 (2 ^ 41) 1, .bar2Read 0 0 0,
      .bar2Read 0 0 4097, .bar2Write 0 (2 ^ 41) [1], .bar2Write 0 0 []] = true := by decide +kernel
theorem test_wf_refuses_power_operands :
    refuses [.parbCycle (List.replicate 15 0) (List.replicate 16 0), .parbCycle (List.replicate 16 32) (List.replicate 16 0),
      .parbCycle (List.replicate 16 0) (List.replicate 17 0), .parbCycle (List.replicate 16 0) (List.replicate 16 65536), .energyUpdate 0 [],
      .rowPowerUp 0 [⟨4, 0⟩], .rowPowerUp 0 [⟨0, 512⟩], .rowBringup 1 [⟨0, 0⟩] [], .rowBringup 1 [⟨4, 512⟩] [],
      .rowBringup 0 [] [⟨⟨4, 0⟩, [], true, true, true⟩], .hbmTraining [⟨0, 512⟩], .selfTest [⟨0, 512⟩] [], .coolantSample 65536 0 0 false 0,
      .coolantSample 0 65536 0 false 0, .coolantSample 0 0 65536 false 0, .coolantSample 0 0 0 false 16] = true := by decide +kernel
theorem test_wf_refuses_media_operands :
    refuses ([{ top with w := 65536 }, { top with h := 65536 }, { top with used := 2 ^ 32 }, { top with profile := 256 },
      { top with level := 256 }, { top with depth := 9, code := [] }, { top with code := [1024] }, { top with depth := 8, code := [256] }].map
        (fun p => .decodePicture 0 (.picture p))) = true ∧
    refuses [.decodePicture 0 (.error (2 ^ 32)), .decodePicture 0 (.poisoned (2 ^ 32)), .netFrameRx 0 (.arp (2 ^ 32) 0 0) false,
      .netFrameRx 0 (.arp 0 (2 ^ 32) 0) false, .netFrameRx 0 (.arp 0 0 (2 ^ 48)) false, .netFrameRx 0 (.icmpEcho (2 ^ 32) 0 []) false,
      .netFrameRx 0 (.icmpEcho 0 (2 ^ 32) []) false, .netFrameRx 0 (.icmpEcho 0 0 (List.replicate 1473 0)) false,
      .netFrameRx 0 (.group (2 ^ 32) 0 0) false, .netFrameRx 0 (.group 0 65536 0) false, .netFrameRx 0 (.group 0 0 (2 ^ 32)) false,
      .delayReqRx 0 false 65536] = true := by decide +kernel
theorem test_wf_refuses_announces :
    refuses ([{ announce0 with domain := 256 }, { announce0 with sender := 2 ^ 64 }, { announce0 with identity := 2 ^ 64 }, { announce0 with priority1 := 256 },
      { announce0 with clockClass := 256 }, { announce0 with accuracy := 256 }, { announce0 with variance := 65536 },
      { announce0 with priority2 := 256 }, { announce0 with steps := 65536 }, { announce0 with timeSource := 256 }].map (.ptpAnnounceRx 0)) = true := by
  decide +kernel
theorem test_wf_refuses_security_operands :
    refuses [.getCertificate 0 8, .challenge 0 8, .getMeasurements 0 256, .spdmUnsupported 0 256, .jtagInstruction (.memory false 0 49152)] = true := by
  decide +kernel
theorem test_wf_refuses_a_long_block :
    (Instr.fwuWrite 0 (some (List.replicate 65537 1))).wf = false := by
  simp only [Instr.wf, List.length_replicate]
  decide
theorem test_wf_refuses_register_operands :
    refuses [.irqEn .mp .pwrG (2 ^ 32), .irqSet .mp .pwrG (2 ^ 32), .coreLflagClr .mp 0 (2 ^ 32), .loReadLatch .mp ⟨2 ^ 32, 4⟩, .loReadLatch .mp ⟨0, 0⟩, .loReadLatch .mp ⟨0, 4097⟩,
      .registerWrite .mp (2 ^ 32) 0 0, .registerWrite .mp 0 (2 ^ 32) 0, .mgmtRegRead (.reg (2 ^ 32)), .mgmtRegRead (.memory 0 49152),
      .mgmtRegWrite (.reg (2 ^ 32)) 0, .mgmtRegWrite (.reg 0) (2 ^ 32)] = true := by
  decide +kernel
theorem test_wf_refuses_pages :
    refuses ([.hq0 4, .hq1 4, .tlmH 4, .fwuH 4, .dieD 16, .pwrD 16, .coreDie 16, .kvt 16, .ast 16, .pxe 16, .sem 16, .vcD 16, .tlmD 16, .secD 16,
      .hbmc 16 0, .hbmc 0 2, .jlink 16 0, .jlink 0 4, .core 16 0, .core 0 64, .tcu 16 0, .tcu 0 2].map (.faultClr .mp)) = true ∧
      refuses [.irqEn .mp (.hq0 4) 0, .irqSet .mp (.core 0 64) 0] = true := by decide +kernel

/-- AES-256 on the vector of FIPS 197, appendix C.3. -/
theorem test_aes_256_fips_vector :
    aesBlock (roundKeys (List.range 32)) ((List.range 16).map (17 * ·)) =
      [0x8e, 0xa2, 0xb7, 0xca, 0x51, 0x67, 0x45, 0xbf, 0xea, 0xfc, 0x49, 0x90, 0x4b, 0x49, 0x60, 0x89] := by decide +kernel

end Sys2Proof.Tests
end

section
/-! What an operation keeps of the row status, of a partition's work and of the rows beside the one that stops: the
power fault of one row's phase group (R28). -/

namespace Sys2Proof.Machine
open Sys2Proof

/-! ## Bits and fields -/

theorem bit_eq_testBit (w i : Nat) : bit w i = w.testBit i := (Nat.testBit_eq_decide_div_mod_eq).symm

/-- A bit of a field is the bit of the number that stands there. -/
theorem bit_bits (w hi lo i : Nat) (h : lo + i ≤ hi) : bit (bits w hi lo) i = bit w (lo + i) := by
  have hin : i < hi + 1 - lo := by omega
  simp [bit_eq_testBit, bits, Nat.testBit_mod_two_pow, Nat.testBit_div_two_pow, hin, Nat.add_comm]

/-- One bit replaced: it is the new one, every other bit stays. -/
theorem bit_withBits (w b v i : Nat) : bit (withBits w b b v) i = if i = b then bit v 0 else bit w i := by
  have hlow : w % 2 ^ b < 2 ^ b := Nat.mod_lt _ (Nat.two_pow_pos b)
  have hw : withBits w b b v = 2 ^ (b + 1) * (w / 2 ^ (b + 1)) + (2 ^ b * (v % 2) + w % 2 ^ b) := by
    rw [withBits, Nat.add_sub_cancel_left, Nat.pow_one, Nat.mul_comm (v % 2), Nat.mul_comm (w / _)]
    omega
  have hsum : 2 ^ b * (v % 2) + w % 2 ^ b < 2 ^ (b + 1) := by
    have := Nat.mul_le_mul_left (2 ^ b) (Nat.le_of_lt_succ (Nat.mod_lt v Nat.two_pos) : v % 2 ≤ 1)
    rw [Nat.pow_succ]; omega
  rw [bit_eq_testBit, hw, Nat.testBit_two_pow_mul_add _ hsum, Nat.testBit_two_pow_mul_add _ hlow]
  rcases Nat.lt_trichotomy i b with h | rfl | h
  · simp [bit_eq_testBit, Nat.testBit_mod_two_pow, h, Nat.lt_succ_of_lt h, Nat.ne_of_lt h]
  · simp [bit_eq_testBit]
  · simp [bit_eq_testBit, Nat.testBit_div_two_pow, Nat.not_lt.2 (Nat.succ_le_of_lt h), Nat.ne_of_gt h,
      Nat.sub_add_cancel (Nat.succ_le_of_lt h)]

/-! ## Folds -/

/-- What every step of a fold leaves alone, the fold leaves alone. -/
theorem foldl_keeps {α β : Type} (f : Dev → β) (g : Dev → α → Dev) (h : ∀ x e, f (g x e) = f x) (l : List α) (d : Dev) :
    f (l.foldl g d) = f d := by
  induction l generalizing d with
  | nil => rfl
  | cons e t ih => rw [List.foldl_cons, ih, h]

/-! ## The row status a register write leaves alone -/

theorem Dev.rd_wr_boot (d : Dev) {r : Reg} (v : Nat) (h : r ≠ R.DIE_BOOT_STAT) :
    (d.wr r v).rd R.DIE_BOOT_STAT = d.rd R.DIE_BOOT_STAT := Dev.rd_wr_ne d v h

theorem Dev.rd_setFld_boot (d : Dev) {r : Reg} (hi lo v : Nat) (h : r ≠ R.DIE_BOOT_STAT) :
    (d.setFld r hi lo v).rd R.DIE_BOOT_STAT = d.rd R.DIE_BOOT_STAT := Dev.rd_setFld_ne d hi lo v h

/-- DIE_BOOT_STAT stands behind the common header of its page (R431). -/
theorem header_ne_boot {p : Page} {off : Nat} (h : off < 0x40) : (⟨p, off⟩ : Reg) ≠ R.DIE_BOOT_STAT := by
  rintro ⟨⟩; omega

/-- DIE_BOOT_STAT stands in the global page DIE (R451). -/
theorem page_ne_boot {r : Reg} (h : r.page ≠ .dieG) : r ≠ R.DIE_BOOT_STAT := fun e => h (congrArg Reg.page e)

/-- No path's block stands in the page DIE (R397). -/
theorem pathReg_ne_boot (p : TlmPath) (off : Nat) : pathReg p off ≠ R.DIE_BOOT_STAT := by
  apply page_ne_boot
  cases p with
  | aggr south => cases south <;> nofun
  | _ => nofun

@[simp] theorem pageMsg_boot (d : Dev) (pg : Page) : (pageMsg d pg).rd R.DIE_BOOT_STAT = d.rd R.DIE_BOOT_STAT := by
  unfold pageMsg
  split
  · rfl
  · split
    · rfl
    · dsimp only
      split <;> rfl

@[simp] theorem irqRise_boot (d : Dev) (pg : Page) (b : Nat) : (irqRise d pg b).rd R.DIE_BOOT_STAT = d.rd R.DIE_BOOT_STAT := by
  have hw : ∀ v, (d.wr (R.IRQ_STAT pg) v).rd R.DIE_BOOT_STAT = d.rd R.DIE_BOOT_STAT :=
    fun v => Dev.rd_wr_boot _ _ (header_ne_boot (by decide))
  simp only [irqRise]
  (repeat' split) <;> simp [hw]

@[simp] theorem idle_boot (d : Dev) (pg : Page) : (idle d pg).rd R.DIE_BOOT_STAT = d.rd R.DIE_BOOT_STAT := irqRise_boot d pg 1

theorem Dev.inc_boot (d : Dev) {r : Reg} (n : Nat) (h : r ≠ R.DIE_BOOT_STAT) :
    (d.inc r n).rd R.DIE_BOOT_STAT = d.rd R.DIE_BOOT_STAT := by
  simp only [Dev.inc]
  split <;> simp [Dev.rd_wr_boot _ _ h]

/-! ## Telemetry and faults leave the row status alone -/

@[simp] theorem ringWrite_boot (d : Dev) (n rec : Nat) : (ringWrite d n rec).rd R.DIE_BOOT_STAT = d.rd R.DIE_BOOT_STAT := by
  have hw : ∀ (x : Dev) v, (x.wr (R.TLM_HR_TAIL n) v).rd R.DIE_BOOT_STAT = x.rd R.DIE_BOOT_STAT :=
    fun x v => Dev.rd_wr_boot x v (page_ne_boot nofun)
  simp only [ringWrite]
  (repeat' split) <;> simp only [Dev.emit_read_rd, hw] <;> rfl

/-- A status bit of a path set as the path changes. -/
theorem setPath_setFld_boot (d : Dev) (p : TlmPath) (q : Path) (hi lo v : Nat) :
    ((d.setPath p q).setFld (tlmStat p) hi lo v).rd R.DIE_BOOT_STAT = d.rd R.DIE_BOOT_STAT :=
  Dev.rd_setFld_boot _ _ _ _ (pathReg_ne_boot p 0)

@[simp] theorem pathAlarm_boot (d : Dev) (p : TlmPath) (rec : Nat) :
    (pathAlarm d p rec).rd R.DIE_BOOT_STAT = d.rd R.DIE_BOOT_STAT := by
  have hm : (d.inc (tlmMerge p) 1).rd R.DIE_BOOT_STAT = d.rd R.DIE_BOOT_STAT := Dev.inc_boot d 1 (pathReg_ne_boot p 0x18)
  have hheld : ∀ (c : Bool) q, (if c = true then d.inc (tlmMerge p) 1
      else (d.setPath p q).setFld (tlmStat p) 1 1 1).rd R.DIE_BOOT_STAT = d.rd R.DIE_BOOT_STAT := by
    intro c q
    split
    · exact hm
    · exact setPath_setFld_boot ..
  simp only [pathAlarm]
  split
  · rfl
  · split <;> split
    · exact ringWrite_boot ..
    · exact hheld ..
    · split <;> rfl
    · exact hheld ..

@[simp] theorem pathAppend_boot (d : Dev) (p : TlmPath) (rec : Nat) :
    (pathAppend d p rec).rd R.DIE_BOOT_STAT = d.rd R.DIE_BOOT_STAT := by
  unfold pathAppend
  split
  · rfl
  · extract_lets q d1
    have h1 : d1.rd R.DIE_BOOT_STAT = d.rd R.DIE_BOOT_STAT := by
      dsimp only [d1]
      split
      · split <;> simp
      · rfl
    split
    · exact (setPath_setFld_boot ..).trans h1
    · exact h1

@[simp] theorem pathEnter_boot (d : Dev) (p : TlmPath) (rec : Nat) :
    (pathEnter d p rec).rd R.DIE_BOOT_STAT = d.rd R.DIE_BOOT_STAT := by
  unfold pathEnter
  split <;> simp

/-- A record a path loses: its counter, and the bit that says so (R396). -/
theorem dropCounted_boot (d : Dev) (p : TlmPath) (off : Nat) (n hi lo v : Nat) :
    ((d.inc (pathReg p off) n).setFld (tlmStat p) hi lo v).rd R.DIE_BOOT_STAT = d.rd R.DIE_BOOT_STAT :=
  (Dev.rd_setFld_boot _ _ _ _ (pathReg_ne_boot p 0)).trans (Dev.inc_boot _ _ (pathReg_ne_boot p off))

@[simp] theorem keyRecord_boot (d : Dev) (p : TlmPath) (rec : Nat) :
    (keyRecord d p rec).rd R.DIE_BOOT_STAT = d.rd R.DIE_BOOT_STAT := by
  simp only [keyRecord, tlmDropPair]
  (repeat' split) <;> simp [dropCounted_boot]

@[simp] theorem pathPost_boot (d : Dev) (p : TlmPath) (rec : Nat) :
    (pathPost d p rec).rd R.DIE_BOOT_STAT = d.rd R.DIE_BOOT_STAT := by
  simp only [pathPost, tlmDropTrace]
  (repeat' split) <;> simp [dropCounted_boot]

@[simp] theorem postFault_boot (d : Dev) (pg : Page) (code info0 info1 : Nat) :
    (postFault d pg code info0 info1).rd R.DIE_BOOT_STAT = d.rd R.DIE_BOOT_STAT := by
  have hw : ∀ (x : Dev) (off v : Nat), off < 0x40 → (x.wr ⟨pg, off⟩ v).rd R.DIE_BOOT_STAT = x.rd R.DIE_BOOT_STAT :=
    fun x off v h => Dev.rd_wr_boot x v (header_ne_boot h)
  have hf : ∀ hi lo v, (d.setFld (R.FAULT_CODE pg) hi lo v).rd R.DIE_BOOT_STAT = d.rd R.DIE_BOOT_STAT :=
    fun hi lo v => Dev.rd_setFld_boot d hi lo v (header_ne_boot (by decide))
  simp only [postFault, postRecord, pathPost_boot]
  split
  · simp [R.FAULT_CODE, R.FAULT_INFO0, R.FAULT_INFO1, hw]
  · exact hf _ _ _

/-! ## Completion records leave the row status and the work that waits alone -/

/-- The steps of a partition that are not over: those pending and the one that runs. -/
def Port.work (p : Port) : List Job × Option Job := (p.jobs, p.run)

/-- A port set with the work it had: every port has the work it had. -/
theorem work_setPort (d : Dev) {n : Nat} {p : Port} (h : p.work = (d.port n).work) (m : Nat) :
    ((d.setPort n p).port m).work = (d.port m).work := by
  rw [Dev.port_setPort]
  split
  · subst_vars; exact h
  · rfl

@[simp] theorem cqWrite_boot (d : Dev) (n : Nat) (r : CqRec) : (cqWrite d n r).rd R.DIE_BOOT_STAT = d.rd R.DIE_BOOT_STAT := by
  have hw : ∀ (x : Dev) v, (x.wr (R.HQ_CQ_TAIL n) v).rd R.DIE_BOOT_STAT = x.rd R.DIE_BOOT_STAT :=
    fun x v => Dev.rd_wr_boot x v (page_ne_boot nofun)
  simp only [cqWrite]
  split <;> simp only [Dev.emit_read_rd, Dev.setPort_read_rd, hw] <;> rfl

@[simp] theorem cqWrite_work (d : Dev) (n : Nat) (r : CqRec) (m : Nat) : ((cqWrite d n r).port m).work = (d.port m).work := by
  simp only [cqWrite]
  split <;> exact work_setPort (Dev.wr _ _ _) (by rfl) m

@[simp] theorem complete_boot (d : Dev) (n : Nat) (r : CqRec) : (complete d n r).rd R.DIE_BOOT_STAT = d.rd R.DIE_BOOT_STAT := by
  simp only [complete]
  split <;> simp

@[simp] theorem complete_work (d : Dev) (n : Nat) (r : CqRec) (m : Nat) : ((complete d n r).port m).work = (d.port m).work := by
  simp only [complete]
  split
  · exact work_setPort d (by rfl) m
  · exact cqWrite_work d n r m

@[simp] theorem entryDone_boot (d : Dev) (n q entry status tag : Nat) (notify late : Bool) :
    (entryDone d n q entry status tag notify late).rd R.DIE_BOOT_STAT = d.rd R.DIE_BOOT_STAT := by
  unfold entryDone
  split <;> simp

@[simp] theorem entryDone_work (d : Dev) (n q entry status tag : Nat) (notify late : Bool) (m : Nat) :
    ((entryDone d n q entry status tag notify late).port m).work = (d.port m).work := by
  unfold entryDone
  split <;> simp

@[simp] theorem fencesDone_boot (d : Dev) (n q entry : Nat) : (fencesDone d n q entry).rd R.DIE_BOOT_STAT = d.rd R.DIE_BOOT_STAT :=
  foldl_keeps (·.rd R.DIE_BOOT_STAT) _ (fun _ _ => entryDone_boot ..) _ _

@[simp] theorem fencesDone_work (d : Dev) (n q entry m : Nat) : ((fencesDone d n q entry).port m).work = (d.port m).work :=
  (foldl_keeps (fun x => (x.port m).work) _ (fun _ _ => entryDone_work ..) _ _).trans (work_setPort d (by rfl) m)

@[simp] theorem jobOver_boot (d : Dev) (n : Nat) (j : Job) (status : Nat) (late : Bool) :
    (jobOver d n j status late).rd R.DIE_BOOT_STAT = d.rd R.DIE_BOOT_STAT := by
  simp [jobOver, entryOver]

/-- A job's record changes what its queue has outstanding, and no partition's work. -/
@[simp] theorem jobOver_work (d : Dev) (n : Nat) (j : Job) (status : Nat) (late : Bool) (m : Nat) :
    ((jobOver d n j status late).port m).work = (d.port m).work := by
  simp only [jobOver, entryOver, fencesDone_work]
  exact (work_setPort _ (by rfl) m).trans (entryDone_work ..)

/-! ## Cores that stop leave the row status alone -/

@[simp] theorem scramble_boot (d : Dev) (ss : List Span) : (scramble d ss).rd R.DIE_BOOT_STAT = d.rd R.DIE_BOOT_STAT := by
  refine foldl_keeps (·.rd R.DIE_BOOT_STAT) _ (fun _ _ => ?_) ss d
  rfl

@[simp] theorem wildPages_boot (d : Dev) (die : Nat) (l : List Nat) : (wildPages d die l).rd R.DIE_BOOT_STAT = d.rd R.DIE_BOOT_STAT := by
  refine foldl_keeps (·.rd R.DIE_BOOT_STAT) _ (fun x i => ?_) l d
  dsimp only
  split <;> simp

@[simp] theorem spillNext_boot (d : Dev) (die : Nat) : (spillNext d die).rd R.DIE_BOOT_STAT = d.rd R.DIE_BOOT_STAT := by
  unfold spillNext
  (repeat' split) <;> rfl

@[simp] theorem kvUnpin_boot (d : Dev) (die i : Nat) : (kvUnpin d die i).rd R.DIE_BOOT_STAT = d.rd R.DIE_BOOT_STAT := by
  simp only [kvUnpin, kvRelease]
  (repeat' split) <;> rw [spillNext_boot] <;> rfl

@[simp] theorem quitCore_boot (x : Dev) (e : (Nat × Nat) × CoreSt) : (quitCore x e).rd R.DIE_BOOT_STAT = x.rd R.DIE_BOOT_STAT := by
  have hk : ∀ l, (kvUnpinAll x e.1.1 l).rd R.DIE_BOOT_STAT = x.rd R.DIE_BOOT_STAT :=
    fun l => foldl_keeps (·.rd R.DIE_BOOT_STAT) _ (fun y i => kvUnpin_boot y _ i) l x
  simp only [quitCore]
  (repeat' split) <;> simp [hk]

@[simp] theorem quitCores_boot (d : Dev) (dies : List Nat) : (quitCores d dies).rd R.DIE_BOOT_STAT = d.rd R.DIE_BOOT_STAT := by
  refine foldl_keeps (·.rd R.DIE_BOOT_STAT) _ (fun x e => ?_) d.cores d
  split <;> simp

@[simp] theorem idleCores_boot (d : Dev) (n : Nat) : (idleCores d n).rd R.DIE_BOOT_STAT = d.rd R.DIE_BOOT_STAT := by
  simp only [idleCores]
  split
  · rfl
  · refine foldl_keeps (·.rd R.DIE_BOOT_STAT) _ (fun x k => ?_) _ d
    split <;> simp

@[simp] theorem switchOver_boot (d : Dev) (n : Nat) : (switchOver d n).rd R.DIE_BOOT_STAT = d.rd R.DIE_BOOT_STAT := by
  unfold switchOver
  split
  · exact foldl_keeps (·.rd R.DIE_BOOT_STAT) _ idle_boot _ d
  · rfl

@[simp] theorem stopCores_boot (d : Dev) (n : Nat) : (stopCores d n).rd R.DIE_BOOT_STAT = d.rd R.DIE_BOOT_STAT := by
  have hq : (quitCores (idleCores d n) (partDies (d.port n))).rd R.DIE_BOOT_STAT = d.rd R.DIE_BOOT_STAT := by simp
  simp only [stopCores]
  rw [foldl_keeps (·.rd R.DIE_BOOT_STAT) _ spillNext_boot, Dev.setPort_read_rd]
  split <;> exact hq

@[simp] theorem dropCopies_boot (d : Dev) (dies : List Nat) (slot : Nat) :
    (dropCopies d dies slot).rd R.DIE_BOOT_STAT = d.rd R.DIE_BOOT_STAT := rfl

@[simp] theorem dropSuspended_boot (d : Dev) (n : Nat) : (dropSuspended d n).rd R.DIE_BOOT_STAT = d.rd R.DIE_BOOT_STAT := by
  refine foldl_keeps (·.rd R.DIE_BOOT_STAT) _ (fun x i => ?_) _ d
  split
  · rfl
  · exact foldl_keeps (·.rd R.DIE_BOOT_STAT) _ quitCore_boot _ x

/-- Jobs that fault stop no row. -/
@[simp] theorem faultAll_boot (d : Dev) (n code : Nat) : (faultAll d n code).rd R.DIE_BOOT_STAT = d.rd R.DIE_BOOT_STAT := by
  simp only [faultAll]
  rw [foldl_keeps (·.rd R.DIE_BOOT_STAT) _ (fun _ _ => jobOver_boot ..), Dev.setPort_read_rd,
    foldl_keeps (·.rd R.DIE_BOOT_STAT) _ (dropCopies_boot · _ ·)]
  simp

/-- A partition whose jobs have all faulted has no work left (R258). -/
theorem faultAll_work (d : Dev) (n code : Nat) : ((faultAll d n code).port n).work = ([], none) := by
  simp only [faultAll]
  rw [foldl_keeps (fun x => (x.port n).work) _ (fun _ _ => jobOver_work ..), Dev.port_setPort_self]
  rfl

/-! ## A row off: its dies -/

/-- A page reset keeps the registers of other pages. -/
theorem Dev.rd_resetPages (d : Dev) (p : Page → Bool) {q : Reg} (h : p q.page = false) : (d.resetPages p).rd q = d.rd q := by
  simp [Dev.rd, Dev.reg, Dev.resetPages, look_without, h]

/-- No global page stands in a die's window. -/
theorem dieG_not_mem_diePages (die : Nat) : Page.dieG ∉ diePages die := by
  simp [diePages]

@[simp] theorem dropStreams_boot (d : Dev) (die : Nat) : (dropStreams d die).rd R.DIE_BOOT_STAT = d.rd R.DIE_BOOT_STAT :=
  Dev.rd_resetPages _ _ rfl

/-- A die without power: every register outside its window stays. -/
theorem deadDie_rd (d : Dev) (die : Nat) {q : Reg} (h : q.page ∉ diePages die) : (deadDie d die).rd q = d.rd q := by
  have hvc : q.page ≠ Page.vcD die := fun e => h (by simp [e, diePages])
  have htlm : q.page ≠ Page.tlmD die := fun e => h (by simp [e, diePages])
  have hlo : R.RAS_CORE_FAIL_LO die ≠ q := fun e => htlm (congrArg Reg.page e).symm
  have hhi : R.RAS_CORE_FAIL_HI die ≠ q := fun e => htlm (congrArg Reg.page e).symm
  have hs : (dropStreams (emptyDie d die) die).rd q = d.rd q := Dev.rd_resetPages _ _ (by simpa using hvc)
  have hp : ((dropStreams (emptyDie d die) die).resetPages (fun g =>
      ((diePages die).filter (fun g => !decide (g = Page.dieD die))).contains g)).rd q = d.rd q :=
    (Dev.rd_resetPages _ _ (by simp [h])).trans hs
  refine Eq.trans ?_ hp
  exact (Dev.rd_wr_ne _ _ hhi).trans (Dev.rd_wr_ne _ _ hlo)

@[simp] theorem deadDie_boot (d : Dev) (die : Nat) : (deadDie d die).rd R.DIE_BOOT_STAT = d.rd R.DIE_BOOT_STAT :=
  deadDie_rd d die (dieG_not_mem_diePages die)

@[simp] theorem deadDie_ports (d : Dev) (die : Nat) : (deadDie d die).ports = d.ports := rfl

@[simp] theorem deadDie_byte (d : Dev) (die : Nat) (sp : Space) (a : Nat) : (deadDie d die).mem.byte sp a = d.mem.byte sp a :=
  Mems.byte_clearPoison ..

/-- The cores of a die without power are empty; every other core is as it was. -/
theorem deadDie_cs (d : Dev) (die x c : Nat) : (deadDie d die).cs x c = if x = die then {} else d.cs x c := by
  refine (look_without (fun k : Nat × Nat => k.1 == die) {} d.cores (x, c)).trans ?_
  simp [Dev.cs]

theorem foldl_deadDie_cs (dies : List Nat) (d : Dev) (x c : Nat) :
    (dies.foldl deadDie d).cs x c = if x ∈ dies then {} else d.cs x c := by
  induction dies generalizing d with
  | nil => simp
  | cons die t ih =>
    rw [List.foldl_cons, ih, deadDie_cs]
    by_cases ht : x ∈ t <;> simp [ht]

/-! ## A row off: its memory and its links -/

/-- A byte outside the span that is cleared stays. -/
theorem getByte_clearCells_outside (m : List Host.Cell) {lo hi a : Nat} (h : a < lo ∨ hi ≤ a) :
    getByte (clearCells m lo hi) a = getByte m a := by
  have hc : cellAt (clearCells m lo hi) a = cellAt m a := by
    induction m with
    | nil => rfl
    | cons e t ih =>
      obtain ⟨j, b⟩ := e
      by_cases hj : lo ≤ j ∧ j < hi
      · have : j ≠ a := by omega
        simpa [clearCells, cellAt, hj, this] using ih
      · have hkeep : clearCells ((j, b) :: t) lo hi = (j, b) :: clearCells t lo hi := by
          have hout : (!(decide (lo ≤ j) && decide (j < hi))) = true := by
            rw [← Bool.decide_and, decide_eq_false hj, Bool.not_false]
          exact List.filter_cons_of_pos hout
        rw [hkeep, cellAt, cellAt, ih]
  rw [getByte, getByte, hc]

/-- The clearing of a row leaves the tile memory of every other row as it was (R290). -/
theorem clearRow_tm_outside (d : Dev) (r : Nat) {a : Nat} (h : a < tmBase (4 * r) 0 ∨ tmBase (4 * r + 4) 0 ≤ a) :
    (clearRow d r).mem.byte .tm a = d.mem.byte .tm a := getByte_clearCells_outside d.mem.tm h

@[simp] theorem clearRow_rd (d : Dev) (r : Nat) (q : Reg) : (clearRow d r).rd q = d.rd q := rfl
@[simp] theorem clearRow_ports (d : Dev) (r : Nat) : (clearRow d r).ports = d.ports := rfl
@[simp] theorem clearRow_cores (d : Dev) (r : Nat) : (clearRow d r).cores = d.cores := rfl

/-- What the setting of a row's link registers and of its links' own state leaves alone, the links off leave alone. -/
theorem linksOff_keeps {β : Type} (f : Dev → β) (hl : ∀ x k l, f (Dev.setLink x k l) = f x)
    (hs : ∀ x die p hi lo v, f (Dev.setFld x (R.JLINK_STAT die p) hi lo v) = f x) (d : Dev) (r : Nat) : f (linksOff d r) = f d := by
  refine foldl_keeps f _ (fun x die => foldl_keeps f _ (fun y p => ?_) _ x) _ d
  simp only [hl, hs]

@[simp] theorem linksOff_boot (d : Dev) (r : Nat) : (linksOff d r).rd R.DIE_BOOT_STAT = d.rd R.DIE_BOOT_STAT :=
  linksOff_keeps (·.rd R.DIE_BOOT_STAT) (fun _ _ _ => rfl)
    (fun x _ _ hi lo v => Dev.rd_setFld_boot x hi lo v (page_ne_boot nofun)) d r

@[simp] theorem linksOff_ports (d : Dev) (r : Nat) : (linksOff d r).ports = d.ports :=
  linksOff_keeps (·.ports) (fun _ _ _ => rfl) (fun _ _ _ _ _ _ => rfl) d r

@[simp] theorem linksOff_cores (d : Dev) (r : Nat) : (linksOff d r).cores = d.cores :=
  linksOff_keeps (·.cores) (fun _ _ _ => rfl) (fun _ _ _ _ _ _ => rfl) d r

/-! ## A row off -/

@[simp] theorem rowOff_ports (d : Dev) (r : Nat) : (rowOff d r).ports = d.ports := by
  simp only [rowOff, linksOff_ports, Dev.setFld_ports, clearRow_ports]
  exact foldl_keeps (·.ports) _ deadDie_ports _ d

/-- No core of a row that is off has a command in flight. -/
theorem rowOff_flight (d : Dev) (r : Nat) {die : Nat} (h : die ∈ rowDies r) (c : Nat) : ((rowOff d r).cs die c).flight = none := by
  have hcs : (rowOff d r).cs die c = ((rowDies r).foldl deadDie d).cs die c := by
    simp only [Dev.cs, rowOff, linksOff_cores, Dev.setFld_cores, clearRow_cores]
  rw [hcs, foldl_deadDie_cs, if_pos h]

theorem rowOff_tm_outside (d : Dev) (r : Nat) {a : Nat} (h : a < tmBase (4 * r) 0 ∨ tmBase (4 * r + 4) 0 ≤ a) :
    (rowOff d r).mem.byte .tm a = d.mem.byte .tm a := by
  simp only [rowOff, linksOff_mem, Dev.setFld_mem, clearRow_tm_outside _ r h]
  exact foldl_keeps (·.mem.byte .tm a) _ (fun x die => deadDie_byte x die .tm a) _ d

/-- A row off is down, and every other row is up exactly when it was. -/
theorem rowUp_rowOff (d : Dev) (r : Nat) {q : Nat} (hq : q < 4) :
    rowUp (rowOff d r) q = if q = r then false else rowUp d q := by
  have hdies : ((rowDies r).foldl deadDie d).rd R.DIE_BOOT_STAT = d.rd R.DIE_BOOT_STAT :=
    foldl_keeps (·.rd R.DIE_BOOT_STAT) _ deadDie_boot _ d
  have hoff : (rowOff d r).rd R.DIE_BOOT_STAT = withBits (d.rd R.DIE_BOOT_STAT) (8 + r) (8 + r) 0 % 2 ^ 32 := by
    have hok : R.PART_ROW_OK ≠ R.DIE_BOOT_STAT := page_ne_boot nofun
    rw [rowOff, linksOff_boot, Dev.rd_setFld_boot _ _ _ _ hok, Dev.setFld, Dev.rd_wr_self, clearRow_rd, hdies]
  have hcut : ∀ w, bit (w % 2 ^ 32) (8 + q) = bit w (8 + q) := fun w => by
    have : 8 + q < 32 := by omega
    rw [bit_eq_testBit, bit_eq_testBit, Nat.testBit_mod_two_pow, decide_eq_true this, Bool.true_and]
  have h11 : 8 + q ≤ 11 := by omega
  simp only [rowUp, Dev.fld, hoff, bit_bits _ _ _ _ h11, hcut, bit_withBits, Nat.add_left_cancel_iff]
  rfl

/-! ## A row that stops -/

/-- A row that is up stops as its stages go off (R28); before that, the work of the partition that contains it faults, if one does. -/
theorem stopRow_of_up {d : Dev} {r : Nat} (code info0 : Nat) (h : rowUp d r = true) :
    ∃ x : Dev, stopRow code info0 d r = rowOff x r ∧ x.rd R.DIE_BOOT_STAT = d.rd R.DIE_BOOT_STAT ∧
      (∀ n, ownerOf d (4 * r) = some n → (x.port n).work = ([], none)) ∧ (ownerOf d (4 * r) = none → x = d) := by
  simp only [stopRow, h, Bool.not_true, Bool.false_eq_true, if_false]
  cases ho : ownerOf d (4 * r) with
  | none => exact ⟨d, rfl, rfl, nofun, fun _ => rfl⟩
  | some n =>
    refine ⟨_, rfl, ?_, ?_, nofun⟩
    · rw [faultAll_boot]
      split <;> simp
    · rintro m ⟨⟩
      exact faultAll_work ..

theorem stopRow_of_down {d : Dev} {r : Nat} (code info0 : Nat) (h : rowUp d r = false) : stopRow code info0 d r = d := by
  simp [stopRow, h]

/-- Rows are up or down by their status register alone. -/
theorem rowUp_congr {d e : Dev} (h : e.rd R.DIE_BOOT_STAT = d.rd R.DIE_BOOT_STAT) (q : Nat) : rowUp e q = rowUp d q := by
  simp only [rowUp, Dev.fld, h]

/-- Settles O40: the row's stages go off by the row's own status bit, its own dies and its own span of tile memory; what
faults before that is its partition's work. -/
theorem rowFaultStopsOneRow : Obligations.RowFaultStopsOneRow := by
  unfold Obligations.RowFaultStopsOneRow
  intro r s d
  refine ⟨fun hdown => ?_, fun hup => ?_⟩
  · show Host.Outcome.next { s with dev := phaseFail r.val d } = .next s
    rw [phaseFail, stopRow_of_down _ _ hdown]
  · obtain ⟨x, hx, hboot, hwork, hfree⟩ := stopRow_of_up 0x0703 r.val hup
    have hrun : exec (.rowPhaseFail r) s = .next { s with dev := rowOff x r.val } := by rw [← hx]; rfl
    refine ⟨rowOff x r.val, hrun, ?_, fun q hq hne => ?_, fun n hn => ?_, fun die hdie c => ?_, fun ho a ha => ?_⟩
    · rw [rowUp_rowOff x r.val r.isLt, if_pos rfl]
    · rw [rowUp_rowOff x r.val hq, if_neg hne, rowUp_congr hboot]
    · have hport : (rowOff x r.val).port n = x.port n := congrArg (fun l => look ({} : Port) l n) (rowOff_ports x r.val)
      rw [hport]
      exact Prod.ext_iff.1 (hwork n hn)
    · exact rowOff_flight x r.val hdie c
    · rw [rowOff_tm_outside x r.val ha, hfree ho]

end Sys2Proof.Machine
end

section
/-! A core row at a command's boundary: what the row does before the command issues, case by case, and which conditions of
R35 its decode checks answer with 0x0105. -/

namespace Sys2Proof.Machine
open Sys2Proof

/-! ## The first group of the decode checks (R35, R43, R458) -/

/-- R43's conditions on a tail entry, each by the field that breaks it. -/
theorem TailEnt.publishable_eq_false_iff (t : TailEnt) :
    t.publishable = false ↔ t.ty = 0 ∨ t.ty = 1 ∨ 8 ≤ t.ty ∨ ((t.ty = 3 ∨ t.ty = 4) ∧ 64 ≤ t.target) ∨
      (t.ty = 5 ∧ 63 ≤ t.target) ∨ (t.ty = 7 ∧ (t.target = 0 ∨ 4 ≤ t.target)) := by
  unfold TailEnt.publishable
  split
  case h_7 h2 h3 h4 h5 h6 h7 =>
    have hty : t.ty = 0 ∨ t.ty = 1 ∨ 8 ≤ t.ty := by
      simp only [imp_false] at h2 h3 h4 h5 h6 h7
      omega
    exact iff_of_true rfl (hty.imp_right (Or.imp_right Or.inl))
  case h_6 hty =>
    simp only [Bool.and_eq_false_iff, decide_eq_false_iff_not]
    omega
  case h_1 hty | h_5 hty =>
    exact iff_of_false nofun (by omega)
  case h_2 hty | h_3 hty | h_4 hty =>
    rw [decide_eq_false_iff_not]
    omega

theorem tailOk_eq_false_iff (c : Cmd) (acq : TailEnt) (tail : List TailEnt) :
    tailOk c acq tail = false ↔ (c.acq = true ∧ acq.ty ≠ 1) ∨ ∃ t ∈ tail, t.publishable = false := by
  have hacq : (!c.acq || acq.ty == 1) = false ↔ c.acq = true ∧ acq.ty ≠ 1 := by
    simp only [Bool.or_eq_false_iff, Bool.not_eq_false', beq_eq_false_iff_ne]
  have htail : tail.all TailEnt.publishable = false ↔ ∃ t ∈ tail, t.publishable = false := by
    simp only [List.all_eq_false, Bool.not_eq_true]
  rw [tailOk, Bool.and_eq_false_iff, hacq, htail]

/-- A tail of R35 or a reserved space is found before any other group of R458. -/
theorem decodeStop_of_undecodable {op : OpSpec} {x : Ctx} {acq : TailEnt} {tail : List TailEnt}
    (h : tailOk x.cmd acq tail = false ∨ ∃ q ∈ op.descs x, descSpace q.2.1 = 7) :
    decodeStop op x acq tail = some { code := cDecodeUndef, core := true } := by
  have hgroup : (!tailOk x.cmd acq tail || (op.descs x).any (fun t => descSpace t.2.1 == 7)) = true := by
    simpa only [Bool.or_eq_true, Bool.not_eq_true', List.any_eq_true, beq_iff_eq] using h
  simp only [decodeStop, hgroup, if_true]

/-- A command that its decode checks stop has begun nothing: neither tide entry nor prologue, acquire or work. -/
theorem issue_of_undecodable {op : OpSpec} {h : Here} {die c : Nat} {cmd : Cmd} {d : Dev} (u : Upset)
    (hbad : tailOk cmd (tailAt d h.p h.ps cmd.tailIndex) (tailOf d h.p h.ps cmd) = false ∨
      ∃ q ∈ op.descs ⟨d, h.n, h.job.slot, die, c, cmd⟩, descSpace q.2.1 = 7) :
    issue op h die c u cmd d = cmdStop d h die c { code := cDecodeUndef, core := true } := by
  simp only [issue, decodeStop_of_undecodable (x := ⟨d, h.n, h.job.slot, die, c, cmd⟩) hbad]

/-! ## The row of a core, case by case (R34, R35, R389) -/

section
variable {d : Dev} {k : CoreIx} {h : Here} (op : OpSpec) (u : Upset)
  (hh : here d k.die.val k.core.val = some h) (hmay : mayIssue d h k.die.val k.core.val = true)
include hh hmay

theorem issueRow_past_end (hplace : fetchPlace d h.p h.ps (relCore h.p k.die.val k.core.val) h.cs = none) :
    issueRow op k u d = cmdStop d h k.die.val k.core.val { code := cDecodeUndef, core := true } := by
  simp only [issueRow, hh, hmay, hplace, Bool.not_true, Bool.false_eq_true, if_false]

variable {place : Nat} (hplace : fetchPlace d h.p h.ps (relCore h.p k.die.val k.core.val) h.cs = some place)
include hplace

theorem issueRow_poisoned (hbad : recordBad d h.p h.ps place (readCmd d.mem place) = true) :
    issueRow op k u d = cmdStop d h k.die.val k.core.val { code := 0x0502 } := by
  simp only [issueRow, hh, hmay, hplace, hbad, Bool.not_true, Bool.false_eq_true, if_false, if_true]

theorem issueRow_undefined_opcode (hsound : recordBad d h.p h.ps place (readCmd d.mem place) = false)
    (hop : opcodeDefined (readCmd d.mem place).opcode = false) :
    issueRow op k u d = cmdStop d h k.die.val k.core.val { code := cDecodeUndef, core := true } := by
  simp only [issueRow, hh, hmay, hplace, hsound, hop, Bool.not_true, Bool.not_false, Bool.false_eq_true, if_false, if_true]

/-- A sound record of the row's own opcode, free to issue, is issued. -/
theorem issueRow_issues (hsound : recordBad d h.p h.ps place (readCmd d.mem place) = false)
    (hdef : opcodeDefined (readCmd d.mem place).opcode = true) (hop : (readCmd d.mem place).opcode = op.opcode)
    (hmine : op.mine (readCmd d.mem place) = true)
    (hfree : op.holds ⟨d, h.n, h.job.slot, k.die.val, k.core.val, readCmd d.mem place⟩ = false) :
    issueRow op k u d = issue op h k.die.val k.core.val u (readCmd d.mem place) d := by
  rw [hop] at hdef
  simp only [issueRow, hh, hmay, hplace, hsound, hdef, hop, hmine, hfree, beq_self_eq_true, Bool.and_self, Bool.not_true,
    Bool.false_eq_true, if_false, if_true]

end

/-! ## The 40 rows of the sequencer -/

/-- A row runs the shared machinery with its opcode's particulars. -/
def RunsIssueRow (r : OpSpec × (CoreIx → Upset → Instr)) : Prop :=
  ∀ (k : CoreIx) (u : Upset) (s : State), exec (r.2 k u) s = .next { s with dev := issueRow r.1 k u s.dev }

theorem coreRows_run_issueRow : ∀ r ∈ coreRows, RunsIssueRow r := by
  unfold coreRows
  repeat refine List.forall_mem_cons.2 ⟨fun _ _ _ => rfl, ?_⟩
  exact nofun

/-- Settles O58: an undefined opcode is met before the command is issued, every other condition of R35 in the first group of
its decode checks, and both stop it in the device as it stood. -/
theorem undecodableCommandsDoNoWork : Obligations.UndecodableCommandsDoNoWork := by
  unfold Obligations.UndecodableCommandsDoNoWork
  intro op mk hrow k u s h d die c bad hh hmay
  rw [coreRows_run_issueRow _ hrow k u s]
  refine ⟨fun hend => ?_, fun place hplace => ⟨fun hpoison => ?_, fun hsound hcase => ?_⟩⟩
  · rw [issueRow_past_end op u hh hmay hend]; rfl
  · rw [issueRow_poisoned op u hh hmay hplace hpoison]
  · cases hdef : opcodeDefined (readCmd d.mem place).opcode with
    | false => rw [issueRow_undefined_opcode op u hh hmay hplace hsound hdef]; rfl
    | true =>
      obtain ⟨hop, hmine, hfree, hundec⟩ := hcase.resolve_left (by rw [hdef]; nofun)
      rw [issueRow_issues op u hh hmay hplace hsound hdef hop hmine hfree, issue_of_undecodable]
      · rfl
      · simp only [tailOk_eq_false_iff, TailEnt.publishable_eq_false_iff]
        exact hundec.symm

end Sys2Proof.Machine
end

section
/-! The descriptor spaces of a command's decode checks: where group 6 of R458 stands among the others, what a command whose
work is done has passed, and the spaces of the MM. -/

namespace Sys2Proof.Machine
open Sys2Proof

/-! ## The space group of the decode checks (R458) -/

/-- The first descriptor outside its spaces is what stops a command that passes the groups before: tail and reserved spaces,
format codes, pair, output format. -/
theorem decodeStop_of_badDesc {op : OpSpec} {x : Ctx} {acq : TailEnt} {tail : List TailEnt} {i : Nat}
    (htail : tailOk x.cmd acq tail = true) (hreserved : ∀ q ∈ op.descs x, descSpace q.2.1 ≠ 7)
    (hfmts : (op.fmts x.cmd ++ op.recFmts x).all (· < 10) = true) (hpair : op.pair x.cmd = true)
    (hout : op.out x.cmd = true) (hrecOut : op.recOut x = true) (hbad : badDesc (op.descs x) = some i) :
    decodeStop op x acq tail = some { code := cSpace, desc := i, core := true } := by
  have hspaces : (op.descs x).any (fun t => descSpace t.2.1 == 7) = false := by
    simpa only [List.any_eq_false, beq_iff_eq] using hreserved
  have hcodes : (op.fmts x.cmd ++ op.recFmts x).any (fun f => decide (10 ≤ f)) = false := by
    simpa only [List.any_eq_false, List.all_eq_true, decide_eq_true_eq, Nat.not_le] using hfmts
  simp only [decodeStop, htail, hspaces, hcodes, hpair, hout, hrecOut, hbad, Bool.not_true, Bool.or_self, Bool.and_self,
    Bool.false_eq_true, if_false]

/-- A command that passes its decode checks has every used descriptor inside the spaces it may name. -/
theorem badDesc_eq_none_of_decodeStop_eq_none {op : OpSpec} {x : Ctx} {acq : TailEnt} {tail : List TailEnt}
    (hpass : decodeStop op x acq tail = none) : badDesc (op.descs x) = none := by
  cases hbad : badDesc (op.descs x) with
  | none => rfl
  | some i =>
    simp only [decodeStop, hbad] at hpass
    repeat' split at hpass
    all_goals exact nomatch hpass

/-- A command that fails its decode checks is stopped in the device as it stood. -/
theorem issue_of_decodeStop {op : OpSpec} {h : Here} {die c : Nat} {cmd : Cmd} {d : Dev} {why : Stop} (u : Upset)
    (hstop : decodeStop op ⟨d, h.n, h.job.slot, die, c, cmd⟩ (tailAt d h.p h.ps cmd.tailIndex) (tailOf d h.p h.ps cmd) = some why) :
    issue op h die c u cmd d = cmdStop d h die c why := by
  simp only [issue, hstop]

/-- A command whose work is done has passed its decode checks. -/
theorem decodeStop_eq_none_of_attemptOf {op : OpSpec} {d : Dev} {k : CoreIx} {u : Upset} {h : Here} {place : Nat}
    (hh : here d k.die.val k.core.val = some h)
    (hplace : fetchPlace d h.p h.ps (relCore h.p k.die.val k.core.val) h.cs = some place)
    (hwork : (attemptOf op d k u).isSome = true) :
    decodeStop op ⟨d, h.n, h.job.slot, k.die.val, k.core.val, readCmd d.mem place⟩
      (tailAt d h.p h.ps (readCmd d.mem place).tailIndex) (tailOf d h.p h.ps (readCmd d.mem place)) = none := by
  simp only [attemptOf, hh, hplace] at hwork
  split at hwork
  case isTrue hchecks =>
    simp only [Bool.and_eq_true, Option.isNone_iff_eq_none] at hchecks
    obtain ⟨⟨⟨_, hdecode⟩, _⟩, _⟩ := hchecks
    exact hdecode
  case isFalse => exact absurd hwork nofun

/-! ## The spaces of the MM (R87) -/

/-- Every descriptor an MM uses is restricted to tile memory. -/
theorem opMm_descs_spaces {x : Ctx} {q : Nat × Nat × List Nat} (hq : q ∈ opMm.descs x) : q.2.2 = [1, 2] := by
  simp only [opMm, tmDesc, List.mem_append, List.mem_ite_nil_right, List.mem_cons, List.not_mem_nil, or_false] at hq
  obtain ((rfl | rfl | rfl) | ⟨_, rfl⟩) | ⟨_, rfl | rfl⟩ := hq <;> rfl

/-- The descriptor that stops an MM is the first that names neither space of tile memory. -/
theorem badDesc_opMm (x : Ctx) : badDesc (opMm.descs x) =
    ((opMm.descs x).find? (fun t => descSpace t.2.1 != 1 && descSpace t.2.1 != 2)).map (·.1) := by
  have houtside : ∀ q ∈ opMm.descs x, (!q.2.2.contains (descSpace q.2.1)) = (descSpace q.2.1 != 1 && descSpace q.2.1 != 2) := by
    intro q hq
    simp only [opMm_descs_spaces hq, List.contains_cons, List.contains_nil, Bool.or_false, Bool.not_or, bne]
  rw [badDesc, ← List.head?_filter, List.filter_congr houtside, List.head?_filter]

/-- Settles O59: the space group of R458 stops the MM at its first such descriptor before anything has begun, and an MM whose
work is done has passed that group. -/
theorem mmReachesTileMemoryOnly : Obligations.MmReachesTileMemoryOnly := by
  unfold Obligations.MmReachesTileMemoryOnly
  intro k u s h place d die c cmd x ds hh hmay hplace hsound hop
  refine ⟨fun htail hreserved hfmts hpair hout q hq => ?_, fun hwork q hq => ?_⟩
  · have hbad : badDesc (opMm.descs x) = some q.1 := by rw [badDesc_opMm, hq, Option.map_some]
    have hcodes : (opMm.fmts cmd ++ opMm.recFmts x).all (· < 10) = true := by
      have hnone : opMm.recFmts x = [] := rfl
      rwa [hnone, List.append_nil]
    have hstop := decodeStop_of_badDesc (op := opMm) (x := x) htail hreserved hcodes hpair hout rfl hbad
    have hrun : exec (.mm k u) s = .next { s with dev := issueRow opMm k u d } := rfl
    have hdefined : opcodeDefined cmd.opcode = true := by rw [hop]; rfl
    rw [hrun, issueRow_issues opMm u hh hmay hplace hsound hdefined hop rfl rfl, issue_of_decodeStop u hstop]
    rfl
  · have hbad := badDesc_eq_none_of_decodeStop_eq_none (decodeStop_eq_none_of_attemptOf hh hplace hwork)
    rw [badDesc_opMm, Option.map_eq_none_iff, List.find?_eq_none] at hbad
    have hinside := hbad q hq
    simpa only [Bool.and_eq_true, bne_iff_ne, Decidable.not_and_iff_not_or_not, Decidable.not_not] using hinside

end Sys2Proof.Machine
end

section
/-! Creating or resetting a partition empties the KV page table of its dies (R163): what the page tables hold as one value, what
emptying a die does to it, and which operations leave it alone. -/

namespace Sys2Proof.Machine
open Sys2Proof

/-! ## The page tables as partitions see them -/

/-- What the KV page tables of all dies hold: the entries, the frames taken from the pools, and of each die's page the registers
behind the common header (R161). -/
@[ext] structure KvTables where
  kvt : List ((Nat × Nat) × KvtEnt)
  taken : List (Nat × Nat)
  regs : Nat → Nat → Nat

def kvTables (d : Dev) : KvTables := ⟨d.kvt, d.taken, fun die o => d.rd ⟨.kvt die, 0x40 + o⟩⟩

/-- The counters of a die's KVT page (R161). -/
def kvtCounters (die : Nat) : List Reg :=
  [R.KVT_MISS_CNT die, R.KVT_SPILL_CNT die, R.KVT_SPILL_ABORT die, R.KVT_OP_REJ die, R.KVT_FREE_USE die,
    R.KVT_ALLOC_HOST die, R.KVT_TIDE_SKIP die]

/-- The registers of a die's KVT page that R163 sets to 0. -/
def kvtCleared (die : Nat) : List Reg := R.KVT_EPOCH die :: kvtCounters die

/-- Some registers set to 0. -/
def KvTables.zero (t : KvTables) (l : List Reg) : KvTables :=
  { t with regs := fun die o => if ⟨.kvt die, 0x40 + o⟩ ∈ l then 0 else t.regs die o }

/-- A die without entries and frames. -/
def KvTables.emptied (t : KvTables) (c : Nat) : KvTables :=
  { t with kvt := without (fun k => k.1 == c) t.kvt, taken := t.taken.filter (fun k => !(k.1 == c)) }

/-- R163 for one die: no entry, no frame taken, the epoch and the counters at 0. -/
def KvTables.fresh (t : KvTables) (c : Nat) : KvTables := (t.emptied c).zero (kvtCleared c)

/-- A die whose KV page table is as R163 leaves it. -/
def KvFree (d : Dev) (die : Nat) : Prop :=
  (∀ i, d.kv die i = {}) ∧ (∀ f, (die, f) ∉ d.taken) ∧ d.rd (R.KVT_EPOCH die) = 0 ∧ ∀ g ∈ kvtCounters die, d.rd g = 0

/-- Their places on the page, behind its common header (R161). -/
theorem kvtCleared_eq_map (c : Nat) :
    kvtCleared c = [0x38, 0x40, 0x44, 0x48, 0x4C, 0x50, 0x54, 0x58].map (fun o => ⟨.kvt c, 0x40 + o⟩) := rfl

/-- The registers cleared on a die stand in its own KVT page, behind the common header. -/
theorem exists_of_mem_kvtCleared {c : Nat} {q : Reg} (h : q ∈ kvtCleared c) : ∃ o, q = ⟨.kvt c, 0x40 + o⟩ := by
  rw [kvtCleared_eq_map] at h
  obtain ⟨o, _, ho⟩ := List.mem_map.1 h
  exact ⟨o, ho.symm⟩

/-! ## One die and several -/

/-- The page tables hold nothing of a die, and what R163 clears on its page reads 0. -/
def KvTables.FreeAt (t : KvTables) (die : Nat) : Prop :=
  (∀ i, look {} t.kvt (die, i) = {}) ∧ (∀ f, (die, f) ∉ t.taken) ∧ ∀ o, ⟨.kvt die, 0x40 + o⟩ ∈ kvtCleared die → t.regs die o = 0

theorem KvTables.fresh_freeAt_self (t : KvTables) (die : Nat) : (t.fresh die).FreeAt die := by
  refine ⟨fun i => ?_, fun f => ?_, fun o ho => if_pos ho⟩
  · simp [fresh, emptied, zero, look_without]
  · simp [fresh, emptied, zero]

/-- A free die stays free as other dies are emptied. -/
theorem KvTables.FreeAt.fresh {t : KvTables} {die : Nat} (h : t.FreeAt die) (c : Nat) : (t.fresh c).FreeAt die := by
  obtain ⟨hents, hframes, hregs⟩ := h
  refine ⟨fun i => ?_, fun f hf => ?_, fun o ho => ?_⟩
  · simp [KvTables.fresh, KvTables.emptied, KvTables.zero, look_without, hents]
  · exact hframes f (List.mem_filter.1 hf).1
  · simp only [KvTables.fresh, KvTables.zero, KvTables.emptied, hregs o ho, ite_self]

theorem KvTables.foldl_fresh_freeAt (dies : List Nat) (t : KvTables) {die : Nat} (h : die ∈ dies ∨ t.FreeAt die) :
    (dies.foldl KvTables.fresh t).FreeAt die := by
  induction dies generalizing t with
  | nil => simpa using h
  | cons c l ih =>
    refine ih (t.fresh c) ?_
    rcases h with h | h
    · rcases List.mem_cons.1 h with rfl | h
      · exact .inr (t.fresh_freeAt_self _)
      · exact .inl h
    · exact .inr (h.fresh c)

/-- The page table of a die, read off the tables. -/
theorem KvFree.of_freeAt {d : Dev} {die : Nat} (h : (kvTables d).FreeAt die) : KvFree d die := by
  obtain ⟨hents, hframes, hregs⟩ := h
  have hzero : ∀ q ∈ kvtCleared die, d.rd q = 0 := fun q hq => by
    obtain ⟨o, rfl⟩ := exists_of_mem_kvtCleared hq
    exact hregs o hq
  exact ⟨hents, hframes, hzero _ (List.mem_cons_self ..), fun g hg => hzero g (List.mem_cons_of_mem _ hg)⟩

/-! ## What leaves the page tables alone -/

theorem kvTables_wr (d : Dev) {r : Reg} (v : Nat) (h : ∀ die, r.page ≠ .kvt die) : kvTables (d.wr r v) = kvTables d := by
  have hr : ∀ die o, (d.wr r v).rd ⟨.kvt die, 0x40 + o⟩ = d.rd ⟨.kvt die, 0x40 + o⟩ :=
    fun die o => Dev.rd_wr_ne d v (fun e => h die (congrArg Reg.page e))
  simp only [kvTables, Dev.wr_kvt, Dev.wr_taken, hr]

theorem kvTables_setFld (d : Dev) {r : Reg} (hi lo v : Nat) (h : ∀ die, r.page ≠ .kvt die) :
    kvTables (d.setFld r hi lo v) = kvTables d := kvTables_wr d _ h

@[simp] theorem kvTables_setPort (d : Dev) (n : Nat) (p : Port) : kvTables (d.setPort n p) = kvTables d := rfl
@[simp] theorem kvTables_setDp (d : Dev) (die : Nat) (q : DiePw) : kvTables (d.setDp die q) = kvTables d := rfl
@[simp] theorem kvTables_setPath (d : Dev) (p : TlmPath) (q : Path) : kvTables (d.setPath p q) = kvTables d := rfl
@[simp] theorem kvTables_emit (d : Dev) (o : Out) : kvTables (d.emit o) = kvTables d := rfl
@[simp] theorem kvTables_drawKey (d : Dev) (dies : List Nat) : kvTables (drawKey d dies) = kvTables d := rfl
@[simp] theorem kvTables_trainPort (d : Dev) (n : Nat) : kvTables (trainPort d n) = kvTables d := rfl
@[simp] theorem kvTables_reloadCopy (i : Nat) (d : Dev) : kvTables (reloadCopy i d) = kvTables d := rfl

@[simp] theorem kvTables_pageMsg (d : Dev) (pg : Page) : kvTables (pageMsg d pg) = kvTables d := by
  unfold pageMsg
  split
  · rfl
  · split
    · rfl
    · dsimp only
      split <;> rfl

theorem kvTables_irqRise (d : Dev) {pg : Page} (b : Nat) (h : ∀ die, pg ≠ .kvt die) : kvTables (irqRise d pg b) = kvTables d := by
  have hw : ∀ v, kvTables (d.wr (R.IRQ_STAT pg) v) = kvTables d := fun v => kvTables_wr d v h
  simp only [irqRise]
  (repeat' split) <;> simp [hw]

theorem kvTables_idle (d : Dev) {pg : Page} (h : ∀ die, pg ≠ .kvt die) : kvTables (idle d pg) = kvTables d :=
  kvTables_irqRise d 1 h

theorem kvTables_inc (d : Dev) {r : Reg} (n : Nat) (h : ∀ die, r.page ≠ .kvt die) : kvTables (d.inc r n) = kvTables d := by
  simp only [Dev.inc]
  split <;> simp only [kvTables_irqRise _ _ h, kvTables_wr _ _ h]

/-- A reset of pages that are no KVT page. -/
theorem kvTables_resetPages (d : Dev) {p : Page → Bool} (h : ∀ die, p (.kvt die) = false) :
    kvTables (d.resetPages p) = kvTables d := by
  have hr : ∀ die o, (d.resetPages p).rd ⟨.kvt die, 0x40 + o⟩ = d.rd ⟨.kvt die, 0x40 + o⟩ :=
    fun die o => Dev.rd_resetPages d p (h die)
  exact KvTables.ext rfl rfl (funext fun die => funext fun o => hr die o)

/-- The fault fields of a page stand in its common header. -/
@[simp] theorem kvTables_clearFault (d : Dev) (pg : Page) : kvTables (clearFault d pg) = kvTables d := by
  have hr : ∀ die o, (clearFault d pg).rd ⟨.kvt die, 0x40 + o⟩ = d.rd ⟨.kvt die, 0x40 + o⟩ := fun die o => by
    have hoff : ¬ 0x40 + o ≤ 0x2C := by omega
    simp [Dev.rd, Dev.reg, clearFault, look_without, hoff]
  exact KvTables.ext rfl rfl (funext fun die => funext fun o => hr die o)

theorem kvTables_clearCounters (d : Dev) {pg : Page} (h : ∀ die, pg ≠ .kvt die) : kvTables (clearCounters d pg) = kvTables d := by
  have hw : ∀ (x : Dev) o, kvTables (x.wr ⟨pg, o⟩ 0) = kvTables x := fun x o => kvTables_wr x 0 h
  refine foldl_keeps kvTables _ (fun x r => ?_) _ d
  split
  · rfl
  · refine foldl_keeps kvTables _ (fun y i => ?_) _ x
    dsimp only
    split <;> simp only [hw]

@[simp] theorem kvTables_clearTcu (d : Dev) (die : Nat) : kvTables (clearTcu d die) = kvTables d := by
  refine Eq.trans (foldl_keeps kvTables _ (fun x t => foldl_keeps kvTables _ (fun y r => ?_) _ x) _ _) rfl
  have hw : ∀ (z : Dev) o, kvTables (z.wr ⟨.tcu die t, o⟩ 0) = kvTables z := fun z o => kvTables_wr z 0 nofun
  dsimp only
  (repeat' split) <;> simp only [hw]

@[simp] theorem kvTables_dropStreams (d : Dev) (die : Nat) : kvTables (dropStreams d die) = kvTables d :=
  kvTables_resetPages _ fun _ => rfl

/-- No path's block stands in a KVT page (R397). -/
theorem tlmStat_ne_kvt (p : TlmPath) (die : Nat) : (tlmStat p).page ≠ .kvt die := by
  cases p with
  | aggr south => cases south <;> nofun
  | _ => nofun

@[simp] theorem kvTables_settlePath (d : Dev) (p : TlmPath) : kvTables (settlePath d p) = kvTables d := by
  simp only [settlePath, kvTables_setFld _ _ _ _ (tlmStat_ne_kvt p)]

@[simp] theorem kvTables_askPoint (d : Dev) (die pt : Nat) : kvTables (askPoint d die pt) = kvTables d := by
  have hset : ∀ (x : Dev) hi lo v, kvTables (x.setFld (R.PWR_DIE_PT die) hi lo v) = kvTables x :=
    fun x hi lo v => kvTables_setFld x hi lo v nofun
  simp only [askPoint, beginChange]
  (repeat' split) <;> simp only [hset, kvTables_setDp]

@[simp] theorem kvTables_selfRefresh (d : Dev) (die v : Nat) : kvTables (selfRefresh d die v) = kvTables d := by
  have hstack : ∀ (x : Dev) s, kvTables (x.setFld (R.HBMC_STAT die s) 2 2 v) = kvTables x := fun x s => kvTables_setFld x 2 2 v nofun
  simp only [selfRefresh, hstack]

@[simp] theorem kvTables_unconverge (d : Dev) : kvTables (unconverge d) = kvTables d :=
  (kvTables_setFld _ (r := R.PWR_CAL) 7 0 60 nofun).trans (kvTables_setFld _ (r := R.PWR_STAT) 4 4 0 nofun)

/-- A die that leaves its moon state for the clearing keeps its page table (R335). -/
@[simp] theorem kvTables_leaveForClear (d : Dev) (die : Nat) : kvTables (leaveForClear d die) = kvTables d := by
  have hmoon : ∀ (x : Dev) v, kvTables (x.setFld (R.PWR_MOON die) 2 0 v) = kvTables x := fun x v => kvTables_setFld x _ _ v nofun
  have hpoint : ∀ (x : Dev) v, kvTables (x.setFld (R.PWR_DIE_PT die) 18 16 v) = kvTables x := fun x v => kvTables_setFld x _ _ v nofun
  simp only [leaveForClear]
  (repeat' split) <;> simp only [hmoon, hpoint, kvTables_unconverge, kvTables_selfRefresh, kvTables_reloadCopy]

@[simp] theorem kvTables_partResp (d : Dev) (n st : Nat) : kvTables (partResp d n st) = kvTables d :=
  kvTables_setFld _ _ _ _ nofun

@[simp] theorem kvTables_freshHost (d : Dev) (n : Nat) : kvTables (freshHost d n) = kvTables d := by
  have hpages : kvTables (d.resetPages (fun g => decide (g = Page.hq0 n) || decide (g = Page.hq1 n) || decide (g = Page.tlmH n))) =
      kvTables d := kvTables_resetPages d fun _ => rfl
  simp only [freshHost, emptyPath, kvTables_setPort, kvTables_settlePath, kvTables_setPath, kvTables_clearFault, hpages]

@[simp] theorem kvTables_freshEnergy (d : Dev) (n : Nat) : kvTables (freshEnergy d n) = kvTables d := by
  have hw : ∀ (x : Dev) o, kvTables (x.wr ⟨.pwrG, o⟩ 0) = kvTables x := fun x o => kvTables_wr x 0 nofun
  unfold freshEnergy
  extract_lets ks d1
  have h1 : kvTables d1 = kvTables d := foldl_keeps kvTables _ (fun x k => (hw _ _).trans (hw x _)) ks d
  clear_value d1
  exact h1

/-! ## A die emptied -/

/-- The KVT page's counters are the seven of R161. -/
theorem clearCounters_kvt (d : Dev) (die : Nat) :
    clearCounters d (.kvt die) = (kvtCounters die).foldl (fun (x : Dev) r => x.wr r 0) d := rfl

/-- Registers set to 0 read 0, every other one as before. -/
theorem rd_foldl_wr_zero (l : List Reg) (d : Dev) (q : Reg) :
    (l.foldl (fun (x : Dev) r => x.wr r 0) d).rd q = if q ∈ l then 0 else d.rd q := by
  induction l generalizing d with
  | nil => simp
  | cons r t ih =>
    rw [List.foldl_cons, ih, Dev.rd_wr]
    by_cases ht : q ∈ t <;> simp [ht, eq_comm]

/-- Registers set to 0 one after another. -/
theorem kvTables_foldl_wr_zero (l : List Reg) (d : Dev) :
    kvTables (l.foldl (fun (x : Dev) r => x.wr r 0) d) = (kvTables d).zero l := by
  have hkvt : (l.foldl (fun (x : Dev) r => x.wr r 0) d).kvt = d.kvt := foldl_keeps (·.kvt) _ (fun x r => Dev.wr_kvt x r 0) l d
  have htaken : (l.foldl (fun (x : Dev) r => x.wr r 0) d).taken = d.taken := foldl_keeps (·.taken) _ (fun x r => Dev.wr_taken x r 0) l d
  simp only [kvTables, KvTables.zero, hkvt, htaken, rd_foldl_wr_zero]

theorem KvTables.zero_zero (t : KvTables) (l m : List Reg) : (t.zero l).zero m = t.zero (m ++ l) := by
  refine KvTables.ext rfl rfl (funext fun die => funext fun o => ?_)
  by_cases hm : ⟨.kvt die, 0x40 + o⟩ ∈ m <;> simp only [zero, List.mem_append, hm, true_or, false_or, if_true, if_false]

@[simp] theorem kvTables_emptyDie (d : Dev) (c : Nat) : kvTables (emptyDie d c) = (kvTables d).emptied c := rfl

/-- What creating or resetting a partition does to a die's KV page table is R163. -/
theorem kvTables_freshDie (d : Dev) (c : Nat) : kvTables (freshDie d c) = (kvTables d).fresh c := by
  unfold freshDie
  extract_lets stats kept d1 d2 d3 dt d4 d5 d6 q d7
  have h1 : kvTables d1 = (kvTables d).emptied c := by
    simp only [d1, kvTables_clearTcu, kvTables_dropStreams, kvTables_emptyDie]
  have h2 : kvTables d2 = kvTables d1 := kvTables_resetPages d1 fun _ => rfl
  have h3 : kvTables d3 = kvTables d2 := (kvTables_wr _ (r := R.RAS_CORE_FAIL_HI c) _ nofun).trans
    (kvTables_wr d2 (r := R.RAS_CORE_FAIL_LO c) _ nofun)
  have ht : kvTables dt = kvTables d3 := by
    dsimp only [dt]
    split
    · exact kvTables_settlePath ..
    · rfl
  have h4 : kvTables d4 = (kvTables dt).zero (kvtCounters c) := by
    have hlinks : ∀ x, kvTables (((List.range 4).map (Page.jlink c)).foldl clearCounters x) = kvTables x := fun x => by
      rw [List.foldl_map]
      exact foldl_keeps kvTables _ (fun y p => kvTables_clearCounters y (pg := .jlink c p) nofun) _ x
    rw [← kvTables_foldl_wr_zero, ← clearCounters_kvt]
    simp only [d4, List.singleton_append, List.foldl_cons, hlinks]
  have h5 : kvTables d5 = (kvTables d4).zero [R.KVT_EPOCH c] := by
    rw [← kvTables_foldl_wr_zero]
    simp only [d5, List.foldl]
    generalize d4.wr (R.KVT_EPOCH c) 0 = x
    repeat rw [kvTables_wr]
    all_goals nofun
  have h7 : kvTables d7 = kvTables d5 := by
    simp only [d7, d6, kvTables_setDp, kvTables_askPoint]
  have hfresh : kvTables d7 = (kvTables d).fresh c := by
    rw [h7, h5, h4, KvTables.zero_zero, ht, h3, h2, h1]
    rfl
  clear_value d7
  rw [foldl_keeps kvTables clearFault kvTables_clearFault, ← hfresh]
  rfl

/-! ## Creation and teardown -/

theorem kvTables_foldl_freshDie (dies : List Nat) (d : Dev) :
    kvTables (dies.foldl freshDie d) = dies.foldl KvTables.fresh (kvTables d) :=
  (List.foldl_hom kvTables fun x c => (kvTables_freshDie x c).symm).symm

/-- A granted partition's dies are emptied (R163, R290). -/
theorem kvTables_grantPart (d : Dev) (n rows : Nat) :
    kvTables (grantPart d n rows) = (partDies { rows := rows }).foldl KvTables.fresh (kvTables d) := by
  have hprot : ∀ (l : List Nat) (x : Dev), kvTables (l.foldl (fun (x : Dev) die => x.setFld (R.SEC_PROT_STAT die) 2 2 1) x) = kvTables x :=
    fun l x => foldl_keeps kvTables _ (fun y die => kvTables_setFld y 2 2 1 (r := R.SEC_PROT_STAT die) nofun) l x
  have hcount : ∀ x : Dev, kvTables (x.inc R.PART_CREATE_CNT 1) = kvTables x := fun x => kvTables_inc x 1 nofun
  unfold grantPart
  extract_lets d1 p d2 dies d3 d4 d5
  have h2 : kvTables d2 = kvTables d := kvTables_freshHost d n
  have hdies : dies = partDies { rows := rows } := by
    simp only [dies, d2, Dev.port_setPort_self]
    rfl
  rw [kvTables_partResp, hcount, kvTables_freshEnergy, hprot, kvTables_drawKey, kvTables_foldl_freshDie, h2, hdies]

/-- The dies of a partition torn down are emptied (R163, R291). -/
theorem kvTables_teardown (d : Dev) (n : Nat) (h : (d.port n).valid = true) :
    ∃ t, kvTables (teardown d n) = (partDies (d.port n)).foldl KvTables.fresh t := by
  have hrows : ∀ (l : List Nat) (x : Dev), kvTables (l.foldl (fun (x : Dev) r => x.setFld R.PART_ROW_OK r r 0) x) = kvTables x :=
    fun l x => foldl_keeps kvTables _ (fun y r => kvTables_setFld y r r 0 (r := R.PART_ROW_OK) nofun) l x
  have hcount : ∀ x : Dev, kvTables (x.inc R.PART_TEARDOWN_CNT 1) = kvTables x := fun x => kvTables_inc x 1 nofun
  have hdie : ∀ (x : Dev) (c : Nat), (kvTables x).fresh c = kvTables (leaveForClear (freshDie x c) c) := fun x c => by
    rw [kvTables_leaveForClear, kvTables_freshDie]
  unfold teardown
  extract_lets p dies d0 d1 d2 d3 d4 d5 q d6 d7
  refine ⟨kvTables d3, ?_⟩
  rw [if_neg (by simp [p, h]), kvTables_partResp, hcount, hrows, kvTables_setPort, kvTables_freshHost]
  exact (List.foldl_hom kvTables hdie).symm

/-- The die of a row is a die of every partition with that row. -/
theorem mem_partDies {p : Port} {r die : Nat} (hr : r ∈ rowList p.rows) (hdie : die ∈ rowDies r) : die ∈ partDies p :=
  List.mem_flatMap.2 ⟨r, hr, hdie⟩

/-- Every die of a set of rows has its KV page table as R163 leaves it. -/
theorem kvFree_of_fresh {p : Port} {e : Dev} {t : KvTables} (h : kvTables e = (partDies p).foldl KvTables.fresh t)
    {r die : Nat} (hr : r ∈ rowList p.rows) (hdie : die ∈ rowDies r) : KvFree e die :=
  .of_freeAt (h ▸ KvTables.foldl_fresh_freeAt _ t (.inl (mem_partDies hr hdie)))

/-- A port set with what it had of something: every port has what it had of it. -/
theorem port_setPort_keeps {β : Type} (f : Port → β) (d : Dev) {n : Nat} {p : Port} (h : f p = f (d.port n)) (m : Nat) :
    f ((d.setPort n p).port m) = f (d.port m) := by
  rw [Dev.port_setPort]
  split
  · subst_vars; exact h
  · rfl

/-- Of a port, R289's conditions speak of its partition and of the rows being cleared for it. -/
theorem partStatus_setPort (d : Dev) {n : Nat} {q : Port} (hvalid : q.valid = (d.port n).valid) (hrows : q.rows = (d.port n).rows)
    (hclearing : q.clearing = (d.port n).clearing) (m rows : Nat) : partStatus (d.setPort n q) m rows = partStatus d m rows := by
  have hlinks : linksInside (d.setPort n q) rows = linksInside d rows := rfl
  have hv := port_setPort_keeps (·.valid) d hvalid
  have hr := port_setPort_keeps (·.rows) d hrows
  have hc := port_setPort_keeps (·.clearing) d hclearing
  simp only [partStatus, hv, hr, hc, hlinks, Dev.fld, Dev.setPort_read_rd]
  -- The two sides now differ only in how their conditions are decided.
  congr

/-- PART_CREATE with every condition of R289 met. -/
theorem kvTables_partCreate {d : Dev} {n rows : Nat} (hup : (d.port n).up = true) (hst : partStatus d n rows = 2) :
    kvTables (partCreate n rows d) = (partDies { rows := rows }).foldl KvTables.fresh (kvTables d) := by
  have hidle : ∀ x : Dev, kvTables (idle x .part) = kvTables x := fun x => kvTables_idle x nofun
  unfold partCreate
  extract_lets q d1 st
  have hst1 : st = 2 := (partStatus_setPort d (q := { d.port n with d3hot := false }) rfl rfl rfl n rows).trans hst
  rw [if_neg (by simp [hup]), if_pos hst1, hidle, kvTables_grantPart, kvTables_setPort]

theorem kvTables_partRelease {d : Dev} {n : Nat} (h : (d.port n).reached = true) :
    kvTables (partRelease n d) = kvTables (teardown d n) := by
  rw [partRelease, if_pos h]
  exact kvTables_idle _ nofun

theorem kvTables_portEvent {d : Dev} {n : Nat} (hup : (d.port n).up = true) (d3 : Bool) :
    kvTables (portEvent n d3 d) = kvTables (teardown d n) := by
  rw [portEvent, if_pos hup]
  rfl

theorem kvTables_linkLost {d : Dev} {n : Nat} (hup : (d.port n).up = true) :
    kvTables (linkLost n d) = kvTables (teardown d n) := by
  rw [linkLost, if_pos hup, kvTables_trainPort, kvTables_portEvent hup]

end Sys2Proof.Machine
end

section
/-! The queue processor leaves the entries of the KV page tables alone: all that a LOAD_PLAN can bring about, up to a step that
begins once the plan stands in its slot. -/

namespace Sys2Proof.Machine
open Sys2Proof

/-! ## Events leave the entries alone -/

@[simp] theorem Dev.kvt_ite (c : Prop) [Decidable c] (a b : Dev) : (if c then a else b).kvt = if c then a.kvt else b.kvt :=
  apply_ite Dev.kvt c a b

@[simp] theorem pageMsg_kvt (d : Dev) (pg : Page) : (pageMsg d pg).kvt = d.kvt := congrArg KvTables.kvt (kvTables_pageMsg d pg)

@[simp] theorem irqRise_kvt (d : Dev) (pg : Page) (b : Nat) : (irqRise d pg b).kvt = d.kvt := by
  simp only [irqRise]
  (repeat' split) <;> simp

@[simp] theorem idle_kvt (d : Dev) (pg : Page) : (idle d pg).kvt = d.kvt := irqRise_kvt d pg 1

@[simp] theorem Dev.inc_kvt (d : Dev) (r : Reg) (n : Nat) : (d.inc r n).kvt = d.kvt := by
  simp only [Dev.inc]
  split <;> simp

@[simp] theorem Dev.inc64_kvt (d : Dev) (r : Reg) (n : Nat) : (d.inc64 r n).kvt = d.kvt := by
  simp only [Dev.inc64]
  split <;> simp

@[simp] theorem ringWrite_kvt (d : Dev) (n rec : Nat) : (ringWrite d n rec).kvt = d.kvt := by
  simp only [ringWrite]
  (repeat' split) <;> rfl

@[simp] theorem pathAlarm_kvt (d : Dev) (p : TlmPath) (rec : Nat) : (pathAlarm d p rec).kvt = d.kvt := by
  unfold pathAlarm
  (repeat' split) <;> simp

@[simp] theorem pathAppend_kvt (d : Dev) (p : TlmPath) (rec : Nat) : (pathAppend d p rec).kvt = d.kvt := by
  unfold pathAppend
  dsimp only
  (repeat' split) <;> simp

@[simp] theorem pathEnter_kvt (d : Dev) (p : TlmPath) (rec : Nat) : (pathEnter d p rec).kvt = d.kvt := by
  unfold pathEnter
  split <;> simp

@[simp] theorem keyRecord_kvt (d : Dev) (p : TlmPath) (rec : Nat) : (keyRecord d p rec).kvt = d.kvt := by
  unfold keyRecord
  dsimp only
  (repeat' split) <;> simp

@[simp] theorem pathPost_kvt (d : Dev) (p : TlmPath) (rec : Nat) : (pathPost d p rec).kvt = d.kvt := by
  unfold pathPost
  (repeat' split) <;> simp

@[simp] theorem postFault_kvt (d : Dev) (pg : Page) (code info0 info1 : Nat) : (postFault d pg code info0 info1).kvt = d.kvt := by
  simp only [postFault, postRecord, pathPost_kvt]
  split <;> simp

/-! ## Completion records leave the entries alone -/

@[simp] theorem cqWrite_kvt (d : Dev) (n : Nat) (r : CqRec) : (cqWrite d n r).kvt = d.kvt := by
  simp only [cqWrite]
  split <;> rfl

@[simp] theorem complete_kvt (d : Dev) (n : Nat) (r : CqRec) : (complete d n r).kvt = d.kvt := by
  simp only [complete]
  split <;> simp

@[simp] theorem entryDone_kvt (d : Dev) (n q entry status tag : Nat) (notify late : Bool) :
    (entryDone d n q entry status tag notify late).kvt = d.kvt := by
  unfold entryDone
  split <;> simp

@[simp] theorem fencesDone_kvt (d : Dev) (n q entry : Nat) : (fencesDone d n q entry).kvt = d.kvt :=
  foldl_keeps (·.kvt) _ (fun _ _ => entryDone_kvt ..) _ _

@[simp] theorem entryOver_kvt (d : Dev) (n q entry status tag : Nat) (notify late : Bool) :
    (entryOver d n q entry status tag notify late).kvt = d.kvt := by
  simp only [entryOver, fencesDone_kvt, Dev.setPort_kvt, entryDone_kvt]

@[simp] theorem jobOver_kvt (d : Dev) (n : Nat) (j : Job) (status : Nat) (late : Bool) : (jobOver d n j status late).kvt = d.kvt :=
  entryOver_kvt ..

/-! ## Plans on the dies leave the entries alone -/

@[simp] theorem scramble_kvt (d : Dev) (ss : List Span) : (scramble d ss).kvt = d.kvt := by
  refine foldl_keeps (·.kvt) _ (fun x s => ?_) ss d
  rfl

@[simp] theorem countOpens_kvt (d : Dev) (ss : List Span) : (countOpens d ss).kvt = d.kvt := by
  refine foldl_keeps (·.kvt) _ (fun x s => ?_) ss d
  dsimp only
  split <;> simp

@[simp] theorem carryMarks_kvt (d : Dev) (src dst : List Span) : (carryMarks d src dst).kvt = d.kvt := rfl

@[simp] theorem copyRange_kvt (p : Port) (slot : Nat) (out : Bool) (x : Dev) (e : LiveRange × Nat) :
    (copyRange p slot out x e).kvt = x.kvt := by
  simp only [copyRange]
  (repeat' split) <;> simp

/-- A live set is saved to HBM, past the page tables (R301). -/
theorem saveLive_kvt {d e : Dev} {n slot : Nat} (h : saveLive d n slot = .ok e) : e.kvt = d.kvt := by
  simp only [saveLive] at h
  (repeat' split at h) <;> cases h
  exact foldl_keeps (·.kvt) _ (copyRange_kvt _ _ _) _ d

@[simp] theorem saveOutgoing_kvt (d : Dev) (n : Nat) : (saveOutgoing d n).kvt = d.kvt := by
  simp only [saveOutgoing]
  split
  · rfl
  · split
    next h => rw [Dev.setPort_kvt, saveLive_kvt h]
    next => simp

@[simp] theorem considerYield_kvt (d : Dev) (n : Nat) (pend : List (Nat × Nat)) : (considerYield d n pend).kvt = d.kvt := by
  simp only [considerYield]
  (repeat' split) <;> simp

@[simp] theorem switchOver_kvt (d : Dev) (n : Nat) : (switchOver d n).kvt = d.kvt := by
  unfold switchOver
  split
  · exact foldl_keeps (·.kvt) _ idle_kvt _ d
  · rfl

@[simp] theorem beginStep_kvt (d : Dev) (n : Nat) : (beginStep d n).kvt = d.kvt := by
  have htides : ∀ (l : List TideRun) (b : Nat) (x : Dev),
      (l.foldl (fun x t => x.inc (R.TIDE_RESTART (b + t.ent.die) 0) 1) x).kvt = x.kvt :=
    fun l b x => foldl_keeps (·.kvt) _ (fun y t => Dev.inc_kvt y _ 1) l x
  simp only [beginStep]
  split
  · exact switchOver_kvt d n
  · rw [considerYield_kvt]
    split
    · exact (htides _ _ _).trans (switchOver_kvt d n)
    · exact switchOver_kvt d n

/-! ## The queue processor leaves the entries alone -/

@[simp] theorem bellSpent_kvt (d : Dev) (n : Nat) : (bellSpent d n).kvt = d.kvt := by
  simp only [bellSpent]
  split <;> rfl

@[simp] theorem dropEmpty_kvt (d : Dev) (n : Nat) : (dropEmpty d n).kvt = d.kvt := by
  have hjobs : ∀ (l : List Job) (x : Dev), (l.foldl (fun x j => jobOver (x.inc (R.HQ_REJ_CNT n) 1) n j 0x010E false) x).kvt = x.kvt :=
    fun l x => foldl_keeps (·.kvt) _ (fun y j => (jobOver_kvt ..).trans (Dev.inc_kvt ..)) l x
  simp only [dropEmpty]
  split <;> simp [hjobs]

@[simp] theorem writeRecipe_kvt (d : Dev) (n : Nat) (r : RecipeReq) : (writeRecipe d n r).kvt = d.kvt := by
  simp only [writeRecipe]
  split <;> simp

@[simp] theorem recipesDue_kvt (d : Dev) (n : Nat) : (recipesDue d n).kvt = d.kvt :=
  foldl_keeps (·.kvt) _ (fun x r => writeRecipe_kvt x n r) _ _

/-- What a load that passes its checks sets is no entry (R57). -/
@[simp] theorem Img.apply_kvt (g : Img) (slot : Nat) : (g.apply slot).kvt = g.dev.kvt := by
  have hinit : ∀ (x : Dev) base slot kind rel ix v, (applyInit x base slot kind rel ix v).kvt = x.kvt := fun x base slot kind rel ix v => by
    unfold applyInit
    split <;> rfl
  unfold Img.apply
  extract_lets dies d1 s5 d2 s11 d3
  have h2 : d2.kvt = g.dev.kvt := by
    dsimp only [d2]
    split
    · rfl
    · refine foldl_keeps (·.kvt) _ (fun x i => ?_) _ d1
      rfl
  have h3 : d3.kvt = d2.kvt := foldl_keeps (·.kvt) _ (fun x i => hinit x ..) _ d2
  rw [← h2, ← h3]
  refine foldl_keeps (·.kvt) _ (fun x die => ?_) dies d3
  rfl

@[simp] theorem loadNow_kvt (d : Dev) (n : Nat) (r : LoadReq) : (loadNow d n r).kvt = d.kvt := by
  simp only [loadNow]
  split <;> simp

@[simp] theorem loadAll_kvt (d : Dev) (n : Nat) : (loadAll d n).kvt = d.kvt :=
  foldl_keeps (·.kvt) _ (fun x r => loadNow_kvt x n r) _ _

@[simp] theorem wake_kvt (d : Dev) (n : Nat) : (wake d n).kvt = d.kvt := by
  unfold wake
  split <;> rfl

@[simp] theorem schedule_kvt (d : Dev) (n : Nat) : (schedule d n).kvt = d.kvt := by
  simp only [schedule]
  (repeat' split) <;> simp

/-- A LOAD_PLAN changes no entry, whether the plan loads at once or waits. -/
theorem loadEntry_kvt (n q : Nat) (d : Dev) (u : Queue) (e : QEntry) (ix : Nat) : (loadEntry n q d u e ix).kvt = d.kvt := by
  simp only [loadEntry, outstanding, schedule_kvt, Dev.setPort_kvt]

/-- An entry the row does not reject is read past and handed on. -/
theorem readEntry_accepted {op n q : Nat} {k : Dev → Queue → QEntry → Nat → Dev} {d : Dev} {e : QEntry} {t : List QEntry}
    (hvalid : (d.port n).valid = true) (hen : ((d.port n).queue q).en = true) (hhead : ((d.port n).queue q).entries = e :: t)
    (hop : e.op = op) (hgood : entryBad d (d.port n) q e = false) :
    ∃ x v ix, readEntry op n q k d = k x v e ix ∧ x.kvt = d.kvt := by
  simp only [readEntry, hvalid, hen, hhead, hop, hgood, Bool.not_true, Bool.or_self, Bool.false_eq_true, if_false, ne_eq,
    not_true, false_and]
  exact ⟨_, _, _, rfl, idle_kvt _ (.hq0 n)⟩

/-- Settles O35: creation and every reset empty the dies one after another, which on the page tables is R163 for each of them, and
nothing they do after that touches what R163 clears; the queue processor, whatever a load has it do, changes no entry. -/
theorem creationFreesThePageTable : Obligations.CreationFreesThePageTable := by
  unfold Obligations.CreationFreesThePageTable
  intro n s d cleared
  have hcleared : ∀ {p : Port} {e : Dev} {t : KvTables}, kvTables e = (partDies p).foldl KvTables.fresh t → cleared p.rows e :=
    fun h r hr die hdie => kvFree_of_fresh h hr hdie
  refine ⟨fun rows hup hst => ?_, fun hup hvalid => ?_, ?_⟩
  · exact ⟨partCreate n rows d, rfl, hcleared (p := { rows := rows }) (kvTables_partCreate hup hst)⟩
  · obtain ⟨t, ht⟩ := kvTables_teardown d n hvalid
    refine ⟨fun hd3 => ⟨partRelease n d, rfl, hcleared ((kvTables_partRelease ?_).trans ht)⟩, fun i hi => ?_⟩
    · rw [Port.reached, hup, hd3]
      rfl
    · have hevent : ∀ d3, cleared (d.port n).rows (portEvent n d3 d) := fun d3 => hcleared ((kvTables_portEvent hup d3).trans ht)
      simp only [List.mem_cons, List.not_mem_nil, or_false] at hi
      rcases hi with rfl | rfl | rfl | rfl
      · exact ⟨_, rfl, hevent false⟩
      · exact ⟨_, rfl, hevent false⟩
      · exact ⟨_, rfl, hcleared ((kvTables_linkLost hup).trans ht)⟩
      · exact ⟨_, rfl, hevent true⟩
  · intro q e t p u hvalid hen hhead hop hgood _ _ _ _ _ _
    obtain ⟨x, v, ix, hread, hx⟩ := readEntry_accepted (k := loadEntry n q) hvalid hen hhead hop hgood
    refine ⟨readEntry 2 n q (loadEntry n q) d, rfl, ?_⟩
    rw [hread]
    exact (loadEntry_kvt ..).trans hx

end Sys2Proof.Machine
end

section
/-! A write of a register of a global page (R422, R426, R446), by a host, by the management path and by its message. -/

namespace Sys2Proof.Machine
open Sys2Proof

/-! ## Which writes arrive -/

/-- A global page stands on the I/O die: it has power whenever the part has, and no copy answers for it (R430, R452). -/
theorem awake_of_isGlobal (d : Dev) {pg : Page} (h : isGlobal pg = true) : darkPage d pg = false ∧ copiedPage d pg = false := by
  have hdie : pageDie pg = none := by
    simp only [isGlobal, Bool.and_eq_true, Option.isNone_iff_eq_none] at h
    exact h.2
  constructor
  · unfold darkPage; split <;> simp_all
  · unfold copiedPage; split <;> simp_all

theorem reach_mp_of_isGlobal {r : Reg} (h : isGlobal r.page = true) (k : Dev → Dev) (d : Dev) : reach .mp r k d = k d := by
  obtain ⟨hdark, hcopied⟩ := awake_of_isGlobal d h
  simp [reach, canWrite, h, hdark, hcopied]

theorem reach_host_of_isGlobal {r : Reg} (h : isGlobal r.page = true) (n : Fin 4) (k : Dev → Dev) (d : Dev) :
    reach (.host n) r k d = d := by
  simp [reach, canWrite, h]

/-- The management path's whole-word write of a global register reaches it. -/
theorem writeAt_mp_of_isGlobal {a : Nat} {r : Reg} (ha : a % 4 = 0) (hr : regAt a = some r) (h : isGlobal r.page = true)
    (v : Nat) (d : Dev) : writeAt .mp a v 15 d = writeReg .mp r (v % 2 ^ 32) d := by
  simp [writeAt, ha, hr, reach_mp_of_isGlobal h]

/-- A host's write of a global register changes nothing, whichever bytes it enables. -/
theorem writeAt_host_of_isGlobal {a : Nat} {r : Reg} (hr : regAt a = some r) (h : isGlobal r.page = true) (n : Fin 4)
    (v be : Nat) (d : Dev) : writeAt (.host n) a v be d = d := by
  rw [writeAt]
  split
  · rfl
  · rw [hr]
    exact reach_host_of_isGlobal h n _ d

theorem pageAt_of_regAt {a : Nat} {r : Reg} (hr : regAt a = some r) : pageAt a = some r.page := by
  obtain ⟨pg, hpg, rfl⟩ := Option.map_eq_some_iff.1 hr
  exact hpg

theorem mgmtBusy_eq_false {d : Dev} (hstarted : 3 ≤ bootStep d) (hnormal : bootStep d ≠ 15) : mgmtBusy d = false := by
  simp [mgmtBusy, hstarted, hnormal]

/-- The message that writes a global register is that write, answered with status 0. -/
theorem mgmtWrite_of_isGlobal {a : Nat} {r : Reg} {d : Dev} (hstarted : 3 ≤ bootStep d) (hnormal : bootStep d ≠ 15)
    (ha : a % 4 = 0) (hr : regAt a = some r) (h : isGlobal r.page = true) (v : Nat) :
    mgmtWrite (.reg a) v d = (writeReg .mp r (v % 2 ^ 32) d).emit (.mgmt 2 0 a v) := by
  have hpowered : bootStep d ≠ 0 := by omega
  simp [mgmtWrite, hpowered, mgmtBusy_eq_false hstarted hnormal, pageAt_of_regAt hr, canWrite, h, ha,
    writeAt_mp_of_isGlobal ha hr h]

theorem regsBut_wr (d : Dev) (r : Reg) (v : Nat) : RegsBut d (d.wr r v) (· = r) := fun _ hq => Dev.rd_wr_ne d v (Ne.symm hq)

/-! ## The rows that write them -/

theorem exec_registerWrite (who : Requester) (a v : Nat) (be : Fin 16) (s : State) :
    exec (.registerWrite who a v be) s = .next { s with dev := writeAt who a v be.val s.dev } := (rfl)

theorem exec_mgmtRegWrite (p : MgmtPlace) (v : Nat) (s : State) :
    exec (.mgmtRegWrite p v) s = .next { s with dev := mgmtWrite p v s.dev } := (rfl)

theorem idles_hostWrite_of_isGlobal {a : Nat} {r : Reg} (hr : regAt a = some r) (h : isGlobal r.page = true) (n : Fin 4) (v : Nat)
    (be : Fin 16) (s : State) : Idles (.registerWrite (.host n) a v be) s := by
  rw [Idles, exec_registerWrite, writeAt_host_of_isGlobal hr h]

theorem ends_mpWrite_of_isGlobal {a v : Nat} {r : Reg} {s : State} {P : Dev → Prop} (ha : a % 4 = 0) (hr : regAt a = some r)
    (h : isGlobal r.page = true) (hP : P (writeReg .mp r (v % 2 ^ 32) s.dev)) : Ends (.registerWrite .mp a v 15) s P :=
  ⟨_, by rw [exec_registerWrite, ← writeAt_mp_of_isGlobal ha hr h]; rfl, hP⟩

theorem ends_mgmtRegWrite_of_isGlobal {a v : Nat} {r : Reg} {s : State} {P : Dev → Prop} (hstarted : 3 ≤ bootStep s.dev)
    (hnormal : bootStep s.dev ≠ 15) (ha : a % 4 = 0) (hr : regAt a = some r) (h : isGlobal r.page = true)
    (hP : P ((writeReg .mp r (v % 2 ^ 32) s.dev).emit (.mgmt 2 0 a v))) : Ends (.mgmtRegWrite (.reg a) v) s P :=
  ⟨_, by rw [exec_mgmtRegWrite, mgmtWrite_of_isGlobal hstarted hnormal ha hr h], hP⟩

end Sys2Proof.Machine
end

section
/-! The power budget and the floors as a write stores them (R327). -/

namespace Sys2Proof.Machine
open Sys2Proof

/-! ## The two registers and the budget's fields -/

theorem regAt_PWR_BUDGET : regAt 0x104C = some R.PWR_BUDGET := by decide

theorem regAt_PWR_FLOOR (i : Fin 4) : regAt (0x1060 + 4 * i.val) = some (R.PWR_FLOOR i.val) := by
  revert i; decide

theorem writeReg_PWR_BUDGET (who : Requester) (v : Nat) (d : Dev) :
    writeReg who R.PWR_BUDGET v d = d.wr R.PWR_BUDGET (budgetStored v) := (rfl)

theorem writeReg_PWR_FLOOR (who : Requester) (i : Fin 4) (v : Nat) (d : Dev) :
    writeReg who (R.PWR_FLOOR i.val) v d = d.wr (R.PWR_FLOOR i.val) (min 16 (v % 32)) := by
  have hrow : ∀ j : Fin 4, (rowAt (R.PWR_FLOOR j.val)).isNone = false := by decide
  have hblock : ¬ (R.PWR_FLOOR i.val).off < 0x40 := Nat.not_lt.2 (Nat.le_add_right_of_le (by decide))
  have hbudget : 0x60 + 4 * i.val ≠ 0x4C := by omega
  have hfloor : 0x60 ≤ 0x60 + 4 * i.val ∧ 0x60 + 4 * i.val < 0x70 := by omega
  rw [writeReg, if_neg hblock, hrow i]
  show writePwr (0x60 + 4 * i.val) v d = _
  rw [writePwr, if_neg hbudget, if_pos hfloor, R.PWR_FLOOR]

/-- Only the low 32 bits of a write are in its fields. -/
theorem budgetStored_mod (v : Nat) : budgetStored (v % 2 ^ 32) = budgetStored v := by
  have hlow : bits (v % 2 ^ 32) 15 0 = bits v 15 0 := by simp only [bits]; omega
  have hhigh : bits (v % 2 ^ 32) 31 16 = bits v 31 16 := by simp only [bits]; omega
  simp only [budgetStored, hlow, hhigh]

theorem budgetStored_lt (v : Nat) : budgetStored v < 2 ^ 32 := by
  simp only [budgetStored]; omega

theorem bits_budgetStored_sust (v : Nat) : bits (budgetStored v) 15 0 = min 7500 (bits v 15 0) := by
  simp only [bits, budgetStored]; omega

theorem bits_budgetStored_peak (v : Nat) :
    bits (budgetStored v) 31 16 = max (min 7500 (bits v 15 0)) (min 8500 (bits v 31 16)) := by
  have hsust : min 7500 (bits v 15 0) < 65536 := by omega
  have hpeak : max (min 7500 (bits v 15 0)) (min 8500 (bits v 31 16)) < 65536 := by omega
  show (65536 * _ + _) / 65536 % 65536 = _
  rw [Nat.mul_add_div (by decide), Nat.div_eq_of_lt hsust, Nat.add_zero, Nat.mod_eq_of_lt hpeak]

/-! ## The device after a write -/

/-- The device once the budget is written, as R327 describes it. -/
theorem writeReg_PWR_BUDGET_stores (v : Nat) (d : Dev) :
    let e := writeReg .mp R.PWR_BUDGET (v % 2 ^ 32) d
    SameMem d e ∧ RegsBut d e (· = R.PWR_BUDGET) ∧ e.fld R.PWR_BUDGET 15 0 = min 7500 (bits v 15 0) ∧
      e.fld R.PWR_BUDGET 31 16 = max (min 7500 (bits v 15 0)) (min 8500 (bits v 31 16)) := by
  simp only [writeReg_PWR_BUDGET, budgetStored_mod, Dev.fld, Dev.rd_wr_self, Nat.mod_eq_of_lt (budgetStored_lt v)]
  exact ⟨Dev.wr_mem .., regsBut_wr _ _ _, bits_budgetStored_sust v, bits_budgetStored_peak v⟩

/-- The device once a floor is written, as R327 describes it. -/
theorem writeReg_PWR_FLOOR_stores (i : Fin 4) (v : Nat) (d : Dev) :
    let e := writeReg .mp (R.PWR_FLOOR i.val) (v % 2 ^ 32) d
    SameMem d e ∧ RegsBut d e (· = R.PWR_FLOOR i.val) ∧ e.rd (R.PWR_FLOOR i.val) = min 16 (v % 32) := by
  simp only [writeReg_PWR_FLOOR, Dev.rd_wr_self]
  exact ⟨Dev.wr_mem .., regsBut_wr _ _ _, by omega⟩

/-- Settles O55: both registers stand in a global page, which no host's write reaches and every whole word of the management path
does; what it stores there is the field cut to its limits, and its message adds the answer and nothing else. -/
theorem powerBudgetIsStoredWithinLimits : Obligations.PowerBudgetIsStoredWithinLimits := by
  unfold Obligations.PowerBudgetIsStoredWithinLimits
  intro v i s d sust
  have hglobal : isGlobal .pwrG = true := rfl
  have haligned : (0x1060 + 4 * i.val) % 4 = 0 := by omega
  refine ⟨fun n be => ⟨?_, ?_⟩, ?_, ?_, fun hstarted hnormal => ?_⟩
  · exact idles_hostWrite_of_isGlobal regAt_PWR_BUDGET hglobal n v be s
  · exact idles_hostWrite_of_isGlobal (regAt_PWR_FLOOR i) hglobal n v be s
  · exact ends_mpWrite_of_isGlobal rfl regAt_PWR_BUDGET hglobal (writeReg_PWR_BUDGET_stores v d)
  · exact ends_mpWrite_of_isGlobal haligned (regAt_PWR_FLOOR i) hglobal (writeReg_PWR_FLOOR_stores i v d)
  · obtain ⟨hmem, hregs, hsust, -⟩ := writeReg_PWR_BUDGET_stores v d
    exact ends_mgmtRegWrite_of_isGlobal hstarted hnormal rfl regAt_PWR_BUDGET hglobal ⟨hmem, hregs, hsust, rfl⟩

end Sys2Proof.Machine
end

section
/-! The media packets a device has sent (R374, R376): which operations send none, the timestamp on those that do, and what the
choice of the next picture and the rate code are read from. -/

namespace Sys2Proof.Machine
open Sys2Proof

/-! ## Packets and their timestamps -/

/-- The timestamp of an RTP or ST 2110-20 packet. -/
def Out.stamp : Out → Option Nat
  | .rtp _ _ _ _ _ ts _ _ => some ts
  | .st2110 _ _ _ _ _ ts _ _ => some ts
  | _ => none

/-- The RTP and ST 2110-20 packets a device has sent. -/
def Dev.packets (d : Dev) : List Out := d.out.filter (fun o => o.stamp.isSome)

/-- Every packet sent since carries one timestamp. -/
def PacketsAt (ts : Nat) (d e : Dev) : Prop := ∀ x ∈ e.packets, x ∈ d.packets ∨ x.stamp = some ts

/-- What is no packet, or was there before, or is a packet of the timestamp. -/
theorem PacketsAt.out {ts : Nat} {d e : Dev} (h : PacketsAt ts d e) {x : Out} (hx : x ∈ e.out) :
    x ∈ d.out ∨ ∀ t, x.stamp = some t → t = ts := by
  cases hs : x.stamp with
  | none => exact .inr nofun
  | some t =>
    rcases h x (List.mem_filter.2 ⟨hx, by simp [hs]⟩) with hold | hnew
    · exact .inl (List.mem_filter.1 hold).1
    · exact .inr fun u hu => Option.some.inj (hu.symm.trans (hs.symm.trans hnew))

theorem packetsAt_of_eq {ts : Nat} {d e : Dev} (h : e.packets = d.packets) : PacketsAt ts d e := fun _ hx => .inl (h ▸ hx)

theorem PacketsAt.trans {ts : Nat} {d e f : Dev} (h : PacketsAt ts d e) (h' : PacketsAt ts e f) : PacketsAt ts d f :=
  fun x hx => (h' x hx).elim (h x) .inr

theorem packetsAt_foldl {α : Type} {ts : Nat} {g : Dev → α → Dev} (h : ∀ x e, PacketsAt ts x (g x e)) (l : List α) (d : Dev) :
    PacketsAt ts d (l.foldl g d) := by
  induction l generalizing d with
  | nil => exact packetsAt_of_eq rfl
  | cons e t ih => exact (h d e).trans (ih _)

theorem Dev.packets_emit (d : Dev) (o : Out) :
    (d.emit o).packets = if o.stamp.isSome = true then o :: d.packets else d.packets := List.filter_cons

/-! ## Registers, slots and events -/

@[simp] theorem Dev.packets_ite (c : Prop) [Decidable c] (a b : Dev) :
    (if c then a else b).packets = if c then a.packets else b.packets := apply_ite Dev.packets c a b

@[simp] theorem Dev.wr_packets (d : Dev) (r : Reg) (v : Nat) : (d.wr r v).packets = d.packets := rfl

@[simp] theorem Dev.setFld_packets (d : Dev) (r : Reg) (hi lo v : Nat) : (d.setFld r hi lo v).packets = d.packets := rfl

@[simp] theorem Dev.setPort_packets (d : Dev) (n : Nat) (p : Port) : (d.setPort n p).packets = d.packets := rfl

@[simp] theorem Dev.setPath_packets (d : Dev) (p : TlmPath) (q : Path) : (d.setPath p q).packets = d.packets := rfl

@[simp] theorem Dev.setVc_packets (d : Dev) (die : Nat) (v : Codec) : (d.setVc die v).packets = d.packets := rfl

@[simp] theorem Dev.draw_packets (d : Dev) : d.draw.2.packets = d.packets := rfl

@[simp] theorem pageMsg_packets (d : Dev) (pg : Page) : (pageMsg d pg).packets = d.packets := by
  unfold pageMsg
  dsimp only
  (repeat' split) <;> rfl

@[simp] theorem irqRise_packets (d : Dev) (pg : Page) (b : Nat) : (irqRise d pg b).packets = d.packets := by
  simp [irqRise]

@[simp] theorem idle_packets (d : Dev) (pg : Page) : (idle d pg).packets = d.packets := irqRise_packets d pg 1

@[simp] theorem Dev.inc_packets (d : Dev) (r : Reg) (n : Nat) : (d.inc r n).packets = d.packets := by
  simp [Dev.inc]

@[simp] theorem Dev.inc64_packets (d : Dev) (r : Reg) (n : Nat) : (d.inc64 r n).packets = d.packets := by
  simp [Dev.inc64]

/-! ## Telemetry sends no packet -/

@[simp] theorem ringWrite_packets (d : Dev) (n rec : Nat) : (ringWrite d n rec).packets = d.packets := by
  simp only [ringWrite]
  (repeat' split) <;> rfl

@[simp] theorem pathAlarm_packets (d : Dev) (p : TlmPath) (rec : Nat) : (pathAlarm d p rec).packets = d.packets := by
  have hband : ∀ (x : Dev) (t : TlmPath), (x.emit (.sideband t)).packets = x.packets := fun _ _ => rfl
  unfold pathAlarm
  (repeat' split) <;> simp [hband]

@[simp] theorem pathAppend_packets (d : Dev) (p : TlmPath) (rec : Nat) : (pathAppend d p rec).packets = d.packets := by
  unfold pathAppend
  dsimp only
  (repeat' split) <;> simp

@[simp] theorem pathEnter_packets (d : Dev) (p : TlmPath) (rec : Nat) : (pathEnter d p rec).packets = d.packets := by
  unfold pathEnter
  split <;> simp

@[simp] theorem keyRecord_packets (d : Dev) (p : TlmPath) (rec : Nat) : (keyRecord d p rec).packets = d.packets := by
  unfold keyRecord
  dsimp only
  (repeat' split) <;> simp

@[simp] theorem pathPost_packets (d : Dev) (p : TlmPath) (rec : Nat) : (pathPost d p rec).packets = d.packets := by
  unfold pathPost
  (repeat' split) <;> simp

@[simp] theorem postRecord_packets (d : Dev) (sev source code data : Nat) :
    (postRecord d sev source code data).packets = d.packets := pathPost_packets ..

@[simp] theorem postReg_packets (d : Dev) (sev : Nat) (r : Reg) (b : Nat) : (postReg d sev r b).packets = d.packets :=
  postRecord_packets ..

/-! ## Memory traffic sends no packet -/

@[simp] theorem countOpens_packets (d : Dev) (ss : List Span) : (countOpens d ss).packets = d.packets := by
  refine foldl_keeps Dev.packets _ (fun x s => ?_) ss d
  dsimp only
  split
  · rfl
  · simp only [Dev.inc64_packets]
    rfl

/-- Unpredictable bytes change the memories and the free draws, and nothing else. -/
theorem scramble_keeps {β : Type} (f : Dev → β) (h : ∀ (x : Dev) m n, f { x with mem := m, fresh := n } = f x) (d : Dev)
    (ss : List Span) : f (scramble d ss) = f d := by
  refine foldl_keeps f _ (fun x s => ?_) ss d
  exact h x _ _

@[simp] theorem scramble_packets (d : Dev) (ss : List Span) : (scramble d ss).packets = d.packets :=
  scramble_keeps Dev.packets (fun _ _ _ => rfl) d ss

@[simp] theorem semRelease_packets (d : Dev) (die slot i n : Nat) : (semRelease d die slot i n).packets = d.packets := by
  simp only [semRelease]
  split
  · rw [postReg_packets]
    split <;> rfl
  · rfl

@[simp] theorem ringSem_packets (d : Dev) (die : Nat) (ctrl : Reg) : (ringSem d die ctrl).packets = d.packets := by
  unfold ringSem
  split
  · rfl
  · exact semRelease_packets ..

/-! ## The encoder beside its packets -/

@[simp] theorem releaseSlot_packets (d : Dev) (die s : Nat) : (releaseSlot d die s).packets = d.packets := ringSem_packets ..

@[simp] theorem releaseAll_packets (d : Dev) (die : Nat) : (releaseAll d die).packets = d.packets :=
  foldl_keeps Dev.packets _ (fun x (q : OutPic) => releaseSlot_packets x die q.slot) _ d

@[simp] theorem encOver_packets (d : Dev) (die : Nat) : (encOver d die).packets = d.packets := by
  simp [encOver, setEnc]

@[simp] theorem stopIfAsked_packets (d : Dev) (die : Nat) : (stopIfAsked d die).packets = d.packets := by
  simp [stopIfAsked]

@[simp] theorem ringAppend_packets (d : Dev) (die : Nat) (bs : List Byte) : (ringAppend d die bs).packets = d.packets := by
  simp only [ringAppend]
  split
  · rw [Dev.wr_packets, Dev.draw_packets, scramble_packets]
  · rw [Dev.wr_packets, countOpens_packets]
    rfl

@[simp] theorem ringStore_packets (d : Dev) (die : Nat) (au : List Byte) : (ringStore d die au).packets = d.packets := by
  simp [ringStore]

@[simp] theorem noteLatency_packets (d : Dev) (die : Nat) (q : OutPic) (latencyNs : Nat) :
    (noteLatency d die q latencyNs).packets = d.packets := by
  simp [noteLatency]

/-! ## The sharing of the cores -/

/-- Cores taken: only the free draws move on. -/
theorem takeCores_snd (d : Dev) (k : Nat) (l : List Nat) : ∃ n, (takeCores d k l).2 = { d with fresh := n } := by
  induction k generalizing d l with
  | zero => exact ⟨d.fresh, rfl⟩
  | succ k ih =>
    unfold takeCores
    split
    next d1 h => exact ⟨d.fresh + 1, (congrArg Prod.snd h).symm⟩
    next c d1 h =>
      obtain rfl : { d with fresh := d.fresh + 1 } = d1 := congrArg Prod.snd h
      obtain ⟨n, hn⟩ := ih { d with fresh := d.fresh + 1 } (l.erase c)
      exact ⟨n, hn⟩

/-- What starting a picture leaves alone, the sharing leaves alone. -/
theorem shareCores_keeps {β : Type} (f : Dev → β) (h : ∀ d i n, f (startPicture d i n) = f d) (d : Dev) :
    f (shareCores d) = f d := by
  have hfrom : ∀ k i x, f (shareFrom k i x) = f x := by
    intro k
    induction k with
    | zero => exact fun _ _ => rfl
    | succ k ih =>
      intro i x
      unfold shareFrom
      split
      · exact ih _ _
      · dsimp only
        split
        · rfl
        · rw [ih, h]
  exact hfrom _ _ d

/-- A picture that starts takes cores, for the decoder or the encoder of one die, and passes the turn on. -/
theorem startPicture_eq (d : Dev) (i n : Nat) : ∃ cores turn fresh,
    startPicture d i n = { d.setVc (i / 2) (if i % 2 = 0 then { d.vc (i / 2) with decCores := cores }
      else { d.vc (i / 2) with encCores := cores }) with codecTurn := turn, fresh := fresh } := by
  obtain ⟨m, hm⟩ := takeCores_snd d n (restingCores d)
  refine ⟨(takeCores d n (restingCores d)).1, (i + 1) % 32, m, ?_⟩
  simp only [startPicture, hm]
  rfl

@[simp] theorem shareCores_packets (d : Dev) : (shareCores d).packets = d.packets :=
  shareCores_keeps Dev.packets (fun d i n => by obtain ⟨_, _, _, h⟩ := startPicture_eq d i n; rw [h]; rfl) d

theorem shareCores_regs (d : Dev) : (shareCores d).regs = d.regs :=
  shareCores_keeps Dev.regs (fun d i n => by obtain ⟨_, _, _, h⟩ := startPicture_eq d i n; rw [h]; rfl) d

/-- The slots handed to a die's encoder, how many there were, and whether its configuration is in doubt (R364, R380). -/
def encHeld (d : Dev) (die : Nat) : List OutPic × Nat × Bool := ((d.vc die).encQueue, (d.vc die).handed, (d.vc die).encLoose)

theorem startPicture_encHeld (d : Dev) (i n die : Nat) : encHeld (startPicture d i n) die = encHeld d die := by
  obtain ⟨cores, turn, fresh, h⟩ := startPicture_eq d i n
  have hvc : ∀ v, ({ d.setVc (i / 2) v with codecTurn := turn, fresh := fresh } : Dev).vc die = (d.setVc (i / 2) v).vc die :=
    fun _ => rfl
  rw [h, encHeld, hvc, Dev.vc_setVc]
  split
  next he =>
    subst he
    split <;> rfl
  next => rfl

theorem shareCores_encHeld (d : Dev) (die : Nat) : encHeld (shareCores d) die = encHeld d die :=
  shareCores_keeps (encHeld · die) (startPicture_encHeld · · · die) d

/-- Where the registers are the same, each reads the same. -/
theorem Dev.rd_congr {d e : Dev} (h : e.regs = d.regs) (q : Reg) : e.rd q = d.rd q := by
  simp only [Dev.rd, Dev.reg, h]

/-- The next picture to code is read from the registers and what was handed over. -/
theorem nextToCode_congr {d e : Dev} {die : Nat} (hregs : e.regs = d.regs) (hheld : encHeld e die = encHeld d die) :
    nextToCode e die = nextToCode d die := by
  obtain ⟨hqueue, hhanded, hloose⟩ : (e.vc die).encQueue = (d.vc die).encQueue ∧ (e.vc die).handed = (d.vc die).handed ∧
      (e.vc die).encLoose = (d.vc die).encLoose := by simpa [encHeld] using hheld
  have hfld : ∀ r hi lo, e.fld r hi lo = d.fld r hi lo := fun r hi lo => congrArg (bits · hi lo) (Dev.rd_congr hregs r)
  have hkind : pictureKind e die = pictureKind d die := funext fun i => by simp only [pictureKind, hfld]
  have hanchors : anchors e die = anchors d die := funext fun i => by simp only [anchors, hkind]
  have hlevel : pictureLevel e die = pictureLevel d die := funext fun i => by simp only [pictureLevel, hkind, hanchors]
  have hout : encOut e die = encOut d die := by simp only [encOut, hfld]
  dsimp only [nextToCode]
  rw [hqueue, hhanded, hloose, hkind, hlevel, hanchors, hout]

/-! ## Where the rate code stands -/

@[simp] theorem pageMsg_regs (d : Dev) (pg : Page) : (pageMsg d pg).regs = d.regs := by
  unfold pageMsg
  dsimp only
  (repeat' split) <;> rfl

/-- An interrupt bit changes no register behind the common header of a page (R431). -/
theorem irqRise_rd (d : Dev) (pg : Page) (b : Nat) {q : Reg} (hq : 0x40 ≤ q.off) : (irqRise d pg b).rd q = d.rd q := by
  have hne : R.IRQ_STAT pg ≠ q := by
    rintro rfl
    exact absurd hq (by simp [R.IRQ_STAT])
  have hmsg : ∀ x : Dev, (pageMsg x pg).rd q = x.rd q := fun x => Dev.rd_congr (pageMsg_regs x pg) q
  simp only [irqRise]
  (repeat' split) <;> simp only [hmsg, Dev.rd_wr_ne _ _ hne]

theorem Dev.inc_rd (d : Dev) {r q : Reg} (n : Nat) (hq : 0x40 ≤ q.off) (h : r ≠ q) : (d.inc r n).rd q = d.rd q := by
  simp only [Dev.inc]
  split <;> simp only [irqRise_rd _ _ _ hq, Dev.rd_wr_ne _ _ h]

theorem Dev.inc64_rd (d : Dev) {r q : Reg} (n : Nat) (hq : 0x40 ≤ q.off) (h : r.page ≠ q.page) :
    (d.inc64 r n).rd q = d.rd q := by
  have hlo : r ≠ q := fun e => h (congrArg Reg.page e)
  have hhi : (⟨r.page, r.off + 4⟩ : Reg) ≠ q := by
    rintro rfl
    exact h rfl
  simp only [Dev.inc64]
  split <;> simp only [irqRise_rd _ _ _ hq, Dev.rd_wr_ne _ _ hlo, Dev.rd_wr_ne _ _ hhi]

/-- Rows opened count in the pages of the HBM controllers (R236). -/
theorem countOpens_rd (d : Dev) (ss : List Span) {q : Reg} (hq : 0x40 ≤ q.off) (h : ∀ die i, Page.hbmc die i ≠ q.page) :
    (countOpens d ss).rd q = d.rd q := by
  refine foldl_keeps (·.rd q) _ (fun x s => ?_) ss d
  dsimp only
  split
  · rfl
  · rw [Dev.inc64_rd _ _ hq (h _ _), Dev.inc64_rd _ _ hq (h _ _)]
    rfl

@[simp] theorem scramble_regs (d : Dev) (ss : List Span) : (scramble d ss).regs = d.regs :=
  scramble_keeps Dev.regs (fun _ _ _ => rfl) d ss

theorem encRate_congr {d e : Dev} {die : Nat} (h : e.rd (R.VC_ENC_CFG die) = d.rd (R.VC_ENC_CFG die)) :
    encRate e die = encRate d die := congrArg (bits · 21 18) h

theorem countOpens_encCfg (d : Dev) (ss : List Span) (die : Nat) :
    (countOpens d ss).rd (R.VC_ENC_CFG die) = d.rd (R.VC_ENC_CFG die) := countOpens_rd d ss (by simp [R.VC_ENC_CFG]) nofun

/-- A register of the encoder counts beside its configuration. -/
theorem Dev.inc_encCfg (d : Dev) {off die : Nat} (n : Nat) (h : off ≠ 0x80) :
    (d.inc ⟨.vcD die, off⟩ n).rd (R.VC_ENC_CFG die) = d.rd (R.VC_ENC_CFG die) :=
  d.inc_rd n (by simp [R.VC_ENC_CFG]) fun e => h (congrArg Reg.off e)

theorem ringAppend_encCfg (d : Dev) (die : Nat) (bs : List Byte) :
    (ringAppend d die bs).rd (R.VC_ENC_CFG die) = d.rd (R.VC_ENC_CFG die) := by
  have hwp : R.VC_ENC_BS_WP die ≠ R.VC_ENC_CFG die := nofun
  simp only [ringAppend]
  split
  · rw [Dev.rd_wr_ne _ _ hwp]
    exact Dev.rd_congr (scramble_regs ..) _
  · rw [Dev.rd_wr_ne _ _ hwp, countOpens_encCfg]
    rfl

theorem ringStore_encCfg (d : Dev) (die : Nat) (au : List Byte) :
    (ringStore d die au).rd (R.VC_ENC_CFG die) = d.rd (R.VC_ENC_CFG die) := by
  unfold ringStore
  split
  · rfl
  · split
    · exact ringAppend_encCfg d die au
    · exact d.inc_encCfg 1 (by decide)

/-! ## Sending -/

@[simp] theorem openPacket_stamp (k : Nat) (o : Out) : (openPacket k o).stamp = o.stamp := by
  cases o <;> rfl

theorem emit_packetsAt (d : Dev) {ts : Nat} {o : Out} (h : o.stamp = some ts) : PacketsAt ts d (d.emit o) := by
  intro x hx
  rw [Dev.packets_emit, h] at hx
  rcases List.mem_cons.1 hx with rfl | hx
  · exact .inr h
  · exact .inl hx

/-- A packet keeps its timestamp, whatever of it is open (R380). -/
theorem emitPacket_packetsAt (d : Dev) (die : Nat) {ts : Nat} {o : Out} (h : o.stamp = some ts) :
    PacketsAt ts d (emitPacket d die o) := by
  unfold emitPacket
  split
  · exact emit_packetsAt { d with fresh := d.fresh + 7 } (by rw [openPacket_stamp, h])
  · exact emit_packetsAt d h

theorem sendPacket_packetsAt (d : Dev) (die : Nat) {ts : Nat} {mk : Nat → Out} (h : ∀ i, (mk i).stamp = some ts) :
    PacketsAt ts d (sendPacket d die mk) := by
  refine packetsAt_foldl (fun x i => ?_) (pathsOn d die) d
  split
  · exact packetsAt_of_eq (Dev.inc_packets ..)
  · split
    · exact (packetsAt_of_eq (Dev.inc_packets ..)).trans (emitPacket_packetsAt _ die (h i))
    · exact packetsAt_of_eq rfl

@[simp] theorem notePacket_packets (d : Dev) (die n : Nat) : (notePacket d die n).packets = d.packets := by
  simp [notePacket]

theorem rtpSend_packetsAt (d : Dev) (die ts : Nat) (nals : List (List Byte)) : PacketsAt ts d (rtpSend d die ts nals) :=
  packetsAt_foldl (fun x _ => (sendPacket_packetsAt x die fun _ => rfl).trans (packetsAt_of_eq (notePacket_packets ..))) _ d

theorem send2110_packetsAt (d : Dev) (die ts : Nat) (whole : Bool) (ps : List (List Byte)) :
    PacketsAt ts d (send2110 d die ts whole ps) :=
  packetsAt_foldl (fun x _ => (sendPacket_packetsAt x die fun _ => rfl).trans (packetsAt_of_eq (notePacket_packets ..))) _ d

/-! ## The two rows -/

/-- The slot of a picture that is over goes back, and its cores to the next. -/
theorem pictureOver_packets (d : Dev) (die s : Nat) :
    (shareCores (stopIfAsked (releaseSlot d die s) die)).packets = d.packets := by
  rw [shareCores_packets, stopIfAsked_packets, releaseSlot_packets]

/-- A sender of whole frames takes its pictures in order (R376). -/
theorem nextToCode_of_encOut_two {d : Dev} {die : Nat} (h : encOut d die = 2) :
    nextToCode d die = (d.vc die).encQueue.head? := by
  dsimp only [nextToCode]
  split <;> simp [*]

theorem st2110Picture_packetsAt {die : Nat} {d : Dev} {q : OutPic} (hnext : nextToCode d die = some q)
    (hloose : (d.vc die).encLoose = false) : PacketsAt (rtpStamp (encRate d die) q.at') d (st2110Picture die d) := by
  unfold st2110Picture
  split
  next => exact packetsAt_of_eq rfl
  next p t hqueue =>
    dsimp only
    split
    next => exact packetsAt_of_eq rfl
    next hgo =>
      have hout : encOut d die = 2 := Decidable.not_not.1 fun h => hgo (.inr (.inl h))
      obtain rfl : p = q := by simpa [nextToCode_of_encOut_two hout, hqueue] using hnext
      refine PacketsAt.trans ?_ (packetsAt_of_eq (pictureOver_packets ..))
      simp only [PacketsAt, Dev.packets_ite, postRecord_packets, Dev.inc_packets, Dev.setVc_packets, ite_self, hloose,
        Bool.false_eq_true, if_false]
      refine PacketsAt.trans ?_ (send2110_packetsAt _ die _ _ _)
      exact packetsAt_of_eq (countOpens_packets ..)

/-- A coded picture goes out with RTP output alone, its timestamp at the stream's rate. -/
theorem codedSend_packetsAt {d e : Dev} {die : Nat} (at' : Nat) (nals : List (List Byte)) (hpackets : e.packets = d.packets)
    (hcfg : e.rd (R.VC_ENC_CFG die) = d.rd (R.VC_ENC_CFG die)) :
    PacketsAt (rtpStamp (encRate d die) at') d
      (if encOut e die = 1 then rtpSend e.draw.2 die (rtpStamp (encRate e.draw.2 die) at') nals else e) := by
  have hrate : encRate e.draw.2 die = encRate d die := encRate_congr hcfg
  split
  · rw [hrate]
    exact (packetsAt_of_eq (e := e.draw.2) hpackets).trans (rtpSend_packetsAt _ die _ nals)
  · exact packetsAt_of_eq hpackets

theorem encodePicture_packetsAt {die : Nat} {d : Dev} {q : OutPic} (lat : Nat) (hnext : nextToCode d die = some q)
    (hloose : (d.vc die).encLoose = false) : PacketsAt (rtpStamp (encRate d die) q.at') d (encodePicture die lat d) := by
  have hheld := shareCores_encHeld d die
  have hnext' : nextToCode (shareCores d) die = some q := (nextToCode_congr (shareCores_regs d) hheld).trans hnext
  have hloose' : ((shareCores d).vc die).encLoose = false := (congrArg (·.2.2) hheld).trans hloose
  have hcfg : (shareCores d).rd (R.VC_ENC_CFG die) = d.rd (R.VC_ENC_CFG die) := Dev.rd_congr (shareCores_regs d) _
  by_cases hon : streamOn (encStatus (shareCores d) die) = true
  · simp only [encodePicture, hon, if_true, hnext', hloose', Bool.not_true, Bool.false_eq_true, if_false]
    split
    · exact packetsAt_of_eq rfl
    split
    · exact packetsAt_of_eq (by rw [pictureOver_packets, Dev.inc_packets, countOpens_packets, shareCores_packets])
    split
    · exact packetsAt_of_eq rfl
    refine PacketsAt.trans ?_ (packetsAt_of_eq ((pictureOver_packets ..).trans (noteLatency_packets ..)))
    refine codedSend_packetsAt _ _ ?_ ?_
    · rw [Dev.inc_packets, Dev.setVc_packets, ringStore_packets, countOpens_packets]
      exact shareCores_packets d
    · refine (Dev.inc_encCfg _ 1 (by decide)).trans ?_
      rw [Dev.setVc_read_rd, ringStore_encCfg, countOpens_encCfg]
      exact hcfg
  · simp only [encodePicture, hon, if_false, Bool.not_false, if_true, Bool.false_eq_true]
    split
    · exact packetsAt_of_eq rfl
    · exact packetsAt_of_eq ((releaseSlot_packets ..).trans (shareCores_packets d))

/-! ## The frame boundary -/

theorem frameRate_pos {code r c : Nat} (h : frameRate code = some (r, c)) : 0 < c := by
  unfold frameRate at h
  split at h <;> cases h <;> decide

/-- Settles O51: k counts the frame boundaries up to the handover, R375's timestamp is taken at the last of them, and neither row
sends a packet with another: nothing they do before they send changes the rate code, and nothing after it sends. -/
theorem rtpTimestampsAreFrameBoundaries : Obligations.RtpTimestampsAreFrameBoundaries := by
  unfold Obligations.RtpTimestampsAreFrameBoundaries
  intro die lat s r c q d hnext hloose hrate
  have hframe : 0 < c * oneSecond := Nat.mul_pos (frameRate_pos hrate) (by decide)
  have hstamp : rtpStamp (encRate d die.val) q.at' = q.at' * r / (c * oneSecond) * c * 90000 / r % 2 ^ 32 := by
    simp only [rtpStamp, hrate]
  refine ⟨q.at' * r / (c * oneSecond), ?_, ?_, ⟨encodePicture die.val lat d, rfl, fun x hx => ?_⟩,
    ⟨st2110Picture die.val d, rfl, fun x hx => ?_⟩⟩
  · rw [Nat.mul_assoc]
    exact Nat.div_mul_le_self ..
  · rw [Nat.mul_assoc]
    exact Nat.lt_mul_of_div_lt (Nat.lt_succ_self _) hframe
  · refine ((encodePicture_packetsAt lat hnext hloose).out hx).imp_right fun h a i hd ssrc sq ts m b hpacket => ?_
    exact (h ts (by rw [hpacket, Out.stamp])).trans hstamp
  · refine ((st2110Picture_packetsAt hnext hloose).out hx).imp_right fun h a i hd ssrc sq ts m b hpacket => ?_
    exact (h ts (by rw [hpacket, Out.stamp])).trans hstamp

end Sys2Proof.Machine
end

section
/-! The engine work of the opcodes that a unit computes for: none of it changes the command its attempt is for. -/

namespace Sys2Proof.Machine
open Sys2Proof

/-! ## Engine work and the command it is for -/

/-- Engine work leaves the command of its attempt as it is. -/
structure KeepsCmd {α : Type} (m : Eng α) : Prop where
  cmd : ∀ f : Flight, (m f).2.cmd = f.cmd

theorem KeepsCmd.pure {α : Type} (a : α) : KeepsCmd (Pure.pure a : Eng α) := ⟨fun _ => rfl⟩

theorem KeepsCmd.modify {g : Flight → Flight} (h : ∀ f, (g f).cmd = f.cmd) : KeepsCmd (modify g : Eng Unit) := ⟨h⟩

theorem KeepsCmd.bind {α β : Type} {m : Eng α} {k : α → Eng β} (hm : KeepsCmd m) (hk : ∀ a, KeepsCmd (k a)) :
    KeepsCmd (m >>= k) := by
  refine ⟨fun f => ?_⟩
  have hrun : (m >>= k) f = match m f with
    | (.ok a, g) => k a g
    | (.error s, g) => (.error s, g) := by
    simp only [Bind.bind, ExceptT.bind, ExceptT.mk, ExceptT.bindCont, StateT.bind]
    rcases m f with ⟨a | s, g⟩ <;> rfl
  rw [hrun, ← hm.cmd f]
  rcases m f with ⟨s | a, g⟩
  · rfl
  · exact (hk a).cmd g

theorem KeepsCmd.ite {α : Type} {p : Prop} [Decidable p] {m n : Eng α} (hm : KeepsCmd m) (hn : KeepsCmd n) :
    KeepsCmd (if p then m else n) := by
  split
  · exact hm
  · exact hn

/-- A step that is taken on a condition only, and what follows either way. -/
theorem KeepsCmd.when {α : Type} {p : Prop} [Decidable p] {m : Eng Unit} {k : Unit → Eng α} (hm : KeepsCmd m)
    (hk : ∀ u, KeepsCmd (k u)) : KeepsCmd (if p then m >>= k else k ()) := .ite (.bind hm hk) (hk ())

/-- One of two steps, and what follows either way. -/
theorem KeepsCmd.either {α β : Type} {p : Prop} [Decidable p] {m n : Eng α} {k : α → Eng β} (hm : KeepsCmd m) (hn : KeepsCmd n)
    (hk : ∀ b, KeepsCmd (k b)) : KeepsCmd (if p then m >>= k else n >>= k) := .ite (.bind hm hk) (.bind hn hk)

theorem KeepsCmd.forM {α : Type} {body : α → Eng Unit} (h : ∀ a, KeepsCmd (body a)) : ∀ l : List α, KeepsCmd (l.forM body)
  | [] => .pure _
  | a :: l => .bind (h a) fun _ => .forM h l

theorem KeepsCmd.foldlM {α β : Type} {body : β → α → Eng β} (h : ∀ b a, KeepsCmd (body b a)) :
    ∀ (l : List α) (b : β), KeepsCmd (l.foldlM body b)
  | [], b => .pure b
  | a :: l, b => .bind (h b a) fun b' => .foldlM h l b'

theorem KeepsCmd.mapM {α β : Type} {body : α → Eng β} (h : ∀ a, KeepsCmd (body a)) (l : List α) : KeepsCmd (l.mapM body) := by
  rw [← List.mapM'_eq_mapM]
  induction l with
  | nil => exact .pure _
  | cons a l ih => exact .bind (h a) fun _ => .bind ih fun _ => .pure _

theorem stop_keepsCmd {α : Type} (s : Stop) : KeepsCmd (stop s : Eng α) := ⟨fun _ => rfl⟩

theorem lift_keepsCmd {α : Type} (m : Num α) : KeepsCmd (lift m) := ⟨fun _ => rfl⟩

theorem takes_keepsCmd (n : Nat) : KeepsCmd (takes n) := .modify fun _ => rfl

theorem taint_keepsCmd : KeepsCmd taint := .modify fun _ => rfl

theorem loosen_keepsCmd (x : Ctx) (r : Region) (off n : Nat) : KeepsCmd (loosen x r off n) := .modify fun _ => rfl

theorem upTo_keepsCmd {body : Nat → Eng Unit} (h : ∀ i, KeepsCmd (body i)) (n : Nat) : KeepsCmd (upTo n body) := .forM h _

/-! ## Accesses -/

section
variable (x : Ctx) (r : Region)

theorem access_keepsCmd (off n : Nat) : KeepsCmd (access r off n) := .ite (.pure _) (stop_keepsCmd _)

theorem touch_keepsCmd (off n : Nat) : KeepsCmd (touch x r off n) :=
  .bind (access_keepsCmd ..) fun _ => .ite (stop_keepsCmd _) (.pure _)

theorem touchTable_keepsCmd (sp : Space) (a n : Nat) : KeepsCmd (touchTable x sp a n) := .ite (stop_keepsCmd _) (.pure _)

theorem getBytes_keepsCmd (off n : Nat) : KeepsCmd (getBytes x r off n) := .bind (touch_keepsCmd ..) fun _ => .pure _

theorem putBytes_keepsCmd (off : Nat) (bs : List Byte) : KeepsCmd (putBytes x r off bs) :=
  .bind (access_keepsCmd ..) fun _ => .modify fun _ => rfl

theorem touchBlock_keepsCmd (f nblk i cnt : Nat) : KeepsCmd (touchBlock x r f nblk i cnt) :=
  .bind (touch_keepsCmd ..) fun _ => touch_keepsCmd ..

theorem touchRows_keepsCmd (f rowsTotal k : Nat) (rows deep : Nat × Nat) : KeepsCmd (touchRows x r f rowsTotal k rows deep) :=
  .forM (fun _ => upTo_keepsCmd (fun _ => .ite (touch_keepsCmd ..) (touchBlock_keepsCmd ..)) _) _

theorem touchB_keepsCmd (f n k : Nat) (cols deep : Nat × Nat) : KeepsCmd (touchB x r f n k cols deep) :=
  .ite (upTo_keepsCmd (fun _ => touch_keepsCmd ..) _) (upTo_keepsCmd (fun _ => .forM (fun _ => touchBlock_keepsCmd ..) _) _)

theorem touchTile_keepsCmd (f n : Nat) (cols rows : Nat × Nat) : KeepsCmd (touchTile x r f n cols rows) :=
  upTo_keepsCmd (fun _ => touch_keepsCmd ..) _

theorem accessTile_keepsCmd (f n : Nat) (cols rows : Nat × Nat) : KeepsCmd (accessTile r f n cols rows) :=
  upTo_keepsCmd (fun _ => access_keepsCmd ..) _

theorem store_keepsCmd (p : Product) (f n m j : Nat) (satOff : Bool) : KeepsCmd (p.store x r f n m j satOff) :=
  .bind (lift_keepsCmd _) fun _ => putBytes_keepsCmd ..

/-- Every output of a product is stored. -/
theorem storeAll_keepsCmd (p : Product) (f m n : Nat) (satOff : Bool) (cycles : Nat) :
    KeepsCmd (upTo m (fun i => upTo n (fun j => p.store x r f n i j satOff)) >>= fun _ => takes cycles) :=
  .bind (upTo_keepsCmd (fun _ => upTo_keepsCmd (fun _ => store_keepsCmd ..) _) _) fun _ => takes_keepsCmd _

/-- A number is worked out and put for every element of a matrix. -/
theorem putAll_keepsCmd (g : Nat → Nat → Num (List Byte)) (off : Nat → Nat → Nat) (m n : Nat) :
    KeepsCmd (upTo m (fun i => upTo n (fun j => lift (g i j) >>= putBytes x r (off i j)))) :=
  upTo_keepsCmd (fun _ => upTo_keepsCmd (fun _ => .bind (lift_keepsCmd _) fun _ => putBytes_keepsCmd ..) _) _

theorem noteSignals_keepsCmd (f i n : Nat) : KeepsCmd (noteSignals x r f i n) := lift_keepsCmd _

theorem getRow_keepsCmd (f i n : Nat) : KeepsCmd (getRow x r f i n) :=
  .bind (touch_keepsCmd ..) fun _ => .bind (noteSignals_keepsCmd ..) fun _ => .pure _

theorem putRow_keepsCmd (f rm i : Nat) (vs : List Val) : KeepsCmd (putRow x r f rm i vs) :=
  .bind (lift_keepsCmd _) fun _ => putBytes_keepsCmd ..

theorem putBlock_keepsCmd (rs : Region) (f scaleAt i : Nat) (b : Nat × List Nat) : KeepsCmd (putBlock x r rs f scaleAt i b) :=
  .bind (putBytes_keepsCmd ..) fun _ => putBytes_keepsCmd ..

theorem eachRow_keepsCmd {body : Nat → Eng Unit} (h : ∀ m, KeepsCmd (body m)) (rows per : Nat) : KeepsCmd (eachRow rows per body) :=
  .bind (takes_keepsCmd _) fun _ => upTo_keepsCmd (fun m => .bind (takes_keepsCmd _) fun _ => h m) _

end

/-! ## Matrix products -/

/-- The accesses of a product leave the command as it is. -/
structure Touches.KeepCmd (t : Touches) : Prop where
  head : KeepsCmd t.head := by exact .pure _
  side : ∀ cols, KeepsCmd (t.side cols) := by exact fun _ => .pure _
  b : ∀ cols deep, KeepsCmd (t.b cols deep)
  c : ∀ cols rows, KeepsCmd (t.c cols rows)
  a : ∀ rows deep, KeepsCmd (t.a rows deep)
  out : ∀ cols, KeepsCmd (t.out cols)

theorem Touches.KeepCmd.walk {t : Touches} (h : t.KeepCmd) (m n k fb : Nat) : KeepsCmd (t.walk m n k fb) :=
  .bind h.head fun _ => .forM (fun cols => .bind (h.side cols) fun _ => .bind (.forM (fun deep => .bind (h.b cols deep) fun _ =>
    .forM (fun rows => .when (h.c cols rows) fun _ => h.a rows deep) _) _) fun _ => h.out cols) _

theorem sideTouch_keepsCmd (s : SideList) (x : Ctx) (r : Region) (n nbk : Nat) (cols : Nat × Nat) :
    KeepsCmd (s.touch x r n nbk cols) := upTo_keepsCmd (fun _ => touch_keepsCmd ..) _

theorem touchLowRank_keepsCmd (x : Ctx) (cols : Nat × Nat) : KeepsCmd (touchLowRank x cols) :=
  .bind (upTo_keepsCmd (fun _ => touch_keepsCmd ..) _) fun _ => upTo_keepsCmd (fun _ => touch_keepsCmd ..) _

theorem mmTouches_keepCmd (x : Ctx) (side : SideList) : (mmTouches x side).KeepCmd where
  head := .ite (touch_keepsCmd ..) (.pure _)
  side _ := .when (sideTouch_keepsCmd ..) fun _ => .ite (touchLowRank_keepsCmd ..) (.pure _)
  b := touchB_keepsCmd x _ _ _ _
  c _ _ := .ite (touchTile_keepsCmd ..) (.pure _)
  a := touchRows_keepsCmd x _ _ _ _
  out _ := accessTile_keepsCmd ..

theorem mmWork_keepsCmd (x : Ctx) : KeepsCmd (mmWork x) :=
  .bind ((mmTouches_keepCmd x _).walk ..) fun _ => .when taint_keepsCmd fun _ =>
    .ite (.when taint_keepsCmd fun _ => .bind (lift_keepsCmd _) fun _ => storeAll_keepsCmd ..) (storeAll_keepsCmd ..)

theorem ewWork_keepsCmd (x : Ctx) : KeepsCmd (ewWork x) :=
  eachRow_keepsCmd (fun _ => .forM (fun _ => .bind (touchRows_keepsCmd ..) fun _ =>
    .when (touch_keepsCmd ..) fun _ => .when (touch_keepsCmd ..) fun _ => .when (noteSignals_keepsCmd ..) fun _ =>
    .when (noteSignals_keepsCmd ..) fun _ => .when (noteSignals_keepsCmd ..) fun _ =>
    .bind (lift_keepsCmd _) fun _ => putBytes_keepsCmd ..) _) _ _

theorem normWork_keepsCmd (x : Ctx) : KeepsCmd (normWork x) := by
  refine .when taint_keepsCmd fun _ => eachRow_keepsCmd (fun _ => ?_) _ _
  refine .bind (getRow_keepsCmd ..) fun _ => .bind (lift_keepsCmd _) fun _ => .bind (getRow_keepsCmd ..) fun _ => ?_
  exact .either (.pure _) (getRow_keepsCmd ..) fun _ =>
    .forM (fun _ => .bind (lift_keepsCmd _) fun _ => .bind (lift_keepsCmd _) fun _ => putBytes_keepsCmd ..) _

theorem softmaxWork_keepsCmd (x : Ctx) : KeepsCmd (softmaxWork x) :=
  eachRow_keepsCmd (fun _ => .bind (getRow_keepsCmd ..) fun _ => .bind (lift_keepsCmd _) fun r => match r with
    | none => .bind (putRow_keepsCmd ..) fun _ => .ite (putRow_keepsCmd ..) (.pure _)
    | some (_, _, _, _) => .bind (lift_keepsCmd _) fun _ => .bind (lift_keepsCmd _) fun _ => .bind (putBytes_keepsCmd ..) fun _ =>
      .ite (.bind (lift_keepsCmd _) fun _ => putRow_keepsCmd ..) (.pure _)) _ _

theorem redWork_keepsCmd (x : Ctx) : KeepsCmd (opVeRed.work x) :=
  eachRow_keepsCmd (fun _ => .bind (getRow_keepsCmd ..) fun _ => .bind (lift_keepsCmd _) fun _ => putRow_keepsCmd ..) _ _

theorem combineWork_keepsCmd (x : Ctx) : KeepsCmd (combineWork x) := by
  refine eachRow_keepsCmd (fun _ => ?_) _ _
  refine .bind (.mapM (fun _ => .bind (touch_keepsCmd ..) fun _ => .pure _) _) fun _ => ?_
  refine .bind (.mapM (fun _ => .bind (noteSignals_keepsCmd ..) fun _ => .bind (getRow_keepsCmd ..) fun _ => .pure _) _) fun _ => ?_
  refine .ite (.bind (putRow_keepsCmd ..) fun _ => .ite (putRow_keepsCmd ..) (putRow_keepsCmd ..)) ?_
  refine .bind (lift_keepsCmd _) fun _ => .ite ?_ (.bind (putRow_keepsCmd ..) fun _ => putRow_keepsCmd ..)
  exact .bind (lift_keepsCmd _) fun _ => .bind (lift_keepsCmd _) fun _ => .bind (putBytes_keepsCmd ..) fun _ =>
    .bind (lift_keepsCmd _) fun _ => putRow_keepsCmd ..

theorem quantWork_keepsCmd (x : Ctx) : KeepsCmd (opVeQuant.work x) :=
  eachRow_keepsCmd (fun _ => .forM (fun _ => .bind (getRow_keepsCmd ..) fun _ => .bind (lift_keepsCmd _) fun _ =>
    putBlock_keepsCmd ..) _) _ _

theorem quantEfWork_keepsCmd (x : Ctx) : KeepsCmd (opVeQuantEf.work x) := by
  refine eachRow_keepsCmd (fun _ => .forM (fun _ => .bind (getRow_keepsCmd ..) fun _ => ?_) _) _ _
  exact .either (.pure _) (getRow_keepsCmd ..) fun _ => .bind (lift_keepsCmd _) fun _ => .bind (lift_keepsCmd _) fun _ =>
    .bind (putBlock_keepsCmd ..) fun _ => .bind (lift_keepsCmd _) fun _ => putBytes_keepsCmd ..

theorem dwOut_keepsCmd (x : Ctx) (t : Tile) (co : Coma) (m n : Nat) : KeepsCmd (dwOut x t co m n) := by
  have hacc : ∀ (r : Region) (off n : Nat) (g : Num Val), KeepsCmd (touch x r off n >>= fun _ => lift g) := fun _ _ _ _ =>
    .bind (touch_keepsCmd ..) fun _ => lift_keepsCmd _
  refine .ite (.bind (getRow_keepsCmd ..) fun _ => .bind (.pure _) fun _ => ?_) (.bind (.pure _) fun _ => ?_)
  all_goals
    refine .foldlM (fun _ i => ?_) _ _
    dsimp only
    split
    · exact .bind (.pure _) fun _ => hacc ..
    · exact .when (stop_keepsCmd _) fun _ => .bind (getRow_keepsCmd ..) fun _ => .bind (.pure _) fun _ => hacc ..

theorem sfuWork_keepsCmd (x : Ctx) : KeepsCmd (opVeSfu.work x) :=
  eachRow_keepsCmd (fun _ => .bind (getRow_keepsCmd ..) fun _ => .when (touchTable_keepsCmd ..) fun _ =>
    .bind (lift_keepsCmd _) fun _ => putBytes_keepsCmd ..) _ _

theorem sfuLoadWork_keepsCmd (x : Ctx) : KeepsCmd (opVeSfuLoad.work x) :=
  .bind (getBytes_keepsCmd ..) fun _ => .bind (putBytes_keepsCmd ..) fun _ => takes_keepsCmd _

theorem dwWork_keepsCmd (x : Ctx) : KeepsCmd (opVeDwconv.work x) :=
  eachRow_keepsCmd (fun _ => upTo_keepsCmd (fun _ => .either (dwOut_keepsCmd ..) (.pure _) fun _ => putRow_keepsCmd ..) _) _ _

/-! ## Attention -/

theorem touchPage_keepsCmd (x : Ctx) (p : KvPage) : KeepsCmd (touchPage x p) :=
  .bind (access_keepsCmd ..) fun _ => .forM (fun _ => touch_keepsCmd ..) _

theorem touchAttention_keepsCmd (x : Ctx) (a : AttRec) (pages : List KvPage) : KeepsCmd (touchAttention x a pages) :=
  .bind (touch_keepsCmd ..) fun _ => .bind (upTo_keepsCmd (fun _ => touchRows_keepsCmd ..) _) fun _ =>
    .forM (fun _ => .when (upTo_keepsCmd (fun _ => touch_keepsCmd ..) _) fun _ => touchPage_keepsCmd ..) _

theorem attWork_keepsCmd (x : Ctx) : KeepsCmd (attWork x) := by
  refine .bind (touchAttention_keepsCmd ..) fun _ => .bind (lift_keepsCmd _) fun _ =>
    .bind (upTo_keepsCmd (fun _ => .bind (lift_keepsCmd _) fun _ => ?_) _) fun _ => takes_keepsCmd _
  exact .bind (lift_keepsCmd _) fun _ => .bind (putBytes_keepsCmd ..) fun _ => .bind (lift_keepsCmd _) fun _ => putBytes_keepsCmd ..

theorem kwKeys_keepsCmd (x : Ctx) (r : Region) (base i : Nat) : KeepsCmd (kwKeys x r base i) :=
  .bind (getRow_keepsCmd ..) fun _ => .ite (.bind (lift_keepsCmd _) fun _ => putBytes_keepsCmd ..)
    (.forM (fun _ => .bind (lift_keepsCmd _) fun _ => putBlock_keepsCmd ..) _)

theorem kwValues_keepsCmd (x : Ctx) (r : Region) (base n : Nat) : KeepsCmd (kwValues x r base n) :=
  .ite (.bind (lift_keepsCmd _) fun _ => putBytes_keepsCmd ..) (.forM (fun _ => .bind (lift_keepsCmd _) fun _ => putBlock_keepsCmd ..) _)

theorem noteWild_keepsCmd (x : Ctx) (i : Nat) : KeepsCmd (noteWild x i) := .ite (.modify fun _ => rfl) (.pure _)

theorem kwWork_keepsCmd (x : Ctx) : KeepsCmd (kwWork x) := by
  refine .bind (noteWild_keepsCmd ..) fun _ => .bind (access_keepsCmd ..) fun _ => .when (stop_keepsCmd _) fun _ => ?_
  refine .bind (upTo_keepsCmd (fun _ => kwKeys_keepsCmd ..) _) fun _ => .bind (upTo_keepsCmd (fun _ => touch_keepsCmd ..) _) fun _ =>
    .bind (upTo_keepsCmd (fun _ => kwValues_keepsCmd ..) _) fun _ => ?_
  exact .when (loosen_keepsCmd ..) fun _ => takes_keepsCmd _

/-! ## Convolution -/

theorem touchGather_keepsCmd (x : Ctx) (r : Region) (t : Tile) (co : Coma) (f m k cnt : Nat) :
    KeepsCmd (touchGather x r t co f m k cnt) := by
  refine .ite (.pure _) (.ite (upTo_keepsCmd (fun i => ?_) _) ?_)
  · rcases tapOf t co m (k + i) with _ | _
    · exact .pure _
    · exact .when (stop_keepsCmd _) fun _ => touch_keepsCmd ..
  · rcases tapOf t co m k with _ | _
    · exact .pure _
    · exact .when (stop_keepsCmd _) fun _ => touchBlock_keepsCmd ..

theorem convTouches_keepCmd (x : Ctx) (t : Tile) : (convTouches x t).KeepCmd where
  b _ _ := touchB_keepsCmd ..
  c _ _ := .ite (touchTile_keepsCmd ..) (.pure _)
  a _ _ := .forM (fun _ => upTo_keepsCmd (fun _ => touchGather_keepsCmd ..) _) _
  out _ := accessTile_keepsCmd ..

theorem convWork_keepsCmd (x : Ctx) : KeepsCmd (convWork x) := by
  refine .bind ((convTouches_keepCmd x _).walk ..) fun _ => .bind (upTo_keepsCmd (fun _ => upTo_keepsCmd (fun _ => ?_) _) _) fun _ =>
    takes_keepsCmd _
  exact .ite (store_keepsCmd ..) (.bind (lift_keepsCmd _) fun _ => putBytes_keepsCmd ..)

/-! ## Training -/

theorem bwTouches_keepCmd (x : Ctx) : (bwTouches x).KeepCmd where
  side _ := .when (.forM (fun _ => .forM (fun _ => touch_keepsCmd ..) _) _) fun _ => .ite (touchLowRank_keepsCmd ..) (.pure _)
  b _ _ := touchB_keepsCmd ..
  c _ _ := .ite (touchTile_keepsCmd ..) (.pure _)
  a _ _ := touchRows_keepsCmd ..
  out _ := upTo_keepsCmd (fun _ => .forM (fun _ => .ite (accessTile_keepsCmd ..) (.pure _)) _) _

theorem bwMmWork_keepsCmd (x : Ctx) : KeepsCmd (bwMmWork x) :=
  .bind ((bwTouches_keepCmd x).walk ..) fun _ => .when taint_keepsCmd fun _ =>
    .bind (upTo_keepsCmd (fun _ => upTo_keepsCmd (fun _ => .ite (store_keepsCmd ..) (.pure _)) _) _) fun _ => takes_keepsCmd _

theorem adaptWork_keepsCmd (x : Ctx) : KeepsCmd (adaptWork x) :=
  .bind (touch_keepsCmd ..) fun _ => .bind (touch_keepsCmd ..) fun _ => .when (touch_keepsCmd ..) fun _ =>
    storeAll_keepsCmd ..

theorem bwAttWork_keepsCmd (x : Ctx) : KeepsCmd (bwAttWork x) := by
  refine .bind (touchAttention_keepsCmd ..) fun _ => .bind (upTo_keepsCmd (fun _ => touchRows_keepsCmd ..) _) fun _ =>
    .bind (touch_keepsCmd ..) fun _ => .bind (lift_keepsCmd _) fun _ => ?_
  refine .bind (.mapM (fun _ => .bind (lift_keepsCmd _) fun _ => .pure _) _) fun _ => ?_
  refine .bind (putAll_keepsCmd ..) fun _ => ?_
  exact .bind (upTo_keepsCmd (fun _ => .bind (putAll_keepsCmd ..) fun _ => putAll_keepsCmd ..) _) fun _ => takes_keepsCmd _

theorem bwNormWork_keepsCmd (x : Ctx) : KeepsCmd (bwNormWork x) := by
  refine .when taint_keepsCmd fun _ => .bind (.foldlM (fun _ _ => ?_) _ _) fun _ => ?_
  · refine .bind (getRow_keepsCmd ..) fun _ => .bind (getRow_keepsCmd ..) fun _ => .bind (getRow_keepsCmd ..) fun _ => ?_
    exact .bind (lift_keepsCmd _) fun _ => .bind (lift_keepsCmd _) fun _ => .bind (putBytes_keepsCmd ..) fun _ =>
      .bind (lift_keepsCmd _) fun _ => .bind (lift_keepsCmd _) fun _ => .pure _
  · exact .bind (putRow_keepsCmd ..) fun _ => .bind (putRow_keepsCmd ..) fun _ => takes_keepsCmd _

theorem bwSoftmaxWork_keepsCmd (x : Ctx) : KeepsCmd (opBwSoftmax.work x) := by
  refine .bind (upTo_keepsCmd (fun _ => ?_) _) fun _ => takes_keepsCmd _
  exact .bind (getRow_keepsCmd ..) fun _ => .bind (getRow_keepsCmd ..) fun _ => .bind (lift_keepsCmd _) fun r => match r with
    | none => putRow_keepsCmd ..
    | some (_, _, _, _) => .bind (lift_keepsCmd _) fun _ => putRow_keepsCmd ..

/-! ## Collectives -/

theorem padRegion_keepsCmd (x : Ctx) (i used : Nat) : KeepsCmd (padRegion x i used) := .ite (.pure _) (putBytes_keepsCmd ..)

theorem getPiece_keepsCmd (x : Ctx) (r : Region) (f rows k m : Nat) (p : Nat × Nat) : KeepsCmd (getPiece x r f rows k m p) :=
  .ite (getRow_keepsCmd ..) (.bind (touchBlock_keepsCmd ..) fun _ => .pure _)

theorem putPiece_keepsCmd (x : Ctx) (s : StepRec) (f m : Nat) (p : Nat × Nat) (vs : List Val) : KeepsCmd (putPiece x s f m p vs) :=
  .ite (.bind (lift_keepsCmd _) fun _ => putBytes_keepsCmd ..) (.bind (lift_keepsCmd _) fun _ => .bind (putBlock_keepsCmd ..) fun _ =>
    .ite (.bind (lift_keepsCmd _) fun _ => putBytes_keepsCmd ..) (.pure _))

theorem rsWork_keepsCmd (x : Ctx) : KeepsCmd (rsWork x) := by
  refine .bind (touch_keepsCmd ..) fun _ => .bind (upTo_keepsCmd (fun _ => .forM (fun _ => ?_) _) _) fun _ =>
    .bind (padRegion_keepsCmd ..) fun _ => takes_keepsCmd _
  refine .bind (getRow_keepsCmd ..) fun _ => .either (.pure _) (getPiece_keepsCmd ..) fun _ =>
    .either (.pure _) (lift_keepsCmd _) fun _ => ?_
  exact .ite (.either (.pure _) (getRow_keepsCmd ..) fun _ => .bind (lift_keepsCmd _) fun _ => putPiece_keepsCmd ..)
    (.bind (.pure _) fun _ => putPiece_keepsCmd ..)

theorem stepProduct_keepsCmd (x : Ctx) (start : Bool) (ci : Nat) : KeepsCmd (stepProduct x start ci) := by
  have htouches : ∀ side, Touches.KeepCmd { mmTouches x side with
      c := fun cols rows => if start then touchTile x (x.region ci) x.cmd.fmtOut x.cmd.n cols rows else pure () } := fun side =>
    { mmTouches_keepCmd x side with c := fun _ _ => .ite (touchTile_keepsCmd ..) (.pure _) }
  refine .bind ((htouches _).walk ..) fun _ => .when taint_keepsCmd fun _ => ?_
  exact .ite (.when taint_keepsCmd fun _ => .bind (lift_keepsCmd _) fun _ => storeAll_keepsCmd ..) (storeAll_keepsCmd ..)

theorem mmRsWork_keepsCmd (x : Ctx) : KeepsCmd (opMmRs.work x) :=
  .bind (touch_keepsCmd ..) fun _ => .bind (stepProduct_keepsCmd ..) fun _ => padRegion_keepsCmd ..

theorem agMmWork_keepsCmd (x : Ctx) : KeepsCmd (opAgMm.work x) :=
  .bind (touch_keepsCmd ..) fun _ => .when (touch_keepsCmd ..) fun _ => stepProduct_keepsCmd ..

end Sys2Proof.Machine
end

section
/-! What a kill leaves of a core: its command at the boundary again, one residue kill more or as many as before (R45, R277, R385). -/

namespace Sys2Proof.Machine
open Sys2Proof

/-! ## Where the commands stand -/

/-- What is held of commands between issue and commit: every core's sequencer, the members of collectives, and what residue
checks have found (R384). -/
def Dev.standing (d : Dev) : List ((Nat × Nat) × CoreSt) × List ((Nat × Nat) × Coll) ×
    List ((Nat × Nat × ResUnit) × Nat) × List (Nat × Nat × Nat) := (d.cores, d.colls, d.mismatch, d.fenced)

theorem cs_of_standing {d e : Dev} (h : e.standing = d.standing) (die c : Nat) : e.cs die c = d.cs die c :=
  congrArg (fun m => look ({} : CoreSt) m (die, c)) (congrArg Prod.fst h : e.cores = d.cores)

@[simp] theorem Dev.standing_ite (p : Prop) [Decidable p] (a b : Dev) :
    (if p then a else b).standing = if p then a.standing else b.standing := apply_ite Dev.standing p a b

@[simp] theorem Dev.wr_standing (d : Dev) (r : Reg) (v : Nat) : (d.wr r v).standing = d.standing := rfl

@[simp] theorem Dev.setFld_standing (d : Dev) (r : Reg) (hi lo v : Nat) : (d.setFld r hi lo v).standing = d.standing := rfl

@[simp] theorem Dev.setPort_standing (d : Dev) (n : Nat) (p : Port) : (d.setPort n p).standing = d.standing := rfl

@[simp] theorem Dev.setPath_standing (d : Dev) (p : TlmPath) (q : Path) : (d.setPath p q).standing = d.standing := rfl

@[simp] theorem Dev.setKv_standing (d : Dev) (die i : Nat) (e : KvtEnt) : (d.setKv die i e).standing = d.standing := rfl

@[simp] theorem Dev.emit_standing (d : Dev) (o : Out) : (d.emit o).standing = d.standing := rfl

@[simp] theorem pageMsg_standing (d : Dev) (pg : Page) : (pageMsg d pg).standing = d.standing := by
  unfold pageMsg
  dsimp only
  (repeat' split) <;> rfl

@[simp] theorem irqRise_standing (d : Dev) (pg : Page) (b : Nat) : (irqRise d pg b).standing = d.standing := by
  simp [irqRise]

@[simp] theorem Dev.inc_standing (d : Dev) (r : Reg) (n : Nat) : (d.inc r n).standing = d.standing := by
  simp [Dev.inc]

@[simp] theorem Dev.inc64_standing (d : Dev) (r : Reg) (n : Nat) : (d.inc64 r n).standing = d.standing := by
  simp [Dev.inc64]

@[simp] theorem ringWrite_standing (d : Dev) (n rec : Nat) : (ringWrite d n rec).standing = d.standing := by
  simp only [ringWrite]
  (repeat' split) <;> rfl

@[simp] theorem pathAlarm_standing (d : Dev) (p : TlmPath) (rec : Nat) : (pathAlarm d p rec).standing = d.standing := by
  unfold pathAlarm
  (repeat' split) <;> simp

@[simp] theorem pathAppend_standing (d : Dev) (p : TlmPath) (rec : Nat) : (pathAppend d p rec).standing = d.standing := by
  unfold pathAppend
  dsimp only
  (repeat' split) <;> simp

@[simp] theorem pathEnter_standing (d : Dev) (p : TlmPath) (rec : Nat) : (pathEnter d p rec).standing = d.standing := by
  simp [pathEnter]

@[simp] theorem keyRecord_standing (d : Dev) (p : TlmPath) (rec : Nat) : (keyRecord d p rec).standing = d.standing := by
  unfold keyRecord
  dsimp only
  (repeat' split) <;> simp

@[simp] theorem pathPost_standing (d : Dev) (p : TlmPath) (rec : Nat) : (pathPost d p rec).standing = d.standing := by
  simp [pathPost]

@[simp] theorem semRelease_standing (d : Dev) (die slot i n : Nat) : (semRelease d die slot i n).standing = d.standing := by
  simp only [semRelease]
  split
  · rw [postReg, postRegFrom, postRecord, pathPost_standing]
    split <;> rfl
  · rfl

@[simp] theorem scramble_standing (d : Dev) (ss : List Span) : (scramble d ss).standing = d.standing :=
  scramble_keeps Dev.standing (fun _ _ _ => rfl) d ss

@[simp] theorem countOpens_standing (d : Dev) (ss : List Span) : (countOpens d ss).standing = d.standing := by
  refine foldl_keeps Dev.standing _ (fun x s => ?_) ss d
  dsimp only
  split
  · rfl
  · simp only [Dev.inc64_standing]
    rfl

@[simp] theorem wildPages_standing (d : Dev) (die : Nat) (l : List Nat) : (wildPages d die l).standing = d.standing := by
  refine foldl_keeps Dev.standing _ (fun x i => ?_) l d
  simp

@[simp] theorem dropFlits_standing (d : Dev) (who : Nat × Nat → Bool) : (dropFlits d who).standing = d.standing := rfl

@[simp] theorem firstIssue_standing (d : Dev) (n : Nat) : (firstIssue d n).standing = d.standing := by
  unfold firstIssue
  dsimp only
  (repeat' split) <;> simp

/-! ## A core's command is killed (R45) -/

/-- What a kill of its command leaves of a core. -/
def CoreSt.killed (s : CoreSt) (f : Flight) (residue : Bool) : CoreSt :=
  { s with flight := none, carried := s.carried ++ f.pins, rerun := true, phase := .ready, stale := f.outs,
           resKills := s.resKills + b2n residue }

/-- What the attempt acquired is returned (R45). -/
def acquiredBack (d : Dev) (slot die : Nat) (f : Flight) : Dev :=
  match f.acquired with
  | some (i, n) => semRelease d die slot i n
  | none => d

/-- The device just before the core of a killed command goes back to its boundary: what it acquired returned, its flits
dropped, its outputs unpredictable, the receiver of its step counting anew (R45, R277, R305). -/
def unwound (d : Dev) (slot die c : Nat) (f : Flight) : Dev :=
  let d1 := wildPages (scramble (dropFlits (acquiredBack d slot die f) (· == (die, c))) f.written) die f.wild
  match f.coll with
  | some cf => restartReceive d1 c cf
  | none => d1

theorem killCore_of_idle {d : Dev} {die c : Nat} (h : (d.cs die c).flight = none) (slot : Nat) (residue : Bool) :
    killCore d slot die c residue = d := by
  simp only [killCore, h]

theorem killCore_of_flight {d : Dev} {die c : Nat} {f : Flight} (h : (d.cs die c).flight = some f) (slot : Nat) (residue : Bool) :
    killCore d slot die c residue = (unwound d slot die c f).setCs die c ((d.cs die c).killed f residue) := by
  simp only [killCore, h, unwound, acquiredBack, CoreSt.killed] <;> rfl

@[simp] theorem acquiredBack_standing (d : Dev) (slot die : Nat) (f : Flight) :
    (acquiredBack d slot die f).standing = d.standing := by
  unfold acquiredBack
  split <;> simp

/-- The receiver of a killed step is the same core of another die, and of it only the attempt changes. -/
theorem restartReceive_eq (d : Dev) (c : Nat) (cf : CollFlight) : restartReceive d c cf = d ∨
    ∃ peer f, restartReceive d c cf = d.setCs peer c { d.cs peer c with flight := some f } := by
  unfold restartReceive
  split
  · exact .inl rfl
  next peer _ =>
    dsimp only
    split
    · exact .inl rfl
    · split
      · split
        · exact .inr ⟨peer, _, rfl⟩
        · exact .inl rfl
      · exact .inl rfl

theorem restartReceive_cs (d : Dev) (c : Nat) (cf : CollFlight) (die' c' : Nat) :
    ((restartReceive d c cf).cs die' c').resKills = (d.cs die' c').resKills ∧
      (c' ≠ c → (restartReceive d c cf).cs die' c' = d.cs die' c') := by
  rcases restartReceive_eq d c cf with h | ⟨peer, f, h⟩
  · rw [h]
    exact ⟨rfl, fun _ => rfl⟩
  · rw [h, Dev.cs_setCs]
    split
    next hk =>
      cases hk
      exact ⟨rfl, fun hne => absurd rfl hne⟩
    next => exact ⟨rfl, fun _ => rfl⟩

theorem unwound_cs (d : Dev) (slot die c : Nat) (f : Flight) (die' c' : Nat) :
    ((unwound d slot die c f).cs die' c').resKills = (d.cs die' c').resKills ∧
      (c' ≠ c → (unwound d slot die c f).cs die' c' = d.cs die' c') := by
  unfold unwound
  extract_lets d1
  have hcs : d1.cs die' c' = d.cs die' c' := cs_of_standing (by simp [d1]) die' c'
  rw [← hcs]
  split
  · exact restartReceive_cs ..
  · exact ⟨rfl, fun _ => rfl⟩

theorem killCore_cs_self {d : Dev} {die c : Nat} {f : Flight} (h : (d.cs die c).flight = some f) (slot : Nat) (residue : Bool) :
    (killCore d slot die c residue).cs die c = (d.cs die c).killed f residue := by
  rw [killCore_of_flight h, Dev.cs_setCs_self]

theorem killCore_cs_ne {d : Dev} {die c c' : Nat} (h : c' ≠ c) (slot die' : Nat) (residue : Bool) :
    (killCore d slot die c residue).cs die' c' = d.cs die' c' := by
  cases hf : (d.cs die c).flight with
  | none => rw [killCore_of_idle hf]
  | some f =>
    have hother : (die, c) ≠ (die', c') := fun e => h (congrArg Prod.snd e).symm
    rw [killCore_of_flight hf, Dev.cs_setCs, if_neg hother, (unwound_cs d slot die c f die' c').2 h]

theorem killCore_resKills (d : Dev) (slot die c die' c' : Nat) :
    ((killCore d slot die c false).cs die' c').resKills = (d.cs die' c').resKills := by
  cases hf : (d.cs die c).flight with
  | none => rw [killCore_of_idle hf]
  | some f =>
    rw [killCore_of_flight hf, Dev.cs_setCs]
    split
    next h => cases h; rfl
    next => exact (unwound_cs d slot die c f die' c').1

/-! ## Every command of a member is killed (R277) -/

theorem foldl_killCore_cs_of_idle {die c : Nat} (slot : Nat) (residue : Bool) (l : List (Nat × Flight)) (d : Dev)
    (h : (d.cs die c).flight = none) : (l.foldl (fun x e => killCore x slot die e.1 residue) d).cs die c = d.cs die c := by
  induction l generalizing d with
  | nil => rfl
  | cons e t ih =>
    have hstep : (killCore d slot die e.1 residue).cs die c = d.cs die c := by
      by_cases he : c = e.1
      · rw [← he, killCore_of_idle h]
      · exact killCore_cs_ne he ..
    rw [List.foldl_cons, ih _ (by rw [hstep, h]), hstep]

/-- Of several kills of one core only the first finds a command. -/
theorem foldl_killCore_cs {die c : Nat} {f : Flight} (slot : Nat) (residue : Bool) (l : List (Nat × Flight)) (d : Dev)
    (h : (d.cs die c).flight = some f) (hl : c ∈ l.map (·.1)) :
    (l.foldl (fun x e => killCore x slot die e.1 residue) d).cs die c = (d.cs die c).killed f residue := by
  induction l generalizing d with
  | nil => exact absurd hl nofun
  | cons e t ih =>
    rw [List.foldl_cons]
    by_cases he : c = e.1
    · rw [← he, foldl_killCore_cs_of_idle, killCore_cs_self h]
      rw [killCore_cs_self h]
      rfl
    · have hstep := killCore_cs_ne he slot die residue (d := d) (die := die)
      rw [ih _ (by rw [hstep, h]) ((List.mem_cons.1 hl).resolve_left he), hstep]

/-- What is listed under a key is a member of the list, unless it is the default. -/
theorem mem_of_look_ne {κ α : Type} [DecidableEq κ] {v : α} {m : List (κ × α)} {k : κ} (h : look v m k ≠ v) :
    (k, look v m k) ∈ m := by
  induction m with
  | nil => exact absurd rfl h
  | cons e t ih =>
    obtain ⟨j, w⟩ := e
    by_cases hk : j = k
    · simp [look, hk]
    · simp only [look, hk, if_false] at h ⊢
      exact List.mem_cons_of_mem _ (ih h)

theorem mem_collCores {d : Dev} {die c : Nat} {f : Flight} {cf : CollFlight} (hf : (d.cs die c).flight = some f)
    (hcf : f.coll = some cf) : c ∈ (collCores d die cf.id).map (·.1) := by
  have hmem : ((die, c), d.cs die c) ∈ d.cores := mem_of_look_ne fun h => by
    have : (d.cs die c).flight = none := congrArg CoreSt.flight h
    simp [this] at hf
  refine List.mem_map.2 ⟨(c, f), List.mem_filterMap.2 ⟨_, hmem, ?_⟩, rfl⟩
  simp [hf, hcf]

theorem sendNogo_cs (d : Dev) (p : Port) (die : Nat) (cf : CollFlight) (die' c : Nat) :
    (sendNogo d p die cf).cs die' c = d.cs die' c := by
  refine foldl_keeps (·.cs die' c) _ (fun _ _ => ?_) _ d
  rfl

theorem killMember_cs (d : Dev) (slot die id : Nat) (residue : Bool) (die' c : Nat) :
    (killMember d slot die id residue).cs die' c =
      ((collCores d die id).foldl (fun x e => killCore x slot die e.1 residue) d).cs die' c :=
  cs_of_standing (d := Dev.setColl _ _ _ _) (Dev.inc_standing ..) die' c

/-- A kill reaches a core whose command is of no collective, or of a member that has neither prepared nor decided its step. -/
theorem killAt_cs_self {d : Dev} {die c : Nat} {f : Flight} (hf : (d.cs die c).flight = some f)
    (hfree : ∀ cf, f.coll = some cf → (d.coll die cf.id).prepared = none ∧ cf.decided = false) (n slot : Nat) (residue : Bool) :
    (killAt d n slot die c residue).cs die c = (d.cs die c).killed f residue := by
  cases hcf : f.coll with
  | none =>
    simp only [killAt, hf, hcf]
    exact killCore_cs_self hf ..
  | some cf =>
    obtain ⟨hprepared, hdecided⟩ := hfree cf hcf
    simp only [killAt, hf, hcf, hprepared, hdecided, Option.isSome_none, Bool.or_false, Bool.false_eq_true, if_false]
    rw [sendNogo_cs, killMember_cs, foldl_killCore_cs slot residue _ d hf (mem_collCores hf hcf)]

/-- A kill that is not for residue counts as none (R385). -/
theorem killAt_resKills (d : Dev) (n slot die c : Nat) :
    ((killAt d n slot die c false).cs die c).resKills = (d.cs die c).resKills := by
  unfold killAt
  split
  · rfl
  · split
    · exact killCore_resKills ..
    · split
      · rfl
      · rw [sendNogo_cs, killMember_cs]
        exact foldl_keeps (fun x => (x.cs die c).resKills) _ (fun _ _ => killCore_resKills ..) _ d

end Sys2Proof.Machine
end

section
/-! What counters and links leave alone of what a residue check finds: memory, members, mismatches, fences, spares, and the core's
place and attempt. -/

namespace Sys2Proof.Machine
open Sys2Proof

/-! ## What stands while data leaves the core -/

/-- A LO/HI counter changes no other register behind the common header of a page (R431). -/
theorem Dev.inc64_rd_of_ne (d : Dev) {r q : Reg} (n : Nat) (hq : 0x40 ≤ q.off) (hlo : r ≠ q)
    (hhi : (⟨r.page, r.off + 4⟩ : Reg) ≠ q) :
    (d.inc64 r n).rd q = d.rd q := by
  simp only [Dev.inc64]
  split <;> simp only [irqRise_rd _ _ _ hq, Dev.rd_wr_ne _ _ hlo, Dev.rd_wr_ne _ _ hhi]

/-- What a residue check finds (R384, R385), of the device and of the core it looks at: memory, the members of collectives, the
mismatches and fences so far, the spares in service, and the core's place and attempt, but for what the links change. -/
def Dev.checked (d : Dev) (die c : Nat) : Mems × List ((Nat × Nat) × Coll) × List ((Nat × Nat × ResUnit) × Nat) ×
    List (Nat × Nat × Nat) × Nat × CoreSt :=
  (d.mem, d.colls, d.mismatch, d.fenced, d.rd (R.CORE_ME_SPARE die c), (d.cs die c).still)

theorem checked_eq_iff {d e : Dev} {die c : Nat} : e.checked die c = d.checked die c ↔ e.mem = d.mem ∧ e.colls = d.colls ∧
    e.mismatch = d.mismatch ∧ e.fenced = d.fenced ∧ e.rd (R.CORE_ME_SPARE die c) = d.rd (R.CORE_ME_SPARE die c) ∧
      (e.cs die c).still = (d.cs die c).still := by
  simp only [Dev.checked, Prod.mk.injEq]

theorem checked_of_standing {d e : Dev} {die c : Nat} (hmem : e.mem = d.mem) (hs : e.standing = d.standing)
    (hrd : e.rd (R.CORE_ME_SPARE die c) = d.rd (R.CORE_ME_SPARE die c)) : e.checked die c = d.checked die c :=
  checked_eq_iff.2 ⟨hmem, congrArg (·.2.1) hs, congrArg (·.2.2.1) hs, congrArg (·.2.2.2) hs, hrd,
    congrArg CoreSt.still (cs_of_standing hs die c)⟩

section
variable (die c : Nat)

@[simp] theorem setLink_checked (d : Dev) (k : Nat × Nat) (l : Link) : (d.setLink k l).checked die c = d.checked die c := rfl

theorem inc64_checked (d : Dev) {r : Reg} (n : Nat) (hlo : r ≠ R.CORE_ME_SPARE die c)
    (hhi : (⟨r.page, r.off + 4⟩ : Reg) ≠ R.CORE_ME_SPARE die c) : (d.inc64 r n).checked die c = d.checked die c :=
  checked_of_standing (Dev.inc64_mem ..) (Dev.inc64_standing ..) (d.inc64_rd_of_ne n (by simp [R.CORE_ME_SPARE]) hlo hhi)

@[simp] theorem keepSent_checked (d : Dev) (k : Nat × Nat) (f : Flit) : (keepSent d k f).checked die c = d.checked die c :=
  inc64_checked die c (d.setLink ..) 1 nofun nofun

@[simp] theorem crossControl_checked (d : Dev) (k : Nat × Nat) : (crossControl d k).checked die c = d.checked die c :=
  keepSent_checked ..

/-- A credit that comes back changes of a core only what the links change. -/
@[simp] theorem credited_checked (d : Dev) (f : Flit) : (credited d f).checked die c = d.checked die c := by
  have hcs : ((credited d f).cs die c).still = (d.cs die c).still := by
    simp only [credited]
    split
    · rfl
    next g hg =>
      rw [Dev.cs_setCs]
      split
      next hk =>
        obtain ⟨rfl, rfl⟩ := Prod.ext_iff.1 hk
        simp only [CoreSt.still, hg, Option.map_some]
        split <;> simp [Function.comp_def]
      next => rfl
  simp only [Dev.checked, hcs]
  simp only [credited]
  split <;> simp

@[simp] theorem returnCredits_checked (d : Dev) (k : Nat × Nat) : (returnCredits d k).checked die c = d.checked die c := by
  simp only [returnCredits]
  split
  · rfl
  · refine (foldl_keeps (Dev.checked · die c) _ (fun x f => ?_) _ _).trans (setLink_checked ..)
    split <;> simp

@[simp] theorem sendOne_checked (k : Nat × Nat) (d : Dev) (f : Flit) : (sendOne k d f).checked die c = d.checked die c := by
  simp only [sendOne]
  split <;> simp

@[simp] theorem pumpLink_checked (d : Dev) (k : Nat × Nat) : (pumpLink d k).checked die c = d.checked die c := by
  simp only [pumpLink]
  split
  · simp
  · rw [foldl_keeps (Dev.checked · die c) _ (sendOne_checked die c k)]
    simp

@[simp] theorem sendFlits_checked (d : Dev) (src dst : Nat) (fs : List Flit) :
    (sendFlits d src dst fs).checked die c = d.checked die c := by
  simp only [sendFlits]
  split
  · rfl
  · simp

theorem countOpens_checked (d : Dev) (ss : List Span) : (countOpens d ss).checked die c = d.checked die c :=
  checked_of_standing (countOpens_mem ..) (countOpens_standing ..) (countOpens_rd d ss (by simp [R.CORE_ME_SPARE]) nofun)

theorem busyCycles_checked (op : OpSpec) (f : Flight) (d : Dev) : (busyCycles op die c f d).checked die c = d.checked die c := by
  unfold busyCycles
  split
  · exact inc64_checked die c d _ (by simp [R.CORE_VE_BUSY_LO, R.CORE_ME_SPARE]) (by simp [R.CORE_VE_BUSY_LO, R.CORE_ME_SPARE])
  · rfl

theorem moveMarks_checked (slot x : Nat) (f : Flight) (d : Dev) : (moveMarks x slot f d).checked die c = d.checked die c := by
  unfold moveMarks
  split <;> rfl

end

/-- What one opcode sends as its work ends leaves a residue check what it finds. -/
def OpSpec.SendsKeepChecked (op : OpSpec) : Prop :=
  ∀ (x : Ctx) (f : Flight) (d : Dev), (d.cs x.die x.core).flight = some f →
    (op.sends x f d).checked x.die x.core = d.checked x.die x.core

theorem stepSends_checked (i : Nat) (x : Ctx) (f : Flight) (d : Dev) (hf : (d.cs x.die x.core).flight = some f) :
    (stepSends i x f d).checked x.die x.core = d.checked x.die x.core := by
  unfold stepSends
  split
  · rfl
  · dsimp only
    rw [sendFlits_checked]
    simp [Dev.checked, CoreSt.still, hf, Function.comp_def]

end Sys2Proof.Machine
end

section
/-! An attempt that waits for nothing: from the record at the boundary to the end of its work. -/

namespace Sys2Proof.Machine
open Sys2Proof

/-! ## From the issue of an attempt to its work -/

theorem workUnder_keepsCmd {u : Upset} {work : Eng Unit} (h : KeepsCmd work) : KeepsCmd (workUnder u work) := by
  refine .bind h fun _ => ?_
  split
  · exact stop_keepsCmd _
  · exact .pure _

/-- The context an opcode's work runs in, once its pages are pinned: what the attempt meets is there, and its tables are
named. -/
def workCtx (op : OpSpec) (h : Here) (die c : Nat) (u : Upset) (cmd : Cmd) (d : Dev) : Ctx :=
  let x : Ctx := ⟨applyUpset d die c u, h.n, h.job.slot, die, c, cmd⟩
  { x with dev := nameTables x.dev die h.job.slot (op.tables x) }

/-- The engine work of an attempt for its command, begun on d, ends without a fault as g. -/
def EndsAs (op : OpSpec) (h : Here) (die c : Nat) (u : Upset) (f : Flight) (d : Dev) (g : Flight) : Prop :=
  workUnder u (op.work (workCtx op h die c u f.cmd d)) (workFlight op h (workCtx op h die c u f.cmd d) f) = (.ok (), g)

theorem EndsAs.cmd_eq {op : OpSpec} {h : Here} {die c : Nat} {u : Upset} {f g : Flight} {d : Dev} (hends : EndsAs op h die c u f d g)
    (hwork : ∀ x, KeepsCmd (op.work x)) : g.cmd = f.cmd := by
  have hkeeps : KeepsCmd (workUnder u (op.work (workCtx op h die c u f.cmd d))) := workUnder_keepsCmd (hwork _)
  have hcmd := hkeeps.cmd (workFlight op h (workCtx op h die c u f.cmd d) f)
  unfold EndsAs at hends
  rwa [hends] at hcmd

/-- With its pages resident, the stack ready and its slots serving it, a command whose pages are pinned works. -/
theorem startPinned_of_ready {op : OpSpec} {h : Here} {die c : Nat} {f : Flight} {d : Dev} (u : Upset)
    (hmiss : (kvMissing d die f.pins).isEmpty = true) (hwaits : op.waits ⟨d, h.n, h.job.slot, die, c, f.cmd⟩ = false)
    (hserved : movesServed d die c f.order (op.moves ⟨d, h.n, h.job.slot, die, c, f.cmd⟩) = true) :
    startPinned op h die c u f d = runWork op h die c u f d := by
  simp only [startPinned, hmiss, hwaits, startMoves, hserved, Bool.not_false, Bool.and_self, if_true]

/-- The entries of a page list that no killed attempt has pinned for the core's command (R152). -/
def leftToPin (x : Ctx) (list : List Nat) : List Nat := list.filter (fun i => !(x.dev.cs x.die x.core).carried.contains i)

/-- An attempt whose pages are still to be pinned (R152). -/
def unpinned (x : Ctx) (list : List Nat) (u : Upset) (f : Flight) : Flight :=
  { f with pins := (x.dev.cs x.die x.core).carried, toPin := leftToPin x list, upset := u }

/-- A command with no page left to pin keeps the pins it has (R152). -/
theorem pinned_of_nothing_left {op : OpSpec} {x : Ctx} {list : List Nat} (f : Flight) (u : Upset) (hleft : leftToPin x list = []) :
    pinned op x f list u = (x.dev, unpinned x list u f) := by
  rw [unpinned, hleft]
  rw [leftToPin] at hleft
  simp only [pinned, hleft, List.eraseDups_nil, List.filter_nil, List.foldl_nil, List.any_nil, List.append_nil, Bool.or_false,
    Bool.false_and]

/-- One commit slot pins a list of at most 16 entries, none of them poisoned, and the command goes on (R152). -/
theorem pinSlot_of_short {op : OpSpec} {h : Here} {x : Ctx} {list : List Nat} (f : Flight) (u : Upset) (hslot : x.slot = h.job.slot)
    (hshort : (leftToPin x list).length ≤ 16)
    (hsound : (leftToPin x list).any (fun i => x.dev.kvtPoison.contains (x.die, i)) = false) :
    pinSlot op h x.die x.core u (unpinned x list u f) x.dev =
      startPinned op h x.die x.core u (pinned op x f list u).2 (pinned op x f list u).1 := by
  have hnew : ∀ p : Nat → Bool, ((leftToPin x list).eraseDups.filter p).any (fun i => x.dev.kvtPoison.contains (x.die, i)) = false := by
    intro p
    rw [List.any_eq_false] at hsound ⊢
    exact fun i hi => hsound i (List.mem_eraseDups.1 (List.mem_filter.1 hi).1)
  simp only [pinSlot, unpinned, List.take_of_length_le hshort, List.drop_of_length_le hshort, hnew, ← hslot,
    Bool.false_eq_true, if_false, List.isEmpty_nil, if_true]
  rfl

/-- An attempt that needs no wait begins its work at once: with no page to pin, or with all of them pinned by one commit slot. -/
theorem startWork_of_startOf {op : OpSpec} {h : Here} {die c : Nat} {u : Upset} {f g : Flight} {d e : Dev}
    (hs : startOf op h ⟨d, h.n, h.job.slot, die, c, f.cmd⟩ f u = some (e, g)) :
    ∃ f1, f1.cmd = f.cmd ∧ EndsAs op h die c u f1 e g ∧ startWork op h die c u f d = runWork op h die c u f1 e := by
  unfold startOf at hs
  extract_lets x list left r y m z at hs
  split at hs
  case isFalse => exact absurd hs nofun
  case isTrue hready =>
    simp only [Bool.and_eq_true, Bool.not_eq_true'] at hready
    obtain ⟨⟨⟨hpins, hmiss⟩, hwaits⟩, hserved⟩ := hready
    split at hs
    case h_2 => exact absurd hs nofun
    case h_1 hwork =>
      obtain ⟨rfl, rfl⟩ : y.dev = e ∧ _ = g := by simpa using hs
      refine ⟨r.2, rfl, hwork, ?_⟩
      have hrun : startPinned op h die c u r.2 y.dev = runWork op h die c u r.2 y.dev := startPinned_of_ready u hmiss hwaits hserved
      rw [← hrun]
      simp only [startWork]
      split
      case isTrue hnone =>
        have hr : r = _ := pinned_of_nothing_left f u (List.isEmpty_iff.1 hnone)
        rw [show y.dev = r.1 from rfl, hr]
        rfl
      case isFalse hsome =>
        obtain ⟨⟨hshort, howns⟩, hsound⟩ : (left.length ≤ 16 ∧ ownsSlot x.dev die h.job.slot c = true) ∧
            left.any (fun i => x.dev.kvtPoison.contains (die, i)) = false := by
          simpa [show left.isEmpty = false from Bool.not_eq_true _ ▸ hsome] using hpins
        rw [if_pos howns]
        exact pinSlot_of_short f u rfl hshort hsound

/-- A command that passed its decode checks, names only pages there are and acquires nothing starts its work, while its job
still runs once the tide has fired (R34, R41). -/
theorem issue_of_checked {op : OpSpec} {h : Here} {x : Ctx} (u : Upset) (hn : x.n = h.n) (hslot : x.slot = h.job.slot)
    (hdecode : decodeStop op x (tailAt x.dev h.p h.ps x.cmd.tailIndex) (tailOf x.dev h.p h.ps x.cmd) = none)
    (hpages : (op.pages x).all (fun v => decide (v < 0x8000) || decide (0xFFFF ≤ v)) = true)
    (hruns : ((begun op h x).1.port h.n).run = some h.job) (hacq : x.cmd.acq = false) :
    issue op h x.die x.core u x.cmd x.dev =
      firstIssue (startWork op h x.die x.core u (opened op h x (begun op h x)) (afterIssue h x (begun op h x).1)) h.n := by
  obtain ⟨d, n, slot, die, c, cmd⟩ := x
  subst hn hslot
  have hlist : ∀ l : List Nat, l.all (fun v => decide (v < 0x8000) || decide (0xFFFF ≤ v)) = true →
      l.any (fun v => decide (0x8000 ≤ v) && decide (v < 0xFFFF)) = false := by
    intro l hl
    simp only [List.all_eq_true, Bool.or_eq_true, decide_eq_true_eq] at hl
    simp only [List.any_eq_false, Bool.and_eq_true, decide_eq_true_eq]
    intro v hv
    have := hl v hv
    omega
  have hacq : cmd.acq = false := hacq
  simp only [issue, hdecode, hlist _ hpages, hruns, hacq, ne_eq, not_true, Bool.false_eq_true, if_false]

/-- The row of an attempt issues the command, and its work begins at once (R34, R41). -/
theorem issueRow_of_attemptOf {op : OpSpec} {d e : Dev} {k : CoreIx} {u : Upset} {h : Here} {g : Flight}
    (hw : attemptOf op d k u = some (h, e, g)) :
    ∃ f, EndsAs op h k.die.val k.core.val u f e g ∧ issueRow op k u d = firstIssue (runWork op h k.die.val k.core.val u f e) h.n := by
  unfold attemptOf at hw
  extract_lets die c at hw
  split at hw
  case h_1 => exact absurd hw nofun
  case h_2 h' hh =>
  split at hw
  case h_1 => exact absurd hw nofun
  case h_2 place hplace =>
  extract_lets cmd x b at hw
  split at hw
  case isFalse => exact absurd hw nofun
  case isTrue hchecks =>
  simp only [Bool.and_eq_true, Bool.not_eq_true', beq_iff_eq, Option.isNone_iff_eq_none] at hchecks
  obtain ⟨⟨⟨⟨⟨⟨⟨⟨⟨hmay, hsound⟩, hdef⟩, hop⟩, hmine⟩, hfree⟩, hacq⟩, hdecode⟩, hpages⟩, hruns⟩ := hchecks
  obtain ⟨⟨e', g'⟩, hstart, heq⟩ := Option.map_eq_some_iff.1 hw
  obtain ⟨rfl, rfl, rfl⟩ : h' = h ∧ e' = e ∧ g' = g := by simpa using heq
  obtain ⟨f, -, hends, hrun⟩ := startWork_of_startOf (f := opened op h' x b) hstart
  refine ⟨f, hends, ?_⟩
  rw [issueRow_issues op u hh hmay hplace hsound hdef hop hmine hfree, ← hrun]
  exact issue_of_checked u rfl rfl hdecode hpages hruns hacq

/-- A core whose command's work is done, its outputs and flags waiting for the commit (R41). -/
def CoreSt.workedAs (s : CoreSt) (g : Flight) : CoreSt := { s with flight := some g, carried := [], phase := .worked }

/-- An attempt whose work ends without a fault, as it waits for its commit. -/
def workDone (op : OpSpec) (h : Here) (die c : Nat) (u : Upset) (f : Flight) (d : Dev) (g : Flight) : Dev :=
  let x := workCtx op h die c u f.cmd d
  let d1 := (upsetAlarm (countOpens x.dev ((op.moves x).flatMap (·.spans) ++ op.opens x)) die u).setCs die c
    ((x.dev.cs die c).workedAs g)
  let d2 := moveMarks die h.job.slot g (busyCycles op die c g d1)
  op.sends { x with dev := d2 } g d2

/-- A unit that computes for an attempt finds a mismatch once the work is done (R384). -/
theorem runWork_of_residue {op : OpSpec} {h : Here} {die c : Nat} {unit : ResUnit} {f g : Flight} {d : Dev}
    (hends : EndsAs op h die c (.residue unit) f d g) :
    runWork op h die c (.residue unit) f d =
      if unitUsed (workDone op h die c (.residue unit) f d g) op f.cmd die c unit
      then residueHit (workDone op h die c (.residue unit) f d g) h die c (f.cmd.nk || op.alwaysNk) unit
      else workDone op h die c (.residue unit) f d g := by
  unfold EndsAs at hends
  unfold workCtx at hends
  simp only [runWork]
  split
  next heq => rw [hends] at heq; cases heq
  next heq => rw [hends] at heq; cases heq; rfl

end Sys2Proof.Machine
end

section
/-! Residue mismatches: the first one of a unit, for every killable row of a core's sequencer (R384, R385). -/

namespace Sys2Proof.Machine
open Sys2Proof

/-! ## The end of an attempt's work -/

@[simp] theorem moveMarks_standing (die slot : Nat) (f : Flight) (d : Dev) : (moveMarks die slot f d).standing = d.standing := by
  unfold moveMarks
  split <;> rfl

@[simp] theorem busyCycles_standing (op : OpSpec) (die c : Nat) (f : Flight) (d : Dev) :
    (busyCycles op die c f d).standing = d.standing := by
  simp [busyCycles]

theorem setCs_checked {d e : Dev} {die c : Nat} (h : e.checked die c = d.checked die c) (s : CoreSt) :
    (e.setCs die c s).checked die c = (d.setCs die c s).checked die c := by
  obtain ⟨hmem, hcolls, hmis, hfenced, hrd, -⟩ := checked_eq_iff.1 h
  exact checked_eq_iff.2 ⟨hmem, hcolls, hmis, hfenced, hrd, by rw [Dev.cs_setCs_self, Dev.cs_setCs_self]⟩

/-- What a residue check finds once an attempt's work is done: the device the work began on, the attempt as it ended. -/
theorem workDone_checked {op : OpSpec} (hs : op.SendsKeepChecked) (h : Here) (die c : Nat) (unit : ResUnit) (f : Flight)
    (d : Dev) (g : Flight) :
    (workDone op h die c (.residue unit) f d g).checked die c = (d.setCs die c ((d.cs die c).workedAs g)).checked die c := by
  unfold workDone
  extract_lets x d1 d2
  have hcs : d2.cs die c = d1.cs die c := cs_of_standing (by simp [d2]) die c
  have hflight : (d2.cs die c).flight = some g := by
    rw [hcs, Dev.cs_setCs_self]
    rfl
  refine (hs { x with dev := d2 } g d2 hflight).trans ?_
  refine (moveMarks_checked ..).trans ((busyCycles_checked ..).trans ?_)
  exact setCs_checked (countOpens_checked die c x.dev _) _

/-- Two cores that differ by what the links change only: the one's attempt is the other's. -/
theorem flight_of_still {s t : CoreSt} {g : Flight} (h : s.still = t.still) (hg : t.flight = some g) :
    ∃ g', s.flight = some g' ∧ g'.cmd = g.cmd ∧
      ∀ cf', g'.coll = some cf' → ∃ cf, g.coll = some cf ∧ cf.id = cf'.id ∧ cf.decided = cf'.decided := by
  have hflight : s.flight.map (fun q : Flight =>
      { q with unacked := 0, coll := q.coll.map (fun cf : CollFlight => { cf with unsent := 0 }) }) =
      some { g with unacked := 0, coll := g.coll.map (fun cf : CollFlight => { cf with unsent := 0 }) } := by
    simpa [hg, CoreSt.still] using congrArg CoreSt.flight h
  obtain ⟨g', hg', heq⟩ := Option.map_eq_some_iff.1 hflight
  refine ⟨g', hg', (congrArg Flight.cmd heq :), fun cf' hcf' => ?_⟩
  have hcoll : some ({ cf' with unsent := 0 } : CollFlight) = g.coll.map (fun cf : CollFlight => { cf with unsent := 0 }) := by
    simpa [hcf'] using congrArg Flight.coll heq
  obtain ⟨cf, hcf, hsame⟩ := Option.map_eq_some_iff.1 hcoll.symm
  exact ⟨cf, hcf, (congrArg CollFlight.id hsame :), (congrArg CollFlight.decided hsame :)⟩

theorem unitUsed_congr {d e : Dev} {die c : Nat} (hrd : e.rd (R.CORE_ME_SPARE die c) = d.rd (R.CORE_ME_SPARE die c))
    (hfenced : e.fenced = d.fenced) (op : OpSpec) (cmd : Cmd) (unit : ResUnit) :
    unitUsed e op cmd die c unit = unitUsed d op cmd die c unit := by
  have hin : ∀ phys, inService e die c phys = inService d die c phys := fun phys => by simp only [inService, hrd, hfenced]
  have hby : ∀ phys, servedBy e die c phys = servedBy d die c phys := fun phys => by simp only [servedBy, hrd]
  cases unit <;> simp only [unitUsed, hin, hby]

/-! ## A first mismatch (R384, R385) -/

/-- A mismatch is counted for its unit's kind, and the time of the unit's last one noted. -/
def mismatchNoted (d : Dev) (die c : Nat) (unit : ResUnit) : Dev :=
  let d0 := match unit with
    | .engine _ => d.inc (R.CORE_RES_ME_CNT die c) 1
    | .companion => d.inc (R.CORE_RES_CP_CNT die c) 1
    | .vector => d
  { d0 with mismatch := put d0.mismatch (die, c, unit) d0.time.elapsed }

theorem mismatchNoted_keeps (d : Dev) (die c : Nat) (unit : ResUnit) :
    SameMem d (mismatchNoted d die c unit) ∧ (mismatchNoted d die c unit).colls = d.colls ∧
      (mismatchNoted d die c unit).cs die c = d.cs die c := by
  have hinc : ∀ r, (d.inc r 1).colls = d.colls ∧ (d.inc r 1).cs die c = d.cs die c := fun r =>
    ⟨congrArg (·.2.1) (Dev.inc_standing d r 1), cs_of_standing (Dev.inc_standing d r 1) die c⟩
  cases unit with
  | engine => exact ⟨Dev.inc_mem .., hinc _⟩
  | companion => exact ⟨Dev.inc_mem .., hinc _⟩
  | vector => exact ⟨rfl, rfl, rfl⟩

/-- The first mismatch of a unit fences nothing: a killable command is killed, or faults when it has been killed three times. -/
theorem residueHit_of_first {d : Dev} {die c : Nat} {unit : ResUnit} (h : Here)
    (hfirst : d.mismatch.find? (fun e => decide (e.1 = (die, c, unit))) = none) :
    residueHit d h die c false unit =
      if 3 ≤ ((mismatchNoted d die c unit).cs die c).resKills
      then cmdStop (mismatchNoted d die c unit) h die c { code := 0x0403 }
      else killAt (mismatchNoted d die c unit) h.n h.job.slot die c true := by
  have hinc : ∀ r, (d.inc r 1).mismatch = d.mismatch := fun r => congrArg (·.2.2.1) (Dev.inc_standing d r 1)
  unfold residueHit
  extract_lets d0 last now second d1 m
  have hlast : last = none := by
    have hsame : d0.mismatch = d.mismatch := by
      cases unit
      · exact hinc _
      · exact hinc _
      · rfl
    simp only [last, hsame, hfirst, Option.map_none]
  have hm : m = (mismatchNoted d die c unit, true) := by simp only [m, second, hlast, Bool.false_eq_true, if_false] <;> rfl
  simp only [hm, Bool.not_true, Bool.false_eq_true, if_false]

/-! ## The opcodes a unit computes for -/

/-- What a residue check of an opcode's attempt can rely on: its commands are never killable, or no unit computes for them, or
its work is for the command it was issued for and what it sends leaves the check what it finds. -/
def OpSpec.Checkable (op : OpSpec) : Prop :=
  op.alwaysNk = true ∨ (∀ cmd, op.units cmd = (false, false, false)) ∨ ((∀ x, KeepsCmd (op.work x)) ∧ op.SendsKeepChecked)

theorem coreRows_checkable : ∀ r ∈ coreRows, r.1.Checkable := by
  have computes : ∀ op : OpSpec, (∀ x, KeepsCmd (op.work x)) → (op.sends = fun _ _ d => d) → op.Checkable :=
    fun op hwork hsends => .inr (.inr ⟨hwork, fun _ _ _ _ => by rw [hsends]⟩)
  have steps : ∀ (op : OpSpec) (i : Nat), (∀ x, KeepsCmd (op.work x)) → op.sends = stepSends i → op.Checkable :=
    fun op i hwork hsends => .inr (.inr ⟨hwork, fun x f d hf => by rw [hsends, stepSends_checked i x f d hf]⟩)
  have unitless : ∀ op : OpSpec, (∀ cmd, op.units cmd = (false, false, false)) → op.Checkable := fun _ h => .inr (.inl h)
  simp only [coreRows, List.forall_mem_cons]
  exact ⟨unitless _ fun _ => rfl, unitless _ fun _ => rfl, unitless _ fun _ => rfl, unitless _ fun _ => rfl,
    computes opMm mmWork_keepsCmd rfl, computes opVeEw ewWork_keepsCmd rfl, computes opVeRed redWork_keepsCmd rfl,
    computes opVeNorm normWork_keepsCmd rfl, computes opVeSoftmax softmaxWork_keepsCmd rfl,
    computes opVeCombine combineWork_keepsCmd rfl, computes opVeQuant quantWork_keepsCmd rfl,
    computes opVeQuantEf quantEfWork_keepsCmd rfl, computes opVeDwconv dwWork_keepsCmd rfl, computes opVeSfu sfuWork_keepsCmd rfl,
    computes opVeSfuLoad sfuLoadWork_keepsCmd rfl, computes opAttPart attWork_keepsCmd rfl, unitless _ fun _ => rfl,
    computes opKvWrite kwWork_keepsCmd rfl, unitless _ fun _ => rfl, computes opConv convWork_keepsCmd rfl,
    unitless _ fun _ => rfl, unitless _ fun _ => rfl, unitless _ fun _ => rfl,
    computes opBwMm bwMmWork_keepsCmd rfl, computes opBwAdapt adaptWork_keepsCmd rfl, computes opBwAtt bwAttWork_keepsCmd rfl,
    computes opBwNorm bwNormWork_keepsCmd rfl, computes opBwSoftmax bwSoftmaxWork_keepsCmd rfl,
    unitless _ fun _ => rfl, unitless _ fun _ => rfl, .inl rfl,
    unitless _ fun _ => rfl, unitless _ fun _ => rfl, unitless _ fun _ => rfl, unitless _ fun _ => rfl, unitless _ fun _ => rfl,
    steps opClRs 2 rsWork_keepsCmd rfl, unitless _ fun _ => rfl, steps opMmRs 2 mmRsWork_keepsCmd rfl,
    steps opAgMm 1 agMmWork_keepsCmd rfl, nofun⟩

theorem unitUsed_of_unitless {op : OpSpec} (h : ∀ cmd, op.units cmd = (false, false, false)) (d : Dev) (cmd : Cmd) (die c : Nat)
    (unit : ResUnit) : unitUsed d op cmd die c unit = false := by
  cases unit <;> simp [unitUsed, h]

/-! ## A first mismatch of a unit that computes for a killable command -/

/-- The device on which a residue mismatch strikes an attempt, as the check finds it: memory and members as its work found them,
and its core at the command, the work done, as often killed before. -/
structure Struck (d d1 : Dev) (die c : Nat) (f : Flight) : Prop where
  mem : SameMem d d1
  colls : d1.colls = d.colls
  kills : (d1.cs die c).resKills = (d.cs die c).resKills
  place : (d1.cs die c).idx = (d.cs die c).idx
  flight : ∃ g, (d1.cs die c).flight = some g ∧ g.cmd = f.cmd ∧
    ∀ cf', g.coll = some cf' → ∃ cf, f.coll = some cf ∧ cf.id = cf'.id ∧ cf.decided = cf'.decided

theorem issueRow_of_first_mismatch {op : OpSpec} (hop : op.Checkable) (hnk : op.alwaysNk = false) {k : CoreIx} {unit : ResUnit}
    {d0 d : Dev} {h : Here} {f : Flight} (hw : attemptOf op d0 k (.residue unit) = some (h, d, f)) (hkillable : f.cmd.nk = false)
    (hused : unitUsed d op f.cmd k.die.val k.core.val unit = true)
    (hfirst : d.mismatch.find? (fun e => decide (e.1 = (k.die.val, k.core.val, unit))) = none) :
    ∃ d1, Struck d d1 k.die.val k.core.val f ∧ issueRow op k (.residue unit) d0 = firstIssue
      (if 3 ≤ (d1.cs k.die.val k.core.val).resKills then cmdStop d1 h k.die.val k.core.val { code := 0x0403 }
        else killAt d1 h.n h.job.slot k.die.val k.core.val true) h.n := by
  obtain ⟨hwork, hsends⟩ : (∀ x, KeepsCmd (op.work x)) ∧ op.SendsKeepChecked := by
    rcases hop with halways | hunitless | hcheck
    · rw [hnk] at halways; cases halways
    · rw [unitUsed_of_unitless hunitless] at hused; cases hused
    · exact hcheck
  obtain ⟨f0, hends, hrow⟩ := issueRow_of_attemptOf hw
  rw [hrow, runWork_of_residue hends, ← hends.cmd_eq hwork]
  have hcheck := workDone_checked hsends h k.die.val k.core.val unit f0 d f
  generalize workDone op h k.die.val k.core.val (.residue unit) f0 d f = d2 at hcheck ⊢
  obtain ⟨hmem, hcolls, hmis, hfenced, hrd, hstill⟩ := checked_eq_iff.1 hcheck
  rw [Dev.cs_setCs_self] at hstill
  obtain ⟨hmem1, hcolls1, hcs1⟩ := mismatchNoted_keeps d2 k.die.val k.core.val unit
  rw [unitUsed_congr (d := d) hrd hfenced, hused, hkillable, hnk, if_pos rfl, Bool.or_false, residueHit_of_first h (hmis ▸ hfirst)]
  refine ⟨mismatchNoted d2 k.die.val k.core.val unit, ⟨hmem1.trans hmem, hcolls1.trans hcolls, ?_, ?_, ?_⟩, rfl⟩
  · rw [hcs1]; exact (congrArg CoreSt.resKills hstill :)
  · rw [hcs1]; exact (congrArg CoreSt.idx hstill :)
  · rw [hcs1]; exact flight_of_still hstill rfl

/-- Settles O60: the check finds the attempt as its work left it, for the work keeps to its command and what leaves the core
changes neither the core's count of kills nor its member's step; killed, the core stands at its boundary with one kill more. -/
theorem fourthResidueKillFaults : Obligations.FourthResidueKillFaults := by
  unfold Obligations.FourthResidueKillFaults
  refine ⟨?_, killAt_resKills⟩
  intro op mk hrow hnk k unit s h d f die c hw hkillable hused hfirst
  obtain ⟨d1, ⟨hmem, hcolls, hkills, hplace, g, hg, hcmd, hcoll⟩, hissue⟩ :=
    issueRow_of_first_mismatch (coreRows_checkable _ hrow) hnk hw hkillable hused hfirst
  have hexec := coreRows_run_issueRow _ hrow k (.residue unit) s
  rw [hissue, hkills] at hexec
  refine ⟨fun hfew hfree => ⟨_, hexec, ?_⟩, fun hmany => ⟨d1, hmem, by rw [hg, Option.map_some, hcmd], ?_⟩⟩
  · have hfree1 : ∀ cf, g.coll = some cf → (d1.coll die cf.id).prepared = none ∧ cf.decided = false := by
      intro cf' hcf'
      obtain ⟨cf, hcf, hid, hdecided⟩ := hcoll cf' hcf'
      have hmember : d1.coll die cf'.id = d.coll die cf.id := by rw [hid]; exact congrArg (fun m => look {} m (die, cf'.id)) hcolls
      rw [hmember, ← hdecided]
      exact hfree cf hcf
    have hcs : (firstIssue (killAt d1 h.n h.job.slot die c true) h.n).cs die c = (d1.cs die c).killed g true :=
      (cs_of_standing (firstIssue_standing ..) die c).trans (killAt_cs_self hg hfree1 ..)
    rw [if_neg (Nat.not_le.2 hfew)]
    exact ⟨congrArg CoreSt.phase hcs, congrArg CoreSt.rerun hcs, (congrArg CoreSt.idx hcs).trans hplace,
      congrArg CoreSt.flight hcs, (congrArg CoreSt.resKills hcs).trans (congrArg (· + 1) hkills)⟩
  · rw [hexec, if_pos hmany]

end Sys2Proof.Machine
end

section
/-! The management path reads every page, and its writes alone reach the global ones (R422). -/

namespace Sys2Proof.Machine
open Sys2Proof

/-! ## Writes of the management path outside the global pages -/

/-- The management path's write of a host's or a die's register changes nothing, whichever bytes it enables. -/
theorem writeAt_mp_of_not_isGlobal {a : Nat} {r : Reg} (hr : regAt a = some r) (h : isGlobal r.page = false) (v be : Nat)
    (d : Dev) : writeAt .mp a v be d = d := by
  rw [writeAt]
  split
  · rfl
  · simp [hr, reach, canWrite, h]

theorem idles_mpWrite_of_not_isGlobal {a : Nat} {r : Reg} (hr : regAt a = some r) (h : isGlobal r.page = false) (v : Nat)
    (be : Fin 16) (s : State) : Idles (.registerWrite .mp a v be) s := by
  rw [Idles, exec_registerWrite, writeAt_mp_of_not_isGlobal hr h]

/-- The message that writes a host's or a die's register is answered with status 1 and does nothing else. -/
theorem mgmtWrite_of_not_isGlobal {a : Nat} {r : Reg} {d : Dev} (hstarted : 3 ≤ bootStep d) (hnormal : bootStep d ≠ 15)
    (hr : regAt a = some r) (h : isGlobal r.page = false) (v : Nat) : mgmtWrite (.reg a) v d = d.emit (.mgmt 2 1 a v) := by
  have hpowered : bootStep d ≠ 0 := by omega
  simp [mgmtWrite, hpowered, mgmtBusy_eq_false hstarted hnormal, pageAt_of_regAt hr, canWrite, h,
    writeAt_mp_of_not_isGlobal hr h]

/-! ## The rows each host may take (PART_ALLOW) -/

theorem regAt_PART_ALLOW : regAt 0x4048 = some R.PART_ALLOW := by decide

theorem writeReg_PART_ALLOW (who : Requester) (v : Nat) (d : Dev) :
    writeReg who R.PART_ALLOW v d = d.wr R.PART_ALLOW (v % 65536) := (rfl)

/-- The device once PART_ALLOW is written: its sixteen bits stored, every other register as before. -/
theorem writeReg_PART_ALLOW_stores (v : Nat) (d : Dev) :
    let e := writeReg .mp R.PART_ALLOW (v % 2 ^ 32) d
    e.rd R.PART_ALLOW = v % 65536 ∧ RegsBut d e (· = R.PART_ALLOW) := by
  simp only [writeReg_PART_ALLOW, Dev.rd_wr_self]
  exact ⟨by omega, regsBut_wr _ _ _⟩

/-- Settles O54: a write arrives where its requester may write, which for the management path is the global pages and for a host
every page it reads but those; PART_ALLOW, in a global page, shows one that arrives. -/
theorem onlyTheMpWritesGlobalPages : Obligations.OnlyTheMpWritesGlobalPages := by
  unfold Obligations.OnlyTheMpWritesGlobalPages
  intro addr v s g hreg d
  refine ⟨rfl, fun n be hglobal => ?_, fun be hlocal => ?_, fun hstarted hnormal hlocal => ?_, fun haddr => ?_⟩
  · exact idles_hostWrite_of_isGlobal hreg hglobal n v be s
  · exact idles_mpWrite_of_not_isGlobal hreg hlocal v be s
  · rw [exec_mgmtRegWrite, mgmtWrite_of_not_isGlobal hstarted hnormal hreg hlocal]
  · subst haddr
    exact ends_mpWrite_of_isGlobal rfl regAt_PART_ALLOW rfl (writeReg_PART_ALLOW_stores v d)

end Sys2Proof.Machine
end
